-- ==== Sys2Proof/Word.lean ====
section
/-! DEFINITION. The words of the BG2400 and the fixed-length table that holds one thing for each tenant, requester, pool-side tag, pair or classifier entry. -/

namespace Sys2Proof

/-- One byte, as it crosses a fabric link or the management bus. -/
abbrev Byte := BitVec 8

/-- An arrival stamp: a 32-bit serial number (R29, R30). -/
abbrev Stamp := BitVec 32

/-- A tenant number T0 to T23. -/
abbrev TenantId := Fin 24

/-- A requester number Q0 to Q63, kept as its six bits because the Classifier masks it (R12). -/
abbrev RequesterId := BitVec 6

/-- A pair index P0 to P7. -/
abbrev PairId := Fin 8

/-- A classifier entry index E0 to E63. -/
abbrev EntryId := Fin 64

/-- A 48-bit pool address (R4). -/
abbrev Address := BitVec 48

/-- A table of exactly `n` things, one for each index below `n`. -/
structure Table (α : Type) (n : Nat) where
  toList : List α
  size : toList.length = n
  deriving DecidableEq, Repr

/-- The thing at index `i`. -/
def Table.get (t : Table α n) (i : Fin n) : α :=
  t.toList[i.val]'(by rw [t.size]; exact i.isLt)

/-- The table with the thing at index `i` replaced. -/
def Table.set (t : Table α n) (i : Fin n) (a : α) : Table α n :=
  ⟨t.toList.set i.val a, by rw [List.length_set, t.size]⟩

/-- The table with the thing at index `i` changed by `f`. -/
def Table.modify (t : Table α n) (i : Fin n) (f : α → α) : Table α n :=
  t.set i (f (t.get i))

/-- The table that holds the same thing at every index. -/
def Table.fill (n : Nat) (a : α) : Table α n :=
  ⟨List.replicate n a, List.length_replicate⟩

/-- The table with every thing changed by `f`. -/
def Table.map (f : α → β) (t : Table α n) : Table β n :=
  ⟨t.toList.map f, by rw [List.length_map, t.size]⟩

/-- The table whose thing at index `i` is `f i`. -/
def Table.build (f : Fin n → α) : Table α n :=
  ⟨(List.finRange n).map f, by rw [List.length_map, List.length_finRange]⟩

/-- The sum of `f` over a list: the Σ of the manual. -/
def sumOver (l : List α) (f : α → Nat) : Nat := l.foldr (fun a n => f a + n) 0

/-- Σ over all 24 tenants (Conventions). -/
def sumTenants (f : TenantId → Nat) : Nat := sumOver (List.finRange 24) f

/-- ceil(a / b), as the Conventions write it. -/
def ceilDiv (a b : Nat) : Nat := (a + (b - 1)) / b

end Sys2Proof
end

