-- ==== Sys2Proof/Syntax.lean ====
section
/-! DEFINITION. The commands of the BG2400: one constructor of Instr for each row of spec/opcode_table.json, with the values the event carries from outside the part. -/

namespace Sys2Proof

/-- The three kinds of request (R4). -/
inductive Kind where
  | read | write | flush
  deriving DecidableEq, Repr

/-- What a request carries beside its requester and tag (R4). A WRITE's length is the number of its payload bytes; a FLUSH carries neither address nor length. -/
inductive RequestBody where
  | read (address : Address) (length : Nat)
  | write (address : Address) (payload : List Byte)
  | flush
  deriving DecidableEq, Repr

/-- The three kinds of pool response (R10). -/
inductive ResponseKind where
  | readData | writeAck | flushAck
  deriving DecidableEq, Repr

/-- The status a pool response carries (R10). -/
inductive PoolStatus where
  | good | mediaFault
  deriving DecidableEq, Repr

/-- The strap levels on ADDR[1:0], DIV[2:0] and START (R150). -/
structure Straps where
  addr : BitVec 2
  div : BitVec 3
  start : Bool
  deriving DecidableEq, Repr

/-- The two fabric ports, for the link reset counts (R155). -/
inductive FabricPort where
  | switch | pool
  deriving DecidableEq, Repr

/-- The two global counters (R159). -/
inductive GlobalCounter where
  | stray | staleFrames
  deriving DecidableEq, Repr

/-- One write to a classifier entry: the byte or the multi-byte field that takes effect (R17, R169, R174). -/
inductive ClassifierWrite where
  | flags (value : Byte)
  | requesterValue (value : Byte)
  | requesterMask (value : Byte)
  | priority (value : Byte)
  | tenant (value : Byte)
  | windowBase (value : Address)
  | windowLimit (value : Address)
  deriving DecidableEq, Repr

/-- One write to a pair entry (R135, R174). -/
inductive PairWrite where
  | flags (value : Byte)
  | primary (value : Byte)
  | secondary (value : Byte)
  | guard (value : Byte)
  deriving DecidableEq, Repr

/-- The direction bit of an I2C address byte: 0 is a write transfer, 1 a read transfer (R167). -/
inductive Direction where
  | write | read
  deriving DecidableEq, Repr

/-- The commands: the events that reach the part from outside, and its own internal events, one constructor per row of the table. -/
inductive Instr where
  /-- ARRIVAL: a request taken whole at the Switch Port (R4, R5, R27). -/
  | arrival (requester : RequesterId) (tag : Byte) (body : RequestBody)
  /-- GRANT: the Release Arbiter's grant event (R82). -/
  | grant
  /-- END_OF_SEND: the last byte of the released transaction is handed to the Pool Port link (R82). -/
  | endOfSend
  /-- POOL_RESPONSE: a response taken at the Pool Port, with its pool-side tag (R10). -/
  | poolResponse (tag : Byte) (kind : ResponseKind) (status : PoolStatus) (data : List Byte)
  /-- FRAME_BOUNDARY (R42). -/
  | frameBoundary
  /-- EXPIRY of the entry under a pool-side tag (R101). -/
  | expiry (tag : Byte)
  /-- FENCE of a tenant (R128). -/
  | fence (tenant : TenantId)
  /-- DRAIN_COMPLETION of a tenant (R125). -/
  | drainCompletion (tenant : TenantId)
  /-- SETTLING of a pair (R138). -/
  | settling (pair : PairId)
  /-- PRESSURE_FALL (R166). -/
  | pressureFall
  /-- LEND_POINT (R77). -/
  | lendPoint
  /-- SOLVE_COMPLETION (R58). -/
  | solveCompletion
  /-- SWITCH_PORT_LINK_RESET (R2). -/
  | switchPortLinkReset
  /-- SWITCH_PORT_LINK_UP (R1). -/
  | switchPortLinkUp
  /-- POOL_PORT_LINK_LOSS (R3). -/
  | poolPortLinkLoss
  /-- POOL_PORT_LINK_UP (R3). -/
  | poolPortLinkUp
  /-- POWER_ON_RESET: a supply out of range (R151). -/
  | powerOnReset
  /-- POWER_ON_RELEASE, with the strap levels at the release (R150, R151). -/
  | powerOnRelease (straps : Straps)
  /-- PIN_RESET: RST_N low for 100 ns or more (R152). -/
  | pinReset
  /-- PIN_RESET_RELEASE (R152). -/
  | pinResetRelease
  /-- HALT_REQ_RISING (R141). -/
  | haltReqRising
  /-- HALT_REQ_FALLING (R143). -/
  | haltReqFalling
  /-- START with the argument standing in CMD_ARG (R118, R173). -/
  | start (arg : Byte)
  /-- QUIESCE (R119). -/
  | quiesce (arg : Byte)
  /-- STOP (R120). -/
  | stop (arg : Byte)
  /-- RESUME (R121). -/
  | resume (arg : Byte)
  /-- CLEAR (R122). -/
  | clear (arg : Byte)
  /-- TENANT_RESET (R123). -/
  | tenantReset (arg : Byte)
  /-- PAIR_SWAP (R137). -/
  | pairSwap (arg : Byte)
  /-- MODE_SET (R147). -/
  | modeSet (arg : Byte)
  /-- RUNTIME_RESET; its argument is ignored (R153). -/
  | runtimeReset
  /-- UNKNOWN_COMMAND: a CMD code that names no command (R173). -/
  | unknownCommand (code : Byte)
  /-- POINTER_BYTE: the first byte after the address of a write transfer (R168). -/
  | pointerByte (value : Byte)
  /-- MANAGEMENT_WRITE: a data byte written at the pointer (R167, R169). -/
  | managementWrite (value : Byte)
  /-- READ_SNAPSHOT: a read of a multi-byte field's lowest byte at the pointer; `acknowledged` is the controller's acknowledgement of the byte (R170). -/
  | readSnapshot (acknowledged : Bool)
  /-- PAGE_WRITE (R171). -/
  | pageWrite (value : Byte)
  /-- INDEX_WRITE (R171). -/
  | indexWrite (value : Byte)
  /-- STATUS_CLEAR: a write to STATUS (R172). -/
  | statusClear (value : Byte)
  /-- ALERT_FLAG_CLEAR: a write to the alert flags register (R164). -/
  | alertFlagClear (value : Byte)
  /-- ALERT_ENABLES_WRITE (R164). -/
  | alertEnablesWrite (value : Byte)
  /-- LINK_RESET_COUNT_CLEAR (R155). -/
  | linkResetCountClear (port : FabricPort) (value : BitVec 16)
  /-- GLOBAL_COUNTER_CLEAR (R159). -/
  | globalCounterClear (counter : GlobalCounter) (value : BitVec 32)
  /-- MAXIMUM_HEAD_AGE_READ of a tenant (R158). -/
  | maximumHeadAgeRead (tenant : TenantId)
  /-- FP_WRITE (R41). -/
  | fpWrite (value : BitVec 16)
  /-- CAP_WRITE (R45). -/
  | capWrite (value : BitVec 16)
  /-- WF_WRITE (R20). -/
  | wfWrite (value : Byte)
  /-- LP_WRITE (R43). -/
  | lpWrite (value : Byte)
  /-- CTO_WRITE (R99). -/
  | ctoWrite (value : BitVec 16)
  /-- DEFAULT_TENANT_WRITE (R14). -/
  | defaultTenantWrite (value : Byte)
  /-- FLOOR_WRITE (R47). -/
  | floorWrite (tenant : TenantId) (value : BitVec 16)
  /-- QLIM_WRITE (R23). -/
  | qlimWrite (tenant : TenantId) (value : BitVec 16)
  /-- QRES_WRITE (R23). -/
  | qresWrite (tenant : TenantId) (value : BitVec 16)
  /-- HALTABLE_WRITE: the attribute set or cleared, the other attributes written as they stand (R143). -/
  | haltableWrite (tenant : TenantId) (value : Bool)
  /-- CLASSIFIER_ENTRY_WRITE (R17). -/
  | classifierEntryWrite (entry : EntryId) (write : ClassifierWrite)
  /-- PAIR_ENTRY_WRITE (R135). -/
  | pairEntryWrite (pair : PairId) (write : PairWrite)
  /-- I2C_START_CONDITION: a START or repeated START, with the address byte that follows it (R167). -/
  | i2cStartCondition (target : BitVec 7) (direction : Direction)
  /-- I2C_STOP_CONDITION (R167). -/
  | i2cStopCondition
  /-- DATA_BYTE_READ: a byte sent in a read transfer, with the controller's acknowledgement (R167). -/
  | dataByteRead (acknowledged : Bool)
  deriving DecidableEq, Repr

end Sys2Proof
end

