-- ==== Sys2Proof/Decode.lean ====
section
/-! DEFINITION. The commands that words spell. The part decodes no instruction word: every row of spec/opcode_table.json is an event, and none gives bits. -/

namespace Sys2Proof

/-- The command that a word of the table's bits spells: none, since no row of the table has bits. -/
def decodeTableWord (_nbits _w : Nat) : Option Instr := none

end Sys2Proof
end

