-- ==== Sys2Proof/Config.lean ====
section
/-! DEFINITION. The fixed numbers of the BG2400 (00_scope.md, Fixed numbers). The manual leaves no implementation constant and no result value open, so nothing here is a free value. -/

namespace Sys2Proof.Config

/-- Block size in bytes. -/
abbrev blockBytes : Nat := 64
/-- Descriptors in the Descriptor Pool. -/
abbrev descriptors : Nat := 1024
/-- Blocks in the Payload Store. -/
abbrev storeBlocks : Nat := 4096
/-- Greatest request length in bytes. -/
abbrev maxLength : Nat := 4096
/-- Greatest number of blocks per frame: capacity, credit, demand, spare. -/
abbrev maxBlocks : Nat := 16383
/-- Where spent and released this frame saturate (R66). -/
abbrev maxSpent : Nat := 1048575
/-- Where descriptor ages, strike counts and maximum head ages saturate. -/
abbrev maxAge : Nat := 255
/-- Where the drain clock and the link reset counts saturate. -/
abbrev max16 : Nat := 65535
/-- Records the Frame Record Ring holds at most (R161). -/
abbrev ringRecords : Nat := 32
/-- The target address at ADDR code 0 (R167). -/
abbrev managementBase : Nat := 0x58

end Sys2Proof.Config
end

