-- ==== Sys2Proof/Machine/State.lean ====
section
/-! DEFINITION. The state of the BG2400, block by block as the block diagram of 00_scope.md lists it, the reasons a step can stop, and the state at power-on and right after reset. -/

namespace Sys2Proof.Machine

/-! ### Links (R1, R3, R155) -/

/-- The two link states and the two link reset counts. -/
structure Links where
  switchUp : Bool
  poolUp : Bool
  switchResets : Nat
  poolLosses : Nat
  deriving DecidableEq, Repr

/-! ### Classifier (R11, R14) -/

/-- Which request kinds a classifier entry describes (R11). -/
inductive KindFilter where
  | all | reads | writes
  deriving DecidableEq, Repr

/-- One Classifier Table entry (R11). -/
structure ClassifierEntry where
  valid : Bool
  value : RequesterId
  mask : RequesterId
  filter : KindFilter
  window : Bool
  base : Address
  limit : Address
  priority : BitVec 4
  tenant : TenantId
  deriving DecidableEq, Repr

/-- The Classifier Table and the default tenant. -/
structure Classifier where
  entries : Table ClassifierEntry 64
  defaultTenant : TenantId
  deriving DecidableEq, Repr

/-! ### Admission Unit, Descriptor Pool, Payload Store, Tenant Queues -/

/-- A descriptor in use (R21). `address` and `length` are absent for a FLUSH, `blocks` is empty but for a WRITE. -/
structure Descriptor where
  tenant : TenantId
  requester : RequesterId
  tag : Byte
  kind : Kind
  address : Option Address
  length : Option Nat
  charge : Nat
  stamp : Stamp
  age : Nat
  parked : Bool
  blocks : List Nat
  deriving DecidableEq, Repr

/-- A tenant's RQ and WQ, each oldest first (R32), and its retry mark (R38). -/
structure TenantQueues where
  rq : List Descriptor
  wq : List Descriptor
  retryMark : Bool
  deriving DecidableEq, Repr

/-- The admission state. `store` lists the Payload Store blocks in use by rising block number, each with its bytes; a block not listed is free (R26). -/
structure Admission where
  writeFactor : Nat
  nextStamp : Stamp
  queues : Table TenantQueues 24
  store : List (Nat × List Byte)
  deriving DecidableEq, Repr

/-! ### Frame Timer (R41 to R45) -/

/-- The stored FP, LP and CAP, the length and lend offset in force for the current frame, the frame number, and the phase in sixteenths of a 0.25 µs unit (notes/assumptions/3.md). `startDue`: a start boundary has been raised and not yet been taken (R44, R153). -/
structure FrameTimer where
  fp : Nat
  lp : Nat
  cap : Nat
  frameLength : Nat
  frameLend : Nat
  number : BitVec 16
  phase : Nat
  startDue : Bool
  deriving DecidableEq, Repr

/-! ### Share Solver (R48, R51, R58) -/

/-- What the snapshot holds for one tenant (R48). -/
structure SnapshotTenant where
  weight : Nat
  floor : Nat
  ceil : Nat
  demoted : Bool
  eligible : Bool
  demand : Nat
  deriving DecidableEq, Repr

/-- The snapshot (R48). -/
structure Snapshot where
  effCap : Nat
  tenants : Table SnapshotTenant 24
  deriving DecidableEq, Repr

/-- The last completed result with the figures stored for the Frame Record (R51, R58). -/
structure SolveResult where
  allotments : Table Nat 24
  demands : Table Nat 24
  level : Nat
  spare : Nat
  valid : Bool
  effCap : Nat
  guaranteed : Nat
  residual : Nat
  sumDemand : Nat
  sumHeadroom : Nat
  eligibleCount : Nat
  frame : BitVec 16
  deriving DecidableEq, Repr

/-- The Share Solver: IDLE or SOLVING, the snapshot, the last completed result and the new-result mark (R51). -/
structure Solver where
  solving : Bool
  snapshot : Snapshot
  result : SolveResult
  newResult : Bool
  deriving DecidableEq, Repr

/-! ### Credit Table and Release Arbiter (R66, R70, R82, R85) -/

/-- The frame settings latched at the last boundary (R70). -/
structure FrameSettings where
  lend : Bool
  borrow : Bool
  exempt : Bool
  ageb : Nat
  drawCeiling : Nat
  deriving DecidableEq, Repr

/-- The Credit Table's entry for one tenant (R66). -/
structure CreditEntry where
  credit : Int
  spent : Nat
  releasedNow : Nat
  releasedPrevious : Nat
  settings : FrameSettings
  deriving DecidableEq, Repr

/-- The Credit Table. -/
structure CreditTable where
  tenants : Table CreditEntry 24
  spare : Nat
  deriving DecidableEq, Repr

/-- The released transaction that the Pool Port is sending: what leaves the part, with the payload blocks still held for a WRITE (R9, R34, R82). -/
structure Transaction where
  kind : Kind
  requester : RequesterId
  poolTag : Byte
  address : Option Address
  length : Option Nat
  blocks : List Nat
  deriving DecidableEq, Repr

/-- The Release Arbiter: its two round-robin pointers (R85) and the release slot, free when `slot` is none (R82). -/
structure Arbiter where
  ownPointer : TenantId
  borrowPointer : TenantId
  slot : Option Transaction
  deriving DecidableEq, Repr

/-! ### Return Path and Requester Table (R92, R99, R103) -/

/-- An Outstanding Table entry in use (R92). -/
structure OutstandingEntry where
  tenant : TenantId
  requester : RequesterId
  tag : Byte
  kind : Kind
  stamp : Stamp
  age : Nat
  orphan : Bool
  deriving DecidableEq, Repr

/-- CTO as stored, CTO as the last frame boundary applied it (R99: a stored CTO applies from the next boundary), the Outstanding Table by pool-side tag, and the write order list of each requester, oldest first. -/
structure ReturnPath where
  cto : Nat
  ctoInForce : Nat
  entries : Table (Option OutstandingEntry) 256
  orderLists : Table (List Stamp) 64
  deriving DecidableEq, Repr

/-! ### Tenant Control (R111, R112, R115, R126) -/

/-- The five attributes (R112). -/
structure Attributes where
  lend : Bool
  borrow : Bool
  haltable : Bool
  exempt : Bool
  demotable : Bool
  deriving DecidableEq, Repr

/-- A tenant's life-cycle state (R115, R116). -/
inductive TenantState where
  | off | active | draining | quiesced | fenced
  deriving DecidableEq, Repr

/-- A tenant's drain target (R115). -/
inductive DrainTarget where
  | none | quiesced | off
  deriving DecidableEq, Repr

/-- A Tenant Record with its drain pause mark (R126). `fenceDue` is the model's own: a boundary has just advanced the drain clock to at least a DRAINB that is not 0, and the fence of R128 has not been made yet. -/
structure TenantRecord where
  weight : Nat
  floor : Nat
  ceil : Nat
  ageb : Nat
  drainb : Nat
  strikeTh : Nat
  attrs : Attributes
  qlim : Nat
  qres : Nat
  state : TenantState
  target : DrainTarget
  drainMark : Stamp
  drainClock : Nat
  strikes : Nat
  demoted : Bool
  pauseMark : Bool
  fenceDue : Bool
  deriving DecidableEq, Repr

/-! ### Pair and Halt Unit (R134, R141) -/

/-- The active member of a pair (R134). -/
inductive Member where
  | primary | secondary
  deriving DecidableEq, Repr

/-- One Pair Table entry; `inGuard` is the state GUARD, its absence SETTLED (R134). -/
structure PairEntry where
  valid : Bool
  primary : TenantId
  secondary : TenantId
  active : Member
  guard : Nat
  inGuard : Bool
  counter : Nat
  deriving DecidableEq, Repr

/-- The Pair Table, the level on the HALT_REQ line and the halt condition that follows it (R141). -/
structure PairHalt where
  pairs : Table PairEntry 8
  haltReq : Bool
  haltCondition : Bool
  deriving DecidableEq, Repr

/-! ### Mode control (R146, R150, R155) -/

/-- The port modes (R146). -/
inductive PortMode where
  | transparent | govern | hold
  deriving DecidableEq, Repr

/-- The pending mode (R146). -/
inductive PendingMode where
  | none | transparent | govern
  deriving DecidableEq, Repr

/-- RESET_CAUSE (R155). -/
inductive ResetCause where
  | powerOn | pin | runtime
  deriving DecidableEq, Repr

/-- Which reset is being held, if any (R151, R152). -/
inductive Held where
  | no | powerOn | pin
  deriving DecidableEq, Repr

/-- Mode control: current and pending mode, strap snapshot, reset cause, and the reset being held. -/
structure ModeControl where
  mode : PortMode
  pendingMode : PendingMode
  straps : Straps
  cause : ResetCause
  held : Held
  deriving DecidableEq, Repr

/-! ### Observation block (R157 to R166) -/

/-- The eight counters and the maximum head age of one tenant (R157, R158). -/
structure TenantCounters where
  accepted : BitVec 32
  readBlocks : BitVec 32
  writeBlocks : BitVec 32
  retry : BitVec 32
  refused : BitVec 32
  expired : BitVec 32
  mediaFault : BitVec 32
  pathLost : BitVec 32
  maxHeadAge : Nat
  deriving DecidableEq, Repr

/-- The outcome of a Frame Record (R161). -/
inductive FrameOutcome where
  | solved | stale
  deriving DecidableEq, Repr

/-- A Frame Record (R161). -/
structure FrameRecord where
  number : BitVec 16
  effCap : Nat
  guaranteed : Nat
  residual : Nat
  level : Nat
  spare : Nat
  sumDemand : Nat
  eligibleCount : Nat
  outcome : FrameOutcome
  deriving DecidableEq, Repr

/-- The Observation block. `ring` is newest first (R162). Bit n of `flags` and `enables` is the flag of code n + 1 (R163, R174). -/
structure Observation where
  counters : Table TenantCounters 24
  strays : BitVec 32
  staleFrames : BitVec 32
  ring : List FrameRecord
  flags : BitVec 7
  enables : BitVec 7
  level : Nat
  fallCount : Nat
  fallMax : Nat
  deriving DecidableEq, Repr

/-! ### Management Port (R167 to R174) -/

/-- PAGE (R171). -/
inductive Page where
  | tenant | classifier | pair | counters | frames
  deriving DecidableEq, Repr

/-- The fields of the direct registers (R174). -/
inductive DirectField where
  | id | status | mode | cmd | cmdArg | cmdResult | page | index | fp | cap | effCap | lp | wf | cto | defaultTenant
  | alertFlags | alertEnables | alertCode | halt | resetCause | straps | links | switchResets | poolLosses | strays | staleFrames
  deriving DecidableEq, Repr

/-- The fields of a TENANT page record (R174). -/
inductive TenantField where
  | status | weight | floor | ceil | ageb | strikeTh | drainb | attrs | strikes | qlim | qres | drainMark | drainClock
  | occupancy | rqDepth | wqDepth | queuedCharge | credit | spent | releasedNow | releasedPrevious | allotment | demand
  | outstanding | outstandingWrites
  deriving DecidableEq, Repr

/-- The fields of a CLASSIFIER page record (R174). -/
inductive ClassifierField where
  | flags | value | mask | priority | tenant | base | limit
  deriving DecidableEq, Repr

/-- The fields of a PAIR page record (R174). -/
inductive PairField where
  | flags | primary | secondary | guard | state | counter
  deriving DecidableEq, Repr

/-- The fields of a COUNTERS page record (R174). -/
inductive CounterField where
  | accepted | readBlocks | writeBlocks | retry | refused | expired | mediaFault | pathLost | maxHeadAge
  deriving DecidableEq, Repr

/-- The fields of a FRAMES page record (R174). -/
inductive FrameField where
  | number | effCap | guaranteed | residual | level | spare | sumDemand | eligibleCount | outcome
  deriving DecidableEq, Repr

/-- One management field: a direct register, or a field of the record that PAGE and INDEX select. This is the identity the holding latches keep (R169, R170). -/
inductive Field where
  | direct (field : DirectField)
  | tenant (tenant : TenantId) (field : TenantField)
  | classifier (entry : EntryId) (field : ClassifierField)
  | pair (pair : PairId) (field : PairField)
  | counters (tenant : TenantId) (field : CounterField)
  | frames (slot : Fin 32) (field : FrameField)
  deriving DecidableEq, Repr

/-- The write holding latch: the field and the bytes latched for it, by their place in the field (R169). -/
structure WriteLatch where
  field : Field
  bytes : List (Nat × Byte)
  deriving DecidableEq, Repr

/-- The read snapshot latch: the field and the value copied from it (R170). -/
structure ReadLatch where
  field : Field
  value : Nat
  deriving DecidableEq, Repr

/-- The reason STATUS holds while WRITE_REFUSED is set (R172). -/
inductive RefuseReason where
  | range | state | reserve | floor | guard | member
  deriving DecidableEq, Repr

/-- CMD_RESULT (R173). -/
inductive CmdResult where
  | none | ok | wrongState | floorOver | pairBusy | badArg
  deriving DecidableEq, Repr

/-- Where the present I2C transfer stands (R167): none begun; one that is not for this part or has ended; a write transfer before its pointer byte; a write transfer after it; a read transfer. -/
inductive Transfer where
  | idle | ignored | awaitPointer | writing | reading
  deriving DecidableEq, Repr

/-- The Management Port (R167, R171 to R173). WRITE_REFUSED is set when `status` holds a reason. -/
structure ManagementPort where
  pointer : BitVec 7
  page : Page
  index : EntryId
  writeLatch : Option WriteLatch
  readLatch : Option ReadLatch
  status : Option RefuseReason
  cmd : Byte
  cmdArg : Byte
  cmdResult : CmdResult
  transfer : Transfer
  deriving DecidableEq, Repr

/-! ### What leaves the part -/

/-- The six statuses (R7). -/
inductive ResponseStatus where
  | good | retry | refused | expired | mediaFault | pathLost
  deriving DecidableEq, Repr

/-- A response sent upstream (R6). -/
structure Response where
  kind : Kind
  requester : RequesterId
  tag : Byte
  status : ResponseStatus
  data : List Byte
  deriving DecidableEq, Repr

/-- A request sent out of the Pool Port (R9). -/
structure PoolRequest where
  kind : Kind
  requester : RequesterId
  poolTag : Byte
  address : Option Address
  length : Option Nat
  payload : List Byte
  deriving DecidableEq, Repr

/-- What the part drives on SDA: an acknowledgement, or a byte of a read transfer (R167). -/
inductive BusOutput where
  | ack
  | byte (value : Byte)
  deriving DecidableEq, Repr

/-- The model's record of what has left the part, oldest first: the responses sent upstream, the requests wholly sent to the pool, and what was driven on the management bus. -/
structure Wires where
  upstream : List Response
  downstream : List PoolRequest
  bus : List BusOutput
  deriving DecidableEq, Repr

/-! ### The whole machine -/

/-- The state of the BG2400, with the queue of commands that wait, first in first out. -/
structure State where
  pending : List Instr
  links : Links
  classifier : Classifier
  admission : Admission
  timer : FrameTimer
  solver : Solver
  credit : CreditTable
  arbiter : Arbiter
  paths : ReturnPath
  records : Table TenantRecord 24
  pairHalt : PairHalt
  control : ModeControl
  observe : Observation
  port : ManagementPort
  wires : Wires
  deriving DecidableEq, Repr

/-- The machine has no fault: every event the manual names leaves a next state, and every wrong value it names is clamped, refused into STATUS or answered in CMD_RESULT. No constructor raises one, which is safe. -/
inductive Fault where
  deriving DecidableEq, Repr

/-- Why a command has no next state. -/
inductive Refusal where
  /-- Raised by exec's arm for a command with no meaning yet; no arm raises it. Safe: the model stops. -/
  | notModelled (mnemonic : String)
  /-- Raised by ARRIVAL for a length outside 1 to 4096, which the link frame cannot carry (R4). Safe: no such request arrives. -/
  | impossibleLength
  deriving DecidableEq, Repr

/-! ### Power-on values -/

/-- A classifier entry after a power-on or pin reset (R11). -/
def ClassifierEntry.reset : ClassifierEntry where
  valid := false
  value := 0
  mask := 0
  filter := .all
  window := false
  base := 0
  limit := 0
  priority := 0
  tenant := 0

/-- Attributes all clear (R112). -/
def Attributes.clear : Attributes := ⟨false, false, false, false, false⟩

/-- The Tenant Record of T0 to T22 after a power-on or pin reset (R23, R112, R131). -/
def TenantRecord.reset : TenantRecord where
  weight := 16
  floor := 0
  ceil := 16383
  ageb := 0
  drainb := 0
  strikeTh := 0
  attrs := Attributes.clear
  qlim := 64
  qres := 0
  state := .off
  target := .none
  drainMark := 0
  drainClock := 0
  strikes := 0
  demoted := false
  pauseMark := false
  fenceDue := false

/-- Every Tenant Record after a power-on or pin reset: T23 starts ACTIVE with QLIM 1024 (R23, R116). -/
def TenantRecord.resetTable : Table TenantRecord 24 :=
  (Table.fill 24 TenantRecord.reset).set 23 { TenantRecord.reset with state := .active, qlim := 1024 }

/-- Empty queues and a clear retry mark (R39). -/
def TenantQueues.empty : TenantQueues := ⟨[], [], false⟩

/-- A cleared snapshot (R48). -/
def Snapshot.empty : Snapshot := ⟨0, Table.fill 24 ⟨0, 0, 0, false, false, 0⟩⟩

/-- No completed result: everything 0 with the valid flag clear (R51, R60). DESIGN CHOICE: Σ h and the frame number kept with it are 0, which no rule gives and nothing reads (notes/assumptions/22.md). -/
def SolveResult.empty : SolveResult where
  allotments := Table.fill 24 0
  demands := Table.fill 24 0
  level := 0
  spare := 0
  valid := false
  effCap := 0
  guaranteed := 0
  residual := 0
  sumDemand := 0
  sumHeadroom := 0
  eligibleCount := 0
  frame := 0

/-- Frame settings before any boundary has latched them. -/
def FrameSettings.empty : FrameSettings := ⟨false, false, false, 0, 0⟩

/-- A Credit Table entry after a power-on or pin reset (R90). -/
def CreditEntry.reset : CreditEntry := ⟨0, 0, 0, 0, FrameSettings.empty⟩

/-- A pair entry after a power-on or pin reset (R134). -/
def PairEntry.reset : PairEntry where
  valid := false
  primary := 0
  secondary := 1
  active := .primary
  guard := 0
  inGuard := false
  counter := 0

/-- A tenant's counters at 0 (R160). -/
def TenantCounters.zero : TenantCounters := ⟨0, 0, 0, 0, 0, 0, 0, 0, 0⟩

/-- While a power-on reset is held: every piece of state at its power-on value (R151), nothing sent, nothing waiting, HALT_REQ low. -/
def State.powerOn : State where
  pending := []
  links := ⟨false, false, 0, 0⟩
  classifier := ⟨Table.fill 64 ClassifierEntry.reset, 23⟩
  admission := ⟨4, 0, Table.fill 24 TenantQueues.empty, []⟩
  timer := ⟨64, 0, 16383, 64, 0, 65535, 0, false⟩
  solver := ⟨false, Snapshot.empty, SolveResult.empty, false⟩
  credit := ⟨Table.fill 24 CreditEntry.reset, 0⟩
  arbiter := ⟨23, 23, none⟩
  paths := ⟨256, 256, Table.fill 256 none, Table.fill 64 []⟩
  records := TenantRecord.resetTable
  pairHalt := ⟨Table.fill 8 PairEntry.reset, false, false⟩
  control := ⟨.transparent, .none, ⟨0, 0, false⟩, .powerOn, .powerOn⟩
  observe := ⟨Table.fill 24 TenantCounters.zero, 0, 0, [], 0, 0, 0, 0, 0⟩
  port := ⟨0, .tenant, 0, none, none, none, 0, 0, .none, .idle⟩
  wires := ⟨[], [], []⟩

/-- Right after a power-on reset is released with every strap low and HALT_REQ low: the start boundary has opened frame 0 with its start load and its snapshot, and the solve of frame 0 is in progress (R44, R151). DESIGN CHOICE: the strap levels, see notes/assumptions/1.md. -/
def State.reset : State where
  pending := []
  links := ⟨false, false, 0, 0⟩
  classifier := ⟨Table.fill 64 ClassifierEntry.reset, 23⟩
  admission := ⟨4, 0, Table.fill 24 TenantQueues.empty, []⟩
  timer := ⟨64, 0, 16383, 64, 0, 0, 0, false⟩
  solver :=
    ⟨true,
      ⟨1024, (Table.fill 24 ⟨16, 0, 16383, false, false, 0⟩).set 23 ⟨16, 0, 16383, false, true, 0⟩⟩,
      SolveResult.empty, false⟩
  credit := ⟨Table.fill 24 ⟨0, 0, 0, 0, ⟨false, false, false, 0, 16383⟩⟩, 0⟩
  arbiter := ⟨23, 23, none⟩
  paths := ⟨256, 256, Table.fill 256 none, Table.fill 64 []⟩
  records := TenantRecord.resetTable.map fun r => { r with pauseMark := true }
  pairHalt := ⟨Table.fill 8 PairEntry.reset, false, false⟩
  control := ⟨.transparent, .none, ⟨0, 0, false⟩, .powerOn, .no⟩
  observe := ⟨Table.fill 24 TenantCounters.zero, 0, 0, [], 0, 0, 0, 0, 0⟩
  port := ⟨0, .tenant, 0, none, none, none, 0, 0, .none, .idle⟩
  wires := ⟨[], [], []⟩

end Sys2Proof.Machine
end

