-- ==== Sys2Proof/Machine/Flags.lean ====
section
/-! DEFINITION. The flags and levels the part shows: alert flags with ALERT_N and ALERT_CODE, STATUS, the counters, the Frame Record Ring and the pressure level (R157 to R166, R172). -/

namespace Sys2Proof.Machine

/-- The seven alert flags (R163). -/
inductive AlertFlag where
  | plink | fence | expire | stale | stray | demote | unmapped
  deriving DecidableEq, Repr

/-- The bit of a flag in the alert flags and alert enables registers (R174). -/
def alertBit : AlertFlag → BitVec 7
  | .plink => 1
  | .fence => 2
  | .expire => 4
  | .stale => 8
  | .stray => 16
  | .demote => 32
  | .unmapped => 64

/-- An event sets its alert flag, whatever the enable holds (R163). -/
def raiseAlert (f : AlertFlag) (s : State) : State :=
  { s with observe.flags := s.observe.flags ||| alertBit f }

/-- Whether a flag is set. -/
def alertSet (f : AlertFlag) (s : State) : Bool := s.observe.flags &&& alertBit f != 0

/-- ALERT_N is driven low while at least one flag is both set and enabled (R164). -/
def alertAsserted (s : State) : Bool := s.observe.flags &&& s.observe.enables != 0

/-- The code of the highest-priority flag in a set, 0 for none (R163, R164). -/
def codeOf (set : BitVec 7) : Nat :=
  if set &&& 1 != 0 then 1
  else if set &&& 2 != 0 then 2
  else if set &&& 4 != 0 then 3
  else if set &&& 8 != 0 then 4
  else if set &&& 16 != 0 then 5
  else if set &&& 32 != 0 then 6
  else if set &&& 64 != 0 then 7
  else 0

/-- ALERT_CODE (R164). -/
def alertCode (s : State) : Nat := codeOf (s.observe.flags &&& s.observe.enables)

/-- A refused write sets WRITE_REFUSED with its reason, replacing any reason held (R172). -/
def refuseWrite (r : RefuseReason) (s : State) : State :=
  { s with port.status := some r }

/-- One tenant's counters changed (R157). -/
def countTenant (t : TenantId) (f : TenantCounters → TenantCounters) (s : State) : State :=
  { s with observe.counters := s.observe.counters.modify t f }

/-- A head age offered to a tenant's maximum head age, which saturates at 255 (R158). -/
def noteHeadAge (age : Nat) (c : TenantCounters) : TenantCounters :=
  { c with maxHeadAge := min Config.maxAge (max c.maxHeadAge age) }

/-- A Frame Record handed to the ring becomes the newest, and the oldest leaves a ring of 32 (R161). -/
def handRecord (r : FrameRecord) (s : State) : State :=
  { s with observe.ring := (r :: s.observe.ring).take Config.ringRecords }

/-- PRESSURE_FALL: a fall count of 4 brings the output level down to the fall maximum (R166). -/
def pressureFall (s : State) : State :=
  if 4 ≤ s.observe.fallCount then
    { s with observe.level := s.observe.fallMax, observe.fallCount := 0, observe.fallMax := 0 }
  else s

/-- A computed level taken by the output level with its hysteresis (R166). -/
def takeLevel (c : Nat) (s : State) : State :=
  if s.observe.level < c then
    { s with observe.level := c, observe.fallCount := 0, observe.fallMax := 0 }
  else if c = s.observe.level then
    { s with observe.fallCount := 0, observe.fallMax := 0 }
  else
    pressureFall { s with
      observe.fallCount := s.observe.fallCount + 1, observe.fallMax := max s.observe.fallMax c }

/-- The level computed from a completed solve (R165). -/
def solvedLevel (r : SolveResult) : Nat :=
  if r.sumHeadroom ≤ r.residual then 0
  else if 256 ≤ r.level then 1
  else if 32 ≤ r.level then 2
  else 3

end Sys2Proof.Machine
end

