-- ==== Sys2Proof/Machine/Operands.lean ====
section
/-! DEFINITION. What an event's operands mean: the kinds of request and response, the charge, stamps compared as serial numbers, classification, and the capacity that FP, CAP and the strap divisor give (R4, R10, R12, R13, R19, R30, R46). -/

namespace Sys2Proof.Machine

/-- The kind of an arriving request (R4). -/
def bodyKind : RequestBody → Kind
  | .read _ _ => .read
  | .write _ _ => .write
  | .flush => .flush

/-- The address of an arriving request, absent for a FLUSH (R4). -/
def bodyAddress : RequestBody → Option Address
  | .read a _ => some a
  | .write a _ => some a
  | .flush => none

/-- The length of an arriving request, absent for a FLUSH; a WRITE's payload is exactly its length (R4). -/
def bodyLength : RequestBody → Option Nat
  | .read _ n => some n
  | .write _ p => some p.length
  | .flush => none

/-- A length the link frame can carry: 1 to 4096 bytes where there is one (R4). -/
def lengthFits (b : RequestBody) : Bool :=
  match bodyLength b with
  | some n => 1 ≤ n && n ≤ Config.maxLength
  | none => true

/-- The 64-byte blocks a length touches (R19). -/
def blocksTouched (n : Nat) : Nat := ceilDiv n Config.blockBytes

/-- The charge of a request, with WF as it stands (R19). -/
def chargeOf (writeFactor : Nat) : RequestBody → Nat
  | .read _ n => blocksTouched n
  | .write _ p => ceilDiv (blocksTouched p.length * writeFactor) 4
  | .flush => 1

/-- The Payload Store blocks a request needs (R26). -/
def blocksNeeded : RequestBody → Nat
  | .write _ p => blocksTouched p.length
  | _ => 0

/-- A payload cut into blocks of 64 bytes, the last with the remainder (R21). -/
def cutPayload : Nat → List Byte → List (List Byte)
  | 0, _ => []
  | n + 1, p => p.take Config.blockBytes :: cutPayload n (p.drop Config.blockBytes)

/-- Which pool response answers which kind of request (R10). -/
def answersKind : ResponseKind → Kind → Bool
  | .readData, .read => true
  | .writeAck, .write => true
  | .flushAck, .flush => true
  | _, _ => false

/-- The upstream status that a pool status becomes (R95). -/
def statusOf : PoolStatus → ResponseStatus
  | .good => .good
  | .mediaFault => .mediaFault

/-- Stamp `a` is older than stamp `b`: (b − a) modulo 2^32 lies in 1 to 2147483647 (R30). -/
def older (a b : Stamp) : Bool :=
  1 ≤ (b - a).toNat && (b - a).toNat ≤ 2147483647

/-- A kind filter passes a kind: READS passes READ, WRITES passes WRITE and FLUSH, ALL passes all (R12). -/
def filterPasses : KindFilter → Kind → Bool
  | .all, _ => true
  | .reads, k => k == .read
  | .writes, k => k != .read

/-- A window passes an address: absent, or present with the address from base to limit; a FLUSH has no address and passes an absent window alone (R12). -/
def windowPasses (e : ClassifierEntry) (address : Option Address) : Bool :=
  !e.window ||
    match address with
    | some a => e.base.toNat ≤ a.toNat && a.toNat ≤ e.limit.toNat
    | none => false

/-- A request matches an entry (R12). -/
def entryMatches (q : RequesterId) (b : RequestBody) (e : ClassifierEntry) : Bool :=
  e.valid && (q &&& e.mask == e.value &&& e.mask) && filterPasses e.filter (bodyKind b) && windowPasses e (bodyAddress b)

/-- One entry compared with the best match so far: it wins when it matches and no earlier match has its priority or a higher one, so the lowest index wins among equals (R13). -/
def betterMatch (q : RequesterId) (b : RequestBody) (best : Option ClassifierEntry) (e : ClassifierEntry) : Option ClassifierEntry :=
  if entryMatches q b e then
    match best with
    | none => some e
    | some w => if w.priority.toNat < e.priority.toNat then some e else some w
  else best

/-- The winning entry of the Classifier Table, none when no entry matches (R13). -/
def winningEntry (c : Classifier) (q : RequesterId) (b : RequestBody) : Option ClassifierEntry :=
  c.entries.toList.foldl (betterMatch q b) none

/-- The tenant of an arrival and its unmapped mark (R13). -/
def classify (c : Classifier) (q : RequesterId) (b : RequestBody) : TenantId × Bool :=
  match winningEntry c q b with
  | some e => (e.tenant, false)
  | none => (c.defaultTenant, true)

/-- The strap divisor DIV, the DIV code plus 1 (R46, R150). -/
def divisor (straps : Straps) : Nat := straps.div.toNat + 1

/-- CAP_MAX for a frame period (R46). -/
def capMax (fp : Nat) (straps : Straps) : Nat := min Config.maxBlocks (fp * 16 / divisor straps)

/-- The effective CAP for a frame period and a configured capacity (R46). -/
def effCapOf (fp cap : Nat) (straps : Straps) : Nat := min cap (capMax fp straps)

/-- The effective CAP as it stands (R46). -/
def effectiveCap (s : State) : Nat := effCapOf s.timer.fp s.timer.cap s.control.straps

/-- The port mode that the START strap selects (R150). -/
def startMode (straps : Straps) : PortMode := if straps.start then .hold else .transparent

/-- The tenant a number names, none above 23 (R117). -/
def tenantOf (arg : Byte) : Option TenantId :=
  if h : arg.toNat < 24 then some ⟨arg.toNat, h⟩ else none

/-- The pair an index names, none above 7 (R137). -/
def pairOf (arg : Byte) : Option PairId :=
  if h : arg.toNat < 8 then some ⟨arg.toNat, h⟩ else none

/-- A written value brought into a range (R20, R41, R43, R45, R99, R112). -/
def clamp (low high v : Nat) : Nat := max low (min high v)

end Sys2Proof.Machine
end

