-- ==== Sys2Proof/Machine/Solve.lean ====
section
/-! DEFINITION. The arithmetic of a solve: the terms of one tenant, the water level found in 12 trials, the allotments and the spare (R52 to R56). -/

namespace Sys2Proof.Machine

/-- The effective floor: 0 when demoted, else FLOOR (R52). -/
def effectiveFloor (demoted : Bool) (floor : Nat) : Nat := if demoted then 0 else floor

/-- The effective ceiling, which is also the draw ceiling of R69 (R52). -/
def effectiveCeil (demoted : Bool) (floor ceil : Nat) : Nat := max ceil (effectiveFloor demoted floor)

/-- The guaranteed part g, 0 for an ineligible tenant (R52). -/
def guaranteedPart (t : SnapshotTenant) : Nat :=
  if t.eligible then min (effectiveFloor t.demoted t.floor) t.demand else 0

/-- The headroom h, 0 for an ineligible tenant (R52). -/
def headroom (t : SnapshotTenant) : Nat :=
  if t.eligible then min t.demand (effectiveCeil t.demoted t.floor t.ceil) - guaranteedPart t else 0

/-- The demand that enters Σ d, 0 for an ineligible tenant (R53). -/
def countedDemand (t : SnapshotTenant) : Nat := if t.eligible then t.demand else 0

/-- The extra e(L) at water level L (R54). -/
def extraAt (level : Nat) (t : SnapshotTenant) : Nat := min (headroom t) (t.weight * level / 8)

/-- F, the sum of the guaranteed parts (R53). -/
def totalGuaranteed (n : Snapshot) : Nat := sumOver n.tenants.toList guaranteedPart

/-- The residual, the effective CAP less F (R53). -/
def residualOf (n : Snapshot) : Nat := n.effCap - totalGuaranteed n

/-- Σ h (R53). -/
def totalHeadroom (n : Snapshot) : Nat := sumOver n.tenants.toList headroom

/-- Σ d (R53). -/
def totalDemand (n : Snapshot) : Nat := sumOver n.tenants.toList countedDemand

/-- The number of eligible tenants (R58). -/
def eligibleTenants (n : Snapshot) : Nat := n.tenants.toList.countP (·.eligible)

/-- Σ e at a water level (R54). -/
def totalExtra (n : Snapshot) (level : Nat) : Nat := sumOver n.tenants.toList (extraAt level)

/-- One trial: the level with this bit set is kept when Σ e there is at most the residual (R55). -/
def trial (n : Snapshot) (level bit : Nat) : Nat :=
  if totalExtra n (level + 2 ^ bit) ≤ residualOf n then level + 2 ^ bit else level

/-- L*: 0 with no trial when the residual is 0, else the 12 trials from bit 11 to bit 0 (R55). -/
def waterLevel (n : Snapshot) : Nat :=
  if residualOf n = 0 then 0
  else [11, 10, 9, 8, 7, 6, 5, 4, 3, 2, 1, 0].foldl (trial n) 0

/-- A tenant's allotment at a water level (R56). -/
def allotmentAt (level : Nat) (t : SnapshotTenant) : Nat := guaranteedPart t + extraAt level t

/-- The result of a solve of a snapshot in a frame (R56, R58). -/
def solve (n : Snapshot) (frame : BitVec 16) : SolveResult where
  allotments := n.tenants.map (allotmentAt (waterLevel n))
  demands := n.tenants.map (·.demand)
  level := waterLevel n
  spare := residualOf n - totalExtra n (waterLevel n)
  valid := true
  effCap := n.effCap
  guaranteed := totalGuaranteed n
  residual := residualOf n
  sumDemand := totalDemand n
  sumHeadroom := totalHeadroom n
  eligibleCount := eligibleTenants n
  frame := frame

/-- The Frame Record that a result gives, under a frame number and an outcome; all its figures are 0 while the result's valid flag is clear (R58, R60). -/
def recordOf (r : SolveResult) (number : BitVec 16) (outcome : FrameOutcome) : FrameRecord :=
  if r.valid then
    ⟨number, r.effCap, r.guaranteed, r.residual, r.level, r.spare, r.sumDemand, r.eligibleCount, outcome⟩
  else ⟨number, 0, 0, 0, 0, 0, 0, 0, outcome⟩

end Sys2Proof.Machine
end

