-- ==== Sys2Proof/Machine/Ops.lean ====
section
/-! DEFINITION. The shared operations of the blocks: queues and discards, the Outstanding Table and its freeings, drains and fences, the pair gate and settling, the halt, and what is derived from them (R8 to R40, R66 to R145). -/

namespace Sys2Proof.Machine

/-- A command acts only while no power-on or pin reset is held: every piece of state is then held at its power-on value (R151, R152). -/
def whileRunning (f : State → State) (s : State) : Host.Outcome State Fault Refusal :=
  if s.control.held = .no then .next (f s) else .next s

/-! ### One tenant's part of the tables -/

def recordAt (s : State) (t : TenantId) : TenantRecord := s.records.get t
def queuesAt (s : State) (t : TenantId) : TenantQueues := s.admission.queues.get t
def creditAt (s : State) (t : TenantId) : CreditEntry := s.credit.tenants.get t

/-- One Tenant Record changed. -/
def changeRecord (t : TenantId) (f : TenantRecord → TenantRecord) (s : State) : State :=
  { s with records := s.records.modify t f }

/-- One tenant's queues changed. -/
def changeQueues (t : TenantId) (f : TenantQueues → TenantQueues) (s : State) : State :=
  { s with admission.queues := s.admission.queues.modify t f }

/-- One Credit Table entry changed. -/
def changeCredit (t : TenantId) (f : CreditEntry → CreditEntry) (s : State) : State :=
  { s with credit.tenants := s.credit.tenants.modify t f }

/-! ### Occupancy, charges, free counts (R22, R24, R36) -/

/-- A tenant's queued descriptors, RQ then WQ. -/
def queuedOf (q : TenantQueues) : List Descriptor := q.rq ++ q.wq

/-- A tenant's occupancy (R22). -/
def occupancy (s : State) (t : TenantId) : Nat := (queuedOf (queuesAt s t)).length

/-- The number of descriptors in use (R22). -/
def descriptorsInUse (s : State) : Nat := sumTenants (occupancy s)

/-- The shared free count, which may be negative (R24). -/
def sharedFree (s : State) : Int :=
  (Config.descriptors : Int) - descriptorsInUse s - sumTenants fun t => (recordAt s t).qres - occupancy s t

/-- The descriptor test (R25). -/
def descriptorTest (s : State) (t : TenantId) : Bool :=
  (occupancy s t < (recordAt s t).qres && descriptorsInUse s < Config.descriptors) ||
    (occupancy s t < (recordAt s t).qlim && 0 < sharedFree s)

/-- The free blocks of the Payload Store (R26). -/
def freeBlockCount (s : State) : Nat := Config.storeBlocks - s.admission.store.length

/-- A tenant's queued charge (R36). -/
def queuedCharge (s : State) (t : TenantId) : Nat := sumOver (queuedOf (queuesAt s t)) (·.charge)

/-! ### The pair gate (R136) -/

/-- A pair names a tenant as a member. -/
def pairNames (e : PairEntry) (t : TenantId) : Bool := e.primary == t || e.secondary == t

/-- The tenant that is the active member (R134). -/
def activeTenant (e : PairEntry) : TenantId :=
  match e.active with
  | .primary => e.primary
  | .secondary => e.secondary

/-- The tenant that is the inactive member, which in GUARD is the old active member (R134). -/
def inactiveTenant (e : PairEntry) : TenantId :=
  match e.active with
  | .primary => e.secondary
  | .secondary => e.primary

/-- One entry leaves a tenant's gate open: it is invalid, or does not name the tenant, or is SETTLED with the tenant active (R136). -/
def entryOpens (t : TenantId) (e : PairEntry) : Bool :=
  !e.valid || !pairNames e t || (!e.inGuard && activeTenant e == t)

/-- The pair gate of a tenant is open (R136). -/
def gateOpen (s : State) (t : TenantId) : Bool := s.pairHalt.pairs.toList.all (entryOpens t)

/-- The eligible queued charge: parked descriptors and gated WQ descriptors are left out (R36). -/
def eligibleCharge (s : State) (t : TenantId) : Nat :=
  sumOver ((queuesAt s t).rq.filter fun d => !d.parked) (·.charge) +
    if gateOpen s t then sumOver ((queuesAt s t).wq.filter fun d => !d.parked) (·.charge) else 0

/-! ### The halt (R141, R143) -/

/-- A tenant is held by the risk halt (R141). -/
def heldByHalt (s : State) (t : TenantId) : Bool :=
  s.pairHalt.haltCondition && (recordAt s t).attrs.haltable

/-- An Outstanding Table place holds an entry of a tenant (R108). -/
def entryOf (t : TenantId) (o : Option OutstandingEntry) : Bool :=
  match o with
  | some e => e.tenant == t
  | none => false

/-- An Outstanding Table place holds a WRITE or FLUSH entry of a tenant (R108). -/
def writeEntryOf (t : TenantId) (o : Option OutstandingEntry) : Bool :=
  match o with
  | some e => e.tenant == t && e.kind != .read
  | none => false

/-- A tenant's outstanding count; orphans are counted (R108). -/
def outstandingCount (s : State) (t : TenantId) : Nat := s.paths.entries.toList.countP (entryOf t)

/-- A tenant's outstanding WRITE and FLUSH count (R108). -/
def outstandingWrites (s : State) (t : TenantId) : Nat := s.paths.entries.toList.countP (writeEntryOf t)

/-- The level on HALT_ACK: the halt condition holds and no HALTABLE tenant has an outstanding entry (R143). -/
def haltAck (s : State) : Bool :=
  s.pairHalt.haltCondition &&
    (List.finRange 24).all fun t => !(recordAt s t).attrs.haltable || outstandingCount s t == 0

/-- A tenant is release-permitted (R126). -/
def releasePermitted (s : State) (t : TenantId) : Bool :=
  (s.control.mode != .hold || (creditAt s t).settings.exempt) && !heldByHalt s t && s.links.poolUp

/-! ### Responses and the write order lists (R6, R103, R104) -/

/-- A response leaves the Switch Port while its link is UP (R1, R6). -/
def sendUp (r : Response) (s : State) : State :=
  if s.links.switchUp then { s with wires.upstream := s.wires.upstream ++ [r] } else s

/-- A stamp joins the tail of its requester's write order list (R104). -/
def joinOrder (q : RequesterId) (stamp : Stamp) (s : State) : State :=
  { s with paths.orderLists := s.paths.orderLists.modify q.toFin fun l => l ++ [stamp] }

/-- A stamp leaves its requester's write order list from wherever it stands (R104). -/
def leaveOrder (q : RequesterId) (stamp : Stamp) (s : State) : State :=
  { s with paths.orderLists := s.paths.orderLists.modify q.toFin fun l => l.filter (· != stamp) }

/-- A WRITE's stamp leaves its list; a READ and a FLUSH change no list (R104). -/
def endWrite (kind : Kind) (q : RequesterId) (stamp : Stamp) (s : State) : State :=
  if kind = .write then leaveOrder q stamp s else s

/-! ### The Payload Store (R26) -/

/-- Payload blocks are returned to the store (R26). -/
def freeBlocks (blocks : List Nat) (s : State) : State :=
  { s with admission.store := s.admission.store.filter fun c => !blocks.contains c.1 }

/-- One block with its bytes put into the list of blocks in use, which stays in rising block order. -/
def storeBlock (b : Nat) (bytes : List Byte) : List (Nat × List Byte) → List (Nat × List Byte)
  | [] => [(b, bytes)]
  | c :: rest => if b < c.1 then (b, bytes) :: c :: rest else c :: storeBlock b bytes rest

/-- The `n` lowest block numbers from `b` on that are not in use; which free blocks are taken affects no behaviour (R26). -/
def pickBlocks : Nat → Nat → Nat → List Nat → List Nat
  | 0, _, _, _ => []
  | fuel + 1, n, b, used =>
    if n = 0 then []
    else if used.contains b then pickBlocks fuel n (b + 1) used
    else b :: pickBlocks fuel (n - 1) (b + 1) used

/-- The free blocks an admitted request takes (R26). -/
def blocksFor (n : Nat) (s : State) : List Nat :=
  pickBlocks (n + s.admission.store.length) n 0 (s.admission.store.map (·.1))

/-- A payload written into its blocks, in order (R26). -/
def storePayload (blocks : List Nat) (payload : List Byte) (s : State) : State :=
  { s with admission.store :=
      (blocks.zip (cutPayload blocks.length payload)).foldl (fun st c => storeBlock c.1 c.2 st) s.admission.store }

/-- The payload that blocks hold, in payload order (R9). -/
def readPayload (blocks : List Nat) (s : State) : List Byte :=
  blocks.flatMap fun b => (s.admission.store.lookup b).getD []

/-! ### Discards (R33) -/

/-- A descriptor put into a list in stamp order, oldest first. -/
def insertByStamp (d : Descriptor) : List Descriptor → List Descriptor
  | [] => [d]
  | e :: rest => if older e.stamp d.stamp then e :: insertByStamp d rest else d :: e :: rest

/-- Descriptors of RQ and WQ together in stamp order (R33). -/
def byStamp (ds : List Descriptor) : List Descriptor := ds.foldr insertByStamp []

/-- One descriptor discarded with REFUSED: its blocks and its stamp are freed, its response leaves, and the tenant's REFUSED counter advances (R33). -/
def refuseDescriptor (t : TenantId) (s : State) (d : Descriptor) : State :=
  countTenant t (fun c => { c with refused := c.refused + 1 })
    (sendUp ⟨d.kind, d.requester, d.tag, .refused, []⟩
      (endWrite d.kind d.requester d.stamp (freeBlocks d.blocks s)))

/-- Every queued descriptor of a tenant discarded with REFUSED, in stamp order (R33). -/
def discardAll (t : TenantId) (s : State) : State :=
  (byStamp (queuedOf (queuesAt s t))).foldl (refuseDescriptor t)
    (changeQueues t (fun q => { q with rq := [], wq := [] }) s)

/-- Every WQ descriptor of a tenant discarded with REFUSED, in stamp order (R33, R137). -/
def discardWrites (t : TenantId) (s : State) : State :=
  (byStamp (queuesAt s t).wq).foldl (refuseDescriptor t)
    (changeQueues t (fun q => { q with wq := [] }) s)

/-! ### Drains (R119, R124, R125, R127, R128) -/

/-- A DRAINING tenant's drain is complete: no queued descriptor before the mark, that is none that is not parked, and no outstanding entry (R35, R124). -/
def drainDone (s : State) (t : TenantId) : Bool :=
  (recordAt s t).state == .draining && (queuedOf (queuesAt s t)).all (·.parked) && outstandingCount s t == 0

/-- The tenant enters its drain target; for OFF its parked descriptors are refused first (R125). -/
def completeDrain (t : TenantId) (s : State) : State :=
  match (recordAt s t).target with
  | .off => changeRecord t (fun r => { r with state := .off, target := .none, fenceDue := false }) (discardAll t s)
  | .quiesced => changeRecord t (fun r => { r with state := .quiesced, target := .none, fenceDue := false }) s
  | .none => s

/-- Tenant Control's test of one drain (R124). -/
def testDrain (t : TenantId) (s : State) : State :=
  if drainDone s t then completeDrain t s else s

/-- The test made for every tenant, in tenant order, in an event that may free entries of many (R6, R124). -/
def testDrains (s : State) : State := (List.finRange 24).foldl (fun s t => testDrain t s) s

/-- A drain begins (R119, R120). -/
def beginDrain (t : TenantId) (target : DrainTarget) (s : State) : State :=
  testDrain t (changeRecord t (fun r => { r with
    state := .draining, target := target, drainMark := s.admission.nextStamp,
    drainClock := 0, pauseMark := true }) s)

/-- The fence: FENCED, no target, every queued descriptor refused, FENCE set (R128). -/
def fence (t : TenantId) (s : State) : State :=
  raiseAlert .fence (discardAll t
    (changeRecord t (fun r => { r with state := .fenced, target := .none, fenceDue := false }) s))

/-- FENCE: made where the boundary's drain clock handling has just found it due (R127, R128). -/
def fenceIfDue (t : TenantId) (s : State) : State :=
  if (recordAt s t).state = .draining ∧ (recordAt s t).fenceDue then fence t s else s

/-- One drain clock at a boundary: it advances unless the pause mark is set, and a fence falls due when it has just advanced to a DRAINB that is not 0 or beyond it (R127). DESIGN CHOICE: a clock that stands saturated at 65535 counts as having just advanced at each unpaused boundary, so that a DRAINB then made non-zero fences the drain at the next one; R127 leaves it open (notes/assumptions/19.md). -/
def tickDrainClock (r : TenantRecord) : TenantRecord :=
  if r.state = .draining ∧ r.pauseMark = false then
    { r with
      drainClock := min Config.max16 (r.drainClock + 1)
      fenceDue := r.drainb != 0 && r.drainb ≤ min Config.max16 (r.drainClock + 1) }
  else { r with fenceDue := false }

/-- One tenant's drain at a boundary: a drain that the boundary's expiries completed is not counted or fenced (R127). -/
def drainAtBoundary (s : State) (t : TenantId) : State :=
  if drainDone s t then completeDrain t s
  else fenceIfDue t (changeRecord t tickDrainClock s)

/-! ### Settling (R138) -/

/-- The settle test of a pair (R138). -/
def settlePasses (s : State) (p : PairId) : Bool :=
  (s.pairHalt.pairs.get p).valid && (s.pairHalt.pairs.get p).inGuard && (s.pairHalt.pairs.get p).counter == 0 &&
    outstandingWrites s (inactiveTenant (s.pairHalt.pairs.get p)) == 0

/-- A pair settles when its test passes (R138). -/
def testSettle (p : PairId) (s : State) : State :=
  if settlePasses s p then
    { s with pairHalt.pairs := s.pairHalt.pairs.modify p fun e => { e with inGuard := false } }
  else s

/-- The settle test of every pair. -/
def testSettles (s : State) : State := (List.finRange 8).foldl (fun s p => testSettle p s) s

/-! ### The Outstanding Table (R92 to R101) -/

/-- The entry under a pool-side tag is freed (R94). -/
def freeEntry (tag : Byte) (s : State) : State :=
  { s with paths.entries := s.paths.entries.set tag.toFin none }

/-- What Tenant Control and the Pair and Halt Unit do in an event that freed entries: drains may complete and pairs may settle; HALT_ACK follows by its definition (R94, R108). -/
def afterFreeing (s : State) : State := testSettles (testDrains s)

/-- An entry is answered upstream, and a WRITE's stamp leaves its list (R95, R101, R107). -/
def answerEntry (e : OutstandingEntry) (status : ResponseStatus) (data : List Byte) (s : State) : State :=
  endWrite e.kind e.requester e.stamp (sendUp ⟨e.kind, e.requester, e.tag, status, data⟩ s)

/-- One entry expires: an orphan silently, any other with EXPIRED; EXPIRE is set (R101). -/
def expireEntry (tag : Byte) (s : State) : State :=
  match s.paths.entries.get tag.toFin with
  | none => s
  | some e =>
    raiseAlert .expire (freeEntry tag
      (if e.orphan then s
       else countTenant e.tenant (fun c => { c with expired := c.expired + 1 }) (answerEntry e .expired [] s)))

/-- The entries in use with their tags, in ascending order of tag. -/
def entriesFrom : Nat → List (Option OutstandingEntry) → List (Nat × OutstandingEntry)
  | _, [] => []
  | n, none :: rest => entriesFrom (n + 1) rest
  | n, some e :: rest => (n, e) :: entriesFrom (n + 1) rest

/-- The entries in use, in ascending order of pool-side tag. -/
def entriesInUse (s : State) : List (Nat × OutstandingEntry) := entriesFrom 0 s.paths.entries.toList

/-- An entry is due to expire: its age is at least the CTO that the last boundary applied (R100). -/
def expiryDue (s : State) (tag : Byte) : Bool :=
  match s.paths.entries.get tag.toFin with
  | some e => s.paths.ctoInForce ≤ e.age
  | none => false

/-- Outstanding ages advance and are compared with the stored CTO; those that reach it expire in ascending order of tag (R100, R101). -/
def expireAtBoundary (s : State) : State :=
  let aged : State := { s with
    paths.ctoInForce := s.paths.cto
    paths.entries := s.paths.entries.map (Option.map fun e => { e with age := e.age + 1 }) }
  ((entriesInUse aged).filter fun c => s.paths.cto ≤ c.2.age).foldl (fun s c => expireEntry (BitVec.ofNat 8 c.1) s) aged

/-- A stray: discarded, counted, STRAY set (R97). -/
def takeStray (s : State) : State :=
  raiseAlert .stray { s with observe.strays := s.observe.strays + 1 }

/-- A matched response: an orphan's is consumed, any other is forwarded, with data for a good READ_DATA alone; the entry is freed (R95, R96). -/
def forwardResponse (tag : Byte) (e : OutstandingEntry) (status : PoolStatus) (data : List Byte) (s : State) : State :=
  freeEntry tag
    (if e.orphan then s
     else
      let answered := answerEntry e (statusOf status) (if e.kind = .read ∧ status = .good then data else []) s
      if status = .mediaFault then
        countTenant e.tenant (fun c => { c with mediaFault := c.mediaFault + 1 }) answered
      else answered)

/-- One entry lost with the Pool Port link: an orphan silently, any other with PATH_LOST (R107). -/
def loseEntry (s : State) (e : OutstandingEntry) : State :=
  if e.orphan then s
  else countTenant e.tenant (fun c => { c with pathLost := c.pathLost + 1 }) (answerEntry e .pathLost [] s)

/-- The lowest free pool-side tag (R93). -/
def firstFree : Nat → List (Option OutstandingEntry) → Option Nat
  | _, [] => none
  | n, none :: _ => some n
  | n, some _ :: rest => firstFree (n + 1) rest

/-- The lowest free pool-side tag of the table (R93). -/
def lowestFreeTag (s : State) : Option Nat := firstFree 0 s.paths.entries.toList

/-! ### The release slot (R82) -/

/-- The release slot is freed and the payload blocks of its send are returned (R82). -/
def freeSlot (s : State) : State :=
  match s.arbiter.slot with
  | none => s
  | some x => freeBlocks x.blocks { s with arbiter.slot := none }

/-! ### The floor law (R47) -/

/-- A tenant's FLOOR as the floor sum counts it: 0 when it is OFF (R47). -/
def countedFloor (r : TenantRecord) : Nat := if r.state = .off then 0 else r.floor

/-- The floor sum (R47). -/
def floorSum (s : State) : Nat := sumOver s.records.toList countedFloor

/-- An accepted write to FP, CAP, WF, LP or the default tenant returns a SOLVING solver to IDLE (R63). -/
def abortSolve (s : State) : State := { s with solver.solving := false }

end Sys2Proof.Machine
end

