-- ==== Sys2Proof/Machine/Fields.lean ====
section
/-! DEFINITION. The management layouts: where each field stands in the direct registers and in the five window records, how wide it is and what it reads as (R65, R91, R110, R132, R145, R162, R171, R174). -/

namespace Sys2Proof.Machine

/-! ### Places (R174) -/

/-- Address and width in bytes of a direct register. -/
def directPlace : DirectField → Nat × Nat
  | .id => (0x00, 4)
  | .status => (0x04, 1)
  | .mode => (0x05, 1)
  | .cmd => (0x06, 1)
  | .cmdArg => (0x07, 1)
  | .cmdResult => (0x08, 1)
  | .page => (0x09, 1)
  | .index => (0x0A, 1)
  | .fp => (0x0C, 2)
  | .cap => (0x0E, 2)
  | .effCap => (0x10, 2)
  | .lp => (0x12, 1)
  | .wf => (0x13, 1)
  | .cto => (0x14, 2)
  | .defaultTenant => (0x16, 1)
  | .alertFlags => (0x18, 1)
  | .alertEnables => (0x19, 1)
  | .alertCode => (0x1A, 1)
  | .halt => (0x1B, 1)
  | .resetCause => (0x1C, 1)
  | .straps => (0x1D, 1)
  | .links => (0x1E, 1)
  | .switchResets => (0x20, 2)
  | .poolLosses => (0x22, 2)
  | .strays => (0x24, 4)
  | .staleFrames => (0x28, 4)

/-- Window offset and width of a TENANT page field. -/
def tenantPlace : TenantField → Nat × Nat
  | .status => (0x00, 1)
  | .weight => (0x01, 1)
  | .floor => (0x02, 2)
  | .ceil => (0x04, 2)
  | .ageb => (0x06, 1)
  | .strikeTh => (0x07, 1)
  | .drainb => (0x08, 2)
  | .attrs => (0x0A, 1)
  | .strikes => (0x0B, 1)
  | .qlim => (0x0C, 2)
  | .qres => (0x0E, 2)
  | .drainMark => (0x10, 4)
  | .drainClock => (0x14, 2)
  | .occupancy => (0x20, 2)
  | .rqDepth => (0x22, 2)
  | .wqDepth => (0x24, 2)
  | .queuedCharge => (0x26, 3)
  | .credit => (0x2A, 2)
  | .spent => (0x2C, 3)
  | .releasedNow => (0x2F, 3)
  | .releasedPrevious => (0x32, 3)
  | .allotment => (0x35, 2)
  | .demand => (0x37, 2)
  | .outstanding => (0x39, 2)
  | .outstandingWrites => (0x3B, 2)

/-- Window offset and width of a CLASSIFIER page field. -/
def classifierPlace : ClassifierField → Nat × Nat
  | .flags => (0x00, 1)
  | .value => (0x01, 1)
  | .mask => (0x02, 1)
  | .priority => (0x03, 1)
  | .tenant => (0x04, 1)
  | .base => (0x05, 6)
  | .limit => (0x0B, 6)

/-- Window offset and width of a PAIR page field. -/
def pairPlace : PairField → Nat × Nat
  | .flags => (0x00, 1)
  | .primary => (0x01, 1)
  | .secondary => (0x02, 1)
  | .guard => (0x03, 1)
  | .state => (0x04, 1)
  | .counter => (0x05, 1)

/-- Window offset and width of a COUNTERS page field. -/
def counterPlace : CounterField → Nat × Nat
  | .accepted => (0x00, 4)
  | .readBlocks => (0x04, 4)
  | .writeBlocks => (0x08, 4)
  | .retry => (0x0C, 4)
  | .refused => (0x10, 4)
  | .expired => (0x14, 4)
  | .mediaFault => (0x18, 4)
  | .pathLost => (0x1C, 4)
  | .maxHeadAge => (0x20, 1)

/-- Window offset and width of a FRAMES page field. -/
def framePlace : FrameField → Nat × Nat
  | .number => (0x00, 2)
  | .effCap => (0x02, 2)
  | .guaranteed => (0x04, 2)
  | .residual => (0x06, 2)
  | .level => (0x08, 2)
  | .spare => (0x0A, 2)
  | .sumDemand => (0x0C, 3)
  | .eligibleCount => (0x0F, 1)
  | .outcome => (0x10, 1)

/-- Every direct register. -/
def directFields : List DirectField :=
  [.id, .status, .mode, .cmd, .cmdArg, .cmdResult, .page, .index, .fp, .cap, .effCap, .lp, .wf, .cto, .defaultTenant,
    .alertFlags, .alertEnables, .alertCode, .halt, .resetCause, .straps, .links, .switchResets, .poolLosses, .strays,
    .staleFrames]

/-- Every TENANT page field. -/
def tenantFields : List TenantField :=
  [.status, .weight, .floor, .ceil, .ageb, .strikeTh, .drainb, .attrs, .strikes, .qlim, .qres, .drainMark, .drainClock,
    .occupancy, .rqDepth, .wqDepth, .queuedCharge, .credit, .spent, .releasedNow, .releasedPrevious, .allotment, .demand,
    .outstanding, .outstandingWrites]

/-- Every CLASSIFIER page field. -/
def classifierFields : List ClassifierField := [.flags, .value, .mask, .priority, .tenant, .base, .limit]

/-- Every PAIR page field. -/
def pairFields : List PairField := [.flags, .primary, .secondary, .guard, .state, .counter]

/-- Every COUNTERS page field. -/
def counterFields : List CounterField :=
  [.accepted, .readBlocks, .writeBlocks, .retry, .refused, .expired, .mediaFault, .pathLost, .maxHeadAge]

/-- Every FRAMES page field. -/
def frameFields : List FrameField :=
  [.number, .effCap, .guaranteed, .residual, .level, .spare, .sumDemand, .eligibleCount, .outcome]

/-- A place covers an address. -/
def covers (place : Nat × Nat) (a : Nat) : Bool := place.1 ≤ a && a < place.1 + place.2

/-- The pointer value of window offset 0 (R168). -/
def windowBase : Nat := 0x40

/-- Pointer value and width in bytes of a field (R168, R174). -/
def fieldPlace : Field → Nat × Nat
  | .direct f => directPlace f
  | .tenant _ f => (windowBase + (tenantPlace f).1, (tenantPlace f).2)
  | .classifier _ f => (windowBase + (classifierPlace f).1, (classifierPlace f).2)
  | .pair _ f => (windowBase + (pairPlace f).1, (pairPlace f).2)
  | .counters _ f => (windowBase + (counterPlace f).1, (counterPlace f).2)
  | .frames _ f => (windowBase + (framePlace f).1, (framePlace f).2)

/-- How many records a page has (R171). -/
def pageRange : Page → Nat
  | .tenant => 24
  | .classifier => 64
  | .pair => 8
  | .counters => 24
  | .frames => 32

/-- The page a PAGE code selects, none for 5 or more (R171). -/
def pageOf (code : Byte) : Option Page :=
  match code.toNat with
  | 0 => some .tenant
  | 1 => some .classifier
  | 2 => some .pair
  | 3 => some .counters
  | 4 => some .frames
  | _ => none

/-- The code of a page (R171). -/
def pageCode : Page → Nat
  | .tenant => 0
  | .classifier => 1
  | .pair => 2
  | .counters => 3
  | .frames => 4

/-- The field of the selected record at a window offset, none where the layout assigns the offset to no field (R168, R171). -/
def windowFieldAt (page : Page) (index : Nat) (offset : Nat) : Option Field :=
  match page with
  | .tenant =>
    if h : index < 24 then (tenantFields.find? fun f => covers (tenantPlace f) offset).map (.tenant ⟨index, h⟩) else none
  | .classifier =>
    if h : index < 64 then (classifierFields.find? fun f => covers (classifierPlace f) offset).map (.classifier ⟨index, h⟩)
    else none
  | .pair => if h : index < 8 then (pairFields.find? fun f => covers (pairPlace f) offset).map (.pair ⟨index, h⟩) else none
  | .counters =>
    if h : index < 24 then (counterFields.find? fun f => covers (counterPlace f) offset).map (.counters ⟨index, h⟩) else none
  | .frames =>
    if h : index < 32 then (frameFields.find? fun f => covers (framePlace f) offset).map (.frames ⟨index, h⟩) else none

/-- The field at the pointer (R168). -/
def fieldAt (s : State) : Option Field :=
  if s.port.pointer.toNat < windowBase then
    (directFields.find? fun f => covers (directPlace f) s.port.pointer.toNat).map .direct
  else windowFieldAt s.port.page s.port.index.val (s.port.pointer.toNat - windowBase)

/-! ### Codes (R174) -/

/-- A set flag as the bit at a place. -/
def bitAt (b : Bool) (place : Nat) : Nat := if b then 2 ^ place else 0

/-- The reason code of STATUS. -/
def reasonCode : RefuseReason → Nat
  | .range => 1
  | .state => 2
  | .reserve => 3
  | .floor => 4
  | .guard => 5
  | .member => 6

/-- STATUS: bit 7 WRITE_REFUSED, bits 2:0 the reason. -/
def statusCode : Option RefuseReason → Nat
  | none => 0
  | some r => 128 + reasonCode r

/-- The current mode's code. -/
def modeCode : PortMode → Nat
  | .transparent => 1
  | .govern => 2
  | .hold => 3

/-- The pending mode's code. -/
def pendingCode : PendingMode → Nat
  | .none => 0
  | .transparent => 1
  | .govern => 2

/-- CMD_RESULT's code. -/
def resultCode : CmdResult → Nat
  | .none => 0
  | .ok => 1
  | .wrongState => 2
  | .floorOver => 3
  | .pairBusy => 4
  | .badArg => 5

/-- RESET_CAUSE's code. -/
def causeCode : ResetCause → Nat
  | .powerOn => 1
  | .pin => 2
  | .runtime => 3

/-- The tenant state's code. -/
def stateCode : TenantState → Nat
  | .off => 0
  | .active => 1
  | .draining => 2
  | .quiesced => 3
  | .fenced => 4

/-- The drain target's code. -/
def targetCode : DrainTarget → Nat
  | .none => 0
  | .quiesced => 1
  | .off => 2

/-- The attributes byte. -/
def attrsCode (a : Attributes) : Nat :=
  bitAt a.lend 0 + bitAt a.borrow 1 + bitAt a.haltable 2 + bitAt a.exempt 3 + bitAt a.demotable 4

/-- The attributes that an attributes byte writes; bits 7:5 are ignored. -/
def attrsOf (v : Byte) : Attributes :=
  ⟨v.getLsbD 0, v.getLsbD 1, v.getLsbD 2, v.getLsbD 3, v.getLsbD 4⟩

/-- The kind filter's code. -/
def filterCode : KindFilter → Nat
  | .all => 0
  | .reads => 1
  | .writes => 2

/-- The kind filter that bits 2:1 of a classifier flags byte write; code 3 stores ALL (R18). -/
def filterOf (v : Byte) : KindFilter :=
  match v.getLsbD 2, v.getLsbD 1 with
  | false, true => .reads
  | true, false => .writes
  | _, _ => .all

/-- The active member's bit. -/
def memberBit : Member → Bool
  | .primary => false
  | .secondary => true

/-- The outcome's code. -/
def outcomeCode : FrameOutcome → Nat
  | .solved => 1
  | .stale => 2

/-! ### What a field reads as -/

/-- A direct register's value, its bytes least significant first. -/
def directValue (s : State) : DirectField → Nat
  | .id => 0x55 + 0x47 * 2 ^ 8 + 0x24 * 2 ^ 16
  | .status => statusCode s.port.status
  | .mode => modeCode s.control.mode + pendingCode s.control.pendingMode * 4
  | .cmd => s.port.cmd.toNat
  | .cmdArg => s.port.cmdArg.toNat
  | .cmdResult => resultCode s.port.cmdResult
  | .page => pageCode s.port.page
  | .index => s.port.index.val
  | .fp => s.timer.fp
  | .cap => s.timer.cap
  | .effCap => effectiveCap s
  | .lp => s.timer.lp
  | .wf => s.admission.writeFactor
  | .cto => s.paths.cto
  | .defaultTenant => s.classifier.defaultTenant.val
  | .alertFlags => s.observe.flags.toNat
  | .alertEnables => s.observe.enables.toNat
  | .alertCode => alertCode s
  | .halt => bitAt s.pairHalt.haltCondition 0 + bitAt (haltAck s) 1
  | .resetCause => causeCode s.control.cause
  | .straps => s.control.straps.addr.toNat + s.control.straps.div.toNat * 4 + bitAt s.control.straps.start 5
  | .links => bitAt s.links.switchUp 0 + bitAt s.links.poolUp 1
  | .switchResets => s.links.switchResets
  | .poolLosses => s.links.poolLosses
  | .strays => s.observe.strays.toNat
  | .staleFrames => s.observe.staleFrames.toNat

/-- A TENANT page field's value; credit is two's complement in 16 bits. -/
def tenantValue (s : State) (t : TenantId) : TenantField → Nat
  | .status => stateCode (recordAt s t).state + targetCode (recordAt s t).target * 16 + bitAt (recordAt s t).demoted 6
  | .weight => (recordAt s t).weight
  | .floor => (recordAt s t).floor
  | .ceil => (recordAt s t).ceil
  | .ageb => (recordAt s t).ageb
  | .strikeTh => (recordAt s t).strikeTh
  | .drainb => (recordAt s t).drainb
  | .attrs => attrsCode (recordAt s t).attrs
  | .strikes => (recordAt s t).strikes
  | .qlim => (recordAt s t).qlim
  | .qres => (recordAt s t).qres
  | .drainMark => (recordAt s t).drainMark.toNat
  | .drainClock => (recordAt s t).drainClock
  | .occupancy => occupancy s t
  | .rqDepth => (queuesAt s t).rq.length
  | .wqDepth => (queuesAt s t).wq.length
  | .queuedCharge => queuedCharge s t
  | .credit => (BitVec.ofInt 16 (creditAt s t).credit).toNat
  | .spent => (creditAt s t).spent
  | .releasedNow => (creditAt s t).releasedNow
  | .releasedPrevious => (creditAt s t).releasedPrevious
  | .allotment => s.solver.result.allotments.get t
  | .demand => s.solver.result.demands.get t
  | .outstanding => outstandingCount s t
  | .outstandingWrites => outstandingWrites s t

/-- A CLASSIFIER page field's value. -/
def classifierValue (e : ClassifierEntry) : ClassifierField → Nat
  | .flags => bitAt e.valid 0 + filterCode e.filter * 2 + bitAt e.window 3
  | .value => e.value.toNat
  | .mask => e.mask.toNat
  | .priority => e.priority.toNat
  | .tenant => e.tenant.val
  | .base => e.base.toNat
  | .limit => e.limit.toNat

/-- A PAIR page field's value. -/
def pairValue (e : PairEntry) : PairField → Nat
  | .flags => bitAt e.valid 0 + bitAt (memberBit e.active) 1
  | .primary => e.primary.val
  | .secondary => e.secondary.val
  | .guard => e.guard
  | .state => bitAt e.inGuard 0
  | .counter => e.counter

/-- A COUNTERS page field's value. -/
def counterValue (c : TenantCounters) : CounterField → Nat
  | .accepted => c.accepted.toNat
  | .readBlocks => c.readBlocks.toNat
  | .writeBlocks => c.writeBlocks.toNat
  | .retry => c.retry.toNat
  | .refused => c.refused.toNat
  | .expired => c.expired.toNat
  | .mediaFault => c.mediaFault.toNat
  | .pathLost => c.pathLost.toNat
  | .maxHeadAge => c.maxHeadAge

/-- A FRAMES page field's value; a slot beyond the records held shows 0 and outcome NONE (R162). -/
def frameValue (r : Option FrameRecord) (f : FrameField) : Nat :=
  match r with
  | none => 0
  | some r =>
    match f with
    | .number => r.number.toNat
    | .effCap => r.effCap
    | .guaranteed => r.guaranteed
    | .residual => r.residual
    | .level => r.level
    | .spare => r.spare
    | .sumDemand => r.sumDemand
    | .eligibleCount => r.eligibleCount
    | .outcome => outcomeCode r.outcome

/-- A field's present value, its bytes least significant first (R174). -/
def fieldValue (s : State) : Field → Nat
  | .direct f => directValue s f
  | .tenant t f => tenantValue s t f
  | .classifier e f => classifierValue (s.classifier.entries.get e) f
  | .pair p f => pairValue (s.pairHalt.pairs.get p) f
  | .counters t f => counterValue (s.observe.counters.get t) f
  | .frames k f => frameValue s.observe.ring[k.val]? f

/-- Byte `k` of a value, the least significant first (R174). -/
def byteOf (value k : Nat) : Byte := BitVec.ofNat 8 (value / 256 ^ k)

end Sys2Proof.Machine
end

