-- ==== Sys2Proof/Machine/Frame.lean ====
section
/-! DEFINITION. The frame events: FRAME_BOUNDARY with all that comes about inside it, EXPIRY, FENCE, DRAIN_COMPLETION, SETTLING, PRESSURE_FALL, LEND_POINT and SOLVE_COMPLETION (chapters Frames and the Share Solver, Credit and Release, Tenant Life Cycle). -/

namespace Sys2Proof.Machine

/-! ### The frame boundary, step by step -/

/-- R62: a solve in progress at the boundary is abandoned. R42, R43: the frame number advances and the phase restarts, and the stored FP and LP are latched for the new frame. A start boundary that was due is taken. -/
def openFrame (s : State) : State :=
  { s with
    solver.solving := false
    timer.number := s.timer.number + 1
    timer.frameLength := s.timer.fp
    timer.frameLend := s.timer.lp
    timer.phase := 0
    timer.startDue := false }

/-- A descriptor one boundary older (R37). -/
def ageDescriptor (d : Descriptor) : Descriptor := { d with age := min Config.maxAge (d.age + 1) }

/-- A tenant's queues one boundary older (R37). -/
def ageQueues (u : TenantQueues) : TenantQueues :=
  { u with rq := u.rq.map ageDescriptor, wq := u.wq.map ageDescriptor }

/-- The age of a queue's head, 0 for an empty queue. -/
def headAge : List Descriptor → Nat
  | [] => 0
  | d :: _ => d.age

/-- R37, R158: ages advance, and each maximum head age takes both heads' ages. -/
def ageBoundary (s : State) : State :=
  let aged := s.admission.queues.map ageQueues
  { s with
    admission.queues := aged
    observe.counters := Table.build fun t =>
      noteHeadAge (headAge (aged.get t).wq) (noteHeadAge (headAge (aged.get t).rq) (s.observe.counters.get t)) }

/-- The strike count after a boundary (R129). -/
def strikesAfter (u : TenantQueues) (strikes : Nat) : Nat :=
  if u.retryMark then min Config.maxAge (strikes + 1)
  else if u.rq.isEmpty ∧ u.wq.isEmpty then strikes - 1
  else strikes

/-- The demoted flag after the demotion test (R130). -/
def demotedAfter (r : TenantRecord) : Bool :=
  if r.demoted then !(r.strikes == 0 || !r.attrs.demotable || r.strikeTh == 0)
  else r.attrs.demotable && r.strikeTh != 0 && r.strikeTh ≤ r.strikes

/-- One record after the strike update and the demotion test (R129, R130). -/
def strikeRecord (u : TenantQueues) (r : TenantRecord) : TenantRecord :=
  let struck := { r with strikes := strikesAfter u r.strikes }
  { struck with demoted := demotedAfter struck }

/-- R129, R130, R38: strikes, demotion with DEMOTE, and the retry marks cleared. -/
def strikeBoundary (s : State) : State :=
  let updated := Table.build fun t => strikeRecord (queuesAt s t) (recordAt s t)
  let cleared : State := { s with
    records := updated
    admission.queues := s.admission.queues.map fun u => { u with retryMark := false } }
  if (List.finRange 24).any fun t => (updated.get t).demoted && !(recordAt s t).demoted then raiseAlert .demote cleared
  else cleared

/-- R124 to R128: completions by the boundary's expiries, then drain clocks and fences, tenant by tenant. -/
def drainsBoundary (s : State) : State := (List.finRange 24).foldl drainAtBoundary s

/-- The guard counter of a valid pair in GUARD decreases by 1 when above 0 (R138). -/
def tickGuard (e : PairEntry) : PairEntry :=
  if e.valid ∧ e.inGuard then { e with counter := e.counter - 1 } else e

/-- R138: guard counters and settle tests. -/
def guardsBoundary (s : State) : State :=
  testSettles { s with pairHalt.pairs := s.pairHalt.pairs.map tickGuard }

/-- R148: a pending mode becomes current. -/
def modeBoundary (s : State) : State :=
  match s.control.pendingMode with
  | .none => s
  | .transparent => { s with control.mode := .transparent, control.pendingMode := .none }
  | .govern => { s with control.mode := .govern, control.pendingMode := .none }

/-- A tenant is eligible (R49). -/
def eligible (s : State) (t : TenantId) : Bool :=
  ((recordAt s t).state == .active || (recordAt s t).state == .draining) && !heldByHalt s t

/-- A tenant's demand (R50). DESIGN CHOICE: what is released between a runtime reset and its start boundary counts in the demand of that boundary's snapshot (notes/assumptions/21.md). -/
def demandOf (s : State) (t : TenantId) : Nat :=
  if eligible s t then min Config.maxBlocks (eligibleCharge s t + (creditAt s t).releasedNow) else 0

/-- What the snapshot holds for a tenant (R48). -/
def snapshotTenant (s : State) (t : TenantId) : SnapshotTenant :=
  ⟨(recordAt s t).weight, (recordAt s t).floor, (recordAt s t).ceil, (recordAt s t).demoted, eligible s t, demandOf s t⟩

/-- R48: the snapshot is replaced whole. -/
def takeSnapshot (s : State) : State :=
  { s with solver.snapshot := ⟨effectiveCap s, Table.build (snapshotTenant s)⟩ }

/-- The three kinds of load (R59). -/
inductive LoadKind where
  | fresh | stale | start
  deriving DecidableEq, Repr

/-- The kind of load of a boundary (R59). -/
def loadKind (startBoundary : Bool) (s : State) : LoadKind :=
  if startBoundary then .start else if s.solver.newResult then .fresh else .stale

/-- The allotment a load hands a tenant (R59). -/
def handedAllotment (k : LoadKind) (s : State) (t : TenantId) : Nat :=
  match k with
  | .fresh => s.solver.result.allotments.get t
  | .stale => if (s.solver.snapshot.tenants.get t).eligible then s.solver.result.allotments.get t else 0
  | .start => 0

/-- The spare a load hands over (R59). -/
def handedSpare (k : LoadKind) (s : State) : Nat :=
  match k with
  | .start => 0
  | _ => s.solver.result.spare

/-- The frame settings latched for a tenant, with the draw ceiling from the snapshot of the same boundary (R69, R70). -/
def latchSettings (s : State) (t : TenantId) : FrameSettings :=
  ⟨(recordAt s t).attrs.lend, (recordAt s t).attrs.borrow, (recordAt s t).attrs.exempt, (recordAt s t).ageb,
    effectiveCeil (s.solver.snapshot.tenants.get t).demoted (s.solver.snapshot.tenants.get t).floor
      (s.solver.snapshot.tenants.get t).ceil⟩

/-- The credit a load gives (R71). -/
def loadedCredit (state : TenantState) (allotment : Nat) (old : Int) : Int :=
  if state = .active ∨ state = .draining then (allotment : Int) + min old 0 else 0

/-- One Credit Table entry after a load (R71). -/
def loadEntry (k : LoadKind) (s : State) (t : TenantId) : CreditEntry where
  credit := loadedCredit (recordAt s t).state (handedAllotment k s t) (creditAt s t).credit
  spent := 0
  releasedNow := 0
  releasedPrevious := (creditAt s t).releasedNow
  settings := latchSettings s t

/-- R71: the Credit Table takes the load; R59: the new-result mark is cleared. -/
def loadCredit (k : LoadKind) (s : State) : State :=
  { s with
    credit := ⟨Table.build (loadEntry k s), handedSpare k s⟩
    solver.newResult := false }

/-- R60: a stale load hands a STALE record for the frame just ended, counts, sets STALE and computes level 3. -/
def noteStale (s : State) : State :=
  takeLevel 3 (raiseAlert .stale
    (handRecord (recordOf s.solver.result (s.timer.number - 1) .stale)
      { s with observe.staleFrames := s.observe.staleFrames + 1 }))

/-- R126: each pause mark is set when its tenant is not release-permitted at the start of the new frame, else cleared. -/
def renewPauseMarks (s : State) : State :=
  { s with records := Table.build fun t => { recordAt s t with pauseMark := !releasePermitted s t } }

/-- The load of a boundary with its consequences (R59, R60, R71). -/
def loadBoundary (k : LoadKind) (s : State) : State :=
  if k = .stale then noteStale (loadCredit k s) else loadCredit k s

/-- What every block does at a boundary before the snapshot, in order. -/
def beforeSnapshot (s : State) : State :=
  modeBoundary (guardsBoundary (drainsBoundary (expireAtBoundary (strikeBoundary (ageBoundary (openFrame s))))))

/-- A frame boundary; the start boundary, taken where one is due, differs in its load alone (R42, R44, R51). -/
def frameBoundary (s : State) : State :=
  let ready := takeSnapshot (beforeSnapshot s)
  let loaded := renewPauseMarks (loadBoundary (loadKind s.timer.startDue ready) ready)
  { loaded with solver.solving := true }

/-- FRAME_BOUNDARY: the start boundary where one is due, else the boundary that ends the frame in progress (R42, R44). -/
def execFrameBoundary (s : State) : Host.Outcome State Fault Refusal := whileRunning frameBoundary s

/-! ### The steps of a boundary that the table lists as events of their own -/

/-- An entry that is due expires, and the event's drains and settlings follow (R100, R101). -/
def expiryEvent (tag : Byte) (s : State) : State :=
  if expiryDue s tag then afterFreeing (expireEntry tag s) else s

/-- EXPIRY (R101). A boundary expires every due entry itself, so an EXPIRY taken after it finds none due. -/
def execExpiry (tag : Byte) (s : State) : Host.Outcome State Fault Refusal := whileRunning (expiryEvent tag) s

/-- FENCE (R128). -/
def execFence (t : TenantId) (s : State) : Host.Outcome State Fault Refusal := whileRunning (fenceIfDue t) s

/-- DRAIN_COMPLETION (R125). -/
def execDrainCompletion (t : TenantId) (s : State) : Host.Outcome State Fault Refusal := whileRunning (testDrain t) s

/-- SETTLING (R138). -/
def execSettling (p : PairId) (s : State) : Host.Outcome State Fault Refusal := whileRunning (testSettle p) s

/-- PRESSURE_FALL (R166). -/
def execPressureFall (s : State) : Host.Outcome State Fault Refusal := whileRunning pressureFall s

/-! ### The lend point -/

/-- A tenant lends: latched LEND, credit above 0, eligible queued charge 0 (R77). -/
def lends (s : State) (t : TenantId) : Bool :=
  (creditAt s t).settings.lend && 0 < (creditAt s t).credit && eligibleCharge s t == 0

/-- One tenant examined at the lend point (R77). -/
def lendOne (s : State) (t : TenantId) : State :=
  if lends s t then
    changeCredit t (fun e => { e with credit := 0 })
      { s with credit.spare := s.credit.spare + (creditAt s t).credit.toNat }
  else s

/-- What the lend point does: lending tenants are examined in tenant number order (R77). -/
def lendAll (s : State) : State := (List.finRange 24).foldl lendOne s

/-- The phase at which the lend point of the frame falls, LP × length / 16 units, in sixteenths of a unit (R43). -/
def lendPhase (t : FrameTimer) : Nat := t.frameLend * t.frameLength

/-- The lend point event: raised in a frame whose latched LP is not 0, once, as the phase reaches it (R43, R78). -/
def lendPoint (s : State) : State :=
  if s.timer.frameLend ≠ 0 ∧ s.timer.phase < lendPhase s.timer then
    lendAll { s with timer.phase := lendPhase s.timer }
  else s

/-- LEND_POINT (R77). -/
def execLendPoint (s : State) : Host.Outcome State Fault Refusal := whileRunning lendPoint s

/-! ### Solve completion -/

/-- The completion of the solve in progress; an IDLE solver completes nothing (R58, R62, R63). -/
def completeSolve (s : State) : State :=
  if s.solver.solving then
    let r := solve s.solver.snapshot s.timer.number
    takeLevel (solvedLevel r) (handRecord (recordOf r s.timer.number .solved)
      { s with solver.solving := false, solver.result := r, solver.newResult := true })
  else s

/-- SOLVE_COMPLETION (R58). -/
def execSolveCompletion (s : State) : Host.Outcome State Fault Refusal := whileRunning completeSolve s

/-! ### The passing of time -/

/-- A solve completes within 1.5 µs of its boundary, 96 sixteenths of a unit (00_scope.md, Electrical note; R62). -/
def solveBound : Nat := 96

/-- A solve still in progress when its bound is reached completes then. -/
def solveDue (s : State) : State := if solveBound ≤ s.timer.phase then completeSolve s else s

/-- The lend point falls due as the phase reaches it. -/
def lendDue (s : State) : State :=
  if s.timer.frameLend ≠ 0 ∧ s.timer.phase = lendPhase s.timer then lendAll s else s

/-- One sixteenth of a 0.25 µs unit passes: the Frame Timer raises the boundary at the end of the frame and the lend point inside it; the timer is stopped while a reset is held (R42 to R44). DESIGN CHOICE: time passes as the queue is empty, notes/assumptions/3.md. -/
def tick (s : State) : State :=
  if s.control.held ≠ .no then s
  else if 16 * s.timer.frameLength ≤ s.timer.phase + 1 then frameBoundary s
  else lendDue (solveDue { s with timer.phase := s.timer.phase + 1 })

end Sys2Proof.Machine
end

