-- ==== Sys2Proof/Machine/Lines.lean ====
section
/-! DEFINITION. The links, the resets and the risk halt lines: SWITCH_PORT_LINK_RESET, SWITCH_PORT_LINK_UP, POOL_PORT_LINK_LOSS, POOL_PORT_LINK_UP, POWER_ON_RESET, POWER_ON_RELEASE, PIN_RESET, PIN_RESET_RELEASE, HALT_REQ_RISING and HALT_REQ_FALLING (R1 to R3, R98, R107, R141, R143, R151, R152). -/

namespace Sys2Proof.Machine

/-! ### The Switch Port link -/

/-- The payload blocks that queued descriptors hold. -/
def queuedBlocks (s : State) : List Nat :=
  s.admission.queues.toList.flatMap fun u => (queuedOf u).flatMap (·.blocks)

/-- Every queue emptied with no response: descriptors and their payload blocks are freed (R2, R33, R39). -/
def emptyQueues (s : State) : State :=
  let freed := freeBlocks (queuedBlocks s) s
  { freed with admission.queues := s.admission.queues.map fun u => { u with rq := [], wq := [] } }

/-- Every outstanding entry made an orphan and every write order list emptied (R98). -/
def orphanAll (s : State) : State :=
  { s with
    paths.entries := s.paths.entries.map (Option.map fun e => { e with orphan := true })
    paths.orderLists := Table.fill 64 [] }

/-- The Switch Port link leaves UP; a reset received while it is DOWN does nothing more (R2, R124). -/
def switchLinkReset (s : State) : State :=
  if s.links.switchUp then
    testDrains (orphanAll (emptyQueues { s with
      links.switchUp := false
      links.switchResets := min Config.max16 (s.links.switchResets + 1) }))
  else s

/-- SWITCH_PORT_LINK_RESET (R2). -/
def execSwitchPortLinkReset (s : State) : Host.Outcome State Fault Refusal := whileRunning switchLinkReset s

/-- SWITCH_PORT_LINK_UP: training completes (R1). -/
def execSwitchPortLinkUp (s : State) : Host.Outcome State Fault Refusal :=
  whileRunning (fun s => { s with links.switchUp := true }) s

/-! ### The Pool Port link -/

/-- Every outstanding entry ended in ascending order of tag and freed (R107). -/
def loseEntries (s : State) : State :=
  let answered := ((entriesInUse s).map (·.2)).foldl loseEntry s
  { answered with paths.entries := Table.fill 256 none }

/-- Every drain pause mark set: no tenant is release-permitted while the Pool Port link is DOWN, and a runtime reset cuts the frame short (R126, R131). -/
def pauseAll (s : State) : State :=
  { s with records := s.records.map fun r => { r with pauseMark := true } }

/-- The Pool Port link leaves UP (R3, R82, R107, R126, R155); the event does not occur while it is DOWN. -/
def poolLinkLoss (s : State) : State :=
  if s.links.poolUp then
    afterFreeing (pauseAll (raiseAlert .plink (freeSlot (loseEntries { s with
      links.poolUp := false
      links.poolLosses := min Config.max16 (s.links.poolLosses + 1) }))))
  else s

/-- POOL_PORT_LINK_LOSS (R3). -/
def execPoolPortLinkLoss (s : State) : Host.Outcome State Fault Refusal := whileRunning poolLinkLoss s

/-- POOL_PORT_LINK_UP (R3). -/
def execPoolPortLinkUp (s : State) : Host.Outcome State Fault Refusal :=
  whileRunning (fun s => { s with links.poolUp := true }) s

/-! ### The risk halt lines -/

/-- The halt condition asserted: held tenants' pause marks are set (R126, R141). -/
def assertHalt (s : State) : State :=
  { s with
    pairHalt.haltCondition := true
    records := s.records.map fun r => { r with pauseMark := r.pauseMark || r.attrs.haltable } }

/-- A rising edge of HALT_REQ; while a reset is held only the line's level changes (R141). -/
def riseHalt (s : State) : State :=
  if s.pairHalt.haltReq then s
  else if s.control.held = .no then assertHalt { s with pairHalt.haltReq := true }
  else { s with pairHalt.haltReq := true }

/-- HALT_REQ_RISING (R141, R143). -/
def execHaltReqRising (s : State) : Host.Outcome State Fault Refusal := .next (riseHalt s)

/-- HALT_REQ_FALLING: the halt condition falls with the line (R141, R143). -/
def execHaltReqFalling (s : State) : Host.Outcome State Fault Refusal :=
  .next { s with pairHalt.haltReq := false, pairHalt.haltCondition := false }

/-! ### Power-on and pin reset -/

/-- A reset held: every piece of state at its power-on value. What is outside the part stays: the level on HALT_REQ, what has already left the part, and the waiting commands (R151). -/
def holdReset (held : Held) (s : State) : State :=
  { State.powerOn with
    pending := s.pending
    pairHalt.haltReq := s.pairHalt.haltReq
    control.held := held
    wires := s.wires }

/-- POWER_ON_RESET: a supply out of range, whatever is held (R151). -/
def execPowerOnReset (s : State) : Host.Outcome State Fault Refusal := .next (holdReset .powerOn s)

/-- A pin reset keeps the strap snapshot; it does not begin while a power-on reset is held (R152). -/
def pinReset (s : State) : State :=
  if s.control.held = .powerOn then s
  else { holdReset .pin s with control.straps := s.control.straps, control.cause := s.control.cause }

/-- PIN_RESET (R152). -/
def execPinReset (s : State) : Host.Outcome State Fault Refusal := .next (pinReset s)

/-- What the release of a reset does once the strap snapshot and RESET_CAUSE stand: the start mode, HALT_REQ sampled, the start boundary raised and taken (R44, R141, R146, R151; DEDUCED: within the release, notes/assumptions/5.md). -/
def restart (s : State) : State :=
  let awake : State := { s with
    control.held := .no, control.mode := startMode s.control.straps, control.pendingMode := .none
    timer.startDue := true }
  frameBoundary (if s.pairHalt.haltReq then assertHalt awake else awake)

/-- The release of a power-on reset: the straps are latched and RESET_CAUSE becomes POWER_ON (R150, R151, R155). -/
def powerOnRelease (straps : Straps) (s : State) : State :=
  if s.control.held = .powerOn then restart { s with control.straps := straps, control.cause := .powerOn } else s

/-- POWER_ON_RELEASE (R151). -/
def execPowerOnRelease (straps : Straps) (s : State) : Host.Outcome State Fault Refusal := .next (powerOnRelease straps s)

/-- The release of a pin reset: RESET_CAUSE becomes PIN and the strap snapshot stands (R152, R155). -/
def pinResetRelease (s : State) : State :=
  if s.control.held = .pin then restart { s with control.cause := .pin } else s

/-- PIN_RESET_RELEASE (R152). -/
def execPinResetRelease (s : State) : Host.Outcome State Fault Refusal := .next (pinResetRelease s)

end Sys2Proof.Machine
end

