-- ==== Sys2Proof/Machine/Commands.lean ====
section
/-! DEFINITION. The commands given through CMD: START, QUIESCE, STOP, RESUME, CLEAR, TENANT_RESET, PAIR_SWAP, MODE_SET, RUNTIME_RESET and UNKNOWN_COMMAND (R117 to R123, R137, R147, R153, R173). -/

namespace Sys2Proof.Machine

/-! ### The port's part of a write -/

/-- A data byte has been written at the last byte of a field: it is acknowledged, the pointer stands after the field, and both holding latches are empty (R167 to R170). -/
def dataByteTaken (f : Field) (s : State) : State :=
  { s with
    port.pointer := BitVec.ofNat 7 ((fieldPlace f).1 + (fieldPlace f).2)
    port.writeLatch := none
    port.readLatch := none
    wires.bus := s.wires.bus ++ [.ack] }

/-! ### Tenant commands -/

/-- A tenant command acts on the tenant its argument names; a number above 23 gives BAD_ARG (R117). -/
def onTenant (arg : Byte) (f : TenantId → State → State × CmdResult) (s : State) : State × CmdResult :=
  match tenantOf arg with
  | none => (s, .badArg)
  | some t => f t s

/-- START of an OFF tenant, subject to the floor check (R47, R118). -/
def startTenant (t : TenantId) (s : State) : State × CmdResult :=
  if (recordAt s t).state = .off then
    if floorSum s + (recordAt s t).floor ≤ effectiveCap s then
      (changeRecord t (fun r => { r with state := .active, target := .none }) s, .ok)
    else (s, .floorOver)
  else (s, .wrongState)

/-- QUIESCE of an ACTIVE tenant (R119). -/
def quiesceTenant (t : TenantId) (s : State) : State × CmdResult :=
  if (recordAt s t).state = .active then (beginDrain t .quiesced s, .ok) else (s, .wrongState)

/-- STOP of an ACTIVE or a QUIESCED tenant (R120). -/
def stopTenant (t : TenantId) (s : State) : State × CmdResult :=
  match (recordAt s t).state with
  | .active => (beginDrain t .off s, .ok)
  | .quiesced => (changeRecord t (fun r => { r with state := .off }) (discardAll t s), .ok)
  | _ => (s, .wrongState)

/-- A descriptor no longer parked (R35). -/
def unpark (d : Descriptor) : Descriptor := { d with parked := false }

/-- RESUME of a DRAINING or a QUIESCED tenant: ACTIVE, no target, parked descriptors ordinary again (R35, R121). -/
def resumeTenant (t : TenantId) (s : State) : State × CmdResult :=
  if (recordAt s t).state = .draining ∨ (recordAt s t).state = .quiesced then
    (changeQueues t (fun u => { u with rq := u.rq.map unpark, wq := u.wq.map unpark })
      (changeRecord t (fun r => { r with state := .active, target := .none }) s), .ok)
  else (s, .wrongState)

/-- CLEAR of a FENCED tenant (R122). -/
def clearTenant (t : TenantId) (s : State) : State × CmdResult :=
  if (recordAt s t).state = .fenced then (changeRecord t (fun r => { r with state := .off }) s, .ok) else (s, .wrongState)

/-- TENANT_RESET: everything queued refused; credit, spent, retry mark, strikes, demoted flag and counters cleared; then the drain tested (R123). -/
def resetTenant (t : TenantId) (s : State) : State × CmdResult :=
  (testDrain t
    (countTenant t (fun _ => TenantCounters.zero)
      (changeRecord t (fun r => { r with strikes := 0, demoted := false })
        (changeQueues t (fun u => { u with retryMark := false })
          (changeCredit t (fun e => { e with credit := 0, spent := 0 }) (discardAll t s))))), .ok)

/-! ### PAIR_SWAP -/

/-- The other member. -/
def otherMember : Member → Member
  | .primary => .secondary
  | .secondary => .primary

/-- The old active member's WQ refused, then its drain tested (R137). A drain that so ends in OFF refuses the parked RQ in the same event, whose responses R33 has leave in stamp order across RQ and WQ together (DEDUCED, notes/assumptions/20.md). -/
def sweepWrites (t : TenantId) (s : State) : State :=
  let swept := discardWrites t s
  if drainDone swept t ∧ (recordAt s t).target = .off then completeDrain t s else testDrain t swept

/-- The swap of a pair: GUARD, the active member flipped, the old active member's WQ refused, its drain and the settle test made (R137). -/
def swapPair (p : PairId) (s : State) : State :=
  let old := activeTenant (s.pairHalt.pairs.get p)
  let flipped : State := { s with pairHalt.pairs := s.pairHalt.pairs.modify p fun e =>
    { e with inGuard := true, counter := e.guard, active := otherMember e.active } }
  testSettle p (sweepWrites old flipped)

/-- PAIR_SWAP (R137). -/
def pairSwap (arg : Byte) (s : State) : State × CmdResult :=
  match pairOf arg with
  | none => (s, .badArg)
  | some p =>
    if (s.pairHalt.pairs.get p).valid = false then (s, .wrongState)
    else if (s.pairHalt.pairs.get p).inGuard then (s, .pairBusy)
    else (swapPair p s, .ok)

/-! ### MODE_SET -/

/-- HOLD made current sets the pause mark of every tenant whose latched EXEMPT is clear (R126, R149). -/
def pauseForHold (s : State) : State :=
  { s with records := Table.build fun t =>
    { recordAt s t with pauseMark := (recordAt s t).pauseMark || !(creditAt s t).settings.exempt } }

/-- MODE_SET to HOLD: current in the command event, any pending mode cancelled (R147). -/
def enterHold (s : State) : State :=
  let paused := if s.control.mode = .hold then s else pauseForHold s
  { paused with control.mode := .hold, control.pendingMode := .none }

/-- MODE_SET (R147, R173). -/
def modeSet (arg : Byte) (s : State) : State × CmdResult :=
  match arg.toNat with
  | 1 => ({ s with control.pendingMode := .transparent }, .ok)
  | 2 => ({ s with control.pendingMode := .govern }, .ok)
  | 3 => (enterHold s, .ok)
  | _ => (s, .badArg)

/-! ### RUNTIME_RESET -/

/-- A runtime reset: every block resets its own state in the one event, the frame in progress ends, and the start boundary is raised (R39, R44, R48, R64, R90, R131, R153). It is due until FRAME_BOUNDARY or the passing of time takes it, and every event taken before that meets the reset state (R153). A second runtime reset before it leaves one due (DESIGN CHOICE, notes/assumptions/5.md). -/
def runtimeReset (s : State) : State :=
  { s with
    timer.phase := 16 * s.timer.frameLength - 1
    timer.startDue := true
    admission.queues := s.admission.queues.map fun u => { u with retryMark := false }
    solver := ⟨false, Snapshot.empty, SolveResult.empty, false⟩
    credit := ⟨s.credit.tenants.map fun e =>
      { e with credit := 0, spent := 0, releasedNow := 0, releasedPrevious := 0 }, 0⟩
    arbiter.ownPointer := 23
    arbiter.borrowPointer := 23
    records := s.records.map fun r => { r with strikes := 0, demoted := false, pauseMark := true }
    observe.ring := []
    control.cause := .runtime }

/-! ### CMD -/

/-- A command code with its argument: the command's effect and its result (R173, R174). -/
def runCommand (code arg : Byte) (s : State) : State × CmdResult :=
  match code.toNat with
  | 1 => onTenant arg startTenant s
  | 2 => onTenant arg quiesceTenant s
  | 3 => onTenant arg stopTenant s
  | 4 => onTenant arg resumeTenant s
  | 5 => onTenant arg clearTenant s
  | 6 => onTenant arg resetTenant s
  | 7 => pairSwap arg s
  | 8 => modeSet arg s
  | 9 => (runtimeReset s, .ok)
  | _ => (s, .badArg)

/-- The command event: CMD holds the code written and CMD_RESULT the result (R173). -/
def commandEvent (code : Byte) (s : State) : State :=
  let done := runCommand code s.port.cmdArg s
  { done.1 with port.cmd := code, port.cmdResult := done.2 }

/-- A whole write of a code to CMD, with an argument standing in CMD_ARG (R173). -/
def issueCommand (code arg : Byte) (s : State) : State :=
  commandEvent code (dataByteTaken (.direct .cmd) { s with port.cmdArg := arg })

/-- START (R118). -/
def execStart (arg : Byte) (s : State) : Host.Outcome State Fault Refusal := whileRunning (issueCommand 1 arg) s
/-- QUIESCE (R119). -/
def execQuiesce (arg : Byte) (s : State) : Host.Outcome State Fault Refusal := whileRunning (issueCommand 2 arg) s
/-- STOP (R120). -/
def execStop (arg : Byte) (s : State) : Host.Outcome State Fault Refusal := whileRunning (issueCommand 3 arg) s
/-- RESUME (R121). -/
def execResume (arg : Byte) (s : State) : Host.Outcome State Fault Refusal := whileRunning (issueCommand 4 arg) s
/-- CLEAR (R122). -/
def execClear (arg : Byte) (s : State) : Host.Outcome State Fault Refusal := whileRunning (issueCommand 5 arg) s
/-- TENANT_RESET (R123). -/
def execTenantReset (arg : Byte) (s : State) : Host.Outcome State Fault Refusal := whileRunning (issueCommand 6 arg) s
/-- PAIR_SWAP (R137). -/
def execPairSwap (arg : Byte) (s : State) : Host.Outcome State Fault Refusal := whileRunning (issueCommand 7 arg) s
/-- MODE_SET (R147). -/
def execModeSet (arg : Byte) (s : State) : Host.Outcome State Fault Refusal := whileRunning (issueCommand 8 arg) s
/-- RUNTIME_RESET: CMD_ARG is ignored and kept (R153, R173). -/
def execRuntimeReset (s : State) : Host.Outcome State Fault Refusal := whileRunning (fun s => issueCommand 9 s.port.cmdArg s) s
/-- UNKNOWN_COMMAND: the code is written to CMD and, naming no command, gives BAD_ARG (R173). -/
def execUnknownCommand (code : Byte) (s : State) : Host.Outcome State Fault Refusal :=
  whileRunning (fun s => issueCommand code s.port.cmdArg s) s

end Sys2Proof.Machine
end

