-- ==== Sys2Proof/Machine/Fabric.lean ====
section
/-! DEFINITION. The fabric traffic: ARRIVAL, GRANT, END_OF_SEND and POOL_RESPONSE (chapters Fabric Traffic and Classification, Admission, Credit and Release, Outstanding Requests and the Return Path). -/

namespace Sys2Proof.Machine

/-! ### ARRIVAL -/

/-- The answer an arrival receives at once (R27). -/
def answerArrival (q : RequesterId) (tag : Byte) (b : RequestBody) (status : ResponseStatus) (s : State) : State :=
  sendUp ⟨bodyKind b, q, tag, status, []⟩ s

/-- An arrival for an OFF or FENCED tenant: REFUSED, counted; UNMAPPED when it was unmapped and the default tenant is OFF (R15, R27). -/
def refuseArrival (t : TenantId) (unmapped : Bool) (q : RequesterId) (tag : Byte) (b : RequestBody) (s : State) : State :=
  let counted := countTenant t (fun c => { c with refused := c.refused + 1 }) (answerArrival q tag b .refused s)
  if unmapped ∧ (recordAt s s.classifier.defaultTenant).state = .off then raiseAlert .unmapped counted else counted

/-- An arrival that fails the descriptor or payload test: RETRY, counted, retry mark set (R27, R38). -/
def retryArrival (t : TenantId) (q : RequesterId) (tag : Byte) (b : RequestBody) (s : State) : State :=
  changeQueues t (fun u => { u with retryMark := true })
    (countTenant t (fun c => { c with retry := c.retry + 1 }) (answerArrival q tag b .retry s))

/-- The payload an arrival brings. -/
def bodyPayload : RequestBody → List Byte
  | .write _ p => p
  | _ => []

/-- The descriptor of an admitted request (R21, R31). -/
def newDescriptor (t : TenantId) (q : RequesterId) (tag : Byte) (b : RequestBody) (s : State) : Descriptor where
  tenant := t
  requester := q
  tag := tag
  kind := bodyKind b
  address := bodyAddress b
  length := bodyLength b
  charge := chargeOf s.admission.writeFactor b
  stamp := s.admission.nextStamp
  age := 0
  parked := (recordAt s t).state == .draining || (recordAt s t).state == .quiesced
  blocks := blocksFor (blocksNeeded b) s

/-- A descriptor at the tail of its queue: the RQ for a READ, the WQ for a WRITE or FLUSH (R31). -/
def enqueue (d : Descriptor) (u : TenantQueues) : TenantQueues :=
  if d.kind = .read then { u with rq := u.rq ++ [d] } else { u with wq := u.wq ++ [d] }

/-- Admission: the descriptor, the payload blocks, the stamp, the queue, the write order list and the requests-accepted counter (R31). -/
def admitArrival (t : TenantId) (q : RequesterId) (tag : Byte) (b : RequestBody) (s : State) : State :=
  let d := newDescriptor t q tag b s
  let queued := changeQueues t (enqueue d) (storePayload d.blocks (bodyPayload b) s)
  let stamped : State := { queued with admission.nextStamp := s.admission.nextStamp + 1 }
  let listed := if d.kind = .write then joinOrder q d.stamp stamped else stamped
  countTenant t (fun c => { c with accepted := c.accepted + 1 }) listed

/-- The arrival event for a tenant: the four tests in order (R27). -/
def admission (t : TenantId) (unmapped : Bool) (q : RequesterId) (tag : Byte) (b : RequestBody) (s : State) : State :=
  if (recordAt s t).state = .off ∨ (recordAt s t).state = .fenced then refuseArrival t unmapped q tag b s
  else if descriptorTest s t = false then retryArrival t q tag b s
  else if freeBlockCount s < blocksNeeded b then retryArrival t q tag b s
  else admitArrival t q tag b s

/-- A request taken at the Switch Port is classified and handed to admission; none arrives while the link is DOWN (R1, R5, R13). -/
def takeArrival (q : RequesterId) (tag : Byte) (b : RequestBody) (s : State) : State :=
  if s.links.switchUp then
    admission (classify s.classifier q b).1 (classify s.classifier q b).2 q tag b s
  else s

/-- ARRIVAL (R4, R5, R27). A length the link frame cannot carry is no request. -/
def execArrival (q : RequesterId) (tag : Byte) (b : RequestBody) (s : State) : Host.Outcome State Fault Refusal :=
  if lengthFits b then whileRunning (takeArrival q tag b) s else .refused .impossibleLength

/-! ### GRANT -/

/-- A queue head that a tenant presents, with the queue it heads (R80). -/
structure Candidate where
  tenant : TenantId
  fromWq : Bool
  desc : Descriptor
  deriving DecidableEq, Repr

/-- Condition 1 of R79: ACTIVE, or DRAINING with a head before the mark, that is not parked (R35). -/
def stateReleases (r : TenantRecord) (d : Descriptor) : Bool :=
  r.state == .active || (r.state == .draining && !d.parked)

/-- Condition 4 of R79: a FLUSH's requester has no older write in its list (R105). -/
def barrierOpen (s : State) (d : Descriptor) : Bool :=
  d.kind != .flush || (s.paths.orderLists.get d.requester.toFin).all fun x => !older x d.stamp

/-- Conditions 1 to 4 of R79, the release gates of every port mode. -/
def gatesPass (s : State) (t : TenantId) (fromWq : Bool) (d : Descriptor) : Bool :=
  stateReleases (recordAt s t) d && !heldByHalt s t && (!fromWq || gateOpen s t) && barrierOpen s d

/-- A head is aged (R75). -/
def headAged (s : State) (t : TenantId) (d : Descriptor) : Bool :=
  (creditAt s t).settings.ageb != 0 && (creditAt s t).settings.ageb ≤ d.age

/-- The spare pool can pay a charge for a tenant: it holds the charge, and spent stays within the draw ceiling (R74, R75). -/
def sparePays (s : State) (t : TenantId) (charge : Nat) : Bool :=
  charge ≤ s.credit.spare && (creditAt s t).spent + charge ≤ (creditAt s t).settings.drawCeiling

/-- Condition 5 of R79: the tenant can pay by R73, R74 or R75. -/
def canPay (s : State) (t : TenantId) (d : Descriptor) : Bool :=
  1 ≤ (creditAt s t).credit ||
    (((creditAt s t).settings.borrow || headAged s t d) && sparePays s t d.charge)

/-- A head passes the test of the port mode in force (R79, R87, R88). -/
def headPasses (s : State) (t : TenantId) (fromWq : Bool) (d : Descriptor) : Bool :=
  gatesPass s t fromWq d &&
    match s.control.mode with
    | .govern => canPay s t d
    | .transparent => true
    | .hold => (creditAt s t).settings.exempt

/-- A head that passes, as a candidate. -/
def presented (s : State) (t : TenantId) (fromWq : Bool) (queue : List Descriptor) : Option Candidate :=
  match queue with
  | [] => none
  | d :: _ => if headPasses s t fromWq d then some ⟨t, fromWq, d⟩ else none

/-- The older of two presented heads (R80). -/
def olderCandidate (a b : Option Candidate) : Option Candidate :=
  match a, b with
  | some x, some y => if older y.desc.stamp x.desc.stamp then some y else some x
  | some x, none => some x
  | none, b => b

/-- A tenant's candidate (R80). -/
def candidateOf (s : State) (t : TenantId) : Option Candidate :=
  olderCandidate (presented s t false (queuesAt s t).rq) (presented s t true (queuesAt s t).wq)

/-- All candidates, by tenant number. -/
def candidates (s : State) : List Candidate := (List.finRange 24).filterMap (candidateOf s)

/-- The candidate with the oldest arrival stamp (R83, R87, R88). -/
def oldest (cs : List Candidate) : Option Candidate :=
  cs.foldl (fun best c => olderCandidate best (some c)) none

/-- The tenants in turn after a pointer: up to T23, then from T0 to the pointer's own (R84). -/
def turnAfter (p : TenantId) : List TenantId :=
  (List.finRange 24).filter (fun t => p < t) ++ (List.finRange 24).filter (fun t => t ≤ p)

/-- The first candidate in turn after a pointer that belongs to a class (R84, R85). -/
def firstInTurn (s : State) (p : TenantId) (inClass : Candidate → Bool) : Option Candidate :=
  (turnAfter p).findSome? fun t =>
    match candidateOf s t with
    | some c => if inClass c then some c else none
    | none => none

/-- The class a grant serves, which decides the pointer it moves (R83 to R88). -/
inductive ReleaseClass where
  | aged | own | borrower | byAge
  deriving DecidableEq, Repr

/-- A candidate is in the own-credit class: not aged, with credit 1 or more (R84). -/
def inOwnClass (s : State) (c : Candidate) : Bool :=
  !headAged s c.tenant c.desc && 1 ≤ (creditAt s c.tenant).credit

/-- A candidate is in the borrower class: not aged, and paid by borrowing (R85). -/
def inBorrowerClass (s : State) (c : Candidate) : Bool :=
  !headAged s c.tenant c.desc && (creditAt s c.tenant).credit ≤ 0

/-- The choice of GOVERN: aged heads, then own credit in turn, then borrowers in turn (R83 to R85). -/
def chooseGovern (s : State) : Option (Candidate × ReleaseClass) :=
  match oldest ((candidates s).filter fun c => headAged s c.tenant c.desc) with
  | some c => some (c, .aged)
  | none =>
    match firstInTurn s s.arbiter.ownPointer (inOwnClass s) with
    | some c => some (c, .own)
    | none => (firstInTurn s s.arbiter.borrowPointer (inBorrowerClass s)).map fun c => (c, .borrower)

/-- The choice of the port mode in force (R83 to R88). -/
def chooseRelease (s : State) : Option (Candidate × ReleaseClass) :=
  match s.control.mode with
  | .govern => chooseGovern s
  | _ => (oldest (candidates s)).map fun c => (c, .byAge)

/-- The payment of a charge: from credit when it is 1 or more, else from the spare pool (R76). -/
def payCharge (t : TenantId) (charge : Nat) (s : State) : State :=
  if 1 ≤ (creditAt s t).credit then
    changeCredit t (fun e => { e with credit := e.credit - charge }) s
  else { s with credit.spare := s.credit.spare - charge }

/-- Spent and released this frame rise by the charge, saturating (R66, R76). -/
def countCharge (charge : Nat) (e : CreditEntry) : CreditEntry :=
  { e with
    spent := min Config.maxSpent (e.spent + charge)
    releasedNow := min Config.maxSpent (e.releasedNow + charge) }

/-- Step 1 of a release: the payment in GOVERN, and the counting in every mode (R86). -/
def payRelease (c : Candidate) (s : State) : State :=
  changeCredit c.tenant (countCharge c.desc.charge)
    (if s.control.mode = .govern then payCharge c.tenant c.desc.charge s else s)

/-- Step 2 of a release: the pointer of the class served (R84, R85, R86). -/
def movePointer (c : Candidate) (k : ReleaseClass) (s : State) : State :=
  match k with
  | .own => { s with arbiter.ownPointer := c.tenant }
  | .borrower => { s with arbiter.borrowPointer := c.tenant }
  | .aged => s
  | .byAge => s

/-- The head of a queue leaves it (R34). -/
def popHead (fromWq : Bool) (u : TenantQueues) : TenantQueues :=
  if fromWq then { u with wq := u.wq.tail } else { u with rq := u.rq.tail }

/-- Step 3 of a release: the head leaves its queue and is recorded under a pool-side tag (R34, R93). -/
def recordRelease (c : Candidate) (tag : Nat) (s : State) : State :=
  let popped := changeQueues c.tenant (popHead c.fromWq) s
  let entry : OutstandingEntry := ⟨c.tenant, c.desc.requester, c.desc.tag, c.desc.kind, c.desc.stamp, 0, false⟩
  { popped with paths.entries := popped.paths.entries.set (BitVec.ofNat 8 tag).toFin (some entry) }

/-- Step 4 of a release: the Pool Port begins sending and the slot is busy (R9, R82). -/
def beginSend (c : Candidate) (tag : Nat) (s : State) : State :=
  let x : Transaction :=
    ⟨c.desc.kind, c.desc.requester, BitVec.ofNat 8 tag, c.desc.address, c.desc.length, c.desc.blocks⟩
  { s with arbiter.slot := some x }

/-- Step 5 of a release: the read or write released block counter by the charge, and the maximum head age (R157, R158). -/
def countRelease (d : Descriptor) (c : TenantCounters) : TenantCounters :=
  noteHeadAge d.age
    (if d.kind = .read then { c with readBlocks := c.readBlocks + BitVec.ofNat 32 d.charge }
     else { c with writeBlocks := c.writeBlocks + BitVec.ofNat 32 d.charge })

/-- The release of a candidate, its steps in order (R86). -/
def release (c : Candidate) (k : ReleaseClass) (tag : Nat) (s : State) : State :=
  countTenant c.tenant (countRelease c.desc)
    (beginSend c tag (recordRelease c tag (movePointer c k (payRelease c s))))

/-- A grant: while the slot is free, the Pool Port link UP and a tag free, one head is released (R81, R82). -/
def takeGrant (s : State) : State :=
  if s.arbiter.slot = none ∧ s.links.poolUp then
    match lowestFreeTag s, chooseRelease s with
    | some tag, some (c, k) => release c k tag s
    | _, _ => s
  else s

/-- GRANT (R82). -/
def execGrant (s : State) : Host.Outcome State Fault Refusal := whileRunning takeGrant s

/-! ### END_OF_SEND -/

/-- The transaction whose send has ended, as it left the Pool Port (R9). -/
def sentRequest (x : Transaction) (s : State) : PoolRequest :=
  ⟨x.kind, x.requester, x.poolTag, x.address, x.length, readPayload x.blocks s⟩

/-- The end of a send: the request has left whole, the slot is free and a WRITE's blocks are returned (R82). -/
def endSend (s : State) : State :=
  match s.arbiter.slot with
  | none => s
  | some x => freeSlot { s with wires.downstream := s.wires.downstream ++ [sentRequest x s] }

/-- END_OF_SEND (R82). -/
def execEndOfSend (s : State) : Host.Outcome State Fault Refusal := whileRunning endSend s

/-! ### POOL_RESPONSE -/

/-- A pool response: matched by tag and kind, or a stray; none arrives while the link is DOWN (R3, R10). -/
def takeResponse (tag : Byte) (kind : ResponseKind) (status : PoolStatus) (data : List Byte) (s : State) : State :=
  if s.links.poolUp then
    match s.paths.entries.get tag.toFin with
    | none => takeStray s
    | some e =>
      if answersKind kind e.kind then afterFreeing (forwardResponse tag e status data s) else takeStray s
  else s

/-- POOL_RESPONSE (R10, R95 to R97). -/
def execPoolResponse (tag : Byte) (kind : ResponseKind) (status : PoolStatus) (data : List Byte) (s : State) :
    Host.Outcome State Fault Refusal :=
  whileRunning (takeResponse tag kind status data) s

end Sys2Proof.Machine
end

