-- ==== Sys2Proof/Machine/Management.lean ====
section
/-! DEFINITION. The Management Port: the write of every field with its clamping, tests and refusals, the byte-by-byte transfers with the two holding latches, and the commands of the table that are management writes and reads (R14, R17, R18, R20, R23, R41, R43, R45, R47, R99, R112, R135, R155, R158, R159, R164, R167 to R172). -/

namespace Sys2Proof.Machine

/-! ### Global configuration fields -/

/-- An FP write: clamped to 8 to 1024, refused with FLOOR when the floors would not fit, else stored with a solve aborted (R41, R47, R63). -/
def writeFp (v : Nat) (s : State) : State :=
  if effCapOf (clamp 8 1024 v) s.timer.cap s.control.straps < floorSum s then refuseWrite .floor s
  else abortSolve { s with timer.fp := clamp 8 1024 v }

/-- A CAP write: clamped to 1 to 16383, refused with FLOOR when the floors would not fit, else stored with a solve aborted (R45, R47, R63). -/
def writeCap (v : Nat) (s : State) : State :=
  if effCapOf s.timer.fp (clamp 1 Config.maxBlocks v) s.control.straps < floorSum s then refuseWrite .floor s
  else abortSolve { s with timer.cap := clamp 1 Config.maxBlocks v }

/-- A WF write, clamped to 4 to 16; a solve is aborted (R20, R63). -/
def writeWf (v : Nat) (s : State) : State := abortSolve { s with admission.writeFactor := clamp 4 16 v }

/-- An LP write, at most 15; a solve is aborted (R43, R63). -/
def writeLp (v : Nat) (s : State) : State := abortSolve { s with timer.lp := min 15 v }

/-- A CTO write, clamped to 1 to 4095; no solve is aborted (R99). -/
def writeCto (v : Nat) (s : State) : State := { s with paths.cto := clamp 1 4095 v }

/-- A default tenant write: 24 or more is refused with RANGE, else stored with a solve aborted (R14, R63). -/
def writeDefaultTenant (v : Byte) (s : State) : State :=
  match tenantOf v with
  | none => refuseWrite .range s
  | some t => abortSolve { s with classifier.defaultTenant := t }

/-! ### Tenant fields -/

/-- A FLOOR write: at most 4095, checked against the effective CAP unless the tenant is OFF (R47, R112). -/
def writeFloor (t : TenantId) (v : Nat) (s : State) : State :=
  let floored := changeRecord t (fun r => { r with floor := min 4095 v }) s
  if (recordAt s t).state ≠ .off ∧ effectiveCap s < floorSum floored then refuseWrite .floor s else floored

/-- A QLIM write: OFF alone, at most 1024, QRES lowered to fit (R23). -/
def writeQlim (t : TenantId) (v : Nat) (s : State) : State :=
  if (recordAt s t).state ≠ .off then refuseWrite .state s
  else changeRecord t (fun r => { r with
    qlim := min Config.descriptors v, qres := min r.qres (min Config.descriptors v) }) s

/-- The sum of the QRES values of all tenants (R23). -/
def reserveSum (s : State) : Nat := sumOver s.records.toList (·.qres)

/-- A QRES write: OFF alone, at most the QLIM, refused with RESERVE when the reserves would pass 1024 (R23). -/
def writeQres (t : TenantId) (v : Nat) (s : State) : State :=
  let reserved := changeRecord t (fun r => { r with qres := min r.qlim v }) s
  if (recordAt s t).state ≠ .off then refuseWrite .state s
  else if Config.descriptors < reserveSum reserved then refuseWrite .reserve s
  else reserved

/-- The attributes written together: a HALTABLE set while the halt condition is asserted holds the tenant and sets its pause mark (R126, R141, R143). -/
def writeAttrs (t : TenantId) (a : Attributes) (s : State) : State :=
  changeRecord t (fun r => { r with
    attrs := a, pauseMark := r.pauseMark || (s.pairHalt.haltCondition && a.haltable) }) s

/-- A write to a TENANT page field; read-only fields ignore it (R112, R132, R168). -/
def writeTenantField (t : TenantId) (f : TenantField) (v : Nat) (s : State) : State :=
  match f with
  | .weight => changeRecord t (fun r => { r with weight := max 1 v }) s
  | .floor => writeFloor t v s
  | .ceil => changeRecord t (fun r => { r with ceil := min Config.maxBlocks v }) s
  | .ageb => changeRecord t (fun r => { r with ageb := v }) s
  | .strikeTh => changeRecord t (fun r => { r with strikeTh := v }) s
  | .drainb => changeRecord t (fun r => { r with drainb := v }) s
  | .attrs => writeAttrs t (attrsOf (BitVec.ofNat 8 v)) s
  | .qlim => writeQlim t v s
  | .qres => writeQres t v s
  | .status | .strikes | .drainMark | .drainClock | .occupancy | .rqDepth | .wqDepth | .queuedCharge | .credit | .spent
  | .releasedNow | .releasedPrevious | .allotment | .demand | .outstanding | .outstandingWrites => s

/-! ### Classifier entries -/

/-- The entry as it would stand after a write; none when the value is out of range (R18). -/
def entryAfter (w : ClassifierWrite) (e : ClassifierEntry) : Option ClassifierEntry :=
  match w with
  | .flags v => some { e with valid := v.getLsbD 0, filter := filterOf v, window := v.getLsbD 3 }
  | .requesterValue v => some { e with value := v.setWidth 6 }
  | .requesterMask v => some { e with mask := v.setWidth 6 }
  | .priority v => some { e with priority := v.setWidth 4 }
  | .tenant v => (tenantOf v).map fun t => { e with tenant := t }
  | .windowBase v => some { e with base := v }
  | .windowLimit v => some { e with limit := v }

/-- A tenant is quiet for a structural write: OFF or QUIESCED (R17, R114, R135). -/
def quiet (s : State) (t : TenantId) : Bool :=
  (recordAt s t).state == .off || (recordAt s t).state == .quiesced

/-- The tenant an entry names, if any, is quiet (R17). -/
def entryQuiet (s : State) (e : ClassifierEntry) : Bool := !e.valid || quiet s e.tenant

/-- A write to a classifier entry: the range test, then the structural test of the tenants named before and after (R17, R18). -/
def writeClassifier (i : EntryId) (w : ClassifierWrite) (s : State) : State :=
  match entryAfter w (s.classifier.entries.get i) with
  | none => refuseWrite .range s
  | some e =>
    if entryQuiet s (s.classifier.entries.get i) && entryQuiet s e then
      { s with classifier.entries := s.classifier.entries.set i e }
    else refuseWrite .state s

/-! ### Pair entries -/

/-- The entry as it would stand after a write; none when a member is 24 or more (R135). -/
def pairAfter (w : PairWrite) (e : PairEntry) : Option PairEntry :=
  match w with
  | .flags v => some { e with valid := v.getLsbD 0, active := if v.getLsbD 1 then .secondary else .primary }
  | .primary v => (tenantOf v).map fun t => { e with primary := t }
  | .secondary v => (tenantOf v).map fun t => { e with secondary := t }
  | .guard v => some { e with guard := v.toNat }

/-- The tenants an entry names, if any, are quiet (R135). -/
def pairQuiet (s : State) (e : PairEntry) : Bool := !e.valid || (quiet s e.primary && quiet s e.secondary)

/-- Another valid entry names a tenant (R135). -/
def pairedElsewhere (s : State) (p : PairId) (t : TenantId) : Bool :=
  (List.finRange 8).any fun o => o != p && (s.pairHalt.pairs.get o).valid && pairNames (s.pairHalt.pairs.get o) t

/-- The membership test of the entry after a write (R135). -/
def membersClash (s : State) (p : PairId) (e : PairEntry) : Bool :=
  e.valid && (e.primary == e.secondary || pairedElsewhere s p e.primary || pairedElsewhere s p e.secondary)

/-- A write to a pair entry: range, guard, tenant state and membership tested in turn (R135). -/
def writePair (p : PairId) (w : PairWrite) (s : State) : State :=
  match pairAfter w (s.pairHalt.pairs.get p) with
  | none => refuseWrite .range s
  | some e =>
    if (s.pairHalt.pairs.get p).inGuard then refuseWrite .guard s
    else if !(pairQuiet s (s.pairHalt.pairs.get p) && pairQuiet s e) then refuseWrite .state s
    else if membersClash s p e then refuseWrite .member s
    else { s with pairHalt.pairs := s.pairHalt.pairs.set p { e with inGuard := false, counter := 0 } }

/-! ### The port's own registers, alerts and counters -/

/-- A PAGE write: an INDEX beyond the new page's range becomes 0; a code of 5 or more is refused with RANGE (R171). -/
def writePage (v : Byte) (s : State) : State :=
  match pageOf v with
  | none => refuseWrite .range s
  | some p => { s with port.page := p, port.index := if s.port.index.val < pageRange p then s.port.index else 0 }

/-- An INDEX write: beyond the page's range it is refused with RANGE (R171). -/
def writeIndex (v : Byte) (s : State) : State :=
  if h : v.toNat < 64 then
    if v.toNat < pageRange s.port.page then { s with port.index := ⟨v.toNat, h⟩ } else refuseWrite .range s
  else refuseWrite .range s

/-- A STATUS write: a 1 in bit 7 clears the flag and its reason (R172). -/
def writeStatus (v : Byte) (s : State) : State :=
  if v.getLsbD 7 then { s with port.status := none } else s

/-- An alert flags write: each 1 clears its flag (R164). -/
def writeAlertFlags (v : Byte) (s : State) : State :=
  { s with observe.flags := s.observe.flags &&& ~~~(v.setWidth 7) }

/-- An alert enables write; bit 7 belongs to no field (R164, R174). -/
def writeAlertEnables (v : Byte) (s : State) : State := { s with observe.enables := v.setWidth 7 }

/-- A write to a link reset count sets it to 0 (R155). -/
def clearLinkCount (p : FabricPort) (s : State) : State :=
  match p with
  | .switch => { s with links.switchResets := 0 }
  | .pool => { s with links.poolLosses := 0 }

/-- A write to a global counter sets it to 0 (R159). -/
def clearGlobalCounter (c : GlobalCounter) (s : State) : State :=
  match c with
  | .stray => { s with observe.strays := 0 }
  | .staleFrames => { s with observe.staleFrames := 0 }

/-! ### A whole write to any field -/

/-- A value written to a direct register; read-only registers ignore it (R168, R174). -/
def writeDirect (f : DirectField) (v : Nat) (s : State) : State :=
  match f with
  | .status => writeStatus (BitVec.ofNat 8 v) s
  | .cmd => commandEvent (BitVec.ofNat 8 v) s
  | .cmdArg => { s with port.cmdArg := BitVec.ofNat 8 v }
  | .page => writePage (BitVec.ofNat 8 v) s
  | .index => writeIndex (BitVec.ofNat 8 v) s
  | .fp => writeFp v s
  | .cap => writeCap v s
  | .lp => writeLp v s
  | .wf => writeWf v s
  | .cto => writeCto v s
  | .defaultTenant => writeDefaultTenant (BitVec.ofNat 8 v) s
  | .alertFlags => writeAlertFlags (BitVec.ofNat 8 v) s
  | .alertEnables => writeAlertEnables (BitVec.ofNat 8 v) s
  | .switchResets => clearLinkCount .switch s
  | .poolLosses => clearLinkCount .pool s
  | .strays => clearGlobalCounter .stray s
  | .staleFrames => clearGlobalCounter .staleFrames s
  | .id | .mode | .cmdResult | .effCap | .alertCode | .halt | .resetCause | .straps | .links => s

/-- The classifier write that a value written to a classifier field makes (R174). -/
def classifierWriteOf (f : ClassifierField) (v : Nat) : ClassifierWrite :=
  match f with
  | .flags => .flags (BitVec.ofNat 8 v)
  | .value => .requesterValue (BitVec.ofNat 8 v)
  | .mask => .requesterMask (BitVec.ofNat 8 v)
  | .priority => .priority (BitVec.ofNat 8 v)
  | .tenant => .tenant (BitVec.ofNat 8 v)
  | .base => .windowBase (BitVec.ofNat 48 v)
  | .limit => .windowLimit (BitVec.ofNat 48 v)

/-- A value written to a PAIR page field; state and guard counter ignore it (R134, R135). -/
def writePairField (p : PairId) (f : PairField) (v : Nat) (s : State) : State :=
  match f with
  | .flags => writePair p (.flags (BitVec.ofNat 8 v)) s
  | .primary => writePair p (.primary (BitVec.ofNat 8 v)) s
  | .secondary => writePair p (.secondary (BitVec.ofNat 8 v)) s
  | .guard => writePair p (.guard (BitVec.ofNat 8 v)) s
  | .state | .counter => s

/-- A value written whole to any field; the COUNTERS and FRAMES pages ignore it (R169, R171). -/
def writeField (f : Field) (v : Nat) (s : State) : State :=
  match f with
  | .direct d => writeDirect d v s
  | .tenant t d => writeTenantField t d v s
  | .classifier e d => writeClassifier e (classifierWriteOf d v) s
  | .pair p d => writePairField p d v s
  | .counters _ _ => s
  | .frames _ _ => s

/-! ### Transfers, byte by byte -/

/-- The pointer advances by 1, from 0x7F to 0x00 (R168). -/
def advancePointer (s : State) : State := { s with port.pointer := s.port.pointer + 1 }

/-- The part drives something on SDA. -/
def driveBus (o : BusOutput) (s : State) : State := { s with wires.bus := s.wires.bus ++ [o] }

/-- The bytes the write holding latch holds for a field (R169). -/
def latchedBytes (l : Option WriteLatch) (f : Field) : List (Nat × Byte) :=
  match l with
  | some w => if w.field = f then w.bytes else []
  | none => []

/-- Byte `k` of a field being assembled: the latched byte, else the byte of the stored value (R169). -/
def heldByte (bytes : List (Nat × Byte)) (stored k : Nat) : Byte :=
  match bytes.lookup k with
  | some b => b
  | none => byteOf stored k

/-- The value of bytes, least significant first. -/
def ofBytes : List Byte → Nat
  | [] => 0
  | b :: rest => b.toNat + 256 * ofBytes rest

/-- The assembled value: the byte written at the top, the latched bytes below it, the stored value's bytes for the rest (R169). -/
def assemble (bytes : List (Nat × Byte)) (stored width : Nat) (top : Byte) : Nat :=
  ofBytes ((List.range (width - 1)).map (heldByte bytes stored) ++ [top])

/-- A data byte written at the pointer: latched below the highest byte of a multi-byte field, taking effect at the highest; an unassigned address ignores it (R168, R169). -/
def writeByteAt (b : Byte) (s : State) : State :=
  match fieldAt s with
  | none => { s with port.writeLatch := none }
  | some f =>
    let k := s.port.pointer.toNat - (fieldPlace f).1
    if k + 1 < (fieldPlace f).2 then
      { s with port.writeLatch := some ⟨f, (k, b) :: (latchedBytes s.port.writeLatch f).filter (·.1 != k)⟩ }
    else
      writeField f (assemble (latchedBytes s.port.writeLatch f) (fieldValue s f) (fieldPlace f).2 b)
        { s with port.writeLatch := none }

/-- A data byte of a write transfer: acknowledged, written at the pointer, the read snapshot latch emptied, the pointer advanced (R167, R168, R170). -/
def dataByteWritten (b : Byte) (s : State) : State :=
  advancePointer (writeByteAt b (driveBus .ack { s with port.readLatch := none }))

/-- The effect of a read on a field that clears on read, the maximum head age (R158, R168). -/
def clearOnRead (f : Option Field) (s : State) : State :=
  match f with
  | some (.counters t .maxHeadAge) => countTenant t (fun c => { c with maxHeadAge := 0 }) s
  | _ => s

/-- The value a read of a field's byte takes its bytes from: the latched value while the latch holds the field, else the present one (R170). -/
def valueForRead (s : State) (f : Field) (k : Nat) : Nat :=
  match s.port.readLatch with
  | some l => if l.field = f ∧ k ≠ 0 then l.value else fieldValue s f
  | none => fieldValue s f

/-- The byte read at the pointer; an unassigned address reads 0 (R168, R170). -/
def byteAtPointer (s : State) : Byte :=
  match fieldAt s with
  | none => 0
  | some f => byteOf (valueForRead s f (s.port.pointer.toNat - (fieldPlace f).1)) (s.port.pointer.toNat - (fieldPlace f).1)

/-- The read snapshot latch after a byte read at the pointer: filled at the lowest byte of a multi-byte field, kept within the latched field, emptied elsewhere (R170). -/
def latchAfterRead (s : State) : Option ReadLatch :=
  match fieldAt s with
  | none => none
  | some f =>
    if s.port.pointer.toNat = (fieldPlace f).1 ∧ 1 < (fieldPlace f).2 then some ⟨f, fieldValue s f⟩
    else
      match s.port.readLatch with
      | some l => if l.field = f then some l else none
      | none => none

/-- A read transfer goes on while the controller acknowledges (R167). -/
def afterAck (acknowledged : Bool) : Transfer := if acknowledged then .reading else .ignored

/-- A byte of a read transfer: driven, its field cleared where a read clears, the latch kept, filled or emptied, the pointer advanced (R167, R168, R170). -/
def dataByteSent (acknowledged : Bool) (s : State) : State :=
  let sent := clearOnRead (fieldAt s) (driveBus (.byte (byteAtPointer s)) s)
  advancePointer { sent with port.readLatch := latchAfterRead s, port.transfer := afterAck acknowledged }

/-- The part's target address (R167). -/
def ownAddress (s : State) : Nat := Config.managementBase + s.control.straps.addr.toNat

/-- The transfer an address byte begins (R167). -/
def transferFor (s : State) (target : BitVec 7) (d : Direction) : Transfer :=
  if target.toNat = ownAddress s then
    match d with
    | .write => .awaitPointer
    | .read => .reading
  else .ignored

/-- A START or repeated START with its address byte: both latches emptied, the part's own address acknowledged (R167, R169, R170). -/
def startTransfer (target : BitVec 7) (d : Direction) (s : State) : State :=
  let begun : State := { s with
    port.writeLatch := none, port.readLatch := none, port.transfer := transferFor s target d }
  if target.toNat = ownAddress s then driveBus .ack begun else begun

/-- A STOP: both latches emptied, no transfer (R169, R170). -/
def stopTransfer (s : State) : State :=
  { s with port.writeLatch := none, port.readLatch := none, port.transfer := .idle }

/-- The pointer byte of a write transfer (R167, R168). -/
def takePointer (b : Byte) (s : State) : State :=
  if s.port.transfer = .awaitPointer then
    driveBus .ack { s with port.pointer := b.setWidth 7, port.transfer := .writing }
  else s

/-- A field's lowest byte is at the pointer, and the field has more bytes (R170). -/
def atLowestByte (s : State) : Bool :=
  match fieldAt s with
  | none => false
  | some f => s.port.pointer.toNat == (fieldPlace f).1 && 1 < (fieldPlace f).2

/-! ### The commands -/

/-- I2C_START_CONDITION (R167). -/
def execI2cStartCondition (target : BitVec 7) (d : Direction) (s : State) : Host.Outcome State Fault Refusal :=
  whileRunning (startTransfer target d) s

/-- I2C_STOP_CONDITION (R167, R169, R170). -/
def execI2cStopCondition (s : State) : Host.Outcome State Fault Refusal := whileRunning stopTransfer s

/-- POINTER_BYTE (R168). A byte that is not the first of a write transfer to the part is no pointer byte. -/
def execPointerByte (b : Byte) (s : State) : Host.Outcome State Fault Refusal := whileRunning (takePointer b) s

/-- MANAGEMENT_WRITE: a data byte of a write transfer to the part (R167, R169). -/
def execManagementWrite (b : Byte) (s : State) : Host.Outcome State Fault Refusal :=
  whileRunning (fun s => if s.port.transfer = .writing then dataByteWritten b s else s) s

/-- DATA_BYTE_READ: a byte of a read transfer from the part (R167). -/
def execDataByteRead (acknowledged : Bool) (s : State) : Host.Outcome State Fault Refusal :=
  whileRunning (fun s => if s.port.transfer = .reading then dataByteSent acknowledged s else s) s

/-- READ_SNAPSHOT: the byte of a read transfer that is a multi-byte field's lowest (R170). -/
def execReadSnapshot (acknowledged : Bool) (s : State) : Host.Outcome State Fault Refusal :=
  whileRunning (fun s => if s.port.transfer = .reading ∧ atLowestByte s then dataByteSent acknowledged s else s) s

/-- MAXIMUM_HEAD_AGE_READ of a tenant: the value is sent and the field becomes 0 (R158, R167, R170). DESIGN CHOICE: the row, a whole read, leaves the pointer after the field and both holding latches empty, as the START of its read transfer would have left the write holding latch (R169; notes/assumptions/10.md). -/
def execMaximumHeadAgeRead (t : TenantId) (s : State) : Host.Outcome State Fault Refusal :=
  whileRunning (fun s =>
    clearOnRead (some (.counters t .maxHeadAge))
      { driveBus (.byte (byteOf (s.observe.counters.get t).maxHeadAge 0)) s with
        port.pointer := BitVec.ofNat 7 ((fieldPlace (.counters t .maxHeadAge)).1 + 1)
        port.writeLatch := none
        port.readLatch := none }) s

/-- PAGE_WRITE (R171). -/
def execPageWrite (v : Byte) (s : State) : Host.Outcome State Fault Refusal :=
  whileRunning (fun s => writePage v (dataByteTaken (.direct .page) s)) s

/-- INDEX_WRITE (R171). -/
def execIndexWrite (v : Byte) (s : State) : Host.Outcome State Fault Refusal :=
  whileRunning (fun s => writeIndex v (dataByteTaken (.direct .index) s)) s

/-- STATUS_CLEAR (R172). -/
def execStatusClear (v : Byte) (s : State) : Host.Outcome State Fault Refusal :=
  whileRunning (fun s => writeStatus v (dataByteTaken (.direct .status) s)) s

/-- ALERT_FLAG_CLEAR (R164). -/
def execAlertFlagClear (v : Byte) (s : State) : Host.Outcome State Fault Refusal :=
  whileRunning (fun s => writeAlertFlags v (dataByteTaken (.direct .alertFlags) s)) s

/-- ALERT_ENABLES_WRITE (R164). -/
def execAlertEnablesWrite (v : Byte) (s : State) : Host.Outcome State Fault Refusal :=
  whileRunning (fun s => writeAlertEnables v (dataByteTaken (.direct .alertEnables) s)) s

/-- The register of a link reset count. -/
def linkCountField : FabricPort → Field
  | .switch => .direct .switchResets
  | .pool => .direct .poolLosses

/-- LINK_RESET_COUNT_CLEAR: the count becomes 0 whatever is written (R155). -/
def execLinkResetCountClear (p : FabricPort) (_ : BitVec 16) (s : State) : Host.Outcome State Fault Refusal :=
  whileRunning (fun s => clearLinkCount p (dataByteTaken (linkCountField p) s)) s

/-- The register of a global counter. -/
def globalCounterField : GlobalCounter → Field
  | .stray => .direct .strays
  | .staleFrames => .direct .staleFrames

/-- GLOBAL_COUNTER_CLEAR: the counter becomes 0 whatever is written (R159). -/
def execGlobalCounterClear (c : GlobalCounter) (_ : BitVec 32) (s : State) : Host.Outcome State Fault Refusal :=
  whileRunning (fun s => clearGlobalCounter c (dataByteTaken (globalCounterField c) s)) s

/-- FP_WRITE (R41). -/
def execFpWrite (v : BitVec 16) (s : State) : Host.Outcome State Fault Refusal :=
  whileRunning (fun s => writeFp v.toNat (dataByteTaken (.direct .fp) s)) s

/-- CAP_WRITE (R45). -/
def execCapWrite (v : BitVec 16) (s : State) : Host.Outcome State Fault Refusal :=
  whileRunning (fun s => writeCap v.toNat (dataByteTaken (.direct .cap) s)) s

/-- WF_WRITE (R20). -/
def execWfWrite (v : Byte) (s : State) : Host.Outcome State Fault Refusal :=
  whileRunning (fun s => writeWf v.toNat (dataByteTaken (.direct .wf) s)) s

/-- LP_WRITE (R43). -/
def execLpWrite (v : Byte) (s : State) : Host.Outcome State Fault Refusal :=
  whileRunning (fun s => writeLp v.toNat (dataByteTaken (.direct .lp) s)) s

/-- CTO_WRITE (R99). -/
def execCtoWrite (v : BitVec 16) (s : State) : Host.Outcome State Fault Refusal :=
  whileRunning (fun s => writeCto v.toNat (dataByteTaken (.direct .cto) s)) s

/-- DEFAULT_TENANT_WRITE (R14). -/
def execDefaultTenantWrite (v : Byte) (s : State) : Host.Outcome State Fault Refusal :=
  whileRunning (fun s => writeDefaultTenant v (dataByteTaken (.direct .defaultTenant) s)) s

/-- FLOOR_WRITE (R47, R112). -/
def execFloorWrite (t : TenantId) (v : BitVec 16) (s : State) : Host.Outcome State Fault Refusal :=
  whileRunning (fun s => writeFloor t v.toNat (dataByteTaken (.tenant t .floor) s)) s

/-- QLIM_WRITE (R23). -/
def execQlimWrite (t : TenantId) (v : BitVec 16) (s : State) : Host.Outcome State Fault Refusal :=
  whileRunning (fun s => writeQlim t v.toNat (dataByteTaken (.tenant t .qlim) s)) s

/-- QRES_WRITE (R23). -/
def execQresWrite (t : TenantId) (v : BitVec 16) (s : State) : Host.Outcome State Fault Refusal :=
  whileRunning (fun s => writeQres t v.toNat (dataByteTaken (.tenant t .qres) s)) s

/-- HALTABLE_WRITE: the attributes byte written with HALTABLE as given and the other attributes as they stand (R143, R169). -/
def execHaltableWrite (t : TenantId) (v : Bool) (s : State) : Host.Outcome State Fault Refusal :=
  whileRunning (fun s =>
    writeAttrs t { (recordAt s t).attrs with haltable := v } (dataByteTaken (.tenant t .attrs) s)) s

/-- The field that a classifier write writes. -/
def classifierFieldOf : ClassifierWrite → ClassifierField
  | .flags _ => .flags
  | .requesterValue _ => .value
  | .requesterMask _ => .mask
  | .priority _ => .priority
  | .tenant _ => .tenant
  | .windowBase _ => .base
  | .windowLimit _ => .limit

/-- CLASSIFIER_ENTRY_WRITE (R17, R18). -/
def execClassifierEntryWrite (e : EntryId) (w : ClassifierWrite) (s : State) : Host.Outcome State Fault Refusal :=
  whileRunning (fun s => writeClassifier e w (dataByteTaken (.classifier e (classifierFieldOf w)) s)) s

/-- The field that a pair write writes. -/
def pairFieldOf : PairWrite → PairField
  | .flags _ => .flags
  | .primary _ => .primary
  | .secondary _ => .secondary
  | .guard _ => .guard

/-- PAIR_ENTRY_WRITE (R135). -/
def execPairEntryWrite (p : PairId) (w : PairWrite) (s : State) : Host.Outcome State Fault Refusal :=
  whileRunning (fun s => writePair p w (dataByteTaken (.pair p (pairFieldOf w)) s)) s

end Sys2Proof.Machine
end

