-- ==== Sys2Proof/Machine/Dispatch.lean ====
section
/-! DEFINITION. One arm for each command, each a direct call of its meaning. -/

namespace Sys2Proof.Machine

def exec (i : Instr) (s : State) : Host.Outcome State Fault Refusal :=
  match i with
  | .arrival requester tag body => Sys2Proof.Machine.execArrival requester tag body s
  | .grant => Sys2Proof.Machine.execGrant s
  | .endOfSend => Sys2Proof.Machine.execEndOfSend s
  | .poolResponse tag kind status data => Sys2Proof.Machine.execPoolResponse tag kind status data s
  | .frameBoundary => Sys2Proof.Machine.execFrameBoundary s
  | .expiry tag => Sys2Proof.Machine.execExpiry tag s
  | .fence tenant => Sys2Proof.Machine.execFence tenant s
  | .drainCompletion tenant => Sys2Proof.Machine.execDrainCompletion tenant s
  | .settling pair => Sys2Proof.Machine.execSettling pair s
  | .pressureFall => Sys2Proof.Machine.execPressureFall s
  | .lendPoint => Sys2Proof.Machine.execLendPoint s
  | .solveCompletion => Sys2Proof.Machine.execSolveCompletion s
  | .switchPortLinkReset => Sys2Proof.Machine.execSwitchPortLinkReset s
  | .switchPortLinkUp => Sys2Proof.Machine.execSwitchPortLinkUp s
  | .poolPortLinkLoss => Sys2Proof.Machine.execPoolPortLinkLoss s
  | .poolPortLinkUp => Sys2Proof.Machine.execPoolPortLinkUp s
  | .powerOnReset => Sys2Proof.Machine.execPowerOnReset s
  | .powerOnRelease straps => Sys2Proof.Machine.execPowerOnRelease straps s
  | .pinReset => Sys2Proof.Machine.execPinReset s
  | .pinResetRelease => Sys2Proof.Machine.execPinResetRelease s
  | .haltReqRising => Sys2Proof.Machine.execHaltReqRising s
  | .haltReqFalling => Sys2Proof.Machine.execHaltReqFalling s
  | .start arg => Sys2Proof.Machine.execStart arg s
  | .quiesce arg => Sys2Proof.Machine.execQuiesce arg s
  | .stop arg => Sys2Proof.Machine.execStop arg s
  | .resume arg => Sys2Proof.Machine.execResume arg s
  | .clear arg => Sys2Proof.Machine.execClear arg s
  | .tenantReset arg => Sys2Proof.Machine.execTenantReset arg s
  | .pairSwap arg => Sys2Proof.Machine.execPairSwap arg s
  | .modeSet arg => Sys2Proof.Machine.execModeSet arg s
  | .runtimeReset => Sys2Proof.Machine.execRuntimeReset s
  | .unknownCommand code => Sys2Proof.Machine.execUnknownCommand code s
  | .pointerByte value => Sys2Proof.Machine.execPointerByte value s
  | .managementWrite value => Sys2Proof.Machine.execManagementWrite value s
  | .readSnapshot acknowledged => Sys2Proof.Machine.execReadSnapshot acknowledged s
  | .pageWrite value => Sys2Proof.Machine.execPageWrite value s
  | .indexWrite value => Sys2Proof.Machine.execIndexWrite value s
  | .statusClear value => Sys2Proof.Machine.execStatusClear value s
  | .alertFlagClear value => Sys2Proof.Machine.execAlertFlagClear value s
  | .alertEnablesWrite value => Sys2Proof.Machine.execAlertEnablesWrite value s
  | .linkResetCountClear port value => Sys2Proof.Machine.execLinkResetCountClear port value s
  | .globalCounterClear counter value => Sys2Proof.Machine.execGlobalCounterClear counter value s
  | .maximumHeadAgeRead tenant => Sys2Proof.Machine.execMaximumHeadAgeRead tenant s
  | .fpWrite value => Sys2Proof.Machine.execFpWrite value s
  | .capWrite value => Sys2Proof.Machine.execCapWrite value s
  | .wfWrite value => Sys2Proof.Machine.execWfWrite value s
  | .lpWrite value => Sys2Proof.Machine.execLpWrite value s
  | .ctoWrite value => Sys2Proof.Machine.execCtoWrite value s
  | .defaultTenantWrite value => Sys2Proof.Machine.execDefaultTenantWrite value s
  | .floorWrite tenant value => Sys2Proof.Machine.execFloorWrite tenant value s
  | .qlimWrite tenant value => Sys2Proof.Machine.execQlimWrite tenant value s
  | .qresWrite tenant value => Sys2Proof.Machine.execQresWrite tenant value s
  | .haltableWrite tenant value => Sys2Proof.Machine.execHaltableWrite tenant value s
  | .classifierEntryWrite entry write => Sys2Proof.Machine.execClassifierEntryWrite entry write s
  | .pairEntryWrite pair write => Sys2Proof.Machine.execPairEntryWrite pair write s
  | .i2cStartCondition target direction => Sys2Proof.Machine.execI2cStartCondition target direction s
  | .i2cStopCondition => Sys2Proof.Machine.execI2cStopCondition s
  | .dataByteRead acknowledged => Sys2Proof.Machine.execDataByteRead acknowledged s

end Sys2Proof.Machine
end

