-- ==== Sys2Proof/Safety.lean ====
section
/-! DEFINITION. What a safe state is: the laws the manual says the part upholds, each as a predicate on states. -/

namespace Sys2Proof.Machine

/-- The positive part of a tenant's credit: what it may still spend. -/
def spendable (e : CreditEntry) : Nat := e.credit.toNat

/-- R67: every credit lies in −255 to 16383. R68: the spare pool with the positive credits is at most 16383. -/
def CreditLaw (c : CreditTable) : Prop :=
  (∀ t, -255 ≤ (c.tenants.get t).credit ∧ (c.tenants.get t).credit ≤ 16383) ∧
    c.spare + sumOver c.tenants.toList spendable ≤ 16383

/-- R47, R53: a snapshot's capacity covers its guaranteed parts. -/
def SnapshotLaw (n : Snapshot) : Prop := totalGuaranteed n ≤ n.effCap ∧ n.effCap ≤ 16383

/-- R56: the allotments and the spare of a completed result are within one frame's capacity. -/
def ResultLaw (r : SolveResult) : Prop := sumOver r.allotments.toList id + r.spare ≤ 16383

/-- R47: the FLOOR values of the tenants that are not OFF sum to at most the effective CAP. -/
def FloorLaw (s : State) : Prop := floorSum s ≤ effectiveCap s

/-- R19, R20: WF lies in 4 to 16, and every queued charge in 1 to 256. -/
def ChargeLaw (a : Admission) : Prop :=
  4 ≤ a.writeFactor ∧ a.writeFactor ≤ 16 ∧
    ∀ t, ∀ d ∈ queuedOf (a.queues.get t), 1 ≤ d.charge ∧ d.charge ≤ 256

/-- The division of capacity: the floor law with what the solver and the Credit Table make of it. -/
def DivisionLaw (s : State) : Prop :=
  FloorLaw s ∧ SnapshotLaw s.solver.snapshot ∧ ResultLaw s.solver.result ∧ CreditLaw s.credit ∧ ChargeLaw s.admission

/-- R21, R23, R25, R35: one tenant's queues and limits. -/
def TenantQueueLaw (s : State) (t : TenantId) : Prop :=
  occupancy s t ≤ (recordAt s t).qlim ∧ (recordAt s t).qres ≤ (recordAt s t).qlim ∧ (recordAt s t).qlim ≤ 1024 ∧
    ((recordAt s t).state = .off ∨ (recordAt s t).state = .fenced → queuedOf (queuesAt s t) = []) ∧
    ((recordAt s t).state = .active → ∀ d ∈ queuedOf (queuesAt s t), d.parked = false) ∧
    ((recordAt s t).state = .quiesced → ∀ d ∈ queuedOf (queuesAt s t), d.parked = true) ∧
    (∀ d ∈ (queuesAt s t).rq, d.kind = .read) ∧ (∀ d ∈ (queuesAt s t).wq, d.kind ≠ .read)

/-- R25: at most 1024 descriptors are held, and no tenant holds more than its QLIM. -/
def QueueLaw (s : State) : Prop :=
  descriptorsInUse s ≤ 1024 ∧ ∀ t, TenantQueueLaw s t

/-- R115: a drain target is NONE but in DRAINING. -/
def TargetLaw (s : State) : Prop :=
  ∀ t, (recordAt s t).target = .none ↔ (recordAt s t).state ≠ .draining

/-- R134, R135: the members of a valid pair are distinct, no tenant is a member of two valid pairs, and a SETTLED pair's guard counter is 0. -/
def PairLaw (s : State) : Prop :=
  ∀ p, ((s.pairHalt.pairs.get p).inGuard = false → (s.pairHalt.pairs.get p).counter = 0) ∧
    ((s.pairHalt.pairs.get p).inGuard = true → (s.pairHalt.pairs.get p).valid = true) ∧
    ((s.pairHalt.pairs.get p).valid = true → (s.pairHalt.pairs.get p).primary ≠ (s.pairHalt.pairs.get p).secondary) ∧
    ∀ o, o ≠ p → (s.pairHalt.pairs.get o).valid = true → (s.pairHalt.pairs.get p).valid = true →
      pairNames (s.pairHalt.pairs.get o) (s.pairHalt.pairs.get p).primary = false ∧
        pairNames (s.pairHalt.pairs.get o) (s.pairHalt.pairs.get p).secondary = false

/-- R2, R98: while the Switch Port link is DOWN nothing is queued, every outstanding entry is an orphan and every write order list is empty. -/
def SwitchDownLaw (s : State) : Prop :=
  s.links.switchUp = false →
    (∀ t, queuedOf (queuesAt s t) = []) ∧
    (∀ k e, s.paths.entries.get k = some e → e.orphan = true) ∧
    ∀ q, s.paths.orderLists.get q = []

/-- R107: while the Pool Port link is DOWN nothing is outstanding and nothing is being sent. -/
def PoolDownLaw (s : State) : Prop :=
  s.links.poolUp = false → (∀ k, s.paths.entries.get k = none) ∧ s.arbiter.slot = none

/-- R99, R100: CTO lies in 1 to 4095, and no entry in use has reached the CTO that the last boundary applied. -/
def TimeoutLaw (s : State) : Prop :=
  1 ≤ s.paths.cto ∧ s.paths.cto ≤ 4095 ∧ 1 ≤ s.paths.ctoInForce ∧ s.paths.ctoInForce ≤ 4095 ∧
    ∀ k e, s.paths.entries.get k = some e → e.age < s.paths.ctoInForce

/-- R141, R151: the halt condition follows HALT_REQ, and is deasserted, with both links DOWN, while a reset is held. -/
def HaltLaw (s : State) : Prop :=
  (s.control.held = .no → s.pairHalt.haltCondition = s.pairHalt.haltReq) ∧
    (s.control.held ≠ .no → s.pairHalt.haltCondition = false ∧ s.links.switchUp = false ∧ s.links.poolUp = false)

/-- R161, R166, R158: the ring holds at most 32 records, the pressure figures stay in their ranges, and no maximum head age passes 255. -/
def ObservationLaw (s : State) : Prop :=
  s.observe.ring.length ≤ 32 ∧ s.observe.level ≤ 3 ∧ s.observe.fallCount ≤ 3 ∧ s.observe.fallMax ≤ 3 ∧
    ∀ t, (s.observe.counters.get t).maxHeadAge ≤ 255

/-- R171: INDEX selects a record of the selected page. -/
def PortLaw (s : State) : Prop := s.port.index.val < pageRange s.port.page

/-- Block numbers rise strictly. -/
def rising : List (Nat × List Byte) → Bool
  | [] => true
  | c :: rest => rest.all (fun d => c.1 < d.1) && rising rest

/-- R26: the Payload Store's list of blocks in use is in its one form: rising block numbers below 4096, at most 64 bytes in each. -/
def storeWf (store : List (Nat × List Byte)) : Bool :=
  rising store && store.all fun c => c.1 < Config.storeBlocks && c.2.length ≤ Config.blockBytes

/-- R26: the form of the Payload Store holds. -/
def StoreLaw (a : Admission) : Prop := storeWf a.store = true

/-- R26: the Payload Store blocks that queued descriptors and the send in progress hold. -/
def heldBlocks (s : State) : List Nat :=
  queuedBlocks s ++
    match s.arbiter.slot with
    | some x => x.blocks
    | none => []

/-- R21, R26: the store is in its one form, no block is held twice, and the blocks in use are exactly the blocks held. -/
def BlocksLaw (s : State) : Prop :=
  StoreLaw s.admission ∧ (heldBlocks s).Nodup ∧ ∀ b, b ∈ heldBlocks s ↔ b ∈ s.admission.store.map (·.1)

/-- A queued WRITE of a requester with a stamp. -/
def QueuedWrite (s : State) (q : Fin 64) (x : Stamp) : Prop :=
  ∃ t, ∃ d ∈ queuedOf (queuesAt s t), d.kind = .write ∧ d.requester.toFin = q ∧ d.stamp = x

/-- A non-orphan outstanding WRITE of a requester with a stamp. -/
def OutstandingWrite (s : State) (q : Fin 64) (x : Stamp) : Prop :=
  ∃ k e, s.paths.entries.get k = some e ∧ e.kind = .write ∧ e.orphan = false ∧ e.requester.toFin = q ∧ e.stamp = x

/-- R103, R104: a write order list holds stamps of its requester's queued and outstanding WRITEs alone. -/
def OrderLaw (s : State) : Prop :=
  ∀ q, ∀ x ∈ s.paths.orderLists.get q, QueuedWrite s q x ∨ OutstandingWrite s q x

/-- R103, R104: the stamp of every WRITE that is queued, or outstanding and no orphan, stands in its requester's write order list. -/
def ListedLaw (s : State) : Prop :=
  ∀ q x, QueuedWrite s q x ∨ OutstandingWrite s q x → x ∈ s.paths.orderLists.get q

/-- A descriptor is a WRITE of a requester with a stamp. -/
def isWriteOf (q : Fin 64) (x : Stamp) (d : Descriptor) : Bool :=
  d.kind == .write && d.requester.toFin == q && d.stamp == x

/-- A place of the Outstanding Table holds a WRITE of a requester with a stamp that is no orphan. -/
def isEntryOf (q : Fin 64) (x : Stamp) (o : Option OutstandingEntry) : Bool :=
  match o with
  | some e => e.kind == .write && !e.orphan && e.requester.toFin == q && e.stamp == x
  | none => false

/-- R29, R30: no two live WRITEs of a requester, queued or outstanding and no orphans, have the same stamp. -/
def LiveStampsDistinct (s : State) : Prop :=
  ∀ q x, sumTenants (fun t => (queuedOf (queuesAt s t)).countP (isWriteOf q x)) +
    s.paths.entries.toList.countP (isEntryOf q x) ≤ 1

/-- R41, R43, R45, R46: FP, LP and CAP and what is latched of them lie in their ranges, the phase lies inside the frame in progress, and the effective CAP is at least 1. R44, R153: a start boundary that is due stands at the end of the frame that the runtime reset ended. -/
def TimerLaw (s : State) : Prop :=
  (8 ≤ s.timer.fp ∧ s.timer.fp ≤ 1024) ∧ s.timer.lp ≤ 15 ∧ (1 ≤ s.timer.cap ∧ s.timer.cap ≤ 16383) ∧
    (8 ≤ s.timer.frameLength ∧ s.timer.frameLength ≤ 1024) ∧ s.timer.frameLend ≤ 15 ∧
    s.timer.phase < 16 * s.timer.frameLength ∧ 1 ≤ effectiveCap s ∧
    (s.timer.startDue = true → s.timer.phase + 1 = 16 * s.timer.frameLength)

/-- R23, R66, R70, R112, R115: one tenant's settings and figures, with its latched AGEB and draw ceiling, lie in their ranges. -/
def TenantRangeLaw (r : TenantRecord) (e : CreditEntry) : Prop :=
  (1 ≤ r.weight ∧ r.weight ≤ 255) ∧ r.floor ≤ 4095 ∧ r.ceil ≤ 16383 ∧ r.ageb ≤ 255 ∧ r.drainb ≤ 65535 ∧
    r.strikeTh ≤ 255 ∧ r.strikes ≤ 255 ∧ r.drainClock ≤ 65535 ∧ r.qres ≤ r.qlim ∧ r.qlim ≤ 1024 ∧
    e.spent ≤ 1048575 ∧ e.releasedNow ≤ 1048575 ∧ e.releasedPrevious ≤ 1048575 ∧
    e.settings.ageb ≤ 255 ∧ e.settings.drawCeiling ≤ 16383

/-- Every tenant's settings and figures lie in their ranges, every queued descriptor's age in 0 to 255 (R21, R37), every pair's guard and guard counter in 0 to 255 (R134), and both link reset counts in 0 to 65535 (R155). -/
def RangeLaw (s : State) : Prop :=
  (∀ t, TenantRangeLaw (recordAt s t) (creditAt s t) ∧ ∀ d ∈ queuedOf (queuesAt s t), d.age ≤ 255) ∧
    (∀ p, (s.pairHalt.pairs.get p).guard ≤ 255 ∧ (s.pairHalt.pairs.get p).counter ≤ 255) ∧
    s.links.switchResets ≤ 65535 ∧ s.links.poolLosses ≤ 65535

/-- R151, R152: while a reset is held every piece of state holds its power-on value, but for what is outside the part and for what a pin reset keeps. -/
def HeldLaw (s : State) : Prop :=
  (s.control.held = .powerOn → s = holdReset .powerOn s) ∧
    (s.control.held = .pin →
      s = { holdReset .pin s with control.straps := s.control.straps, control.cause := s.control.cause })

/-- A safe state: every law. (LiveStampsDistinct is what ListedLaw rests on: stamps are serial numbers of 32 bits, so it may end once 2^32 requests have been admitted while one of them still lives.) -/
def Safe (s : State) : Prop :=
  HeldLaw s ∧ DivisionLaw s ∧ QueueLaw s ∧ TargetLaw s ∧ PairLaw s ∧ SwitchDownLaw s ∧ PoolDownLaw s ∧ TimeoutLaw s ∧
    HaltLaw s ∧ ObservationLaw s ∧ PortLaw s ∧ TimerLaw s ∧ RangeLaw s ∧ BlocksLaw s ∧ OrderLaw s ∧
    ListedLaw s ∧ LiveStampsDistinct s

/-! ### The terms that statements use -/

/-- No power-on or pin reset is held. -/
def Running (s : State) : Prop := s.control.held = .no

/-- The state once the port has taken the last byte of a field: acknowledged, the pointer after the field, both latches empty (R167 to R170). -/
def written (pointer : Nat) (s : State) : State :=
  { s with
    port.pointer := BitVec.ofNat 7 pointer
    port.writeLatch := none
    port.readLatch := none
    wires.bus := s.wires.bus ++ [.ack] }

/-- The state in which a command acts: its argument stands in CMD_ARG and the port has taken the byte at 0x06 (R173). -/
def commandTaken (arg : Byte) (s : State) : State := { written 0x07 s with port.cmdArg := arg }

/-- CMD holds a command's code and CMD_RESULT its result (R173). -/
def withResult (code : Byte) (result : CmdResult) (s : State) : State :=
  { s with port.cmd := code, port.cmdResult := result }

/-- The REFUSED response to a queued descriptor (R33). -/
def refusal (d : Descriptor) : Response := ⟨d.kind, d.requester, d.tag, .refused, []⟩

/-- Stamps all lie within half the serial number range, so that "older" orders them (R30). -/
def Comparable (ds : List Descriptor) : Prop := ∃ base : Stamp, ∀ d ∈ ds, (d.stamp - base).toNat < 2147483648

/-- `l` is the descriptors of `ds` in stamp order, oldest first (R33). -/
def InStampOrder (ds l : List Descriptor) : Prop :=
  l.Perm ds ∧ (Comparable ds → l.Pairwise fun d e => older e.stamp d.stamp = false)

/-- A descriptor list holds a WRITE of a requester with a stamp. -/
def holdsWrite (ds : List Descriptor) (q : Fin 64) (x : Stamp) : Bool :=
  ds.any fun d => d.kind == .write && d.requester.toFin == q && d.stamp == x

/-- What refusing the descriptors `ds` of a tenant does outside its queues: their responses leave in that order, their blocks are freed, the stamps of the WRITEs leave their lists, and the tenant's REFUSED counter advances once for each (R33). Nothing else of the admission state, the Return Path, what has left the part or the Observation block changes. -/
def Refused (t : TenantId) (ds : List Descriptor) (s u : State) : Prop :=
  u.wires = { s.wires with upstream := s.wires.upstream ++ if s.links.switchUp then ds.map refusal else [] } ∧
    u.admission.store = s.admission.store.filter (fun c => !ds.any fun d => d.blocks.contains c.1) ∧
    u.admission.writeFactor = s.admission.writeFactor ∧ u.admission.nextStamp = s.admission.nextStamp ∧
    u.paths.entries = s.paths.entries ∧ u.paths.cto = s.paths.cto ∧ u.paths.ctoInForce = s.paths.ctoInForce ∧
    (∀ q, u.paths.orderLists.get q = (s.paths.orderLists.get q).filter fun x => !holdsWrite ds q x) ∧
    u.observe = { s.observe with counters := s.observe.counters.modify t fun c =>
      { c with refused := c.refused + BitVec.ofNat 32 ds.length } }

/-- The blocks of the state that refusing a tenant's descriptors never touches. -/
def OtherBlocksKept (s u : State) : Prop :=
  u.links = s.links ∧ u.classifier = s.classifier ∧ u.timer = s.timer ∧ u.solver = s.solver ∧ u.arbiter = s.arbiter ∧
    u.control = s.control ∧ u.pending = s.pending ∧ u.credit = s.credit ∧ u.port = s.port

/-- Every queued descriptor of a tenant has been refused in stamp order, and nothing but the Tenant Records and the Pair Table, of which this says nothing, has changed beside (R33). -/
def QueueRefused (t : TenantId) (s u : State) : Prop :=
  (∃ l, InStampOrder (queuedOf (queuesAt s t)) l ∧ Refused t l s u) ∧
    u.admission.queues = s.admission.queues.set t { queuesAt s t with rq := [], wq := [] } ∧ OtherBlocksKept s u

/-- Every WQ descriptor of a tenant has been refused in stamp order, and nothing but the Tenant Records and the Pair Table, of which this says nothing, has changed beside (R33, R137). -/
def WritesRefused (t : TenantId) (s u : State) : Prop :=
  (∃ l, InStampOrder (queuesAt s t).wq l ∧ Refused t l s u) ∧
    u.admission.queues = s.admission.queues.set t { queuesAt s t with wq := [] } ∧ OtherBlocksKept s u

/-- A tenant's occupancy (R22). -/
def held (s : State) (t : TenantId) : Nat := (queuesAt s t).rq.length + (queuesAt s t).wq.length

/-- The descriptor test of R25, with the shared free count of R24 written out. -/
def PassesDescriptorTest (s : State) (t : TenantId) : Prop :=
  (held s t < (recordAt s t).qres ∧ sumTenants (held s) < 1024) ∨
    (held s t < (recordAt s t).qlim ∧
      sumTenants (held s) + sumTenants (fun x => (recordAt s x).qres - held s x) < 1024)

/-- The payload test of R26 fails: a WRITE needs more blocks than are free. -/
def FailsPayloadTest (s : State) : RequestBody → Prop
  | .write _ p => 4096 < (p.length + 63) / 64 + s.admission.store.length
  | _ => False

/-- The bytes that payload blocks hold, in order (R9). -/
def bytesIn (store : List (Nat × List Byte)) (blocks : List Nat) : List Byte :=
  blocks.flatMap fun b => (store.lookup b).getD []

/-- A head of a tenant's RQ, or with `fromWq` of its WQ. -/
def headOf (s : State) (t : TenantId) (fromWq : Bool) : Option Descriptor :=
  if fromWq then (queuesAt s t).wq.head? else (queuesAt s t).rq.head?

/-- The pair gate of a tenant as R136 words it: every valid pair that names it is SETTLED with it active. -/
def GateIsOpen (s : State) (t : TenantId) : Prop :=
  ∀ p, (s.pairHalt.pairs.get p).valid = true →
    ((s.pairHalt.pairs.get p).primary = t ∨ (s.pairHalt.pairs.get p).secondary = t) →
    (s.pairHalt.pairs.get p).inGuard = false ∧
      ((s.pairHalt.pairs.get p).active = .primary → (s.pairHalt.pairs.get p).primary = t) ∧
      ((s.pairHalt.pairs.get p).active = .secondary → (s.pairHalt.pairs.get p).secondary = t)

/-- Conditions 1 to 4 of R79. -/
def ReleaseGates (s : State) (t : TenantId) (fromWq : Bool) (d : Descriptor) : Prop :=
  ((recordAt s t).state = .active ∨ ((recordAt s t).state = .draining ∧ d.parked = false)) ∧
    ¬(s.pairHalt.haltCondition = true ∧ (recordAt s t).attrs.haltable = true) ∧
    (fromWq = true → GateIsOpen s t) ∧
    (d.kind = .flush → ∀ x ∈ s.paths.orderLists.get d.requester.toFin, older x d.stamp = false)

/-- A head is aged: latched AGEB is not 0 and the head's age is at least AGEB (R75). -/
def Aged (s : State) (t : TenantId) (d : Descriptor) : Prop :=
  (creditAt s t).settings.ageb ≠ 0 ∧ (creditAt s t).settings.ageb ≤ d.age

/-- The spare pool can pay: it holds the charge, and spent with the charge stays within the draw ceiling (R74, R75). -/
def SpareCanPay (s : State) (t : TenantId) (d : Descriptor) : Prop :=
  d.charge ≤ s.credit.spare ∧ (creditAt s t).spent + d.charge ≤ (creditAt s t).settings.drawCeiling

/-- Condition 5 of R79 by R73, R74 or R75. -/
def CanPay (s : State) (t : TenantId) (d : Descriptor) : Prop :=
  1 ≤ (creditAt s t).credit ∨
    (((creditAt s t).settings.borrow = true ∨ Aged s t d) ∧ SpareCanPay s t d)

/-- A head is eligible under the port mode in force (R79, R87, R88). -/
def Eligible (s : State) (t : TenantId) (fromWq : Bool) (d : Descriptor) : Prop :=
  headOf s t fromWq = some d ∧ ReleaseGates s t fromWq d ∧
    (s.control.mode = .govern → CanPay s t d) ∧
    (s.control.mode = .hold → (creditAt s t).settings.exempt = true)

/-- A head may be its tenant's candidate: it is eligible, and the tenant's other head, where eligible, is not older (R80). -/
def MayBeCandidate (s : State) (t : TenantId) (fromWq : Bool) (d : Descriptor) : Prop :=
  Eligible s t fromWq d ∧ ∀ d', Eligible s t (!fromWq) d' → older d'.stamp d.stamp = false

/-- A head is its tenant's candidate: it is eligible, and older than the tenant's other head where that is eligible (R80). -/
def IsCandidate (s : State) (t : TenantId) (fromWq : Bool) (d : Descriptor) : Prop :=
  Eligible s t fromWq d ∧ ∀ d', Eligible s t (!fromWq) d' → older d.stamp d'.stamp = true

/-- The release conditions of R81, with the lowest free pool-side tag (R93). -/
def CanRelease (s : State) (tag : Fin 256) : Prop :=
  s.arbiter.slot = none ∧ s.links.poolUp = true ∧ s.paths.entries.get tag = none ∧
    ∀ k, k < tag → s.paths.entries.get k ≠ none

/-- How far a tenant lies after a round-robin pointer: 0 for the next tenant, 23 for the pointer's own (R84). -/
def turnsAfter (pointer t : TenantId) : Nat := (t.val + 23 - pointer.val) % 24

/-- A release but for its payment and pointer: the head leaves its queue and is recorded under the tag, the send begins, the charge is counted in spent and released this frame, and the counters advance (R86, R157, R158). -/
def released (t : TenantId) (fromWq : Bool) (d : Descriptor) (tag : Fin 256) (s : State) : State :=
  { s with
    admission.queues := s.admission.queues.modify t fun u =>
      if fromWq then { u with wq := u.wq.drop 1 } else { u with rq := u.rq.drop 1 }
    paths.entries := s.paths.entries.set tag (some ⟨t, d.requester, d.tag, d.kind, d.stamp, 0, false⟩)
    arbiter.slot := some ⟨d.kind, d.requester, BitVec.ofNat 8 tag.val, d.address, d.length, d.blocks⟩
    credit.tenants := s.credit.tenants.modify t fun e =>
      { e with
        spent := min 1048575 (e.spent + d.charge)
        releasedNow := min 1048575 (e.releasedNow + d.charge) }
    observe.counters := s.observe.counters.modify t fun c =>
      { c with
        readBlocks := if d.kind = .read then c.readBlocks + BitVec.ofNat 32 d.charge else c.readBlocks
        writeBlocks := if d.kind = .read then c.writeBlocks else c.writeBlocks + BitVec.ofNat 32 d.charge
        maxHeadAge := min 255 (max c.maxHeadAge d.age) } }

/-- The credit of a tenant less a charge (R73). -/
def paidFromCredit (t : TenantId) (charge : Nat) (s : State) : State :=
  { s with credit.tenants := s.credit.tenants.modify t fun e => { e with credit := e.credit - charge } }

/-- The spare pool less a charge (R74, R75). -/
def paidFromSpare (charge : Nat) (s : State) : State := { s with credit.spare := s.credit.spare - charge }

/-- A request's kind, requester and switch-side tag, by which its one response is known (R6, R8). -/
structure RequestKey where
  kind : Kind
  requester : RequesterId
  tag : Byte
  deriving DecidableEq, Repr

/-- How many responses that carry a key have left upstream. -/
def answersSent (k : RequestKey) (s : State) : Nat :=
  s.wires.upstream.countP fun r => ⟨r.kind, r.requester, r.tag⟩ = k

/-- How many queued requests carry a key. -/
def queuedUnder (k : RequestKey) (s : State) : Nat :=
  sumTenants fun t => (queuedOf (queuesAt s t)).countP fun d => ⟨d.kind, d.requester, d.tag⟩ = k

/-- A place of the Outstanding Table holds a non-orphan entry that carries a key. -/
def owedBy (k : RequestKey) (o : Option OutstandingEntry) : Bool :=
  match o with
  | some e => !e.orphan && decide ((⟨e.kind, e.requester, e.tag⟩ : RequestKey) = k)
  | none => false

/-- How many answers are still owed to requests that carry a key: those queued and those outstanding that are no orphans (R8). -/
def answersOwed (k : RequestKey) (s : State) : Nat :=
  queuedUnder k s + s.paths.entries.toList.countP (owedBy k)

/-- How many requests that carry a key a command brings: an ARRIVAL brings one. -/
def requestsBrought (k : RequestKey) : Instr → Nat
  | .arrival q tag body => if (⟨bodyKind body, q, tag⟩ : RequestKey) = k then 1 else 0
  | _ => 0

/-- The events that may leave a request unanswered (R8). -/
def silences : Instr → Bool
  | .switchPortLinkReset | .powerOnReset | .pinReset => true
  | _ => false

/-- A tenant is OFF or QUIESCED, as structural writes ask (R17, R135). -/
def IsQuiet (s : State) (t : TenantId) : Prop := (recordAt s t).state = .off ∨ (recordAt s t).state = .quiesced

/-- A write that would leave a classifier entry as `e`: accepted when every tenant the entry names before and after is OFF or QUIESCED, else refused with STATE (R17). `pointer` is where the port stands after it. -/
def ClassifierWriteResult (i : EntryId) (e : ClassifierEntry) (pointer : Nat) (s t : State) : Prop :=
  let before := s.classifier.entries.get i
  let allowed := (before.valid = true → IsQuiet s before.tenant) ∧ (e.valid = true → IsQuiet s e.tenant)
  (allowed → t = { written pointer s with classifier.entries := s.classifier.entries.set i e }) ∧
    (¬allowed → t = { written pointer s with port.status := some .state })

/-- A valid entry other than `p` names a tenant (R135). -/
def NamedElsewhere (s : State) (p : PairId) (x : TenantId) : Prop :=
  ∃ o, o ≠ p ∧ (s.pairHalt.pairs.get o).valid = true ∧
    ((s.pairHalt.pairs.get o).primary = x ∨ (s.pairHalt.pairs.get o).secondary = x)

/-- A write, in range, that would leave a pair entry as `e`: the tests of R135 after the range test, in order. -/
def PairWriteResult (p : PairId) (e : PairEntry) (pointer : Nat) (s t : State) : Prop :=
  let before := s.pairHalt.pairs.get p
  let quietMembers := fun (x : PairEntry) => x.valid = true → IsQuiet s x.primary ∧ IsQuiet s x.secondary
  let clash := e.valid = true ∧
    (e.primary = e.secondary ∨ NamedElsewhere s p e.primary ∨ NamedElsewhere s p e.secondary)
  (before.inGuard = true → t = { written pointer s with port.status := some .guard }) ∧
    (before.inGuard = false → ¬(quietMembers before ∧ quietMembers e) →
      t = { written pointer s with port.status := some .state }) ∧
    (before.inGuard = false → quietMembers before → quietMembers e → clash →
      t = { written pointer s with port.status := some .member }) ∧
    (before.inGuard = false → quietMembers before → quietMembers e → ¬clash →
      t = { written pointer s with
        pairHalt.pairs := s.pairHalt.pairs.set p { e with inGuard := false, counter := 0 } })

/-- What a tenant holds of the snapshot that a boundary from `s` to `t` takes (R48 to R50; at a start boundary, notes/assumptions/21.md). -/
def SnapshotOf (s t : State) (x : TenantId) (n : SnapshotTenant) : Prop :=
  let isEligible := ((recordAt t x).state = .active ∨ (recordAt t x).state = .draining) ∧
    ¬(s.pairHalt.haltCondition = true ∧ (recordAt s x).attrs.haltable = true)
  n.weight = (recordAt s x).weight ∧ n.floor = (recordAt s x).floor ∧ n.ceil = (recordAt s x).ceil ∧
    n.demoted = (recordAt t x).demoted ∧ (n.eligible = true ↔ isEligible) ∧
    (isEligible → n.demand = min 16383 (eligibleCharge t x + (creditAt s x).releasedNow)) ∧
    (¬isEligible → n.demand = 0)

/-- The entries that expire at the next boundary, in ascending order of tag: their age has advanced to CTO (R100). -/
def expiringEntries (s : State) : List OutstandingEntry :=
  s.paths.entries.toList.filterMap fun o =>
    match o with
    | some e => if s.paths.cto ≤ e.age + 1 then some e else none
    | none => none

/-- The response an ended entry gives, none for an orphan (R101, R107). -/
def endResponse (status : ResponseStatus) (e : OutstandingEntry) : Option Response :=
  if e.orphan then none else some ⟨e.kind, e.requester, e.tag, status, []⟩

/-- The commands that act while a power-on or pin reset is held: the resets, their releases and the edges of HALT_REQ (R141, R151, R152). -/
def actsWhileHeld : Instr → Bool
  | .powerOnReset | .powerOnRelease _ | .pinReset | .pinResetRelease | .haltReqRising | .haltReqFalling => true
  | _ => false

/-- The sum of FLOOR over the tenants that are not OFF (R47). -/
def floorsHeld (s : State) : Nat := sumTenants fun x => if (recordAt s x).state = .off then 0 else (recordAt s x).floor

/-- A drain has finished: the tenant is DRAINING, every descriptor still queued is parked and none of its entries is outstanding (R35, R124). -/
def DrainFinished (s : State) (x : TenantId) : Prop :=
  (recordAt s x).state = .draining ∧ (∀ d ∈ queuedOf (queuesAt s x), d.parked = true) ∧
    ∀ k e, s.paths.entries.get k = some e → e.tenant ≠ x

/-- The age of a queue's head once a boundary has advanced it, 0 for an empty queue (R37, R158). -/
def headAgeNext (queue : List Descriptor) : Nat :=
  match queue with
  | [] => 0
  | d :: _ => min 255 (d.age + 1)

/-- The bytes of a value, the least significant first (R174). -/
def bytesOf {w : Nat} (count : Nat) (v : BitVec w) : List Byte :=
  (List.range count).map fun k => (v >>> (8 * k)).setWidth 8

/-- The state after data bytes written one after another, none where a byte has no next state. -/
def bytesWritten : List Byte → State → Option State
  | [], s => some s
  | b :: rest, s =>
    match exec (.managementWrite b) s with
    | .next t => bytesWritten rest t
    | _ => none

/-- Data bytes written one after another do what a whole-write row does, and drive one acknowledgement more for each byte before the last (R169; notes/assumptions/10.md). -/
def BytesMake (bytes : List Byte) (whole : Instr) (s : State) : Prop :=
  ∃ t, exec whole s = .next t ∧ bytesWritten bytes s =
    some { t with wires.bus := t.wires.bus ++ List.replicate (bytes.length - 1) .ack }

/-- The fields that no write changes: those the layouts mark RO alone, and the COUNTERS and FRAMES pages (R168, R171, R174). -/
def readOnly : Field → Bool
  | .direct f => [.id, .mode, .cmdResult, .effCap, .alertCode, .halt, .resetCause, .straps, .links].contains f
  | .tenant _ f =>
    [.status, .strikes, .drainMark, .drainClock, .occupancy, .rqDepth, .wqDepth, .queuedCharge, .credit, .spent,
      .releasedNow, .releasedPrevious, .allotment, .demand, .outstanding, .outstandingWrites].contains f
  | .classifier _ _ => false
  | .pair _ f => [.state, .counter].contains f
  | .counters _ _ => true
  | .frames _ _ => true

end Sys2Proof.Machine
end

