-- ==== Sys2Proof/WellFormed.lean ====
section
/-! DEFINITION. Which commands are well formed: what the links and the table rows allow their operands to be (R4, R10, R173). -/

namespace Sys2Proof

/-- R4: a READ's or WRITE's length is 1 to 4096 bytes. -/
def bodyFits : RequestBody → Bool
  | .read _ length => 1 ≤ length && length ≤ 4096
  | .write _ payload => 1 ≤ payload.length && payload.length ≤ 4096
  | .flush => true

/-- R10: a READ_DATA with status GOOD alone carries data. -/
def dataFits : ResponseKind → PoolStatus → List Byte → Bool
  | .readData, .good, _ => true
  | _, _, data => data.isEmpty

/-- R173, R174: the codes 1 to 9 name commands. -/
def namesNoCommand (code : Byte) : Bool := code.toNat == 0 || 10 ≤ code.toNat

/-- A well-formed command. -/
def Instr.wf : Instr → Bool
  | .arrival _ _ body => bodyFits body
  | .grant => true
  | .endOfSend => true
  | .poolResponse _ kind status data => dataFits kind status data
  | .frameBoundary => true
  | .expiry _ => true
  | .fence _ => true
  | .drainCompletion _ => true
  | .settling _ => true
  | .pressureFall => true
  | .lendPoint => true
  | .solveCompletion => true
  | .switchPortLinkReset => true
  | .switchPortLinkUp => true
  | .poolPortLinkLoss => true
  | .poolPortLinkUp => true
  | .powerOnReset => true
  | .powerOnRelease _ => true
  | .pinReset => true
  | .pinResetRelease => true
  | .haltReqRising => true
  | .haltReqFalling => true
  | .start _ => true
  | .quiesce _ => true
  | .stop _ => true
  | .resume _ => true
  | .clear _ => true
  | .tenantReset _ => true
  | .pairSwap _ => true
  | .modeSet _ => true
  | .runtimeReset => true
  | .unknownCommand code => namesNoCommand code
  | .pointerByte _ => true
  | .managementWrite _ => true
  | .readSnapshot _ => true
  | .pageWrite _ => true
  | .indexWrite _ => true
  | .statusClear _ => true
  | .alertFlagClear _ => true
  | .alertEnablesWrite _ => true
  | .linkResetCountClear _ _ => true
  | .globalCounterClear _ _ => true
  | .maximumHeadAgeRead _ => true
  | .fpWrite _ => true
  | .capWrite _ => true
  | .wfWrite _ => true
  | .lpWrite _ => true
  | .ctoWrite _ => true
  | .defaultTenantWrite _ => true
  | .floorWrite _ _ => true
  | .qlimWrite _ _ => true
  | .qresWrite _ _ => true
  | .haltableWrite _ _ => true
  | .classifierEntryWrite _ _ => true
  | .pairEntryWrite _ _ => true
  | .i2cStartCondition _ _ => true
  | .i2cStopCondition => true
  | .dataByteRead _ => true

end Sys2Proof
end

