-- ==== Sys2Proof/Certificates/Slice0/Obligations.lean ====
section
/-! DEFINITION. The statements for the provers, chapter by chapter of the manual. -/

section

open Sys2Proof Sys2Proof.Machine

/-! ### Steps, completion and the resets -/

/-- A step takes the command at the front of the queue and is exec of it on the state with the queue's rest. -/
def Obligations.StepTakesFrontCommand : Prop :=
  ∀ (c : Instr) (rest : List Instr) (s : State), s.pending = c :: rest → step s = exec c { s with pending := rest }

/-- On an empty queue one sixteenth of a 0.25 µs unit passes (the model's choice, notes/assumptions/3.md): the boundary at the end of the frame, the completion of a solve that has taken 1.5 µs, and the lend point at its phase come about as their commands do, a boundary being the start boundary where one is due (notes/assumptions/5.md); nothing passes while a reset is held. -/
def Obligations.EmptyQueueLetsTimePass : Prop :=
  ∀ s : State, s.pending = [] →
    let later : State := { s with timer.phase := s.timer.phase + 1 }
    let lends := s.timer.frameLend ≠ 0 ∧ s.timer.phase + 1 = s.timer.frameLend * s.timer.frameLength
    (s.control.held ≠ .no → step s = .next s) ∧
      (Running s → 16 * s.timer.frameLength ≤ s.timer.phase + 1 → step s = exec .frameBoundary s) ∧
      (Running s → s.timer.phase + 1 < 16 * s.timer.frameLength →
        (¬lends → s.timer.phase + 1 < 96 → step s = .next later) ∧
          (¬lends → 96 ≤ s.timer.phase + 1 → step s = exec .solveCompletion later) ∧
          (lends → s.timer.phase + 1 < 96 → step s = exec .lendPoint s) ∧
          (lends → 96 ≤ s.timer.phase + 1 →
            ∃ t, exec .solveCompletion s = .next t ∧ step s = exec .lendPoint t))

/-- Every well-formed command has a next state, and leaves the queue of waiting commands to the step; an arrival whose length no link frame carries is refused by name (notes/assumptions/9.md). -/
def Obligations.WellFormedCommandsComplete : Prop :=
  (∀ (c : Instr) (s : State), c.wf = true → ∃ t, exec c s = .next t ∧ t.pending = s.pending) ∧
    ∀ (q : RequesterId) (tag : Byte) (b : RequestBody) (s : State),
      (Instr.arrival q tag b).wf = false → exec (.arrival q tag b) s = .refused .impossibleLength

/-- The state right after reset (straps and HALT_REQ low by the model's choice, notes/assumptions/1.md) upholds every law of the part. In it frame 0 of 64 units with no lend point is in progress, its solve is running on a snapshot in which T23 alone is eligible, no tenant has credit, and FP, CAP, WF, CTO and the default tenant hold their reset values. -/
def Obligations.ResetStateUpholdsTheLawsAndOpensFrameZero : Prop :=
  (Safe State.reset) ∧
    State.reset.timer = ⟨64, 0, 16383, 64, 0, 0, 0, false⟩ ∧ State.reset.admission.writeFactor = 4 ∧
      State.reset.paths.cto = 256 ∧ State.reset.classifier.defaultTenant = 23 ∧ effectiveCap State.reset = 1024 ∧
      State.reset.solver.solving = true ∧ State.reset.solver.newResult = false ∧
      State.reset.solver.result.valid = false ∧ State.reset.solver.snapshot.effCap = 1024 ∧
      (∀ x, (State.reset.solver.snapshot.tenants.get x).eligible = decide (x = 23)) ∧
      (∀ x, (State.reset.credit.tenants.get x).credit = 0 ∧ (State.reset.credit.tenants.get x).spent = 0) ∧
      State.reset.credit.spare = 0 ∧
      ∀ x, (recordAt State.reset x).state = if x = 23 then .active else .off

/-- While a power-on or pin reset is held every piece of state has its power-on value; a pin reset keeps the strap snapshot and RESET_CAUSE, and does not begin while a power-on reset is held (notes/assumptions/6.md). What is outside the part stays: the level on HALT_REQ, what has already left the part, and the waiting commands. -/
def Obligations.HeldResetsHoldPowerOnValues : Prop :=
  ∀ s : State, ∃ t,
    exec .powerOnReset s = .next t ∧
    (s.control.held ≠ .powerOn → exec .pinReset s = .next { t with
      control := { t.control with straps := s.control.straps, cause := s.control.cause, held := .pin } }) ∧
    (s.control.held = .powerOn → exec .pinReset s = .next s) ∧
    t.pending = s.pending ∧ t.wires = s.wires ∧ t.pairHalt.haltReq = s.pairHalt.haltReq ∧
    t.links = ⟨false, false, 0, 0⟩ ∧
    (∀ e, t.classifier.entries.get e = ⟨false, 0, 0, .all, false, 0, 0, 0, 0⟩) ∧ t.classifier.defaultTenant = 23 ∧
    t.admission.writeFactor = 4 ∧ t.admission.nextStamp = 0 ∧ t.admission.store = [] ∧
    (∀ x, t.admission.queues.get x = ⟨[], [], false⟩) ∧
    t.timer.fp = 64 ∧ t.timer.lp = 0 ∧ t.timer.cap = 16383 ∧ t.timer.number = 65535 ∧ t.timer.startDue = false ∧
    t.solver.solving = false ∧ t.solver.newResult = false ∧ t.solver.result.valid = false ∧
    t.solver.result.level = 0 ∧ t.solver.result.spare = 0 ∧
    (∀ x, t.solver.result.allotments.get x = 0 ∧ t.solver.result.demands.get x = 0) ∧
    t.credit.spare = 0 ∧
    (∀ x, (creditAt t x).credit = 0 ∧ (creditAt t x).spent = 0 ∧ (creditAt t x).releasedNow = 0 ∧
      (creditAt t x).releasedPrevious = 0) ∧
    t.arbiter = ⟨23, 23, none⟩ ∧ t.paths.cto = 256 ∧ (∀ k, t.paths.entries.get k = none) ∧
    (∀ q, t.paths.orderLists.get q = []) ∧
    (∀ x, recordAt t x =
      { weight := 16, floor := 0, ceil := 16383, ageb := 0, drainb := 0, strikeTh := 0,
        attrs := ⟨false, false, false, false, false⟩, qlim := if x = 23 then 1024 else 64, qres := 0,
        state := if x = 23 then .active else .off, target := .none, drainMark := 0, drainClock := 0, strikes := 0,
        demoted := false, pauseMark := false, fenceDue := false }) ∧
    (∀ p, t.pairHalt.pairs.get p = ⟨false, 0, 1, .primary, 0, false, 0⟩) ∧ t.pairHalt.haltCondition = false ∧
    haltAck t = false ∧ alertAsserted t = false ∧ t.control.pendingMode = .none ∧ t.control.held = .powerOn ∧
    (∀ x, t.observe.counters.get x = ⟨0, 0, 0, 0, 0, 0, 0, 0, 0⟩) ∧ t.observe.strays = 0 ∧
    t.observe.staleFrames = 0 ∧ t.observe.ring = [] ∧ t.observe.flags = 0 ∧ t.observe.enables = 0 ∧
    t.observe.level = 0 ∧ t.observe.fallCount = 0 ∧ t.observe.fallMax = 0 ∧
    t.port = ⟨0, .tenant, 0, none, none, none, 0, 0, .none, .idle⟩

/-- While a reset is held no other command changes anything (the model's choice, notes/assumptions/7.md), and an edge of HALT_REQ changes the level on that line alone. -/
def Obligations.HeldResetIgnoresOtherCommands : Prop :=
  ∀ s : State, s.control.held ≠ .no →
    (∀ c : Instr, c.wf = true → actsWhileHeld c = false → exec c s = .next s) ∧
      (HeldLaw s → exec .haltReqRising s = .next { s with pairHalt.haltReq := true } ∧
        exec .haltReqFalling s = .next { s with pairHalt.haltReq := false })

/-- The release of a held reset starts the part: the start mode the START strap gives, no pending mode, the halt condition as HALT_REQ stands, and the start boundary, taken within the release (notes/assumptions/5.md), that opens frame 0 with the effective CAP the DIV strap gives; a power-on release latches the straps, a pin reset's keeps them. Everything else is as right after reset. A release of a reset that is not held changes nothing (the model's choice, notes/assumptions/6.md). -/
def Obligations.ReleaseOfAResetStartsThePart : Prop :=
  ∀ s : State, HeldLaw s →
    let begun := fun (straps : Straps) (cause : ResetCause) => { State.reset with
      pending := s.pending
      wires := s.wires
      pairHalt.haltReq := s.pairHalt.haltReq
      pairHalt.haltCondition := s.pairHalt.haltReq
      control := ⟨if straps.start then .hold else .transparent, .none, straps, cause, .no⟩
      solver.snapshot.effCap := min 16383 (1024 / (straps.div.toNat + 1)) }
    (∀ straps, s.control.held = .powerOn → exec (.powerOnRelease straps) s = .next (begun straps .powerOn)) ∧
      (s.control.held = .pin → exec .pinResetRelease s = .next (begun s.control.straps .pin)) ∧
      (∀ straps, s.control.held ≠ .powerOn → exec (.powerOnRelease straps) s = .next s) ∧
      (s.control.held ≠ .pin → exec .pinResetRelease s = .next s)

/-! ### Laws that every step keeps -/

/-- HeldLaw and HaltLaw: a held reset holds the power-on values, and the halt condition follows HALT_REQ but while a reset is held. -/
def Obligations.StepKeepsHeldAndHaltLaws : Prop :=
  ∀ s t : State, HeldLaw s → HaltLaw s → step s = .next t → HeldLaw t ∧ HaltLaw t

/-- DivisionLaw: the floors fit the effective CAP, every credit lies in −255 to 16383, the spare pool with the positive credits is at most 16383, and every charge lies in 1 to 256. -/
def Obligations.StepKeepsDivisionLaw : Prop :=
  ∀ s t : State, HeldLaw s → DivisionLaw s → step s = .next t → DivisionLaw t

/-- QueueLaw and TargetLaw: at most 1024 descriptors are held, no tenant holds more than its QLIM, a tenant's parked descriptors agree with its state, and a drain target stands in DRAINING alone. -/
def Obligations.StepKeepsQueueLaw : Prop :=
  ∀ s t : State, QueueLaw s → TargetLaw s → step s = .next t → QueueLaw t ∧ TargetLaw t

/-- OrderLaw: a write order list holds stamps of its requester's queued and non-orphan outstanding WRITEs alone. ListedLaw: the stamp of each such WRITE stands in its requester's list; a step keeps it where no two live WRITEs of a requester have the same stamp. BlocksLaw: the Payload Store's list is in its one form, and its blocks in use are exactly those that queued descriptors and the send in progress hold, each held once. -/
def Obligations.StepKeepsOrderAndBlocksLaws : Prop :=
  ∀ s t : State, step s = .next t → (OrderLaw s → OrderLaw t) ∧ (BlocksLaw s → BlocksLaw t) ∧
    (LiveStampsDistinct s → ListedLaw s → ListedLaw t)

/-- PairLaw: the members of a valid pair are distinct, no tenant is a member of two valid pairs, and a SETTLED pair's guard counter is 0. SwitchDownLaw and PoolDownLaw: a DOWN Switch Port leaves nothing queued, every entry an orphan and every list empty; a DOWN Pool Port leaves nothing outstanding and nothing being sent. -/
def Obligations.StepKeepsPairAndLinkLaws : Prop :=
  ∀ s t : State, step s = .next t →
    (PairLaw s → PairLaw t) ∧ (SwitchDownLaw s → PoolDownLaw s → SwitchDownLaw t ∧ PoolDownLaw t)

/-- TimeoutLaw, ObservationLaw, PortLaw, TimerLaw and RangeLaw: no entry has reached the CTO in force, the ring holds at most 32 records, the pressure figures stay in range, INDEX selects a record of the page, and these stay in their ranges: the frame settings, the phase and the place of a start boundary that is due; every tenant's stored settings, figures, latched AGEB and draw ceiling; every queued descriptor's age; every pair's guard and guard counter; and both link reset counts. -/
def Obligations.StepKeepsRangeLaws : Prop :=
  ∀ s t : State, step s = .next t →
    (TimeoutLaw s → TimeoutLaw t) ∧ (ObservationLaw s → ObservationLaw t) ∧ (PortLaw s → PortLaw t) ∧
      (TimerLaw s → TimerLaw t) ∧ (RangeLaw s → RangeLaw t)

/-- Every request taken is owed one answer until it is sent: over every command but a Switch Port link reset, a power-on reset and a pin reset, the answers sent and the answers owed to a key grow together by the requests brought under it; over those three, nothing is sent, and what is owed is silenced. -/
def Obligations.EveryRequestIsAnsweredOnce : Prop :=
  ∀ (c : Instr) (s t : State) (k : RequestKey), SwitchDownLaw s → exec c s = .next t →
    (silences c = false →
      answersSent k t + answersOwed k t = answersSent k s + answersOwed k s +
        if s.control.held = .no ∧ s.links.switchUp then requestsBrought k c else 0) ∧
      (silences c = true → answersSent k t = answersSent k s) ∧
      (silences c = true → Running s → answersOwed k t = 0)

/-- Only a grant fills an Outstanding Table entry, and only from a head that passes every release gate and the test of the port mode; a WRITE or FLUSH is released only while the pair gate of its tenant is open. -/
def Obligations.OnlyGrantsThroughTheGatesRelease : Prop :=
  ∀ (c : Instr) (s t : State) (k : Fin 256) (e : OutstandingEntry), QueueLaw s → exec c s = .next t →
    s.paths.entries.get k = none → t.paths.entries.get k = some e →
    c = .grant ∧ CanRelease s k ∧ e.age = 0 ∧ e.orphan = false ∧ (e.kind ≠ .read → GateIsOpen s e.tenant) ∧
      ∃ fromWq d, Eligible s e.tenant fromWq d ∧ e.stamp = d.stamp ∧ e.kind = d.kind ∧ e.requester = d.requester ∧
        e.tag = d.tag

/-- HALT_ACK, once asserted, stays while HALT_REQ stands, unless HALTABLE is set on a tenant that has outstanding entries. -/
def Obligations.HaltAckStays : Prop :=
  ∀ s t : State, haltAck s = true → step s = .next t → t.pairHalt.haltCondition = true →
    (∀ x, (recordAt t x).attrs.haltable = true →
      (recordAt s x).attrs.haltable = true ∨ outstandingCount s x = 0) →
    haltAck t = true

/-! ### Fabric traffic, classification and admission -/

/-- A request matches a classifier entry exactly when the entry is valid, the requester agrees with the value at every masked bit, the kind passes the filter, and the window is absent or holds the request's address. -/
def Obligations.RequestMatchesClassifierEntry : Prop :=
  ∀ (q : RequesterId) (b : RequestBody) (e : ClassifierEntry),
    entryMatches q b e = true ↔
      e.valid = true ∧ (∀ k < 6, e.mask.getLsbD k = true → q.getLsbD k = e.value.getLsbD k) ∧
        (e.filter = .reads → bodyKind b = .read) ∧ (e.filter = .writes → bodyKind b ≠ .read) ∧
        (e.window = true → ∃ a, bodyAddress b = some a ∧ e.base.toNat ≤ a.toNat ∧ a.toNat ≤ e.limit.toNat)

/-- The tenant of an arrival is the one the matching entry of highest priority names, the lowest index among equals, with the unmapped mark clear; with no match it is the default tenant, with the mark set. -/
def Obligations.ClassifierChoosesHighestPriority : Prop :=
  ∀ (c : Classifier) (q : RequesterId) (b : RequestBody),
    ((∃ i, entryMatches q b (c.entries.get i) = true) →
      ∃ i, entryMatches q b (c.entries.get i) = true ∧ classify c q b = ((c.entries.get i).tenant, false) ∧
        ∀ j, entryMatches q b (c.entries.get j) = true →
          (c.entries.get j).priority.toNat < (c.entries.get i).priority.toNat ∨
            ((c.entries.get j).priority = (c.entries.get i).priority ∧ i ≤ j)) ∧
      ((∀ i, entryMatches q b (c.entries.get i) = false) → classify c q b = (c.defaultTenant, true))

/-- An arrival for an OFF or FENCED tenant is answered REFUSED at once and counted, with UNMAPPED set when no entry matched and the default tenant is OFF. One for an ACTIVE, DRAINING or QUIESCED tenant that fails the descriptor test or the payload test is answered RETRY at once, counted, and marks its tenant. Nothing else changes. While the Switch Port link is DOWN no arrival occurs: the command changes nothing (notes/assumptions/8.md). -/
def Obligations.ArrivalsAnsweredAtOnce : Prop :=
  ∀ (s : State) (q : RequesterId) (tag : Byte) (b : RequestBody),
    Running s → (Instr.arrival q tag b).wf = true →
    let x := (classify s.classifier q b).1
    let unmapped := (classify s.classifier q b).2
    (s.links.switchUp = true → (recordAt s x).state = .off ∨ (recordAt s x).state = .fenced →
      exec (.arrival q tag b) s = .next { s with
        wires.upstream := s.wires.upstream ++ [⟨bodyKind b, q, tag, .refused, []⟩]
        observe.counters := s.observe.counters.modify x fun c => { c with refused := c.refused + 1 }
        observe.flags :=
          if unmapped = true ∧ (recordAt s s.classifier.defaultTenant).state = .off then s.observe.flags ||| 64
          else s.observe.flags }) ∧
    (s.links.switchUp = true → (recordAt s x).state ≠ .off → (recordAt s x).state ≠ .fenced →
      ¬PassesDescriptorTest s x ∨ FailsPayloadTest s b →
      exec (.arrival q tag b) s = .next { s with
        wires.upstream := s.wires.upstream ++ [⟨bodyKind b, q, tag, .retry, []⟩]
        observe.counters := s.observe.counters.modify x fun c => { c with retry := c.retry + 1 }
        admission.queues := s.admission.queues.modify x fun u => { u with retryMark := true } }) ∧
    (s.links.switchUp = false → exec (.arrival q tag b) s = .next s)

/-- An arrival with room is admitted: its descriptor, with the charge of its kind and length and WF as it stands, the next stamp, age 0 and its parked flag by the tenant's state, joins the tail of the RQ or WQ; a WRITE's payload is stored in free blocks and its stamp joins its requester's write order list; the stamp counter and the requests-accepted counter advance; nothing is answered and nothing else changes. -/
def Obligations.ArrivalWithRoomIsAdmitted : Prop :=
  ∀ (s : State) (q : RequesterId) (tag : Byte) (b : RequestBody),
    Running s → s.links.switchUp = true → (Instr.arrival q tag b).wf = true → StoreLaw s.admission →
    let x := (classify s.classifier q b).1
    (recordAt s x).state ≠ .off → (recordAt s x).state ≠ .fenced →
    PassesDescriptorTest s x → ¬FailsPayloadTest s b →
    let charge := match b with
      | .read _ n => (n + 63) / 64
      | .write _ p => ((p.length + 63) / 64 * s.admission.writeFactor + 3) / 4
      | .flush => 1
    let payload := match b with
      | .write _ p => p
      | _ => []
    ∃ (blocks : List Nat) (store : List (Nat × List Byte)),
      let d : Descriptor :=
        { tenant := x, requester := q, tag := tag, kind := bodyKind b, address := bodyAddress b, length := bodyLength b,
          charge := charge, stamp := s.admission.nextStamp, age := 0,
          parked := decide ((recordAt s x).state = .draining ∨ (recordAt s x).state = .quiesced), blocks := blocks }
      blocks.length = (payload.length + 63) / 64 ∧ blocks.Nodup ∧
        (∀ k ∈ blocks, k < 4096 ∧ s.admission.store.lookup k = none) ∧
        storeWf store = true ∧ bytesIn store blocks = payload ∧
        (∀ k, k ∉ blocks → store.lookup k = s.admission.store.lookup k) ∧
        exec (.arrival q tag b) s = .next { s with
          admission.queues := s.admission.queues.modify x fun u =>
            if bodyKind b = .read then { u with rq := u.rq ++ [d] } else { u with wq := u.wq ++ [d] }
          admission.store := store
          admission.nextStamp := s.admission.nextStamp + 1
          paths.orderLists :=
            if bodyKind b = .write then s.paths.orderLists.modify q.toFin fun l => l ++ [s.admission.nextStamp]
            else s.paths.orderLists
          observe.counters := s.observe.counters.modify x fun c => { c with accepted := c.accepted + 1 } }

/-! ### Grants and release -/

/-- A grant releases nothing, and changes nothing, while the slot is busy, the Pool Port link is DOWN, no pool-side tag is free, or no head is eligible. -/
def Obligations.GrantWithoutCandidateChangesNothing : Prop :=
  ∀ s : State, Running s →
    (s.arbiter.slot ≠ none ∨ s.links.poolUp = false ∨ (∀ k, s.paths.entries.get k ≠ none) ∨
      ∀ x fromWq d, ¬Eligible s x fromWq d) →
    exec .grant s = .next s

/-- In TRANSPARENT and HOLD a grant releases the oldest eligible head of all tenants under the lowest free tag, without payment; neither pointer moves. -/
def Obligations.OldestEligibleHeadIsReleased : Prop :=
  ∀ (s : State) (x : TenantId) (fromWq : Bool) (d : Descriptor) (tag : Fin 256),
    Running s → s.control.mode ≠ .govern → CanRelease s tag → Eligible s x fromWq d →
    (∀ y w e, Eligible s y w e → (y, w) ≠ (x, fromWq) → older d.stamp e.stamp = true) →
    exec .grant s = .next (released x fromWq d tag s)

/-- In GOVERN a grant releases the oldest aged candidate first, paid from credit when that is 1 or more and else from the spare pool; neither pointer moves. -/
def Obligations.GovernServesTheOldestAgedCandidateFirst : Prop :=
  ∀ (s : State) (x : TenantId) (fromWq : Bool) (d : Descriptor) (tag : Fin 256),
    Running s → s.control.mode = .govern → CanRelease s tag → IsCandidate s x fromWq d → Aged s x d →
    (∀ y w e, y ≠ x → MayBeCandidate s y w e → Aged s y e → older d.stamp e.stamp = true) →
    (1 ≤ (creditAt s x).credit → exec .grant s = .next (released x fromWq d tag (paidFromCredit x d.charge s))) ∧
      ((creditAt s x).credit ≤ 0 → exec .grant s = .next (released x fromWq d tag (paidFromSpare d.charge s)))

/-- In GOVERN with no aged candidate, the tenants with credit 1 or more are served in turn after the own-credit pointer and pay from credit; when there is none, the borrowers are served in turn after the borrower pointer and pay from the spare pool. The pointer of the class served takes the tenant's number. -/
def Obligations.GovernServesOwnCreditThenBorrowersInTurn : Prop :=
  ∀ (s : State) (x : TenantId) (fromWq : Bool) (d : Descriptor) (tag : Fin 256),
    Running s → s.control.mode = .govern → CanRelease s tag → IsCandidate s x fromWq d →
    (∀ y w e, MayBeCandidate s y w e → ¬Aged s y e) →
    (1 ≤ (creditAt s x).credit →
      (∀ y w e, y ≠ x → MayBeCandidate s y w e → 1 ≤ (creditAt s y).credit →
        turnsAfter s.arbiter.ownPointer x < turnsAfter s.arbiter.ownPointer y) →
      exec .grant s = .next { released x fromWq d tag (paidFromCredit x d.charge s) with arbiter.ownPointer := x }) ∧
    ((creditAt s x).credit ≤ 0 →
      (∀ y w e, MayBeCandidate s y w e → (creditAt s y).credit ≤ 0) →
      (∀ y w e, y ≠ x → MayBeCandidate s y w e →
        turnsAfter s.arbiter.borrowPointer x < turnsAfter s.arbiter.borrowPointer y) →
      exec .grant s = .next { released x fromWq d tag (paidFromSpare d.charge s) with arbiter.borrowPointer := x })

/-- The end of a send: the request has left the Pool Port with its pool-side tag and, for a WRITE, the payload its blocks hold in order; the slot is free and those blocks are returned. With the slot free no send ends: the command then changes nothing (the model's choice, notes/assumptions/8.md). -/
def Obligations.EndOfSendFreesSlotAndBlocks : Prop :=
  ∀ s : State, Running s →
    (s.arbiter.slot = none → exec .endOfSend s = .next s) ∧
      ∀ x, s.arbiter.slot = some x → exec .endOfSend s = .next { s with
        wires.downstream := s.wires.downstream ++
          [⟨x.kind, x.requester, x.poolTag, x.address, x.length, bytesIn s.admission.store x.blocks⟩]
        arbiter.slot := none
        admission.store := s.admission.store.filter fun c => !x.blocks.contains c.1 }

/-! ### Pool responses -/

/-- A response that answers a non-orphan entry by tag and kind is forwarded upstream with the entry's requester and switch-side tag and the pool's status, with data for a good READ_DATA alone; the entry is freed, a WRITE's stamp leaves its list, a MEDIA_FAULT is counted, and then the drain of every tenant and the settling of every pair are tested (R94, R124, R138 as notes/assumptions/17.md reads them). A response that answers an orphan frees its entry and does nothing upstream. A response under a free tag, or of a kind that does not answer the entry, is a stray: counted, STRAY set, nothing else changed. -/
def Obligations.PoolResponsesAreForwardedConsumedOrStray : Prop :=
  (∀ (s : State) (tag : Byte) (kind : ResponseKind) (status : PoolStatus) (data : List Byte) (e : OutstandingEntry),
     Running s → s.links.poolUp = true → s.links.switchUp = true → s.paths.entries.get tag.toFin = some e →
     e.orphan = false →
     (e.kind = .read → kind = .readData) → (e.kind = .write → kind = .writeAck) → (e.kind = .flush → kind = .flushAck) →
     exec (.poolResponse tag kind status data) s = .next (testSettles (testDrains { s with
       wires.upstream := s.wires.upstream ++ [⟨e.kind, e.requester, e.tag,
         match status with
           | .good => .good
           | .mediaFault => .mediaFault,
         if e.kind = .read ∧ status = .good then data else []⟩]
       paths.entries := s.paths.entries.set tag.toFin none
       paths.orderLists :=
         if e.kind = .write then s.paths.orderLists.modify e.requester.toFin fun l => l.filter (· != e.stamp)
         else s.paths.orderLists
       observe.counters :=
         if status = .mediaFault then
           s.observe.counters.modify e.tenant fun c => { c with mediaFault := c.mediaFault + 1 }
         else s.observe.counters }))) ∧
    ∀ (s : State) (tag : Byte) (kind : ResponseKind) (status : PoolStatus) (data : List Byte), Running s →
      let answers := fun (e : OutstandingEntry) =>
        (e.kind = .read ∧ kind = .readData) ∨ (e.kind = .write ∧ kind = .writeAck) ∨ (e.kind = .flush ∧ kind = .flushAck)
      (s.links.poolUp = true → (∀ e, s.paths.entries.get tag.toFin = some e → ¬answers e) →
        exec (.poolResponse tag kind status data) s = .next { s with
          observe.strays := s.observe.strays + 1, observe.flags := s.observe.flags ||| 16 }) ∧
        ∀ e, s.links.poolUp = true → s.paths.entries.get tag.toFin = some e → answers e → e.orphan = true →
          exec (.poolResponse tag kind status data) s = .next
            (testSettles (testDrains { s with paths.entries := s.paths.entries.set tag.toFin none }))

/-- What the freeing of entries brings about: every drain that has finished ends, in its target state, and every pair in GUARD whose counter is 0 and whose old active member has no WRITE or FLUSH outstanding settles (every drain and every pair is tested: notes/assumptions/17.md). A drain that ends in OFF has its queue refused: tenant by tenant in ascending order, and each tenant's descriptors in stamp order, a REFUSED response leaves for each while the Switch Port is UP, its payload blocks are freed, a WRITE's stamp leaves its requester's list, and the tenant's REFUSED counter advances. Nothing else changes. -/
def Obligations.FreeingEndsDrainsAndSettlesPairs : Prop :=
  ∀ s : State, TargetLaw s →
    let t := testSettles (testDrains s)
    let stops := fun (x : TenantId) => DrainFinished s x ∧ (recordAt s x).target = .off
    (∀ x, DrainFinished s x → recordAt t x = { recordAt s x with
      state := if (recordAt s x).target = .off then .off else .quiesced, target := .none, fenceDue := false }) ∧
    (∀ x, ¬DrainFinished s x → recordAt t x = recordAt s x) ∧
    (∀ x, stops x → queuesAt t x = { queuesAt s x with rq := [], wq := [] }) ∧
    (∀ x, ¬stops x → queuesAt t x = queuesAt s x) ∧
    (∃ l : TenantId → List Descriptor,
      (∀ x, stops x → InStampOrder (queuedOf (queuesAt s x)) (l x)) ∧
      (∀ x, ¬stops x → l x = []) ∧
      t.wires = { s.wires with upstream := s.wires.upstream ++
        if s.links.switchUp then (List.finRange 24).flatMap fun x => (l x).map refusal else [] } ∧
      t.admission.store = s.admission.store.filter (fun c =>
        !(List.finRange 24).any fun x => (l x).any fun d => d.blocks.contains c.1) ∧
      (∀ q, t.paths.orderLists.get q = (s.paths.orderLists.get q).filter fun y =>
        !(List.finRange 24).any fun x => holdsWrite (l x) q y) ∧
      ∀ x, t.observe.counters.get x = { s.observe.counters.get x with
        refused := (s.observe.counters.get x).refused + BitVec.ofNat 32 (l x).length }) ∧
    (∀ p,
      let e := s.pairHalt.pairs.get p
      let old := if e.active = .primary then e.secondary else e.primary
      t.pairHalt.pairs.get p =
        if e.valid = true ∧ e.inGuard = true ∧ e.counter = 0 ∧ outstandingWrites s old = 0 then { e with inGuard := false }
        else e) ∧
    t = { s with
      admission := { s.admission with queues := t.admission.queues, store := t.admission.store }
      paths := { s.paths with orderLists := t.paths.orderLists }
      records := t.records
      pairHalt := { s.pairHalt with pairs := t.pairHalt.pairs }
      observe := { s.observe with counters := t.observe.counters }
      wires := t.wires }

/-! ### The frame boundary -/

/-- A boundary, the start boundary where one is due, opens a frame: the number advances by 1, the stored FP and LP are latched, the phase restarts and a solve begins; a pending mode becomes current. Every queued descriptor that stays ages by 1 up to 255, retry marks are cleared, and each maximum head age takes both heads' ages. Configuration, links, the arbiter, the port and what the pool was sent are kept. -/
def Obligations.BoundaryOpensAFrame : Prop :=
  ∀ s : State, Running s → ∃ t, exec .frameBoundary s = .next t ∧
    t.timer = { s.timer with
      number := s.timer.number + 1, frameLength := s.timer.fp, frameLend := s.timer.lp, phase := 0, startDue := false } ∧
    t.solver.solving = true ∧ t.solver.newResult = false ∧ t.solver.result = s.solver.result ∧
    t.control = { s.control with
      mode := match s.control.pendingMode with
        | .none => s.control.mode
        | .transparent => .transparent
        | .govern => .govern
      pendingMode := .none } ∧
    (∀ x,
      let aged := fun (d : Descriptor) => { d with age := min 255 (d.age + 1) }
      queuesAt t x = ⟨(queuesAt s x).rq.map aged, (queuesAt s x).wq.map aged, false⟩ ∨
        ((recordAt s x).state = .draining ∧ ((recordAt t x).state = .fenced ∨ (recordAt t x).state = .off) ∧
          queuesAt t x = ⟨[], [], false⟩)) ∧
    (∀ x, (t.observe.counters.get x).maxHeadAge =
      min 255 (max (s.observe.counters.get x).maxHeadAge
        (max (headAgeNext (queuesAt s x).rq) (headAgeNext (queuesAt s x).wq)))) ∧
    t.links = s.links ∧ t.classifier = s.classifier ∧ t.arbiter = s.arbiter ∧ t.port = s.port ∧
    t.admission.writeFactor = s.admission.writeFactor ∧ t.admission.nextStamp = s.admission.nextStamp ∧
    t.wires.downstream = s.wires.downstream ∧ t.wires.bus = s.wires.bus ∧
    t.pairHalt.haltReq = s.pairHalt.haltReq ∧ t.pairHalt.haltCondition = s.pairHalt.haltCondition ∧
    t.observe.strays = s.observe.strays ∧ t.observe.enables = s.observe.enables ∧ t.paths.cto = s.paths.cto ∧
    alertSet .plink t = alertSet .plink s ∧ alertSet .stray t = alertSet .stray s ∧
    alertSet .unmapped t = alertSet .unmapped s ∧ List.Sublist t.admission.store s.admission.store ∧
    ∀ x,
      let r := recordAt s x
      let r' := recordAt t x
      let c := s.observe.counters.get x
      let c' := t.observe.counters.get x
      c'.accepted = c.accepted ∧ c'.readBlocks = c.readBlocks ∧ c'.writeBlocks = c.writeBlocks ∧ c'.retry = c.retry ∧
        c'.mediaFault = c.mediaFault ∧ c'.pathLost = c.pathLost ∧
        r'.weight = r.weight ∧ r'.floor = r.floor ∧ r'.ceil = r.ceil ∧ r'.ageb = r.ageb ∧ r'.drainb = r.drainb ∧
        r'.strikeTh = r.strikeTh ∧ r'.attrs = r.attrs ∧ r'.qlim = r.qlim ∧ r'.qres = r.qres ∧ r'.drainMark = r.drainMark

/-- A boundary's snapshot holds the effective CAP and, for each tenant, its settings, its demoted flag and eligibility as the boundary leaves them, and its demand, which counts the charge released in the frame it ends (at a start boundary too, where a runtime reset was followed by a release: the model's choice, notes/assumptions/21.md); the load gives an ACTIVE or DRAINING tenant the allotment handed with its debt carried, any other tenant credit 0, and replaces the spare pool and the frame settings. A fresh result hands its allotments and spare, a stale one the allotments of eligible tenants and the spare, and the start boundary nothing. -/
def Obligations.BoundaryTakesSnapshotAndLoadsCredit : Prop :=
  ∀ s : State, Running s → ∃ t, exec .frameBoundary s = .next t ∧
    t.solver.snapshot.effCap = min s.timer.cap (min 16383 (s.timer.fp * 16 / (s.control.straps.div.toNat + 1))) ∧
    t.credit.spare = (if s.timer.startDue = true then 0 else s.solver.result.spare) ∧
    ∀ x,
      let handed :=
        if s.timer.startDue = true then 0
        else if s.solver.newResult = true ∨ (t.solver.snapshot.tenants.get x).eligible = true then
          s.solver.result.allotments.get x
        else 0
      let r := recordAt s x
      SnapshotOf s t x (t.solver.snapshot.tenants.get x) ∧
        (creditAt t x).credit =
          (if (recordAt t x).state = .active ∨ (recordAt t x).state = .draining then
            (handed : Int) + min (creditAt s x).credit 0
          else 0) ∧
        (creditAt t x).spent = 0 ∧ (creditAt t x).releasedNow = 0 ∧
        (creditAt t x).releasedPrevious = (creditAt s x).releasedNow ∧
        (creditAt t x).settings = ⟨r.attrs.lend, r.attrs.borrow, r.attrs.exempt, r.ageb,
          max r.ceil (if (recordAt t x).demoted = true then 0 else r.floor)⟩

/-- A boundary that finds no new result hands a STALE record for the frame it ends, with the figures of the last completed result, counts it, sets STALE and brings the pressure level to 3; a boundary that finds one, and a start boundary, change none of these. -/
def Obligations.BoundaryWithoutNewResultIsStale : Prop :=
  ∀ s : State, Running s → ∃ t, exec .frameBoundary s = .next t ∧
    (s.solver.newResult = false → s.timer.startDue = false → s.observe.level ≤ 3 →
      let r := s.solver.result
      let record : FrameRecord :=
        if r.valid = true then
          ⟨s.timer.number, r.effCap, r.guaranteed, r.residual, r.level, r.spare, r.sumDemand, r.eligibleCount, .stale⟩
        else ⟨s.timer.number, 0, 0, 0, 0, 0, 0, 0, .stale⟩
      t.observe.ring = (record :: s.observe.ring).take 32 ∧ t.observe.staleFrames = s.observe.staleFrames + 1 ∧
        alertSet .stale t = true ∧ t.observe.level = 3 ∧ t.observe.fallCount = 0 ∧ t.observe.fallMax = 0) ∧
    (s.solver.newResult = true ∨ s.timer.startDue = true →
      t.observe.ring = s.observe.ring ∧ t.observe.staleFrames = s.observe.staleFrames ∧
        alertSet .stale t = alertSet .stale s ∧ t.observe.level = s.observe.level ∧
        t.observe.fallCount = s.observe.fallCount ∧ t.observe.fallMax = s.observe.fallMax)

/-- At a boundary a tenant's strike count rises by 1 after a RETRY, falls by 1 with both queues empty, and is else unchanged; the demoted flag is set at STRIKE_TH, is cleared at 0 or on withdrawal, and else keeps its value; DEMOTE is set by a setting. -/
def Obligations.BoundaryCountsStrikesAndDemotes : Prop :=
  ∀ s : State, Running s → ∃ t, exec .frameBoundary s = .next t ∧
    (∀ x,
      let r := recordAt s x
      let u := queuesAt s x
      let n := (recordAt t x).strikes
      n = (if u.retryMark = true then min 255 (r.strikes + 1)
          else if u.rq = [] ∧ u.wq = [] then r.strikes - 1 else r.strikes) ∧
        (r.demoted = false →
          ((recordAt t x).demoted = true ↔ r.attrs.demotable = true ∧ r.strikeTh ≠ 0 ∧ r.strikeTh ≤ n)) ∧
        (r.demoted = true →
          ((recordAt t x).demoted = false ↔ n = 0 ∨ r.attrs.demotable = false ∨ r.strikeTh = 0))) ∧
    (alertSet .demote t = true ↔
      alertSet .demote s = true ∨ ∃ x, (recordAt s x).demoted = false ∧ (recordAt t x).demoted = true)

/-- At a boundary every entry's age advances, and every entry whose age is then at least the stored CTO expires: freed, a non-orphan answered EXPIRED in ascending order of tag ahead of every other response of the boundary and counted, its WRITE's stamp gone from its list; EXPIRE is set. -/
def Obligations.BoundaryExpiresOldEntries : Prop :=
  ∀ s : State, Running s → ∃ t, exec .frameBoundary s = .next t ∧ t.paths.ctoInForce = s.paths.cto ∧
    (∀ k, t.paths.entries.get k =
      match s.paths.entries.get k with
      | none => none
      | some e => if s.paths.cto ≤ e.age + 1 then none else some { e with age := e.age + 1 }) ∧
    (∃ refusals, (∀ r ∈ refusals, r.status = .refused ∧ r.data = []) ∧
      t.wires.upstream = s.wires.upstream ++
        (if s.links.switchUp then (expiringEntries s).filterMap (endResponse .expired) else []) ++ refusals) ∧
    (∀ x, (t.observe.counters.get x).expired = (s.observe.counters.get x).expired +
      BitVec.ofNat 32 ((expiringEntries s).countP fun e => e.tenant == x && !e.orphan)) ∧
    (∀ q, List.Sublist (t.paths.orderLists.get q) (s.paths.orderLists.get q)) ∧
    (∀ e ∈ expiringEntries s, e.orphan = false → e.kind = .write →
      e.stamp ∉ t.paths.orderLists.get e.requester.toFin) ∧
    (∀ q x, x ∈ s.paths.orderLists.get q → x ∉ t.paths.orderLists.get q →
      (∃ e ∈ expiringEntries s, e.kind = .write ∧ e.orphan = false ∧ e.requester.toFin = q ∧ e.stamp = x) ∨
        ∃ y, queuedOf (queuesAt t y) = [] ∧
          ∃ d ∈ queuedOf (queuesAt s y), d.kind = .write ∧ d.requester.toFin = q ∧ d.stamp = x) ∧
    (alertSet .expire t = true ↔ alertSet .expire s = true ∨ expiringEntries s ≠ [])

/-- At a boundary, after its expiries (the order: notes/assumptions/4.md): a finished drain ends in its target; any other drain's clock advances unless its frame was paused, and one that has just advanced to a DRAINB that is not 0 or beyond it is fenced, its queue refused and FENCE set (a clock that stands at 65535 counts as just advanced: the model's choice, notes/assumptions/19.md). The queues refused are answered REFUSED tenant by tenant in tenant number order, each in stamp order, after the EXPIRED responses; nothing else leaves the part; their blocks are freed, and the stamps of their WRITEs and of those that expired leave the order lists. Each pause mark then says whether its tenant is release-permitted as the new frame starts. At a boundary, after its expiries, the guard counter of each valid pair in GUARD falls by 1 when above 0, and the pair settles when it is 0 and the old active member has no WRITE or FLUSH entry left; every other pair keeps its state. -/
def Obligations.BoundaryCountsDrainsAndGuards : Prop :=
  (∀ s : State, Running s → TargetLaw s → ∃ t, exec .frameBoundary s = .next t ∧
     (∀ x,
       let r := recordAt s x
       let r' := recordAt t x
       let finished := r.state = .draining ∧ (∀ d ∈ queuedOf (queuesAt s x), d.parked = true) ∧
         ∀ k e, t.paths.entries.get k = some e → e.tenant ≠ x
       let clock := min 65535 (r.drainClock + 1)
       let emptied := queuedOf (queuesAt t x) = [] ∧
         (t.observe.counters.get x).refused =
           (s.observe.counters.get x).refused + BitVec.ofNat 32 (queuedOf (queuesAt s x)).length
       (r.state ≠ .draining → r'.state = r.state ∧ r'.target = r.target ∧ r'.drainClock = r.drainClock) ∧
         (finished → r.target = .off → r'.state = .off ∧ r'.target = .none ∧ r'.drainClock = r.drainClock ∧ emptied) ∧
         (finished → r.target = .quiesced →
           r'.state = .quiesced ∧ r'.target = .none ∧ r'.drainClock = r.drainClock) ∧
         (r.state = .draining → ¬finished → r.pauseMark = true →
           r'.state = .draining ∧ r'.target = r.target ∧ r'.drainClock = r.drainClock) ∧
         (r.state = .draining → ¬finished → r.pauseMark = false → r.drainb ≠ 0 → r.drainb ≤ clock →
           r'.state = .fenced ∧ r'.target = .none ∧ r'.drainClock = clock ∧ emptied) ∧
         (r.state = .draining → ¬finished → r.pauseMark = false → r.drainb = 0 ∨ clock < r.drainb →
           r'.state = .draining ∧ r'.target = r.target ∧ r'.drainClock = clock) ∧
         (r.state ≠ .draining ∨ (r'.state ≠ .off ∧ r'.state ≠ .fenced) →
           (t.observe.counters.get x).refused = (s.observe.counters.get x).refused) ∧
         (r'.pauseMark = true ↔
           (t.control.mode = .hold ∧ r.attrs.exempt = false) ∨
             (s.pairHalt.haltCondition = true ∧ r.attrs.haltable = true) ∨ s.links.poolUp = false)) ∧
     (alertSet .fence t = true ↔
       alertSet .fence s = true ∨ ∃ x, (recordAt s x).state = .draining ∧ (recordAt t x).state = .fenced) ∧
     ∃ l : TenantId → List Descriptor,
       (∀ x,
         let ends := (recordAt s x).state = .draining ∧ ((recordAt t x).state = .off ∨ (recordAt t x).state = .fenced)
         (ends → InStampOrder (queuedOf (queuesAt s x)) (l x)) ∧ (¬ends → l x = [])) ∧
       t.wires = { s.wires with upstream := s.wires.upstream ++
         if s.links.switchUp then (expiringEntries s).filterMap (endResponse .expired) ++
           (List.finRange 24).flatMap fun x => (l x).map refusal else [] } ∧
       t.admission.store = s.admission.store.filter (fun c =>
         !(List.finRange 24).any fun x => (l x).any fun d => d.blocks.contains c.1) ∧
       ∀ q, t.paths.orderLists.get q = (s.paths.orderLists.get q).filter fun y =>
         !((expiringEntries s).any fun e => e.kind == .write && !e.orphan && e.requester.toFin == q && e.stamp == y) &&
           !(List.finRange 24).any fun x => holdsWrite (l x) q y) ∧
    ∀ s : State, Running s → ∃ t, exec .frameBoundary s = .next t ∧
      ∀ p,
        let e := s.pairHalt.pairs.get p
        let old := if e.active = .primary then e.secondary else e.primary
        t.pairHalt.pairs.get p =
          if e.valid = true ∧ e.inGuard = true then
            { e with
              counter := e.counter - 1
              inGuard := !decide (e.counter - 1 = 0 ∧ outstandingWrites t old = 0) }
          else e

/-! ### The events inside a frame -/

/-- EXPIRY as a command of its own (notes/assumptions/4.md): an entry that has reached the CTO in force expires, answered EXPIRED when it is no orphan, and every drain and settling is tested (notes/assumptions/17.md); any other tag changes nothing. -/
def Obligations.ExpiryEndsADueEntry : Prop :=
  ∀ (s : State) (tag : Byte), Running s →
    ((∀ e, s.paths.entries.get tag.toFin = some e → e.age < s.paths.ctoInForce) → exec (.expiry tag) s = .next s) ∧
    ∀ e, s.paths.entries.get tag.toFin = some e → s.paths.ctoInForce ≤ e.age →
      let freed : State := { s with
        paths.entries := s.paths.entries.set tag.toFin none
        observe.flags := s.observe.flags ||| 4 }
      (e.orphan = true → exec (.expiry tag) s = .next (testSettles (testDrains freed))) ∧
      (e.orphan = false → exec (.expiry tag) s = .next (testSettles (testDrains { freed with
        wires.upstream := s.wires.upstream ++
          if s.links.switchUp then [⟨e.kind, e.requester, e.tag, .expired, []⟩] else []
        paths.orderLists :=
          if e.kind = .write then s.paths.orderLists.modify e.requester.toFin fun l => l.filter (· != e.stamp)
          else s.paths.orderLists
        observe.counters := s.observe.counters.modify e.tenant fun c => { c with expired := c.expired + 1 } })))

/-- FENCE as a command of its own (notes/assumptions/4.md): a DRAINING tenant whose fence is due becomes FENCED with no target, its queue refused in stamp order and FENCE set; any other tenant is unchanged. DRAIN_COMPLETION: a finished drain with target QUIESCED leaves the tenant QUIESCED with its parked work; with target OFF its queue is refused in stamp order and the tenant is OFF; an unfinished drain is unchanged. -/
def Obligations.FenceAndDrainCompletionEndDrains : Prop :=
  (∀ (s : State) (x : TenantId), Running s →
     ((recordAt s x).state ≠ .draining ∨ (recordAt s x).fenceDue = false → exec (.fence x) s = .next s) ∧
     ((recordAt s x).state = .draining → (recordAt s x).fenceDue = true →
       ∃ u, QueueRefused x s u ∧ u.pairHalt = s.pairHalt ∧
         u.records = s.records.modify x (fun r => { r with state := .fenced, target := .none, fenceDue := false }) ∧
         exec (.fence x) s = .next { u with observe.flags := u.observe.flags ||| 2 })) ∧
    ∀ (s : State) (x : TenantId), Running s →
      (¬DrainFinished s x → exec (.drainCompletion x) s = .next s) ∧
      (DrainFinished s x → (recordAt s x).target = .quiesced →
        exec (.drainCompletion x) s = .next { s with
          records := s.records.modify x fun r => { r with state := .quiesced, target := .none, fenceDue := false } }) ∧
      (DrainFinished s x → (recordAt s x).target = .off →
        ∃ u, QueueRefused x s u ∧ u.pairHalt = s.pairHalt ∧
          u.records = s.records.modify x (fun r => { r with state := .off, target := .none, fenceDue := false }) ∧
          exec (.drainCompletion x) s = .next u)

/-- SETTLING: a valid pair in GUARD whose counter is 0 and whose old active member has no WRITE or FLUSH outstanding becomes SETTLED; any other pair is unchanged. PRESSURE_FALL: a fall count that has reached 4 brings the output level to the fall maximum and clears both; a lower count changes nothing. -/
def Obligations.SettlingAndPressureFall : Prop :=
  (∀ (s : State) (p : PairId), Running s →
     let e := s.pairHalt.pairs.get p
     let old := if e.active = .primary then e.secondary else e.primary
     let settles := e.valid = true ∧ e.inGuard = true ∧ e.counter = 0 ∧ outstandingWrites s old = 0
     (settles → exec (.settling p) s = .next { s with
       pairHalt.pairs := s.pairHalt.pairs.set p { e with inGuard := false } }) ∧
       (¬settles → exec (.settling p) s = .next s)) ∧
    ∀ s : State, Running s →
      (4 ≤ s.observe.fallCount → exec .pressureFall s = .next { s with
        observe.level := s.observe.fallMax, observe.fallCount := 0, observe.fallMax := 0 }) ∧
        (s.observe.fallCount < 4 → exec .pressureFall s = .next s)

/-- At the lend point every tenant with latched LEND, credit above 0 and eligible queued charge 0 gives its credit to the spare pool; nothing else changes but the phase. A frame whose latched LP is 0, or whose lend point has passed, has none: the command then changes nothing (the model's choice, notes/assumptions/8.md). The eligible queued charge leaves out parked descriptors, and WQ descriptors while the pair gate is closed. -/
def Obligations.LendPointMovesUnusedCredit : Prop :=
  (∀ s : State, Running s →
     let point := s.timer.frameLend * s.timer.frameLength
     let lending := fun x =>
       (creditAt s x).settings.lend = true ∧ 0 < (creditAt s x).credit ∧ eligibleCharge s x = 0
     (s.timer.frameLend = 0 ∨ point ≤ s.timer.phase → exec .lendPoint s = .next s) ∧
     (s.timer.frameLend ≠ 0 → s.timer.phase < point →
       exec .lendPoint s = .next { s with
         timer.phase := point
         credit.tenants := Table.build fun x =>
           if lending x then { creditAt s x with credit := 0 } else creditAt s x
         credit.spare := s.credit.spare +
           sumTenants fun x => if lending x then (creditAt s x).credit.toNat else 0 })) ∧
    ∀ (s : State) (x : TenantId),
      let counted := fun (l : List Descriptor) => sumOver l fun d => if d.parked = true then 0 else d.charge
      (GateIsOpen s x → eligibleCharge s x = counted (queuesAt s x).rq + counted (queuesAt s x).wq) ∧
        (¬GateIsOpen s x → eligibleCharge s x = counted (queuesAt s x).rq)

/-- At the completion of a solve its result becomes the last completed result and the new-result mark is set; a SOLVED record is handed to the ring, the oldest of 32 leaving it; and the pressure level takes the level computed: a rise at once, a fall after four lower records to the highest of them. No credit changes. An IDLE solver completes nothing: the command then changes nothing (the model's choice, notes/assumptions/8.md). The result stored is the water level with, from the snapshot: the valid flag set, the frame, the effective CAP, each tenant's demand and allotment, and over the eligible tenants F, the residual, the sums of h and d, their number and the spare, each written out in the terms of the division. -/
def Obligations.SolveCompletionStoresResultAndRecord : Prop :=
  (∀ s : State, Running s →
      (s.solver.solving = false → exec .solveCompletion s = .next s) ∧
      (s.solver.solving = true → ObservationLaw s →
        let n := s.solver.snapshot
        let r := solve n s.timer.number
        let c := if totalHeadroom n ≤ residualOf n then 0 else if 256 ≤ waterLevel n then 1
          else if 32 ≤ waterLevel n then 2 else 3
        let record : FrameRecord := ⟨s.timer.number, n.effCap, totalGuaranteed n, residualOf n, waterLevel n, r.spare,
          totalDemand n, eligibleTenants n, .solved⟩
        let o := s.observe
        let pressure :=
          if o.level < c then (c, 0, 0)
          else if c = o.level then (o.level, 0, 0)
          else if o.fallCount = 3 then (max o.fallMax c, 0, 0)
          else (o.level, o.fallCount + 1, max o.fallMax c)
        exec .solveCompletion s = .next { s with
          solver := ⟨false, n, r, true⟩
          observe := { o with
            ring := (record :: o.ring).take 32
            level := pressure.1, fallCount := pressure.2.1, fallMax := pressure.2.2 } })) ∧
    ∀ (n : Snapshot) (frame : BitVec 16),
      let r := solve n frame
      let overEligible := fun (f : SnapshotTenant → Nat) =>
        sumTenants fun x => if (n.tenants.get x).eligible = true then f (n.tenants.get x) else 0
      let floor := fun (t : SnapshotTenant) => if t.demoted = true then 0 else t.floor
      let g := fun (t : SnapshotTenant) => min (floor t) t.demand
      let h := fun (t : SnapshotTenant) => min t.demand (max t.ceil (floor t)) - g t
      let e := fun (level : Nat) (t : SnapshotTenant) => min (h t) (t.weight * level / 8)
      r.valid = true ∧ r.frame = frame ∧ r.level = waterLevel n ∧ r.effCap = n.effCap ∧
        (∀ x, r.demands.get x = (n.tenants.get x).demand ∧ r.allotments.get x =
          if (n.tenants.get x).eligible = true then g (n.tenants.get x) + e r.level (n.tenants.get x) else 0) ∧
        r.guaranteed = overEligible g ∧ totalGuaranteed n = r.guaranteed ∧
        r.residual = n.effCap - overEligible g ∧ residualOf n = r.residual ∧
        r.sumHeadroom = overEligible h ∧ totalHeadroom n = r.sumHeadroom ∧
        r.sumDemand = overEligible (·.demand) ∧ totalDemand n = r.sumDemand ∧
        r.eligibleCount = overEligible (fun _ => 1) ∧ eligibleTenants n = r.eligibleCount ∧
        (∀ level, totalExtra n level = overEligible (e level)) ∧
        r.spare = r.residual - overEligible (e r.level)

/-- The water level is 0 when the residual is 0, and else the largest level in 0 to 4095 at which the extras together are at most the residual. -/
def Obligations.WaterLevelIsTheLargestThatFits : Prop :=
  ∀ n : Snapshot,
    (residualOf n = 0 → waterLevel n = 0) ∧
      (0 < residualOf n → waterLevel n ≤ 4095 ∧ totalExtra n (waterLevel n) ≤ residualOf n ∧
        ∀ l ≤ 4095, totalExtra n l ≤ residualOf n → l ≤ waterLevel n)

/-- A completed solve divides the whole effective CAP: the allotments with the spare equal it, and each eligible tenant's allotment lies between its guaranteed part and its demand under its ceiling; an ineligible tenant's is 0. -/
def Obligations.SolveDividesTheWholeCapacity : Prop :=
  ∀ (n : Snapshot) (frame : BitVec 16), totalGuaranteed n ≤ n.effCap →
    sumTenants (fun x => (solve n frame).allotments.get x) + (solve n frame).spare = n.effCap ∧
      (n.effCap ≤ 16383 → (solve n frame).spare ≤ 16383 ∧ ∀ x, (solve n frame).allotments.get x ≤ 16383) ∧
      ∀ x,
        let t := n.tenants.get x
        let floor := if t.demoted = true then 0 else t.floor
        let ceil := max t.ceil floor
        let a := (solve n frame).allotments.get x
        (t.eligible = false → a = 0) ∧
          (t.eligible = true →
            a = min floor t.demand +
              min (min t.demand ceil - min floor t.demand) (t.weight * (solve n frame).level / 8) ∧
            min floor t.demand ≤ a ∧ a ≤ min t.demand ceil)

/-! ### Links and the risk halt -/

/-- A Switch Port link reset empties every queue with no response, frees the blocks of queued descriptors, makes every entry an orphan, empties every write order list and advances its count; every drain is then tested (notes/assumptions/17.md). While the link is DOWN it does nothing more. The link comes UP and nothing else changes. -/
def Obligations.SwitchPortLinkEvents : Prop :=
  ∀ s : State, Running s →
    (s.links.switchUp = false → exec .switchPortLinkReset s = .next s) ∧
    (s.links.switchUp = true → exec .switchPortLinkReset s = .next (testDrains { s with
      links.switchUp := false
      links.switchResets := min 65535 (s.links.switchResets + 1)
      admission.queues := s.admission.queues.map fun u => ⟨[], [], u.retryMark⟩
      admission.store := s.admission.store.filter fun c => !decide (∃ x, ∃ d ∈ queuedOf (queuesAt s x), c.1 ∈ d.blocks)
      paths.entries := s.paths.entries.map fun o => o.map fun e => { e with orphan := true }
      paths.orderLists := Table.fill 64 [] })) ∧
    exec .switchPortLinkUp s = .next { s with links.switchUp := true }

/-- A Pool Port link loss answers every non-orphan entry PATH_LOST in ascending order of tag and counts it, frees every entry, takes those WRITEs' stamps from their lists, frees the slot with its blocks, sets PLINK, advances its count and pauses every drain clock; every drain and settling is then tested (notes/assumptions/17.md). The link comes UP and nothing else changes. While the link is DOWN a loss or a response does not occur: either command changes nothing (notes/assumptions/8.md). -/
def Obligations.PoolPortLinkEvents : Prop :=
  ∀ s : State, Running s →
    (s.links.poolUp = false → exec .poolPortLinkLoss s = .next s) ∧
    (s.links.poolUp = true → ∃ u, exec .poolPortLinkLoss s = .next (testSettles (testDrains u)) ∧
      let ended := s.paths.entries.toList.filterMap id
      u.links = { s.links with poolUp := false, poolLosses := min 65535 (s.links.poolLosses + 1) } ∧
      u.wires = { s.wires with upstream := s.wires.upstream ++
        if s.links.switchUp then ended.filterMap (endResponse .pathLost) else [] } ∧
      (∀ k, u.paths.entries.get k = none) ∧ u.paths.cto = s.paths.cto ∧ u.paths.ctoInForce = s.paths.ctoInForce ∧
      (∀ q, u.paths.orderLists.get q = (s.paths.orderLists.get q).filter fun x =>
        !ended.any fun e => !e.orphan && e.kind == .write && e.requester.toFin == q && e.stamp == x) ∧
      u.arbiter = { s.arbiter with slot := none } ∧
      u.admission = { s.admission with store := s.admission.store.filter fun c =>
        !(match s.arbiter.slot with
          | some x => x.blocks.contains c.1
          | none => false) } ∧
      (∀ x, u.observe.counters.get x = { s.observe.counters.get x with
        pathLost := (s.observe.counters.get x).pathLost +
          BitVec.ofNat 32 (ended.countP fun e => e.tenant == x && !e.orphan) }) ∧
      u.observe = { s.observe with flags := s.observe.flags ||| 1, counters := u.observe.counters } ∧
      (∀ x, recordAt u x = { recordAt s x with pauseMark := true }) ∧
      u.classifier = s.classifier ∧ u.timer = s.timer ∧ u.solver = s.solver ∧ u.credit = s.credit ∧
      u.pairHalt = s.pairHalt ∧ u.control = s.control ∧ u.port = s.port ∧ u.pending = s.pending) ∧
    exec .poolPortLinkUp s = .next { s with links.poolUp := true } ∧
    ∀ tag kind status data, s.links.poolUp = false → exec (.poolResponse tag kind status data) s = .next s

/-- A rising edge of HALT_REQ asserts the halt condition and pauses the drain clock of every HALTABLE tenant; a falling edge deasserts it. An edge that is none changes nothing (the model's choice, notes/assumptions/8.md). HALT_ACK is asserted exactly while the halt condition is asserted and no HALTABLE tenant has an entry in the Outstanding Table. -/
def Obligations.HaltLinesAndAcknowledgement : Prop :=
  (∀ s : State, Running s →
     (s.pairHalt.haltReq = false → exec .haltReqRising s = .next { s with
       pairHalt.haltReq := true
       pairHalt.haltCondition := true
       records := s.records.map fun r => { r with pauseMark := r.pauseMark || r.attrs.haltable } }) ∧
     (s.pairHalt.haltReq = true → exec .haltReqRising s = .next s) ∧
     exec .haltReqFalling s = .next { s with pairHalt.haltReq := false, pairHalt.haltCondition := false }) ∧
    ∀ s : State, haltAck s = true ↔ s.pairHalt.haltCondition = true ∧
      ∀ k e, s.paths.entries.get k = some e → (recordAt s e.tenant).attrs.haltable = false

/-! ### Commands -/

/-- START of an OFF tenant makes it ACTIVE where its FLOOR fits beside those of the tenants that are not OFF, and else gives FLOOR_OVER; in any other state it gives WRONG_STATE. RESUME of a DRAINING or QUIESCED tenant makes it ACTIVE with no target and its parked descriptors ordinary in their places; CLEAR of a FENCED tenant makes it OFF; in any other state each gives WRONG_STATE. A command row leaves the pointer after CMD, the latches empty and one acknowledgement on the bus, and sets CMD_ARG (the model's choice, notes/assumptions/10.md). -/
def Obligations.StartResumeAndClear : Prop :=
  (∀ (s : State) (arg : Byte) (x : TenantId), Running s → arg.toNat = x.val →
     let u := commandTaken arg s
     ((recordAt s x).state = .off → floorsHeld s + (recordAt s x).floor ≤ effectiveCap s →
       exec (.start arg) s = .next (withResult 1 .ok { u with
         records := u.records.modify x fun r => { r with state := .active, target := .none } })) ∧
       ((recordAt s x).state = .off → effectiveCap s < floorsHeld s + (recordAt s x).floor →
         exec (.start arg) s = .next (withResult 1 .floorOver u)) ∧
       ((recordAt s x).state ≠ .off → exec (.start arg) s = .next (withResult 1 .wrongState u))) ∧
    ∀ (s : State) (arg : Byte) (x : TenantId), Running s → arg.toNat = x.val →
      let u := commandTaken arg s
      ((recordAt s x).state = .draining ∨ (recordAt s x).state = .quiesced →
        exec (.resume arg) s = .next (withResult 4 .ok { u with
          records := u.records.modify x fun r => { r with state := .active, target := .none }
          admission.queues := u.admission.queues.modify x fun a =>
            { a with
              rq := a.rq.map fun d => { d with parked := false }
              wq := a.wq.map fun d => { d with parked := false } } })) ∧
        ((recordAt s x).state ≠ .draining → (recordAt s x).state ≠ .quiesced →
          exec (.resume arg) s = .next (withResult 4 .wrongState u)) ∧
        ((recordAt s x).state = .fenced →
          exec (.clear arg) s = .next (withResult 5 .ok { u with
            records := u.records.modify x fun r => { r with state := .off } })) ∧
        ((recordAt s x).state ≠ .fenced → exec (.clear arg) s = .next (withResult 5 .wrongState u))

/-- QUIESCE and STOP of an ACTIVE tenant that holds something begin a drain with their target: the mark at the next stamp, the clock 0, the pause mark set; of one that holds nothing they end it in the same event. In any other state, but STOP in QUIESCED, they give WRONG_STATE. A command row leaves the pointer after CMD, the latches empty and one acknowledgement on the bus, and sets CMD_ARG (the model's choice, notes/assumptions/10.md). -/
def Obligations.QuiesceAndStopBeginDrains : Prop :=
  ∀ (s : State) (arg : Byte) (x : TenantId), Running s → arg.toNat = x.val →
    let u := commandTaken arg s
    let drained := fun (state : TenantState) (target : DrainTarget) (r : TenantRecord) =>
      { r with
        state := state, target := target, drainMark := s.admission.nextStamp, drainClock := 0, pauseMark := true }
    let ended := fun (state : TenantState) (r : TenantRecord) => { drained state .none r with fenceDue := false }
    let holds := (∃ d ∈ queuedOf (queuesAt s x), d.parked = false) ∨ outstandingCount s x ≠ 0
    let empty := queuedOf (queuesAt s x) = [] ∧ outstandingCount s x = 0
    ((recordAt s x).state = .active → holds →
      exec (.quiesce arg) s =
          .next (withResult 2 .ok { u with records := u.records.modify x (drained .draining .quiesced) }) ∧
        exec (.stop arg) s =
          .next (withResult 3 .ok { u with records := u.records.modify x (drained .draining .off) })) ∧
      ((recordAt s x).state = .active → empty →
        exec (.quiesce arg) s = .next (withResult 2 .ok { u with records := u.records.modify x (ended .quiesced) }) ∧
          exec (.stop arg) s = .next (withResult 3 .ok { u with records := u.records.modify x (ended .off) })) ∧
      ((recordAt s x).state ≠ .active → exec (.quiesce arg) s = .next (withResult 2 .wrongState u)) ∧
      ((recordAt s x).state ≠ .active → (recordAt s x).state ≠ .quiesced →
        exec (.stop arg) s = .next (withResult 3 .wrongState u))

/-- STOP of a QUIESCED tenant refuses its queue in stamp order and makes it OFF. TENANT_RESET in any state refuses its queue, clears its credit, spent, retry mark, strikes, demoted flag and counters, and tests its drain; the charges it released and its outstanding entries are kept. A command row leaves the pointer after CMD, the latches empty and one acknowledgement on the bus, and sets CMD_ARG (the model's choice, notes/assumptions/10.md). -/
def Obligations.StopOfQuiescedAndTenantReset : Prop :=
  ∀ (s : State) (arg : Byte) (x : TenantId), Running s → arg.toNat = x.val →
    let u := commandTaken arg s
    ((recordAt s x).state = .quiesced → ∃ v, QueueRefused x u v ∧ v.pairHalt = u.pairHalt ∧
      v.records = u.records.modify x (fun r => { r with state := .off }) ∧
      exec (.stop arg) s = .next (withResult 3 .ok v)) ∧
    ∃ v w, QueueRefused x u v ∧ v.pairHalt = u.pairHalt ∧ v.records = u.records ∧
      exec (.drainCompletion x) { v with
        credit.tenants := v.credit.tenants.modify x fun e => { e with credit := 0, spent := 0 }
        admission.queues := v.admission.queues.modify x fun a => { a with retryMark := false }
        records := v.records.modify x fun r => { r with strikes := 0, demoted := false }
        observe.counters := v.observe.counters.set x ⟨0, 0, 0, 0, 0, 0, 0, 0, 0⟩ } = .next w ∧
      exec (.tenantReset arg) s = .next (withResult 6 .ok w)

/-- A tenant command with a number above 23, a PAIR_SWAP with an index above 7, and a code that names no command give BAD_ARG, and nothing else changes. A command row leaves the pointer after CMD, the latches empty and one acknowledgement on the bus, and sets CMD_ARG (the model's choice, notes/assumptions/10.md). An unknown code keeps CMD_ARG. -/
def Obligations.BadArgumentsChangeNothing : Prop :=
  ∀ (s : State) (arg : Byte), Running s →
    let u := commandTaken arg s
    (24 ≤ arg.toNat →
      exec (.start arg) s = .next (withResult 1 .badArg u) ∧ exec (.quiesce arg) s = .next (withResult 2 .badArg u) ∧
        exec (.stop arg) s = .next (withResult 3 .badArg u) ∧ exec (.resume arg) s = .next (withResult 4 .badArg u) ∧
        exec (.clear arg) s = .next (withResult 5 .badArg u) ∧
        exec (.tenantReset arg) s = .next (withResult 6 .badArg u)) ∧
      (8 ≤ arg.toNat → exec (.pairSwap arg) s = .next (withResult 7 .badArg u)) ∧
      ∀ code : Byte, (Instr.unknownCommand code).wf = true →
        exec (.unknownCommand code) s = .next (withResult code .badArg (written 0x07 s))

/-- PAIR_SWAP of a valid SETTLED pair: GUARD with the counter at guard, the active member flipped, the old active member's WQ refused in stamp order with its RQ untouched, then its drain and the settle test made; where that drain ends in OFF, its RQ and WQ are refused together in stamp order (R33 as notes/assumptions/20.md reads it); an invalid pair gives WRONG_STATE and one in GUARD PAIR_BUSY. A command row leaves the pointer after CMD, the latches empty and one acknowledgement on the bus, and sets CMD_ARG (the model's choice, notes/assumptions/10.md). -/
def Obligations.PairSwapRefusesTheOldActiveMembersWrites : Prop :=
  ∀ (s : State) (arg : Byte) (p : PairId), Running s → arg.toNat = p.val →
    let u := commandTaken arg s
    let e := s.pairHalt.pairs.get p
    let old := if e.active = .primary then e.primary else e.secondary
    let flipped : PairEntry := { e with
      inGuard := true, counter := e.guard, active := if e.active = .primary then .secondary else .primary }
    let stops := (recordAt s old).state = .draining ∧ (recordAt s old).target = .off ∧
      (∀ d ∈ (queuesAt s old).rq, d.parked = true) ∧ ∀ k x, s.paths.entries.get k = some x → x.tenant ≠ old
    (e.valid = false → exec (.pairSwap arg) s = .next (withResult 7 .wrongState u)) ∧
      (e.valid = true → e.inGuard = true → exec (.pairSwap arg) s = .next (withResult 7 .pairBusy u)) ∧
      (e.valid = true → e.inGuard = false → ¬stops →
        ∃ v w z, WritesRefused old u v ∧ v.records = u.records ∧
          v.pairHalt = { u.pairHalt with pairs := u.pairHalt.pairs.set p flipped } ∧
          exec (.drainCompletion old) v = .next w ∧ exec (.settling p) w = .next z ∧
          exec (.pairSwap arg) s = .next (withResult 7 .ok z)) ∧
      (e.valid = true → e.inGuard = false → stops →
        ∃ v z, QueueRefused old u v ∧
          v.records = u.records.modify old (fun r => { r with state := .off, target := .none, fenceDue := false }) ∧
          v.pairHalt = { u.pairHalt with pairs := u.pairHalt.pairs.set p flipped } ∧
          exec (.settling p) v = .next z ∧ exec (.pairSwap arg) s = .next (withResult 7 .ok z))

/-- An argument that names none of the three modes gives BAD_ARG and changes neither mode. MODE_SET makes TRANSPARENT or GOVERN pending, replacing any pending mode; HOLD is current in the command event, with no pending mode, and sets the pause mark of every tenant whose latched EXEMPT is clear, DRAINING or not (R126, R149 as notes/assumptions/16.md reads them). A command row leaves the pointer after CMD, the latches empty and one acknowledgement on the bus, and sets CMD_ARG (the model's choice, notes/assumptions/10.md). -/
def Obligations.ModeSetMakesAModePendingOrHoldCurrent : Prop :=
  ∀ s : State, Running s →
    (∀ arg, arg ≠ 1 → arg ≠ 2 → arg ≠ 3 →
      exec (.modeSet arg) s = .next (withResult 8 .badArg (commandTaken arg s))) ∧
      exec (.modeSet 1) s = .next (withResult 8 .ok { commandTaken 1 s with control.pendingMode := .transparent }) ∧
      exec (.modeSet 2) s = .next (withResult 8 .ok { commandTaken 2 s with control.pendingMode := .govern }) ∧
      (s.control.mode = .hold →
        exec (.modeSet 3) s = .next (withResult 8 .ok { commandTaken 3 s with control.pendingMode := .none })) ∧
      (s.control.mode ≠ .hold →
        exec (.modeSet 3) s = .next (withResult 8 .ok { commandTaken 3 s with
          control.mode := .hold
          control.pendingMode := .none
          records := Table.build fun x => { recordAt s x with
            pauseMark := (recordAt s x).pauseMark || !(creditAt s x).settings.exempt } }))

/-- A runtime reset clears retry marks, credits, spent and released charges, the spare pool, both pointers, strikes, demotions, the snapshot, the last completed result and the ring, sets every pause mark and RESET_CAUSE, ends the frame, raises a start boundary and gives OK. Everything else stays as it was: the configuration, the links, the modes, the drains with their clocks, the Pair Table, the counters and alerts, and all work in flight (queues, Payload Store, write order lists, Outstanding Table, the slot). Until its start boundary is taken (notes/assumptions/5.md) every command meets that state: a GOVERN grant releases nothing. The start boundary opens the next frame with the kept FP and LP, loads nothing, is not stale, and neither counts nor fences a drain. The row leaves the pointer after CMD, the latches empty and one acknowledgement on the bus (the model's choice, notes/assumptions/10.md). -/
def Obligations.RuntimeResetKeepsConfigurationAndWorkInFlight : Prop :=
  ∀ s : State, Running s →
    let t : State := { withResult 9 .ok (written 0x07 s) with
      timer := { s.timer with phase := 16 * s.timer.frameLength - 1, startDue := true }
      admission.queues := Table.build fun x => { queuesAt s x with retryMark := false }
      solver := ⟨false, ⟨0, Table.fill 24 ⟨0, 0, 0, false, false, 0⟩⟩, SolveResult.empty, false⟩
      credit := ⟨Table.build fun x => ⟨0, 0, 0, 0, (creditAt s x).settings⟩, 0⟩
      arbiter := ⟨23, 23, s.arbiter.slot⟩
      records := Table.build fun x => { recordAt s x with strikes := 0, demoted := false, pauseMark := true }
      control.cause := .runtime
      observe := { s.observe with ring := [] } }
    exec .runtimeReset s = .next t ∧
      (s.control.mode = .govern → ChargeLaw s.admission → exec .grant t = .next t) ∧
      ∃ u, exec .frameBoundary t = .next u ∧
        u.timer = { s.timer with
          number := s.timer.number + 1, frameLength := s.timer.fp, frameLend := s.timer.lp, phase := 0
          startDue := false } ∧
        u.solver.solving = true ∧ u.solver.newResult = false ∧ u.solver.result = SolveResult.empty ∧
        u.credit.spare = 0 ∧
        (∀ x, (creditAt u x).credit = 0 ∧ (creditAt u x).spent = 0 ∧ (creditAt u x).releasedNow = 0 ∧
          (creditAt u x).releasedPrevious = 0 ∧ (recordAt u x).strikes = 0 ∧ (recordAt u x).demoted = false ∧
          (recordAt u x).drainClock = (recordAt s x).drainClock ∧
          ((recordAt u x).state = .fenced ↔ (recordAt s x).state = .fenced)) ∧
        u.observe.ring = [] ∧ u.observe.staleFrames = s.observe.staleFrames ∧ u.observe.level = s.observe.level

/-! ### Management writes -/

/-- FP, CAP, WF, LP and CTO are clamped, the default tenant range-tested; FP and CAP are refused with FLOOR where the floors would not fit. An accepted write stores its field and, but for CTO, returns a SOLVING solver to IDLE; a refused one changes STATUS alone. The row leaves the pointer after the field, the latches empty and one acknowledgement on the bus (the model's choice, notes/assumptions/10.md). -/
def Obligations.GlobalSettingWrites : Prop :=
  ∀ (s : State) (v : BitVec 16) (b : Byte), Running s →
    let divisor := s.control.straps.div.toNat + 1
    let fp := max 8 (min 1024 v.toNat)
    let cap := max 1 (min 16383 v.toNat)
    (min s.timer.cap (min 16383 (fp * 16 / divisor)) < floorsHeld s →
      exec (.fpWrite v) s = .next { written 0x0E s with port.status := some .floor }) ∧
    (floorsHeld s ≤ min s.timer.cap (min 16383 (fp * 16 / divisor)) →
      exec (.fpWrite v) s = .next { written 0x0E s with timer.fp := fp, solver.solving := false }) ∧
    (min cap (min 16383 (s.timer.fp * 16 / divisor)) < floorsHeld s →
      exec (.capWrite v) s = .next { written 0x10 s with port.status := some .floor }) ∧
    (floorsHeld s ≤ min cap (min 16383 (s.timer.fp * 16 / divisor)) →
      exec (.capWrite v) s = .next { written 0x10 s with timer.cap := cap, solver.solving := false }) ∧
    exec (.lpWrite b) s = .next { written 0x13 s with timer.lp := min 15 b.toNat, solver.solving := false } ∧
    exec (.wfWrite b) s = .next { written 0x14 s with
      admission.writeFactor := max 4 (min 16 b.toNat), solver.solving := false } ∧
    exec (.ctoWrite v) s = .next { written 0x16 s with paths.cto := max 1 (min 4095 v.toNat) } ∧
    (24 ≤ b.toNat → exec (.defaultTenantWrite b) s = .next { written 0x17 s with port.status := some .range }) ∧
    ∀ x : TenantId, b.toNat = x.val → exec (.defaultTenantWrite b) s = .next { written 0x17 s with
      classifier.defaultTenant := x, solver.solving := false }

/-- FLOOR is clamped and, unless the tenant is OFF, refused with FLOOR where the floors would pass the effective CAP; QLIM and QRES are accepted in OFF alone, QLIM lowering QRES with it and QRES refused with RESERVE where the reserves would pass 1024; a HALTABLE write changes that attribute and pauses the drain clock of a tenant it holds. The row leaves the pointer after the field, the latches empty and one acknowledgement on the bus (the model's choice, notes/assumptions/10.md). A data byte at the highest address of another live field of the selected record stores it: WEIGHT, 0 storing 1; CEIL, at most 16383; AGEB, STRIKE_TH and DRAINB as written; the attributes byte its five bits together. A data byte at CMD_ARG stores it. -/
def Obligations.TenantSettingWrites : Prop :=
  (∀ (s : State) (x : TenantId) (v : BitVec 16) (h : Bool), Running s →
     let r := recordAt s x
     let floor := min 4095 v.toNat
     let floors := sumTenants fun y =>
       if (recordAt s y).state = .off then 0 else if y = x then floor else (recordAt s y).floor
     let qres := min r.qlim v.toNat
     let reserves := sumTenants fun y => if y = x then qres else (recordAt s y).qres
     (r.state ≠ .off → effectiveCap s < floors →
       exec (.floorWrite x v) s = .next { written 0x44 s with port.status := some .floor }) ∧
     (r.state = .off ∨ floors ≤ effectiveCap s →
       exec (.floorWrite x v) s = .next { written 0x44 s with records := s.records.set x { r with floor := floor } }) ∧
     (r.state ≠ .off → exec (.qlimWrite x v) s = .next { written 0x4E s with port.status := some .state } ∧
       exec (.qresWrite x v) s = .next { written 0x50 s with port.status := some .state }) ∧
     (r.state = .off → exec (.qlimWrite x v) s = .next { written 0x4E s with
       records := s.records.set x { r with qlim := min 1024 v.toNat, qres := min r.qres (min 1024 v.toNat) } }) ∧
     (r.state = .off → 1024 < reserves →
       exec (.qresWrite x v) s = .next { written 0x50 s with port.status := some .reserve }) ∧
     (r.state = .off → reserves ≤ 1024 →
       exec (.qresWrite x v) s = .next { written 0x50 s with records := s.records.set x { r with qres := qres } }) ∧
     exec (.haltableWrite x h) s = .next { written 0x4B s with
       records := s.records.set x { r with
         attrs := { r.attrs with haltable := h }
         pauseMark := r.pauseMark || (s.pairHalt.haltCondition && h) } }) ∧
    ∀ (s : State) (x : TenantId) (lo hi : Byte), Running s → s.port.transfer = .writing →
      s.port.page = .tenant → s.port.index.val = x.val →
      let r := recordAt s x
      let stored := fun (pointer : Nat) (r' : TenantRecord) =>
        (.next { written pointer s with records := s.records.set x r' } : Host.Outcome State Fault Refusal)
      (s.port.pointer = 0x41 →
        exec (.managementWrite hi) s = stored 0x42 { r with weight := if hi.toNat = 0 then 1 else hi.toNat }) ∧
      (s.port.pointer = 0x45 → s.port.writeLatch = some ⟨.tenant x .ceil, [(0, lo)]⟩ →
        exec (.managementWrite hi) s = stored 0x46 { r with ceil := min 16383 (hi ++ lo).toNat }) ∧
      (s.port.pointer = 0x46 → exec (.managementWrite hi) s = stored 0x47 { r with ageb := hi.toNat }) ∧
      (s.port.pointer = 0x47 → exec (.managementWrite hi) s = stored 0x48 { r with strikeTh := hi.toNat }) ∧
      (s.port.pointer = 0x49 → s.port.writeLatch = some ⟨.tenant x .drainb, [(0, lo)]⟩ →
        exec (.managementWrite hi) s = stored 0x4A { r with drainb := (hi ++ lo).toNat }) ∧
      (s.port.pointer = 0x4A → exec (.managementWrite hi) s = stored 0x4B { r with
        attrs := ⟨hi.getLsbD 0, hi.getLsbD 1, hi.getLsbD 2, hi.getLsbD 3, hi.getLsbD 4⟩
        pauseMark := r.pauseMark || (s.pairHalt.haltCondition && hi.getLsbD 2) }) ∧
      (s.port.pointer = 0x07 → exec (.managementWrite hi) s = .next { written 0x08 s with port.cmdArg := hi })

/-- A write to a classifier entry changes the byte's or the field's settings alone, is refused with RANGE for a tenant of 24 or more, and else is accepted exactly when every tenant the entry names before and after is OFF or QUIESCED. A write to a pair entry is tested for range, GUARD, the states of the tenants named before and after, and membership, in that order; an accepted one stores its byte and leaves the pair SETTLED with counter 0. The row leaves the pointer after the field, the latches empty and one acknowledgement on the bus (the model's choice, notes/assumptions/10.md). -/
def Obligations.StructuralEntryWrites : Prop :=
  (∀ (s : State) (i : EntryId) (v : Byte) (a : Address), Running s →
     let e := s.classifier.entries.get i
     let filter : KindFilter :=
       if v.getLsbD 1 = true ∧ v.getLsbD 2 = false then .reads
       else if v.getLsbD 1 = false ∧ v.getLsbD 2 = true then .writes else .all
     (∃ t, exec (.classifierEntryWrite i (.flags v)) s = .next t ∧
       ClassifierWriteResult i { e with valid := v.getLsbD 0, filter := filter, window := v.getLsbD 3 } 0x41 s t) ∧
     (∃ t, exec (.classifierEntryWrite i (.requesterValue v)) s = .next t ∧
       ClassifierWriteResult i { e with value := v.setWidth 6 } 0x42 s t) ∧
     (∃ t, exec (.classifierEntryWrite i (.requesterMask v)) s = .next t ∧
       ClassifierWriteResult i { e with mask := v.setWidth 6 } 0x43 s t) ∧
     (∃ t, exec (.classifierEntryWrite i (.priority v)) s = .next t ∧
       ClassifierWriteResult i { e with priority := v.setWidth 4 } 0x44 s t) ∧
     (24 ≤ v.toNat →
       exec (.classifierEntryWrite i (.tenant v)) s = .next { written 0x45 s with port.status := some .range }) ∧
     (∀ x : TenantId, v.toNat = x.val → ∃ t, exec (.classifierEntryWrite i (.tenant v)) s = .next t ∧
       ClassifierWriteResult i { e with tenant := x } 0x45 s t) ∧
     (∃ t, exec (.classifierEntryWrite i (.windowBase a)) s = .next t ∧
       ClassifierWriteResult i { e with base := a } 0x4B s t) ∧
     ∃ t, exec (.classifierEntryWrite i (.windowLimit a)) s = .next t ∧
       ClassifierWriteResult i { e with limit := a } 0x51 s t) ∧
    ∀ (s : State) (p : PairId) (v : Byte), Running s →
      let e := s.pairHalt.pairs.get p
      (∃ t, exec (.pairEntryWrite p (.flags v)) s = .next t ∧
        PairWriteResult p { e with valid := v.getLsbD 0, active := if v.getLsbD 1 = true then .secondary else .primary }
          0x41 s t) ∧
      (24 ≤ v.toNat →
        exec (.pairEntryWrite p (.primary v)) s = .next { written 0x42 s with port.status := some .range } ∧
          exec (.pairEntryWrite p (.secondary v)) s = .next { written 0x43 s with port.status := some .range }) ∧
      (∀ x : TenantId, v.toNat = x.val →
        (∃ t, exec (.pairEntryWrite p (.primary v)) s = .next t ∧ PairWriteResult p { e with primary := x } 0x42 s t) ∧
          ∃ t, exec (.pairEntryWrite p (.secondary v)) s = .next t ∧
            PairWriteResult p { e with secondary := x } 0x43 s t) ∧
      ∃ t, exec (.pairEntryWrite p (.guard v)) s = .next t ∧ PairWriteResult p { e with guard := v.toNat } 0x44 s t

/-- PAGE takes the five page codes and brings an INDEX beyond the new page to 0; INDEX takes a value within the page; any other value of either is refused with RANGE. A STATUS write with bit 7 set clears the flag and its reason. Alert flags are cleared by 1s and kept by 0s, the enables are stored, a write to a link reset count or to a global counter sets it to 0 whatever is written, and a read of a maximum head age returns it and sets it to 0; nothing else changes. Each row leaves the pointer after the field and both latches empty; a write row drives one acknowledgement, the read row its byte (the model's choice, notes/assumptions/10.md). -/
def Obligations.RegisterAndCounterWrites : Prop :=
  (∀ (s : State) (v : Byte), Running s →
     let paged := fun (page : Page) (records : Nat) => { written 0x0A s with
       port.page := page, port.index := if s.port.index.val < records then s.port.index else 0 }
     let records := match s.port.page with
       | .tenant => 24
       | .classifier => 64
       | .pair => 8
       | .counters => 24
       | .frames => 32
     exec (.pageWrite 0) s = .next (paged .tenant 24) ∧ exec (.pageWrite 1) s = .next (paged .classifier 64) ∧
       exec (.pageWrite 2) s = .next (paged .pair 8) ∧ exec (.pageWrite 3) s = .next (paged .counters 24) ∧
       exec (.pageWrite 4) s = .next (paged .frames 32) ∧
       (5 ≤ v.toNat → exec (.pageWrite v) s = .next { written 0x0A s with port.status := some .range }) ∧
       (∀ i : EntryId, v.toNat = i.val → i.val < records →
         exec (.indexWrite v) s = .next { written 0x0B s with port.index := i }) ∧
       (records ≤ v.toNat → exec (.indexWrite v) s = .next { written 0x0B s with port.status := some .range }) ∧
       (v.getLsbD 7 = true → exec (.statusClear v) s = .next { written 0x05 s with port.status := none }) ∧
       (v.getLsbD 7 = false → exec (.statusClear v) s = .next (written 0x05 s))) ∧
    ∀ (s : State) (v : Byte) (w : BitVec 16) (c : BitVec 32) (x : TenantId), Running s →
      exec (.alertFlagClear v) s = .next { written 0x19 s with observe.flags := s.observe.flags &&& ~~~(v.setWidth 7) } ∧
        exec (.alertEnablesWrite v) s = .next { written 0x1A s with observe.enables := v.setWidth 7 } ∧
        exec (.linkResetCountClear .switch w) s = .next { written 0x22 s with links.switchResets := 0 } ∧
        exec (.linkResetCountClear .pool w) s = .next { written 0x24 s with links.poolLosses := 0 } ∧
        exec (.globalCounterClear .stray c) s = .next { written 0x28 s with observe.strays := 0 } ∧
        exec (.globalCounterClear .staleFrames c) s = .next { written 0x2C s with observe.staleFrames := 0 } ∧
        exec (.maximumHeadAgeRead x) s = .next { s with
          wires.bus := s.wires.bus ++ [.byte (BitVec.ofNat 8 (s.observe.counters.get x).maxHeadAge)]
          observe.counters := s.observe.counters.modify x fun a => { a with maxHeadAge := 0 }
          port.pointer := 0x61
          port.writeLatch := none
          port.readLatch := none }

/-- ALERT_CODE is the number of the first flag in priority order that is both set and enabled, and 0 exactly while ALERT_N is released. -/
def Obligations.AlertCodeNamesTheFirstEnabledFlag : Prop :=
  ∀ s : State, (alertCode s = 0 ↔ alertAsserted s = false) ∧
    (alertAsserted s = true ↔ ∃ n < 7, s.observe.flags.getLsbD n = true ∧ s.observe.enables.getLsbD n = true) ∧
    ∀ n < 7, s.observe.flags.getLsbD n = true → s.observe.enables.getLsbD n = true →
      (∀ m < n, s.observe.flags.getLsbD m = false ∨ s.observe.enables.getLsbD m = false) → alertCode s = n + 1

/-! ### Transfers, byte by byte -/

/-- A START with the part's address begins a transfer and is acknowledged, any other address is ignored; START and STOP empty both latches; the pointer byte of a write transfer sets the pointer to its lower seven bits. A byte that is not the first of a write transfer is no pointer byte: the command then changes nothing (the model's choice, notes/assumptions/8.md and 10.md). -/
def Obligations.TransfersBeginAndEnd : Prop :=
  ∀ (s : State) (target : BitVec 7) (d : Direction) (b : Byte), Running s →
    (target.toNat = 0x58 + s.control.straps.addr.toNat →
      exec (.i2cStartCondition target d) s = .next { s with
        port.writeLatch := none
        port.readLatch := none
        port.transfer := if d = .write then .awaitPointer else .reading
        wires.bus := s.wires.bus ++ [.ack] }) ∧
    (target.toNat ≠ 0x58 + s.control.straps.addr.toNat →
      exec (.i2cStartCondition target d) s = .next { s with
        port.writeLatch := none, port.readLatch := none, port.transfer := .ignored }) ∧
    exec .i2cStopCondition s = .next { s with
      port.writeLatch := none, port.readLatch := none, port.transfer := .idle } ∧
    (s.port.transfer = .awaitPointer → exec (.pointerByte b) s = .next { s with
      port.pointer := b.setWidth 7, port.transfer := .writing, wires.bus := s.wires.bus ++ [.ack] }) ∧
    (s.port.transfer ≠ .awaitPointer → exec (.pointerByte b) s = .next s)

/-- The addresses and widths of the layouts, written out; every field of the layouts is the field at each of its addresses, in the direct registers or in the record that PAGE and INDEX select, and every other address belongs to no field; and every field reads as what it shows: the codes and bit places of the layouts, stored settings as stored, EFFCAP as it stands, the queue depths and charges, credit in two's complement, the last completed allotment and demand, the outstanding counts, the counters, and the Frame Records by slot, newest first, a slot beyond those held showing 0. -/
def Obligations.FieldsStandAtTheirPlaces : Prop :=
  (∀ p ∈ ([
      (.id, 0x00, 4), (.status, 0x04, 1), (.mode, 0x05, 1), (.cmd, 0x06, 1), (.cmdArg, 0x07, 1),
      (.cmdResult, 0x08, 1), (.page, 0x09, 1), (.index, 0x0A, 1), (.fp, 0x0C, 2), (.cap, 0x0E, 2),
      (.effCap, 0x10, 2), (.lp, 0x12, 1), (.wf, 0x13, 1), (.cto, 0x14, 2), (.defaultTenant, 0x16, 1),
      (.alertFlags, 0x18, 1), (.alertEnables, 0x19, 1), (.alertCode, 0x1A, 1), (.halt, 0x1B, 1),
      (.resetCause, 0x1C, 1), (.straps, 0x1D, 1), (.links, 0x1E, 1), (.switchResets, 0x20, 2),
      (.poolLosses, 0x22, 2), (.strays, 0x24, 4), (.staleFrames, 0x28, 4)] : List (DirectField × Nat × Nat)), directPlace p.1 = p.2) ∧
    (∀ p ∈ ([
      (.status, 0x00, 1), (.weight, 0x01, 1), (.floor, 0x02, 2), (.ceil, 0x04, 2), (.ageb, 0x06, 1),
      (.strikeTh, 0x07, 1), (.drainb, 0x08, 2), (.attrs, 0x0A, 1), (.strikes, 0x0B, 1), (.qlim, 0x0C, 2),
      (.qres, 0x0E, 2), (.drainMark, 0x10, 4), (.drainClock, 0x14, 2), (.occupancy, 0x20, 2), (.rqDepth, 0x22, 2),
      (.wqDepth, 0x24, 2), (.queuedCharge, 0x26, 3), (.credit, 0x2A, 2), (.spent, 0x2C, 3), (.releasedNow, 0x2F, 3),
      (.releasedPrevious, 0x32, 3), (.allotment, 0x35, 2), (.demand, 0x37, 2), (.outstanding, 0x39, 2),
      (.outstandingWrites, 0x3B, 2)] : List (TenantField × Nat × Nat)), tenantPlace p.1 = p.2) ∧
    (∀ p ∈ ([
      (.flags, 0x00, 1), (.value, 0x01, 1), (.mask, 0x02, 1), (.priority, 0x03, 1), (.tenant, 0x04, 1),
      (.base, 0x05, 6), (.limit, 0x0B, 6)] : List (ClassifierField × Nat × Nat)), classifierPlace p.1 = p.2) ∧
    (∀ p ∈ ([
      (.flags, 0x00, 1), (.primary, 0x01, 1), (.secondary, 0x02, 1), (.guard, 0x03, 1), (.state, 0x04, 1),
      (.counter, 0x05, 1)] : List (PairField × Nat × Nat)), pairPlace p.1 = p.2) ∧
    (∀ p ∈ ([
      (.accepted, 0x00, 4), (.readBlocks, 0x04, 4), (.writeBlocks, 0x08, 4), (.retry, 0x0C, 4), (.refused, 0x10, 4),
      (.expired, 0x14, 4), (.mediaFault, 0x18, 4), (.pathLost, 0x1C, 4), (.maxHeadAge, 0x20, 1)] : List (CounterField × Nat × Nat)), counterPlace p.1 = p.2) ∧
    (∀ p ∈ ([
      (.number, 0x00, 2), (.effCap, 0x02, 2), (.guaranteed, 0x04, 2), (.residual, 0x06, 2), (.level, 0x08, 2),
      (.spare, 0x0A, 2), (.sumDemand, 0x0C, 3), (.eligibleCount, 0x0F, 1), (.outcome, 0x10, 1)] : List (FrameField × Nat × Nat)), framePlace p.1 = p.2) ∧
    (∀ s : State,
      let n := s.port.pointer.toNat
      (n = 0x0B ∨ n = 0x17 ∨ n = 0x1F ∨ (0x2C ≤ n ∧ n ≤ 0x3F) → fieldAt s = none) ∧
      (s.port.page = .tenant →
        (0x56 ≤ n ∧ n ≤ 0x5F) ∨ n = 0x69 ∨ 0x7D ≤ n → fieldAt s = none) ∧
      (s.port.page = .classifier ∨ s.port.page = .frames → 0x51 ≤ n → fieldAt s = none) ∧
      (s.port.page = .pair → 0x46 ≤ n → fieldAt s = none) ∧
      (s.port.page = .counters → 0x61 ≤ n → fieldAt s = none)) ∧
    (∀ s : State,
     (∀ f k, k < (directPlace f).2 → s.port.pointer.toNat = (directPlace f).1 + k → fieldAt s = some (.direct f)) ∧
     (∀ x f k, s.port.page = .tenant → s.port.index.val = x.val → k < (tenantPlace f).2 →
       s.port.pointer.toNat = 0x40 + (tenantPlace f).1 + k → fieldAt s = some (.tenant x f)) ∧
     (∀ i f k, s.port.page = .classifier → s.port.index = i → k < (classifierPlace f).2 →
       s.port.pointer.toNat = 0x40 + (classifierPlace f).1 + k → fieldAt s = some (.classifier i f)) ∧
     (∀ p f k, s.port.page = .pair → s.port.index.val = p.val → k < (pairPlace f).2 →
       s.port.pointer.toNat = 0x40 + (pairPlace f).1 + k → fieldAt s = some (.pair p f)) ∧
     (∀ x f k, s.port.page = .counters → s.port.index.val = x.val → k < (counterPlace f).2 →
       s.port.pointer.toNat = 0x40 + (counterPlace f).1 + k → fieldAt s = some (.counters x f)) ∧
     ∀ n f k, s.port.page = .frames → s.port.index.val = n.val → k < (framePlace f).2 →
       s.port.pointer.toNat = 0x40 + (framePlace f).1 + k → fieldAt s = some (.frames n f)) ∧
    ∀ s : State,
      let flag := fun (b : Bool) (place : Nat) => if b = true then 2 ^ place else 0
      (let v := fun (f : DirectField) => fieldValue s (.direct f)
       v .id = 0x55 + 0x47 * 256 + 0x24 * 65536 ∧
         v .status = (match s.port.status with
           | none => 0
           | some .range => 128 + 1
           | some .state => 128 + 2
           | some .reserve => 128 + 3
           | some .floor => 128 + 4
           | some .guard => 128 + 5
           | some .member => 128 + 6) ∧
         v .mode = (match s.control.mode with
           | .transparent => 1
           | .govern => 2
           | .hold => 3) + 4 * (match s.control.pendingMode with
           | .none => 0
           | .transparent => 1
           | .govern => 2) ∧
         v .cmd = s.port.cmd.toNat ∧ v .cmdArg = s.port.cmdArg.toNat ∧
         v .cmdResult = (match s.port.cmdResult with
           | .none => 0
           | .ok => 1
           | .wrongState => 2
           | .floorOver => 3
           | .pairBusy => 4
           | .badArg => 5) ∧
         v .page = (match s.port.page with
           | .tenant => 0
           | .classifier => 1
           | .pair => 2
           | .counters => 3
           | .frames => 4) ∧
         v .index = s.port.index.val ∧ v .fp = s.timer.fp ∧ v .cap = s.timer.cap ∧
         v .effCap = min s.timer.cap (min 16383 (s.timer.fp * 16 / (s.control.straps.div.toNat + 1))) ∧
         v .lp = s.timer.lp ∧ v .wf = s.admission.writeFactor ∧ v .cto = s.paths.cto ∧
         v .defaultTenant = s.classifier.defaultTenant.val ∧ v .alertFlags = s.observe.flags.toNat ∧
         v .alertEnables = s.observe.enables.toNat ∧ v .alertCode = alertCode s ∧
         v .halt = flag s.pairHalt.haltCondition 0 + flag (haltAck s) 1 ∧
         v .resetCause = (match s.control.cause with
           | .powerOn => 1
           | .pin => 2
           | .runtime => 3) ∧
         v .straps = s.control.straps.addr.toNat + 4 * s.control.straps.div.toNat + flag s.control.straps.start 5 ∧
         v .links = flag s.links.switchUp 0 + flag s.links.poolUp 1 ∧ v .switchResets = s.links.switchResets ∧
         v .poolLosses = s.links.poolLosses ∧ v .strays = s.observe.strays.toNat ∧
         v .staleFrames = s.observe.staleFrames.toNat) ∧
      (∀ x,
        let v := fun (f : TenantField) => fieldValue s (.tenant x f)
        let r := recordAt s x
        let u := queuesAt s x
        let c := creditAt s x
        v .status = (match r.state with
            | .off => 0
            | .active => 1
            | .draining => 2
            | .quiesced => 3
            | .fenced => 4) + 16 * (match r.target with
            | .none => 0
            | .quiesced => 1
            | .off => 2) + flag r.demoted 6 ∧
          v .weight = r.weight ∧ v .floor = r.floor ∧ v .ceil = r.ceil ∧ v .ageb = r.ageb ∧
          v .strikeTh = r.strikeTh ∧ v .drainb = r.drainb ∧
          v .attrs = flag r.attrs.lend 0 + flag r.attrs.borrow 1 + flag r.attrs.haltable 2 + flag r.attrs.exempt 3 +
            flag r.attrs.demotable 4 ∧
          v .strikes = r.strikes ∧ v .qlim = r.qlim ∧ v .qres = r.qres ∧ v .drainMark = r.drainMark.toNat ∧
          v .drainClock = r.drainClock ∧ v .occupancy = u.rq.length + u.wq.length ∧ v .rqDepth = u.rq.length ∧
          v .wqDepth = u.wq.length ∧ v .queuedCharge = sumOver u.rq (·.charge) + sumOver u.wq (·.charge) ∧
          (-32768 ≤ c.credit → c.credit ≤ 32767 →
            (v .credit : Int) = if c.credit < 0 then c.credit + 65536 else c.credit) ∧
          v .spent = c.spent ∧ v .releasedNow = c.releasedNow ∧ v .releasedPrevious = c.releasedPrevious ∧
          v .allotment = s.solver.result.allotments.get x ∧ v .demand = s.solver.result.demands.get x ∧
          v .outstanding = s.paths.entries.toList.countP (fun o => o.any fun e => e.tenant == x) ∧
          v .outstandingWrites =
            s.paths.entries.toList.countP (fun o => o.any fun e => e.tenant == x && e.kind != .read)) ∧
      (∀ i,
        let v := fun (f : ClassifierField) => fieldValue s (.classifier i f)
        let e := s.classifier.entries.get i
        v .flags = flag e.valid 0 + 2 * (match e.filter with
            | .all => 0
            | .reads => 1
            | .writes => 2) + flag e.window 3 ∧
          v .value = e.value.toNat ∧ v .mask = e.mask.toNat ∧ v .priority = e.priority.toNat ∧ v .tenant = e.tenant.val ∧
          v .base = e.base.toNat ∧ v .limit = e.limit.toNat) ∧
      (∀ p,
        let v := fun (f : PairField) => fieldValue s (.pair p f)
        let e := s.pairHalt.pairs.get p
        v .flags = flag e.valid 0 + (if e.active = .secondary then 2 else 0) ∧ v .primary = e.primary.val ∧
          v .secondary = e.secondary.val ∧ v .guard = e.guard ∧ v .state = flag e.inGuard 0 ∧ v .counter = e.counter) ∧
      (∀ x,
        let v := fun (f : CounterField) => fieldValue s (.counters x f)
        let c := s.observe.counters.get x
        v .accepted = c.accepted.toNat ∧ v .readBlocks = c.readBlocks.toNat ∧ v .writeBlocks = c.writeBlocks.toNat ∧
          v .retry = c.retry.toNat ∧ v .refused = c.refused.toNat ∧ v .expired = c.expired.toNat ∧
          v .mediaFault = c.mediaFault.toNat ∧ v .pathLost = c.pathLost.toNat ∧ v .maxHeadAge = c.maxHeadAge) ∧
      ∀ n : Fin 32,
        let v := fun (f : FrameField) => fieldValue s (.frames n f)
        (s.observe.ring.length ≤ n.val → ∀ f, v f = 0) ∧
          ∀ r, s.observe.ring[n.val]? = some r →
            v .number = r.number.toNat ∧ v .effCap = r.effCap ∧ v .guaranteed = r.guaranteed ∧ v .residual = r.residual ∧
              v .level = r.level ∧ v .spare = r.spare ∧ v .sumDemand = r.sumDemand ∧
              v .eligibleCount = r.eligibleCount ∧ v .outcome = if r.outcome = .solved then 1 else 2

/-- A data byte of a write transfer is acknowledged, empties the read snapshot latch and advances the pointer: at an unassigned address it empties the write holding latch alone; below a field's highest byte it is latched, bytes of another field discarded; at the highest byte the field is written with that byte above the latched bytes and the stored value's bytes. Bytes of read-only fields are latched alike (DEDUCED, notes/assumptions/12.md). Outside a write transfer no data byte is written: the command then changes nothing (the model's choice, notes/assumptions/8.md and 10.md). -/
def Obligations.DataBytesAreLatchedAndWritten : Prop :=
  ∀ (s : State) (b : Byte), Running s →
    let taken : State := { s with port.readLatch := none, wires.bus := s.wires.bus ++ [.ack] }
    (s.port.transfer ≠ .writing → exec (.managementWrite b) s = .next s) ∧
    (s.port.transfer = .writing → fieldAt s = none → exec (.managementWrite b) s = .next { taken with
      port.writeLatch := none, port.pointer := s.port.pointer + 1 }) ∧
    ∀ f, s.port.transfer = .writing → fieldAt s = some f →
      let k := s.port.pointer.toNat - (fieldPlace f).1
      let old := match s.port.writeLatch with
        | some l => if l.field = f then l.bytes else []
        | none => []
      let value := ofBytes ((List.range k).map (fun j => (old.lookup j).getD (byteOf (fieldValue s f) j)) ++ [b])
      (k + 1 < (fieldPlace f).2 → exec (.managementWrite b) s = .next { taken with
        port.writeLatch := some ⟨f, (k, b) :: old.filter fun c => c.1 != k⟩
        port.pointer := s.port.pointer + 1 }) ∧
      (k + 1 = (fieldPlace f).2 →
        ∃ u, u = writeField f value { taken with port.writeLatch := none } ∧
          exec (.managementWrite b) s = .next { u with port.pointer := s.port.pointer + 1 })

/-- A byte of a read transfer is driven and the pointer advances: 0 at an unassigned address, else the byte of the latched value while the latch holds the field, else of the present value. The lowest byte of a multi-byte field latches it; a byte outside the latched field empties the latch; the maximum head age is cleared by its read. READ_SNAPSHOT is the lowest byte's read; away from the lowest byte of a multi-byte field it does not occur, and outside a read transfer neither it nor DATA_BYTE_READ does: the command then changes nothing (the model's choice, notes/assumptions/8.md and 10.md). A multi-byte field is read as it stood when its lowest byte was read, whatever has changed outside the port since. -/
def Obligations.DataBytesAreReadThroughTheSnapshotLatch : Prop :=
  (∀ (s : State) (acknowledged : Bool), Running s →
     let sent := fun (b : Byte) (latch : Option ReadLatch) => ({ s with
       port.readLatch := latch
       port.pointer := s.port.pointer + 1
       port.transfer := if acknowledged then .reading else .ignored
       wires.bus := s.wires.bus ++ [.byte b] } : State)
     (s.port.transfer ≠ .reading →
       exec (.dataByteRead acknowledged) s = .next s ∧ exec (.readSnapshot acknowledged) s = .next s) ∧
     (s.port.transfer = .reading → fieldAt s = none →
       exec (.dataByteRead acknowledged) s = .next (sent 0 none) ∧ exec (.readSnapshot acknowledged) s = .next s) ∧
     ∀ f, s.port.transfer = .reading → fieldAt s = some f →
       let k := s.port.pointer.toNat - (fieldPlace f).1
       (k = 0 → 1 < (fieldPlace f).2 →
         exec (.dataByteRead acknowledged) s =
             .next (sent (BitVec.ofNat 8 (fieldValue s f)) (some ⟨f, fieldValue s f⟩)) ∧
           exec (.readSnapshot acknowledged) s = exec (.dataByteRead acknowledged) s) ∧
       (0 < k → exec (.readSnapshot acknowledged) s = .next s) ∧
       (∀ l, 0 < k → s.port.readLatch = some l → l.field = f →
         exec (.dataByteRead acknowledged) s = .next (sent (BitVec.ofNat 8 (l.value / 256 ^ k)) (some l))) ∧
       (0 < k → (∀ l, s.port.readLatch = some l → l.field ≠ f) →
         exec (.dataByteRead acknowledged) s = .next (sent (BitVec.ofNat 8 (fieldValue s f / 256 ^ k)) none)) ∧
       ((fieldPlace f).2 = 1 → exec (.readSnapshot acknowledged) s = .next s) ∧
       ((fieldPlace f).2 = 1 → (∀ x, f ≠ .counters x .maxHeadAge) → (∀ l, s.port.readLatch = some l → l.field ≠ f) →
         exec (.dataByteRead acknowledged) s = .next (sent (BitVec.ofNat 8 (fieldValue s f)) none)) ∧
       ∀ x, f = .counters x .maxHeadAge → (∀ l, s.port.readLatch = some l → l.field ≠ f) →
         exec (.dataByteRead acknowledged) s = .next { sent (BitVec.ofNat 8 (fieldValue s f)) none with
           observe.counters := s.observe.counters.modify x fun c => { c with maxHeadAge := 0 } }) ∧
    ∀ (s t u v : State) (f : Field) (k : Nat) (acknowledged : Bool),
      Running s → s.port.transfer = .reading → fieldAt s = some f → s.port.pointer.toNat = (fieldPlace f).1 →
      0 < k → k < (fieldPlace f).2 → exec (.dataByteRead true) s = .next t →
      Running u → u.port = { t.port with pointer := BitVec.ofNat 7 ((fieldPlace f).1 + k) } →
      exec (.dataByteRead acknowledged) u = .next v →
      v.wires.bus = u.wires.bus ++ [.byte (BitVec.ofNat 8 (fieldValue s f / 256 ^ k))]

/-- The rows that are whole management accesses are what the bytes of a transfer do. A byte written to a one-byte field is its row, a code written to CMD is the command it names with CMD_ARG as it stands, and the bytes of a field of two, four or six bytes, lowest first, are its row with one acknowledgement more for each byte before the last: the direct registers with link reset counts and global counters, and FLOOR, QLIM, QRES, the attributes (HALTABLE changed, the others written as they stand), every classifier field and every pair field of the record that PAGE and INDEX select. A byte written to a read-only field, or anywhere on the COUNTERS or FRAMES page, changes nothing but the port's latches and pointer, and is acknowledged. The byte read at a maximum head age is its row. (That a whole-access row acts as its last byte would: the model's choice, notes/assumptions/10.md; latching of read-only bytes: notes/assumptions/12.md.) -/
def Obligations.BytesOfATransferMakeTheWholeWrites : Prop :=
  (∀ s : State, Running s → s.port.transfer = .writing → s.port.writeLatch = none →
    let a := s.port.pointer
    let i := s.port.index.val
    (∀ b : Byte,
      (a = 0x04 → exec (.managementWrite b) s = exec (.statusClear b) s) ∧
      (a = 0x09 → exec (.managementWrite b) s = exec (.pageWrite b) s) ∧
      (a = 0x0A → exec (.managementWrite b) s = exec (.indexWrite b) s) ∧
      (a = 0x12 → exec (.managementWrite b) s = exec (.lpWrite b) s) ∧
      (a = 0x13 → exec (.managementWrite b) s = exec (.wfWrite b) s) ∧
      (a = 0x16 → exec (.managementWrite b) s = exec (.defaultTenantWrite b) s) ∧
      (a = 0x18 → exec (.managementWrite b) s = exec (.alertFlagClear b) s) ∧
      (a = 0x19 → exec (.managementWrite b) s = exec (.alertEnablesWrite b) s) ∧
      (a = 0x06 →
        exec (.managementWrite 1) s = exec (.start s.port.cmdArg) s ∧
          exec (.managementWrite 2) s = exec (.quiesce s.port.cmdArg) s ∧
          exec (.managementWrite 3) s = exec (.stop s.port.cmdArg) s ∧
          exec (.managementWrite 4) s = exec (.resume s.port.cmdArg) s ∧
          exec (.managementWrite 5) s = exec (.clear s.port.cmdArg) s ∧
          exec (.managementWrite 6) s = exec (.tenantReset s.port.cmdArg) s ∧
          exec (.managementWrite 7) s = exec (.pairSwap s.port.cmdArg) s ∧
          exec (.managementWrite 8) s = exec (.modeSet s.port.cmdArg) s ∧
          exec (.managementWrite 9) s = exec .runtimeReset s ∧
          ((Instr.unknownCommand b).wf = true → exec (.managementWrite b) s = exec (.unknownCommand b) s))) ∧
    (∀ v : BitVec 16,
      (a = 0x0C → BytesMake (bytesOf 2 v) (.fpWrite v) s) ∧
      (a = 0x0E → BytesMake (bytesOf 2 v) (.capWrite v) s) ∧
      (a = 0x14 → BytesMake (bytesOf 2 v) (.ctoWrite v) s) ∧
      (a = 0x20 → BytesMake (bytesOf 2 v) (.linkResetCountClear .switch v) s) ∧
      (a = 0x22 → BytesMake (bytesOf 2 v) (.linkResetCountClear .pool v) s)) ∧
    (∀ v : BitVec 32,
      (a = 0x24 → BytesMake (bytesOf 4 v) (.globalCounterClear .stray v) s) ∧
      (a = 0x28 → BytesMake (bytesOf 4 v) (.globalCounterClear .staleFrames v) s)) ∧
    (∀ (x : TenantId) (v : BitVec 16) (b : Byte) (h : Bool), s.port.page = .tenant → i = x.val →
      (a = 0x42 → BytesMake (bytesOf 2 v) (.floorWrite x v) s) ∧
      (a = 0x4C → BytesMake (bytesOf 2 v) (.qlimWrite x v) s) ∧
      (a = 0x4E → BytesMake (bytesOf 2 v) (.qresWrite x v) s) ∧
      (a = 0x4A → { (recordAt s x).attrs with haltable := h } =
          ⟨b.getLsbD 0, b.getLsbD 1, b.getLsbD 2, b.getLsbD 3, b.getLsbD 4⟩ →
        exec (.managementWrite b) s = exec (.haltableWrite x h) s)) ∧
    (∀ (e : EntryId) (b : Byte) (v : BitVec 48), s.port.page = .classifier → i = e.val →
      (a = 0x40 → exec (.managementWrite b) s = exec (.classifierEntryWrite e (.flags b)) s) ∧
      (a = 0x41 → exec (.managementWrite b) s = exec (.classifierEntryWrite e (.requesterValue b)) s) ∧
      (a = 0x42 → exec (.managementWrite b) s = exec (.classifierEntryWrite e (.requesterMask b)) s) ∧
      (a = 0x43 → exec (.managementWrite b) s = exec (.classifierEntryWrite e (.priority b)) s) ∧
      (a = 0x44 → exec (.managementWrite b) s = exec (.classifierEntryWrite e (.tenant b)) s) ∧
      (a = 0x45 → BytesMake (bytesOf 6 v) (.classifierEntryWrite e (.windowBase v)) s) ∧
      (a = 0x4B → BytesMake (bytesOf 6 v) (.classifierEntryWrite e (.windowLimit v)) s)) ∧
    ∀ (p : PairId) (b : Byte), s.port.page = .pair → i = p.val →
      (a = 0x40 → exec (.managementWrite b) s = exec (.pairEntryWrite p (.flags b)) s) ∧
      (a = 0x41 → exec (.managementWrite b) s = exec (.pairEntryWrite p (.primary b)) s) ∧
      (a = 0x42 → exec (.managementWrite b) s = exec (.pairEntryWrite p (.secondary b)) s) ∧
      (a = 0x43 → exec (.managementWrite b) s = exec (.pairEntryWrite p (.guard b)) s)) ∧
    (∀ (s : State) (b : Byte), Running s → s.port.transfer = .writing →
      let ignored := fun (latch : Option WriteLatch) => ({ s with
        port.writeLatch := latch
        port.readLatch := none
        port.pointer := s.port.pointer + 1
        wires.bus := s.wires.bus ++ [.ack] } : State)
      (∀ f, fieldAt s = some f → readOnly f = true →
        ∃ latch, exec (.managementWrite b) s = .next (ignored latch) ∧
          (s.port.pointer.toNat + 1 = (fieldPlace f).1 + (fieldPlace f).2 → latch = none)) ∧
      (0x40 ≤ s.port.pointer.toNat → s.port.page = .counters ∨ s.port.page = .frames →
        ∃ latch, exec (.managementWrite b) s = .next (ignored latch))) ∧
    ∀ (s : State) (x : TenantId), Running s → s.port.transfer = .reading →
      s.port.writeLatch = none → s.port.readLatch = none →
      s.port.page = .counters → s.port.index.val = x.val → s.port.pointer = 0x60 →
      exec (.dataByteRead true) s = exec (.maximumHeadAgeRead x) s

end
end

