-- ==== Sys2Proof/Laws/Exec.lean ====
section
/-! SUPPORT. What exec answers, constructor by constructor: each command's effect as one operation on the state, made while no reset is held. A proof cites these and whileRunning's two lemmas, and unfolds neither exec nor a meaning. -/

namespace Sys2Proof.Machine

theorem whileRunning_of_running {s : State} (h : s.control.held = .no) (f : State → State) :
    whileRunning f s = .next (f s) := by rw [whileRunning, if_pos h]

theorem whileRunning_of_held {s : State} (h : s.control.held ≠ .no) (f : State → State) :
    whileRunning f s = .next s := by rw [whileRunning, if_neg h]

/-- A command made while running answers the operation's state, or the state itself while a reset is held. -/
theorem whileRunning_cases {f : State → State} {s t : State} (h : whileRunning f s = .next t) :
    (s.control.held = .no ∧ t = f s) ∨ (s.control.held ≠ .no ∧ t = s) := by
  by_cases hs : s.control.held = .no
  · rw [whileRunning_of_running hs] at h
    exact .inl ⟨hs, (Host.Outcome.next.inj h).symm⟩
  · rw [whileRunning_of_held hs] at h
    exact .inr ⟨hs, (Host.Outcome.next.inj h).symm⟩

theorem exec_arrival (q : RequesterId) (tag : Byte) (b : RequestBody) (s : State) :
    exec (.arrival q tag b) s = if lengthFits b then whileRunning (takeArrival q tag b) s else .refused .impossibleLength := rfl

theorem exec_grant (s : State) :
    exec .grant s = whileRunning takeGrant s := rfl

theorem exec_endOfSend (s : State) :
    exec .endOfSend s = whileRunning endSend s := rfl

theorem exec_poolResponse (tag : Byte) (kind : ResponseKind) (status : PoolStatus) (data : List Byte) (s : State) :
    exec (.poolResponse tag kind status data) s = whileRunning (takeResponse tag kind status data) s := rfl

theorem exec_frameBoundary (s : State) :
    exec .frameBoundary s = whileRunning frameBoundary s := rfl

theorem exec_expiry (tag : Byte) (s : State) :
    exec (.expiry tag) s = whileRunning (expiryEvent tag) s := rfl

theorem exec_fence (t : TenantId) (s : State) :
    exec (.fence t) s = whileRunning (fenceIfDue t) s := rfl

theorem exec_drainCompletion (t : TenantId) (s : State) :
    exec (.drainCompletion t) s = whileRunning (testDrain t) s := rfl

theorem exec_settling (p : PairId) (s : State) :
    exec (.settling p) s = whileRunning (testSettle p) s := rfl

theorem exec_pressureFall (s : State) :
    exec .pressureFall s = whileRunning pressureFall s := rfl

theorem exec_lendPoint (s : State) :
    exec .lendPoint s = whileRunning lendPoint s := rfl

theorem exec_solveCompletion (s : State) :
    exec .solveCompletion s = whileRunning completeSolve s := rfl

theorem exec_switchPortLinkReset (s : State) :
    exec .switchPortLinkReset s = whileRunning switchLinkReset s := rfl

theorem exec_switchPortLinkUp (s : State) :
    exec .switchPortLinkUp s = whileRunning (fun s => { s with links.switchUp := true }) s := rfl

theorem exec_poolPortLinkLoss (s : State) :
    exec .poolPortLinkLoss s = whileRunning poolLinkLoss s := rfl

theorem exec_poolPortLinkUp (s : State) :
    exec .poolPortLinkUp s = whileRunning (fun s => { s with links.poolUp := true }) s := rfl

theorem exec_powerOnReset (s : State) :
    exec .powerOnReset s = .next (holdReset .powerOn s) := rfl

theorem exec_powerOnRelease (straps : Straps) (s : State) :
    exec (.powerOnRelease straps) s = .next (powerOnRelease straps s) := rfl

theorem exec_pinReset (s : State) :
    exec .pinReset s = .next (pinReset s) := rfl

theorem exec_pinResetRelease (s : State) :
    exec .pinResetRelease s = .next (pinResetRelease s) := rfl

theorem exec_haltReqRising (s : State) :
    exec .haltReqRising s = .next (riseHalt s) := rfl

theorem exec_haltReqFalling (s : State) :
    exec .haltReqFalling s = .next { s with pairHalt.haltReq := false, pairHalt.haltCondition := false } := rfl

theorem exec_start (arg : Byte) (s : State) :
    exec (.start arg) s = whileRunning (issueCommand 1 arg) s := rfl

theorem exec_quiesce (arg : Byte) (s : State) :
    exec (.quiesce arg) s = whileRunning (issueCommand 2 arg) s := rfl

theorem exec_stop (arg : Byte) (s : State) :
    exec (.stop arg) s = whileRunning (issueCommand 3 arg) s := rfl

theorem exec_resume (arg : Byte) (s : State) :
    exec (.resume arg) s = whileRunning (issueCommand 4 arg) s := rfl

theorem exec_clear (arg : Byte) (s : State) :
    exec (.clear arg) s = whileRunning (issueCommand 5 arg) s := rfl

theorem exec_tenantReset (arg : Byte) (s : State) :
    exec (.tenantReset arg) s = whileRunning (issueCommand 6 arg) s := rfl

theorem exec_pairSwap (arg : Byte) (s : State) :
    exec (.pairSwap arg) s = whileRunning (issueCommand 7 arg) s := rfl

theorem exec_modeSet (arg : Byte) (s : State) :
    exec (.modeSet arg) s = whileRunning (issueCommand 8 arg) s := rfl

theorem exec_runtimeReset (s : State) :
    exec .runtimeReset s = whileRunning (fun s => issueCommand 9 s.port.cmdArg s) s := rfl

theorem exec_unknownCommand (code : Byte) (s : State) :
    exec (.unknownCommand code) s = whileRunning (fun s => issueCommand code s.port.cmdArg s) s := rfl

theorem exec_pointerByte (b : Byte) (s : State) :
    exec (.pointerByte b) s = whileRunning (takePointer b) s := rfl

theorem exec_managementWrite (b : Byte) (s : State) :
    exec (.managementWrite b) s = whileRunning (fun s => if s.port.transfer = .writing then dataByteWritten b s else s) s := rfl

theorem exec_readSnapshot (acknowledged : Bool) (s : State) :
    exec (.readSnapshot acknowledged) s = whileRunning (fun s => if s.port.transfer = .reading ∧ atLowestByte s then dataByteSent acknowledged s else s) s := rfl

theorem exec_pageWrite (v : Byte) (s : State) :
    exec (.pageWrite v) s = whileRunning (fun s => writePage v (dataByteTaken (.direct .page) s)) s := rfl

theorem exec_indexWrite (v : Byte) (s : State) :
    exec (.indexWrite v) s = whileRunning (fun s => writeIndex v (dataByteTaken (.direct .index) s)) s := rfl

theorem exec_statusClear (v : Byte) (s : State) :
    exec (.statusClear v) s = whileRunning (fun s => writeStatus v (dataByteTaken (.direct .status) s)) s := rfl

theorem exec_alertFlagClear (v : Byte) (s : State) :
    exec (.alertFlagClear v) s = whileRunning (fun s => writeAlertFlags v (dataByteTaken (.direct .alertFlags) s)) s := rfl

theorem exec_alertEnablesWrite (v : Byte) (s : State) :
    exec (.alertEnablesWrite v) s = whileRunning (fun s => writeAlertEnables v (dataByteTaken (.direct .alertEnables) s)) s := rfl

theorem exec_linkResetCountClear (p : FabricPort) (v : BitVec 16) (s : State) :
    exec (.linkResetCountClear p v) s = whileRunning (fun s => clearLinkCount p (dataByteTaken (linkCountField p) s)) s := rfl

theorem exec_globalCounterClear (c : GlobalCounter) (v : BitVec 32) (s : State) :
    exec (.globalCounterClear c v) s = whileRunning (fun s => clearGlobalCounter c (dataByteTaken (globalCounterField c) s)) s := rfl

theorem exec_maximumHeadAgeRead (t : TenantId) (s : State) :
    exec (.maximumHeadAgeRead t) s = whileRunning (fun s =>
      clearOnRead (some (.counters t .maxHeadAge))
        { driveBus (.byte (byteOf (s.observe.counters.get t).maxHeadAge 0)) s with
          port.pointer := BitVec.ofNat 7 ((fieldPlace (.counters t .maxHeadAge)).1 + 1)
          port.writeLatch := none
          port.readLatch := none }) s := rfl

theorem exec_fpWrite (v : BitVec 16) (s : State) :
    exec (.fpWrite v) s = whileRunning (fun s => writeFp v.toNat (dataByteTaken (.direct .fp) s)) s := rfl

theorem exec_capWrite (v : BitVec 16) (s : State) :
    exec (.capWrite v) s = whileRunning (fun s => writeCap v.toNat (dataByteTaken (.direct .cap) s)) s := rfl

theorem exec_wfWrite (v : Byte) (s : State) :
    exec (.wfWrite v) s = whileRunning (fun s => writeWf v.toNat (dataByteTaken (.direct .wf) s)) s := rfl

theorem exec_lpWrite (v : Byte) (s : State) :
    exec (.lpWrite v) s = whileRunning (fun s => writeLp v.toNat (dataByteTaken (.direct .lp) s)) s := rfl

theorem exec_ctoWrite (v : BitVec 16) (s : State) :
    exec (.ctoWrite v) s = whileRunning (fun s => writeCto v.toNat (dataByteTaken (.direct .cto) s)) s := rfl

theorem exec_defaultTenantWrite (v : Byte) (s : State) :
    exec (.defaultTenantWrite v) s = whileRunning (fun s => writeDefaultTenant v (dataByteTaken (.direct .defaultTenant) s)) s := rfl

theorem exec_floorWrite (t : TenantId) (v : BitVec 16) (s : State) :
    exec (.floorWrite t v) s = whileRunning (fun s => writeFloor t v.toNat (dataByteTaken (.tenant t .floor) s)) s := rfl

theorem exec_qlimWrite (t : TenantId) (v : BitVec 16) (s : State) :
    exec (.qlimWrite t v) s = whileRunning (fun s => writeQlim t v.toNat (dataByteTaken (.tenant t .qlim) s)) s := rfl

theorem exec_qresWrite (t : TenantId) (v : BitVec 16) (s : State) :
    exec (.qresWrite t v) s = whileRunning (fun s => writeQres t v.toNat (dataByteTaken (.tenant t .qres) s)) s := rfl

theorem exec_haltableWrite (t : TenantId) (v : Bool) (s : State) :
    exec (.haltableWrite t v) s = whileRunning (fun s => writeAttrs t { (recordAt s t).attrs with haltable := v } (dataByteTaken (.tenant t .attrs) s)) s := rfl

theorem exec_classifierEntryWrite (e : EntryId) (w : ClassifierWrite) (s : State) :
    exec (.classifierEntryWrite e w) s = whileRunning (fun s => writeClassifier e w (dataByteTaken (.classifier e (classifierFieldOf w)) s)) s := rfl

theorem exec_pairEntryWrite (p : PairId) (w : PairWrite) (s : State) :
    exec (.pairEntryWrite p w) s = whileRunning (fun s => writePair p w (dataByteTaken (.pair p (pairFieldOf w)) s)) s := rfl

theorem exec_i2cStartCondition (target : BitVec 7) (d : Direction) (s : State) :
    exec (.i2cStartCondition target d) s = whileRunning (startTransfer target d) s := rfl

theorem exec_i2cStopCondition (s : State) :
    exec .i2cStopCondition s = whileRunning stopTransfer s := rfl

theorem exec_dataByteRead (acknowledged : Bool) (s : State) :
    exec (.dataByteRead acknowledged) s = whileRunning (fun s => if s.port.transfer = .reading then dataByteSent acknowledged s else s) s := rfl

/-! ### Bytes of a write transfer -/

@[simp] theorem bytesWritten_nil (s : State) : bytesWritten [] s = some s := rfl

/-- The first of several bytes of a write transfer is taken, and the rest are written after it. -/
theorem bytesWritten_cons {s : State} (running : s.control.held = .no) (writing : s.port.transfer = .writing)
    (b : Byte) (rest : List Byte) : bytesWritten (b :: rest) s = bytesWritten rest (dataByteWritten b s) := by
  rw [bytesWritten, exec_managementWrite, whileRunning_of_running running, if_pos writing]

/-- A value written to a read-only field changes nothing. -/
theorem writeField_readOnly {f : Field} (h : readOnly f = true) (v : Nat) (s : State) : writeField f v s = s := by
  rcases f with f | ⟨t, f⟩ | ⟨e, f⟩ | ⟨p, f⟩ | ⟨t, f⟩ | ⟨n, f⟩
  · cases f <;> first | rfl | cases h
  · cases f <;> first | rfl | cases h
  · cases h
  · cases f <;> first | rfl | cases h
  · rfl
  · rfl

end Sys2Proof.Machine
end

