-- ==== Sys2Proof/Laws/Table.lean ====
section
/-! SUPPORT. What the fixed-length tables and the sums over them do: reading after a change, equality by entries, and Σ over a table as Σ over its indices. -/

namespace Sys2Proof

variable {α β : Type} {n : Nat}

@[ext] theorem Table.ext_toList {t u : Table α n} (h : t.toList = u.toList) : t = u := by
  cases t; cases u; simp_all

theorem Table.get_def (t : Table α n) (i : Fin n) : t.get i = t.toList[i.val]'(by rw [t.size]; exact i.isLt) := rfl

/-- Two tables with the same entry at every index are equal. -/
theorem Table.ext_get {t u : Table α n} (h : ∀ i, t.get i = u.get i) : t = u := by
  apply Table.ext_toList
  apply List.ext_getElem
  · rw [t.size, u.size]
  · intro k hk _
    exact h ⟨k, by rw [← t.size]; exact hk⟩

@[simp] theorem Table.get_set_self (t : Table α n) (i : Fin n) (a : α) : (t.set i a).get i = a := by
  simp [Table.get, Table.set]

@[simp] theorem Table.get_set_of_ne (t : Table α n) {i j : Fin n} (h : i ≠ j) (a : α) :
    (t.set i a).get j = t.get j := by
  have : i.val ≠ j.val := fun e => h (Fin.ext e)
  simp [Table.get, Table.set, this]

theorem Table.get_set (t : Table α n) (i j : Fin n) (a : α) :
    (t.set i a).get j = if i = j then a else t.get j := by
  by_cases h : i = j
  · subst h; simp
  · simp [h]

@[simp] theorem Table.get_modify_self (t : Table α n) (i : Fin n) (f : α → α) :
    (t.modify i f).get i = f (t.get i) := by simp [Table.modify]

@[simp] theorem Table.get_modify_of_ne (t : Table α n) {i j : Fin n} (h : i ≠ j) (f : α → α) :
    (t.modify i f).get j = t.get j := by simp [Table.modify, h]

theorem Table.get_modify (t : Table α n) (i j : Fin n) (f : α → α) :
    (t.modify i f).get j = if i = j then f (t.get j) else t.get j := by
  by_cases h : i = j
  · subst h; simp
  · simp [h]

@[simp] theorem Table.get_fill (i : Fin n) (a : α) : (Table.fill n a).get i = a := by
  simp [Table.get, Table.fill]

@[simp] theorem Table.get_map (f : α → β) (t : Table α n) (i : Fin n) : (t.map f).get i = f (t.get i) := by
  simp [Table.get, Table.map]

@[simp] theorem Table.get_build (f : Fin n → α) (i : Fin n) : (Table.build f).get i = f i := by
  simp [Table.get, Table.build]

theorem Table.toList_eq_map_get (t : Table α n) : t.toList = (List.finRange n).map t.get := by
  apply List.ext_getElem
  · simp [t.size]
  · intro k _ _
    simp [Table.get]

theorem Table.mem_toList {t : Table α n} {a : α} : a ∈ t.toList ↔ ∃ i, t.get i = a := by
  rw [Table.toList_eq_map_get]; simp

@[simp] theorem Table.all_toList (t : Table α n) (p : α → Bool) :
    t.toList.all p = true ↔ ∀ i, p (t.get i) = true := by
  rw [List.all_eq_true]
  constructor
  · exact fun h i => h _ (Table.mem_toList.2 ⟨i, rfl⟩)
  · rintro h a ha
    obtain ⟨i, rfl⟩ := Table.mem_toList.1 ha
    exact h i

/-! ### Sums -/

@[simp] theorem sumOver_nil (f : α → Nat) : sumOver [] f = 0 := rfl
@[simp] theorem sumOver_cons (a : α) (l : List α) (f : α → Nat) : sumOver (a :: l) f = f a + sumOver l f := rfl

@[simp] theorem sumOver_append (l m : List α) (f : α → Nat) : sumOver (l ++ m) f = sumOver l f + sumOver m f := by
  induction l with
  | nil => simp
  | cons a l ih => simp [ih]; omega

theorem sumOver_map (l : List α) (g : α → β) (f : β → Nat) : sumOver (l.map g) f = sumOver l (fun a => f (g a)) := by
  induction l with
  | nil => rfl
  | cons a l ih => simp [ih]

theorem sumOver_congr {l : List α} {f g : α → Nat} (h : ∀ a ∈ l, f a = g a) : sumOver l f = sumOver l g := by
  induction l with
  | nil => rfl
  | cons a l ih => simp [h a (by simp), ih fun b hb => h b (by simp [hb])]

theorem sumOver_le {l : List α} {f g : α → Nat} (h : ∀ a ∈ l, f a ≤ g a) : sumOver l f ≤ sumOver l g := by
  induction l with
  | nil => simp
  | cons a l ih =>
    have h1 := h a (by simp)
    have h2 := ih fun b hb => h b (by simp [hb])
    simp only [sumOver_cons]; omega

theorem sumOver_add (l : List α) (f g : α → Nat) :
    sumOver l (fun a => f a + g a) = sumOver l f + sumOver l g := by
  induction l with
  | nil => rfl
  | cons a l ih => simp [ih]; omega

/-- Σ over a table's entries is Σ over its indices. -/
theorem sumOver_toList (t : Table α n) (f : α → Nat) :
    sumOver t.toList f = sumOver (List.finRange n) (fun i => f (t.get i)) := by
  rw [Table.toList_eq_map_get, sumOver_map]

/-- One term of a sum is at most the sum. -/
theorem le_sumOver {l : List α} {a : α} (h : a ∈ l) (f : α → Nat) : f a ≤ sumOver l f := by
  induction l with
  | nil => cases h
  | cons b l ih =>
    rcases List.mem_cons.1 h with rfl | h
    · simp
    · have := ih h; simp only [sumOver_cons]; omega

theorem sumOver_update_aux {l : List (Fin n)} (hl : l.Nodup) {i : Fin n} (hi : i ∈ l) {f g : Fin n → Nat}
    (h : ∀ j, j ≠ i → g j = f j) : sumOver l g + f i = sumOver l f + g i := by
  induction l with
  | nil => cases hi
  | cons a l ih =>
    rw [List.nodup_cons] at hl
    rcases List.mem_cons.1 hi with rfl | hi
    · have : sumOver l g = sumOver l f := sumOver_congr fun b hb => h b (by rintro rfl; exact hl.1 hb)
      simp only [sumOver_cons, this]; omega
    · have := ih hl.2 hi
      have ha : g a = f a := h a (by rintro rfl; exact hl.1 hi)
      simp only [sumOver_cons, ha]; omega

/-- Changing one term changes Σ over all indices by that term alone. -/
theorem sumOver_update {i : Fin n} {f g : Fin n → Nat} (h : ∀ j, j ≠ i → g j = f j) :
    sumOver (List.finRange n) g + f i = sumOver (List.finRange n) f + g i :=
  sumOver_update_aux (List.nodup_finRange n) (List.mem_finRange i) h

/-- What one fold step keeps, the whole fold keeps. -/
theorem foldl_keeps {σ : Type} (f : σ → α → σ) (p : σ → β) (h : ∀ s a, p (f s a) = p s) (l : List α) (s : σ) :
    p (l.foldl f s) = p s := by
  induction l generalizing s with
  | nil => rfl
  | cons a l ih => rw [List.foldl_cons, ih, h]

/-- What one fold step preserves, the whole fold preserves. -/
theorem foldl_preserves {σ : Type} (f : σ → α → σ) (P : σ → Prop) (l : List α)
    (h : ∀ s, ∀ a ∈ l, P s → P (f s a)) (s : σ) (hs : P s) : P (l.foldl f s) := by
  induction l generalizing s with
  | nil => exact hs
  | cons a l ih => exact ih (fun s b hb => h s b (by simp [hb])) _ (h s a (by simp) hs)

end Sys2Proof
end

