-- ==== Sys2Proof/Laws/State.lean ====
section
/-! SUPPORT. What each shared update leaves of the state: one lemma for each block of State that an operation does not touch, and the new value of the block it does.-/

namespace Sys2Proof.Machine

/-! ### The block an update changes -/

@[simp] theorem raiseAlert_observe (f : AlertFlag) (s : State) :
    (raiseAlert f s).observe = { s.observe with flags := s.observe.flags ||| alertBit f } := rfl
@[simp] theorem refuseWrite_port (r : RefuseReason) (s : State) :
    (refuseWrite r s).port = { s.port with status := some r } := rfl
@[simp] theorem countTenant_observe (t : TenantId) (f : TenantCounters → TenantCounters) (s : State) :
    (countTenant t f s).observe = { s.observe with counters := s.observe.counters.modify t f } := rfl
@[simp] theorem handRecord_observe (r : FrameRecord) (s : State) :
    (handRecord r s).observe = { s.observe with ring := (r :: s.observe.ring).take 32 } := rfl
@[simp] theorem changeRecord_records (t : TenantId) (f : TenantRecord → TenantRecord) (s : State) :
    (changeRecord t f s).records = s.records.modify t f := rfl
@[simp] theorem changeQueues_admission (t : TenantId) (f : TenantQueues → TenantQueues) (s : State) :
    (changeQueues t f s).admission = { s.admission with queues := s.admission.queues.modify t f } := rfl
@[simp] theorem changeCredit_credit (t : TenantId) (f : CreditEntry → CreditEntry) (s : State) :
    (changeCredit t f s).credit = { s.credit with tenants := s.credit.tenants.modify t f } := rfl
theorem sendUp_wires (r : Response) (s : State) : (sendUp r s).wires =
    if s.links.switchUp then { s.wires with upstream := s.wires.upstream ++ [r] } else s.wires := by
  unfold sendUp; split <;> rfl
@[simp] theorem joinOrder_paths (q : RequesterId) (x : Stamp) (s : State) : (joinOrder q x s).paths =
    { s.paths with orderLists := s.paths.orderLists.modify q.toFin fun l => l ++ [x] } := rfl
@[simp] theorem leaveOrder_paths (q : RequesterId) (x : Stamp) (s : State) : (leaveOrder q x s).paths =
    { s.paths with orderLists := s.paths.orderLists.modify q.toFin fun l => l.filter (· != x) } := rfl
@[simp] theorem freeBlocks_admission (l : List Nat) (s : State) : (freeBlocks l s).admission =
    { s.admission with store := s.admission.store.filter fun c => !l.contains c.1 } := rfl
@[simp] theorem freeEntry_paths (tag : Byte) (s : State) : (freeEntry tag s).paths =
    { s.paths with entries := s.paths.entries.set tag.toFin none } := rfl
@[simp] theorem takeStray_observe (s : State) : (takeStray s).observe =
    { s.observe with strays := s.observe.strays + 1, flags := s.observe.flags ||| 16 } := rfl
@[simp] theorem abortSolve_solver (s : State) : (abortSolve s).solver = { s.solver with solving := false } := rfl

/-! ### Reading one tenant's part after an update -/

theorem recordAt_changeRecord (t u : TenantId) (f : TenantRecord → TenantRecord) (s : State) :
    recordAt (changeRecord t f s) u = if t = u then f (recordAt s u) else recordAt s u :=
  Table.get_modify _ _ _ _
theorem queuesAt_changeQueues (t u : TenantId) (f : TenantQueues → TenantQueues) (s : State) :
    queuesAt (changeQueues t f s) u = if t = u then f (queuesAt s u) else queuesAt s u :=
  Table.get_modify _ _ _ _
theorem creditAt_changeCredit (t u : TenantId) (f : CreditEntry → CreditEntry) (s : State) :
    creditAt (changeCredit t f s) u = if t = u then f (creditAt s u) else creditAt s u :=
  Table.get_modify _ _ _ _
/-- A tenant's record is read from the records alone. -/
theorem recordAt_congr {s s' : State} (h : s'.records = s.records) (t : TenantId) : recordAt s' t = recordAt s t := by
  unfold recordAt; rw [h]
/-- A tenant's queues are read from the admission state alone. -/
theorem queuesAt_congr {s s' : State} (h : s'.admission = s.admission) (t : TenantId) : queuesAt s' t = queuesAt s t := by
  unfold queuesAt; rw [h]
/-- A tenant's credit entry is read from the Credit Table alone. -/
theorem creditAt_congr {s s' : State} (h : s'.credit = s.credit) (t : TenantId) : creditAt s' t = creditAt s t := by
  unfold creditAt; rw [h]

/-! ### The blocks an update leaves -/

/-! raiseAlert -/
@[simp] theorem raiseAlert_pending (f : AlertFlag) (s : State) : (raiseAlert f s).pending = s.pending := rfl
@[simp] theorem raiseAlert_links (f : AlertFlag) (s : State) : (raiseAlert f s).links = s.links := rfl
@[simp] theorem raiseAlert_classifier (f : AlertFlag) (s : State) : (raiseAlert f s).classifier = s.classifier := rfl
@[simp] theorem raiseAlert_admission (f : AlertFlag) (s : State) : (raiseAlert f s).admission = s.admission := rfl
@[simp] theorem raiseAlert_timer (f : AlertFlag) (s : State) : (raiseAlert f s).timer = s.timer := rfl
@[simp] theorem raiseAlert_solver (f : AlertFlag) (s : State) : (raiseAlert f s).solver = s.solver := rfl
@[simp] theorem raiseAlert_credit (f : AlertFlag) (s : State) : (raiseAlert f s).credit = s.credit := rfl
@[simp] theorem raiseAlert_arbiter (f : AlertFlag) (s : State) : (raiseAlert f s).arbiter = s.arbiter := rfl
@[simp] theorem raiseAlert_paths (f : AlertFlag) (s : State) : (raiseAlert f s).paths = s.paths := rfl
@[simp] theorem raiseAlert_records (f : AlertFlag) (s : State) : (raiseAlert f s).records = s.records := rfl
@[simp] theorem raiseAlert_pairHalt (f : AlertFlag) (s : State) : (raiseAlert f s).pairHalt = s.pairHalt := rfl
@[simp] theorem raiseAlert_control (f : AlertFlag) (s : State) : (raiseAlert f s).control = s.control := rfl
@[simp] theorem raiseAlert_port (f : AlertFlag) (s : State) : (raiseAlert f s).port = s.port := rfl
@[simp] theorem raiseAlert_wires (f : AlertFlag) (s : State) : (raiseAlert f s).wires = s.wires := rfl

/-! refuseWrite -/
@[simp] theorem refuseWrite_pending (r : RefuseReason) (s : State) : (refuseWrite r s).pending = s.pending := rfl
@[simp] theorem refuseWrite_links (r : RefuseReason) (s : State) : (refuseWrite r s).links = s.links := rfl
@[simp] theorem refuseWrite_classifier (r : RefuseReason) (s : State) : (refuseWrite r s).classifier = s.classifier := rfl
@[simp] theorem refuseWrite_admission (r : RefuseReason) (s : State) : (refuseWrite r s).admission = s.admission := rfl
@[simp] theorem refuseWrite_timer (r : RefuseReason) (s : State) : (refuseWrite r s).timer = s.timer := rfl
@[simp] theorem refuseWrite_solver (r : RefuseReason) (s : State) : (refuseWrite r s).solver = s.solver := rfl
@[simp] theorem refuseWrite_credit (r : RefuseReason) (s : State) : (refuseWrite r s).credit = s.credit := rfl
@[simp] theorem refuseWrite_arbiter (r : RefuseReason) (s : State) : (refuseWrite r s).arbiter = s.arbiter := rfl
@[simp] theorem refuseWrite_paths (r : RefuseReason) (s : State) : (refuseWrite r s).paths = s.paths := rfl
@[simp] theorem refuseWrite_records (r : RefuseReason) (s : State) : (refuseWrite r s).records = s.records := rfl
@[simp] theorem refuseWrite_pairHalt (r : RefuseReason) (s : State) : (refuseWrite r s).pairHalt = s.pairHalt := rfl
@[simp] theorem refuseWrite_control (r : RefuseReason) (s : State) : (refuseWrite r s).control = s.control := rfl
@[simp] theorem refuseWrite_observe (r : RefuseReason) (s : State) : (refuseWrite r s).observe = s.observe := rfl
@[simp] theorem refuseWrite_wires (r : RefuseReason) (s : State) : (refuseWrite r s).wires = s.wires := rfl

/-! countTenant -/
@[simp] theorem countTenant_pending (t : TenantId) (f : TenantCounters → TenantCounters) (s : State) : (countTenant t f s).pending = s.pending := rfl
@[simp] theorem countTenant_links (t : TenantId) (f : TenantCounters → TenantCounters) (s : State) : (countTenant t f s).links = s.links := rfl
@[simp] theorem countTenant_classifier (t : TenantId) (f : TenantCounters → TenantCounters) (s : State) : (countTenant t f s).classifier = s.classifier := rfl
@[simp] theorem countTenant_admission (t : TenantId) (f : TenantCounters → TenantCounters) (s : State) : (countTenant t f s).admission = s.admission := rfl
@[simp] theorem countTenant_timer (t : TenantId) (f : TenantCounters → TenantCounters) (s : State) : (countTenant t f s).timer = s.timer := rfl
@[simp] theorem countTenant_solver (t : TenantId) (f : TenantCounters → TenantCounters) (s : State) : (countTenant t f s).solver = s.solver := rfl
@[simp] theorem countTenant_credit (t : TenantId) (f : TenantCounters → TenantCounters) (s : State) : (countTenant t f s).credit = s.credit := rfl
@[simp] theorem countTenant_arbiter (t : TenantId) (f : TenantCounters → TenantCounters) (s : State) : (countTenant t f s).arbiter = s.arbiter := rfl
@[simp] theorem countTenant_paths (t : TenantId) (f : TenantCounters → TenantCounters) (s : State) : (countTenant t f s).paths = s.paths := rfl
@[simp] theorem countTenant_records (t : TenantId) (f : TenantCounters → TenantCounters) (s : State) : (countTenant t f s).records = s.records := rfl
@[simp] theorem countTenant_pairHalt (t : TenantId) (f : TenantCounters → TenantCounters) (s : State) : (countTenant t f s).pairHalt = s.pairHalt := rfl
@[simp] theorem countTenant_control (t : TenantId) (f : TenantCounters → TenantCounters) (s : State) : (countTenant t f s).control = s.control := rfl
@[simp] theorem countTenant_port (t : TenantId) (f : TenantCounters → TenantCounters) (s : State) : (countTenant t f s).port = s.port := rfl
@[simp] theorem countTenant_wires (t : TenantId) (f : TenantCounters → TenantCounters) (s : State) : (countTenant t f s).wires = s.wires := rfl

/-! handRecord -/
@[simp] theorem handRecord_pending (r : FrameRecord) (s : State) : (handRecord r s).pending = s.pending := rfl
@[simp] theorem handRecord_links (r : FrameRecord) (s : State) : (handRecord r s).links = s.links := rfl
@[simp] theorem handRecord_classifier (r : FrameRecord) (s : State) : (handRecord r s).classifier = s.classifier := rfl
@[simp] theorem handRecord_admission (r : FrameRecord) (s : State) : (handRecord r s).admission = s.admission := rfl
@[simp] theorem handRecord_timer (r : FrameRecord) (s : State) : (handRecord r s).timer = s.timer := rfl
@[simp] theorem handRecord_solver (r : FrameRecord) (s : State) : (handRecord r s).solver = s.solver := rfl
@[simp] theorem handRecord_credit (r : FrameRecord) (s : State) : (handRecord r s).credit = s.credit := rfl
@[simp] theorem handRecord_arbiter (r : FrameRecord) (s : State) : (handRecord r s).arbiter = s.arbiter := rfl
@[simp] theorem handRecord_paths (r : FrameRecord) (s : State) : (handRecord r s).paths = s.paths := rfl
@[simp] theorem handRecord_records (r : FrameRecord) (s : State) : (handRecord r s).records = s.records := rfl
@[simp] theorem handRecord_pairHalt (r : FrameRecord) (s : State) : (handRecord r s).pairHalt = s.pairHalt := rfl
@[simp] theorem handRecord_control (r : FrameRecord) (s : State) : (handRecord r s).control = s.control := rfl
@[simp] theorem handRecord_port (r : FrameRecord) (s : State) : (handRecord r s).port = s.port := rfl
@[simp] theorem handRecord_wires (r : FrameRecord) (s : State) : (handRecord r s).wires = s.wires := rfl

/-! pressureFall -/
@[simp] theorem pressureFall_pending (s : State) : (pressureFall s).pending = s.pending := by unfold pressureFall; split <;> rfl
@[simp] theorem pressureFall_links (s : State) : (pressureFall s).links = s.links := by unfold pressureFall; split <;> rfl
@[simp] theorem pressureFall_classifier (s : State) : (pressureFall s).classifier = s.classifier := by unfold pressureFall; split <;> rfl
@[simp] theorem pressureFall_admission (s : State) : (pressureFall s).admission = s.admission := by unfold pressureFall; split <;> rfl
@[simp] theorem pressureFall_timer (s : State) : (pressureFall s).timer = s.timer := by unfold pressureFall; split <;> rfl
@[simp] theorem pressureFall_solver (s : State) : (pressureFall s).solver = s.solver := by unfold pressureFall; split <;> rfl
@[simp] theorem pressureFall_credit (s : State) : (pressureFall s).credit = s.credit := by unfold pressureFall; split <;> rfl
@[simp] theorem pressureFall_arbiter (s : State) : (pressureFall s).arbiter = s.arbiter := by unfold pressureFall; split <;> rfl
@[simp] theorem pressureFall_paths (s : State) : (pressureFall s).paths = s.paths := by unfold pressureFall; split <;> rfl
@[simp] theorem pressureFall_records (s : State) : (pressureFall s).records = s.records := by unfold pressureFall; split <;> rfl
@[simp] theorem pressureFall_pairHalt (s : State) : (pressureFall s).pairHalt = s.pairHalt := by unfold pressureFall; split <;> rfl
@[simp] theorem pressureFall_control (s : State) : (pressureFall s).control = s.control := by unfold pressureFall; split <;> rfl
@[simp] theorem pressureFall_port (s : State) : (pressureFall s).port = s.port := by unfold pressureFall; split <;> rfl
@[simp] theorem pressureFall_wires (s : State) : (pressureFall s).wires = s.wires := by unfold pressureFall; split <;> rfl

/-! takeLevel -/
@[simp] theorem takeLevel_pending (c : Nat) (s : State) : (takeLevel c s).pending = s.pending := by
  unfold takeLevel
  split; · rfl
  · split <;> simp
@[simp] theorem takeLevel_links (c : Nat) (s : State) : (takeLevel c s).links = s.links := by
  unfold takeLevel
  split; · rfl
  · split <;> simp
@[simp] theorem takeLevel_classifier (c : Nat) (s : State) : (takeLevel c s).classifier = s.classifier := by
  unfold takeLevel
  split; · rfl
  · split <;> simp
@[simp] theorem takeLevel_admission (c : Nat) (s : State) : (takeLevel c s).admission = s.admission := by
  unfold takeLevel
  split; · rfl
  · split <;> simp
@[simp] theorem takeLevel_timer (c : Nat) (s : State) : (takeLevel c s).timer = s.timer := by
  unfold takeLevel
  split; · rfl
  · split <;> simp
@[simp] theorem takeLevel_solver (c : Nat) (s : State) : (takeLevel c s).solver = s.solver := by
  unfold takeLevel
  split; · rfl
  · split <;> simp
@[simp] theorem takeLevel_credit (c : Nat) (s : State) : (takeLevel c s).credit = s.credit := by
  unfold takeLevel
  split; · rfl
  · split <;> simp
@[simp] theorem takeLevel_arbiter (c : Nat) (s : State) : (takeLevel c s).arbiter = s.arbiter := by
  unfold takeLevel
  split; · rfl
  · split <;> simp
@[simp] theorem takeLevel_paths (c : Nat) (s : State) : (takeLevel c s).paths = s.paths := by
  unfold takeLevel
  split; · rfl
  · split <;> simp
@[simp] theorem takeLevel_records (c : Nat) (s : State) : (takeLevel c s).records = s.records := by
  unfold takeLevel
  split; · rfl
  · split <;> simp
@[simp] theorem takeLevel_pairHalt (c : Nat) (s : State) : (takeLevel c s).pairHalt = s.pairHalt := by
  unfold takeLevel
  split; · rfl
  · split <;> simp
@[simp] theorem takeLevel_control (c : Nat) (s : State) : (takeLevel c s).control = s.control := by
  unfold takeLevel
  split; · rfl
  · split <;> simp
@[simp] theorem takeLevel_port (c : Nat) (s : State) : (takeLevel c s).port = s.port := by
  unfold takeLevel
  split; · rfl
  · split <;> simp
@[simp] theorem takeLevel_wires (c : Nat) (s : State) : (takeLevel c s).wires = s.wires := by
  unfold takeLevel
  split; · rfl
  · split <;> simp

/-! changeRecord -/
@[simp] theorem changeRecord_pending (t : TenantId) (f : TenantRecord → TenantRecord) (s : State) : (changeRecord t f s).pending = s.pending := rfl
@[simp] theorem changeRecord_links (t : TenantId) (f : TenantRecord → TenantRecord) (s : State) : (changeRecord t f s).links = s.links := rfl
@[simp] theorem changeRecord_classifier (t : TenantId) (f : TenantRecord → TenantRecord) (s : State) : (changeRecord t f s).classifier = s.classifier := rfl
@[simp] theorem changeRecord_admission (t : TenantId) (f : TenantRecord → TenantRecord) (s : State) : (changeRecord t f s).admission = s.admission := rfl
@[simp] theorem changeRecord_timer (t : TenantId) (f : TenantRecord → TenantRecord) (s : State) : (changeRecord t f s).timer = s.timer := rfl
@[simp] theorem changeRecord_solver (t : TenantId) (f : TenantRecord → TenantRecord) (s : State) : (changeRecord t f s).solver = s.solver := rfl
@[simp] theorem changeRecord_credit (t : TenantId) (f : TenantRecord → TenantRecord) (s : State) : (changeRecord t f s).credit = s.credit := rfl
@[simp] theorem changeRecord_arbiter (t : TenantId) (f : TenantRecord → TenantRecord) (s : State) : (changeRecord t f s).arbiter = s.arbiter := rfl
@[simp] theorem changeRecord_paths (t : TenantId) (f : TenantRecord → TenantRecord) (s : State) : (changeRecord t f s).paths = s.paths := rfl
@[simp] theorem changeRecord_pairHalt (t : TenantId) (f : TenantRecord → TenantRecord) (s : State) : (changeRecord t f s).pairHalt = s.pairHalt := rfl
@[simp] theorem changeRecord_control (t : TenantId) (f : TenantRecord → TenantRecord) (s : State) : (changeRecord t f s).control = s.control := rfl
@[simp] theorem changeRecord_observe (t : TenantId) (f : TenantRecord → TenantRecord) (s : State) : (changeRecord t f s).observe = s.observe := rfl
@[simp] theorem changeRecord_port (t : TenantId) (f : TenantRecord → TenantRecord) (s : State) : (changeRecord t f s).port = s.port := rfl
@[simp] theorem changeRecord_wires (t : TenantId) (f : TenantRecord → TenantRecord) (s : State) : (changeRecord t f s).wires = s.wires := rfl

/-! changeQueues -/
@[simp] theorem changeQueues_pending (t : TenantId) (f : TenantQueues → TenantQueues) (s : State) : (changeQueues t f s).pending = s.pending := rfl
@[simp] theorem changeQueues_links (t : TenantId) (f : TenantQueues → TenantQueues) (s : State) : (changeQueues t f s).links = s.links := rfl
@[simp] theorem changeQueues_classifier (t : TenantId) (f : TenantQueues → TenantQueues) (s : State) : (changeQueues t f s).classifier = s.classifier := rfl
@[simp] theorem changeQueues_timer (t : TenantId) (f : TenantQueues → TenantQueues) (s : State) : (changeQueues t f s).timer = s.timer := rfl
@[simp] theorem changeQueues_solver (t : TenantId) (f : TenantQueues → TenantQueues) (s : State) : (changeQueues t f s).solver = s.solver := rfl
@[simp] theorem changeQueues_credit (t : TenantId) (f : TenantQueues → TenantQueues) (s : State) : (changeQueues t f s).credit = s.credit := rfl
@[simp] theorem changeQueues_arbiter (t : TenantId) (f : TenantQueues → TenantQueues) (s : State) : (changeQueues t f s).arbiter = s.arbiter := rfl
@[simp] theorem changeQueues_paths (t : TenantId) (f : TenantQueues → TenantQueues) (s : State) : (changeQueues t f s).paths = s.paths := rfl
@[simp] theorem changeQueues_records (t : TenantId) (f : TenantQueues → TenantQueues) (s : State) : (changeQueues t f s).records = s.records := rfl
@[simp] theorem changeQueues_pairHalt (t : TenantId) (f : TenantQueues → TenantQueues) (s : State) : (changeQueues t f s).pairHalt = s.pairHalt := rfl
@[simp] theorem changeQueues_control (t : TenantId) (f : TenantQueues → TenantQueues) (s : State) : (changeQueues t f s).control = s.control := rfl
@[simp] theorem changeQueues_observe (t : TenantId) (f : TenantQueues → TenantQueues) (s : State) : (changeQueues t f s).observe = s.observe := rfl
@[simp] theorem changeQueues_port (t : TenantId) (f : TenantQueues → TenantQueues) (s : State) : (changeQueues t f s).port = s.port := rfl
@[simp] theorem changeQueues_wires (t : TenantId) (f : TenantQueues → TenantQueues) (s : State) : (changeQueues t f s).wires = s.wires := rfl

/-! changeCredit -/
@[simp] theorem changeCredit_pending (t : TenantId) (f : CreditEntry → CreditEntry) (s : State) : (changeCredit t f s).pending = s.pending := rfl
@[simp] theorem changeCredit_links (t : TenantId) (f : CreditEntry → CreditEntry) (s : State) : (changeCredit t f s).links = s.links := rfl
@[simp] theorem changeCredit_classifier (t : TenantId) (f : CreditEntry → CreditEntry) (s : State) : (changeCredit t f s).classifier = s.classifier := rfl
@[simp] theorem changeCredit_admission (t : TenantId) (f : CreditEntry → CreditEntry) (s : State) : (changeCredit t f s).admission = s.admission := rfl
@[simp] theorem changeCredit_timer (t : TenantId) (f : CreditEntry → CreditEntry) (s : State) : (changeCredit t f s).timer = s.timer := rfl
@[simp] theorem changeCredit_solver (t : TenantId) (f : CreditEntry → CreditEntry) (s : State) : (changeCredit t f s).solver = s.solver := rfl
@[simp] theorem changeCredit_arbiter (t : TenantId) (f : CreditEntry → CreditEntry) (s : State) : (changeCredit t f s).arbiter = s.arbiter := rfl
@[simp] theorem changeCredit_paths (t : TenantId) (f : CreditEntry → CreditEntry) (s : State) : (changeCredit t f s).paths = s.paths := rfl
@[simp] theorem changeCredit_records (t : TenantId) (f : CreditEntry → CreditEntry) (s : State) : (changeCredit t f s).records = s.records := rfl
@[simp] theorem changeCredit_pairHalt (t : TenantId) (f : CreditEntry → CreditEntry) (s : State) : (changeCredit t f s).pairHalt = s.pairHalt := rfl
@[simp] theorem changeCredit_control (t : TenantId) (f : CreditEntry → CreditEntry) (s : State) : (changeCredit t f s).control = s.control := rfl
@[simp] theorem changeCredit_observe (t : TenantId) (f : CreditEntry → CreditEntry) (s : State) : (changeCredit t f s).observe = s.observe := rfl
@[simp] theorem changeCredit_port (t : TenantId) (f : CreditEntry → CreditEntry) (s : State) : (changeCredit t f s).port = s.port := rfl
@[simp] theorem changeCredit_wires (t : TenantId) (f : CreditEntry → CreditEntry) (s : State) : (changeCredit t f s).wires = s.wires := rfl

/-! sendUp -/
@[simp] theorem sendUp_pending (r : Response) (s : State) : (sendUp r s).pending = s.pending := by unfold sendUp; split <;> rfl
@[simp] theorem sendUp_links (r : Response) (s : State) : (sendUp r s).links = s.links := by unfold sendUp; split <;> rfl
@[simp] theorem sendUp_classifier (r : Response) (s : State) : (sendUp r s).classifier = s.classifier := by unfold sendUp; split <;> rfl
@[simp] theorem sendUp_admission (r : Response) (s : State) : (sendUp r s).admission = s.admission := by unfold sendUp; split <;> rfl
@[simp] theorem sendUp_timer (r : Response) (s : State) : (sendUp r s).timer = s.timer := by unfold sendUp; split <;> rfl
@[simp] theorem sendUp_solver (r : Response) (s : State) : (sendUp r s).solver = s.solver := by unfold sendUp; split <;> rfl
@[simp] theorem sendUp_credit (r : Response) (s : State) : (sendUp r s).credit = s.credit := by unfold sendUp; split <;> rfl
@[simp] theorem sendUp_arbiter (r : Response) (s : State) : (sendUp r s).arbiter = s.arbiter := by unfold sendUp; split <;> rfl
@[simp] theorem sendUp_paths (r : Response) (s : State) : (sendUp r s).paths = s.paths := by unfold sendUp; split <;> rfl
@[simp] theorem sendUp_records (r : Response) (s : State) : (sendUp r s).records = s.records := by unfold sendUp; split <;> rfl
@[simp] theorem sendUp_pairHalt (r : Response) (s : State) : (sendUp r s).pairHalt = s.pairHalt := by unfold sendUp; split <;> rfl
@[simp] theorem sendUp_control (r : Response) (s : State) : (sendUp r s).control = s.control := by unfold sendUp; split <;> rfl
@[simp] theorem sendUp_observe (r : Response) (s : State) : (sendUp r s).observe = s.observe := by unfold sendUp; split <;> rfl
@[simp] theorem sendUp_port (r : Response) (s : State) : (sendUp r s).port = s.port := by unfold sendUp; split <;> rfl

/-! joinOrder -/
@[simp] theorem joinOrder_pending (q : RequesterId) (x : Stamp) (s : State) : (joinOrder q x s).pending = s.pending := rfl
@[simp] theorem joinOrder_links (q : RequesterId) (x : Stamp) (s : State) : (joinOrder q x s).links = s.links := rfl
@[simp] theorem joinOrder_classifier (q : RequesterId) (x : Stamp) (s : State) : (joinOrder q x s).classifier = s.classifier := rfl
@[simp] theorem joinOrder_admission (q : RequesterId) (x : Stamp) (s : State) : (joinOrder q x s).admission = s.admission := rfl
@[simp] theorem joinOrder_timer (q : RequesterId) (x : Stamp) (s : State) : (joinOrder q x s).timer = s.timer := rfl
@[simp] theorem joinOrder_solver (q : RequesterId) (x : Stamp) (s : State) : (joinOrder q x s).solver = s.solver := rfl
@[simp] theorem joinOrder_credit (q : RequesterId) (x : Stamp) (s : State) : (joinOrder q x s).credit = s.credit := rfl
@[simp] theorem joinOrder_arbiter (q : RequesterId) (x : Stamp) (s : State) : (joinOrder q x s).arbiter = s.arbiter := rfl
@[simp] theorem joinOrder_records (q : RequesterId) (x : Stamp) (s : State) : (joinOrder q x s).records = s.records := rfl
@[simp] theorem joinOrder_pairHalt (q : RequesterId) (x : Stamp) (s : State) : (joinOrder q x s).pairHalt = s.pairHalt := rfl
@[simp] theorem joinOrder_control (q : RequesterId) (x : Stamp) (s : State) : (joinOrder q x s).control = s.control := rfl
@[simp] theorem joinOrder_observe (q : RequesterId) (x : Stamp) (s : State) : (joinOrder q x s).observe = s.observe := rfl
@[simp] theorem joinOrder_port (q : RequesterId) (x : Stamp) (s : State) : (joinOrder q x s).port = s.port := rfl
@[simp] theorem joinOrder_wires (q : RequesterId) (x : Stamp) (s : State) : (joinOrder q x s).wires = s.wires := rfl

/-! leaveOrder -/
@[simp] theorem leaveOrder_pending (q : RequesterId) (x : Stamp) (s : State) : (leaveOrder q x s).pending = s.pending := rfl
@[simp] theorem leaveOrder_links (q : RequesterId) (x : Stamp) (s : State) : (leaveOrder q x s).links = s.links := rfl
@[simp] theorem leaveOrder_classifier (q : RequesterId) (x : Stamp) (s : State) : (leaveOrder q x s).classifier = s.classifier := rfl
@[simp] theorem leaveOrder_admission (q : RequesterId) (x : Stamp) (s : State) : (leaveOrder q x s).admission = s.admission := rfl
@[simp] theorem leaveOrder_timer (q : RequesterId) (x : Stamp) (s : State) : (leaveOrder q x s).timer = s.timer := rfl
@[simp] theorem leaveOrder_solver (q : RequesterId) (x : Stamp) (s : State) : (leaveOrder q x s).solver = s.solver := rfl
@[simp] theorem leaveOrder_credit (q : RequesterId) (x : Stamp) (s : State) : (leaveOrder q x s).credit = s.credit := rfl
@[simp] theorem leaveOrder_arbiter (q : RequesterId) (x : Stamp) (s : State) : (leaveOrder q x s).arbiter = s.arbiter := rfl
@[simp] theorem leaveOrder_records (q : RequesterId) (x : Stamp) (s : State) : (leaveOrder q x s).records = s.records := rfl
@[simp] theorem leaveOrder_pairHalt (q : RequesterId) (x : Stamp) (s : State) : (leaveOrder q x s).pairHalt = s.pairHalt := rfl
@[simp] theorem leaveOrder_control (q : RequesterId) (x : Stamp) (s : State) : (leaveOrder q x s).control = s.control := rfl
@[simp] theorem leaveOrder_observe (q : RequesterId) (x : Stamp) (s : State) : (leaveOrder q x s).observe = s.observe := rfl
@[simp] theorem leaveOrder_port (q : RequesterId) (x : Stamp) (s : State) : (leaveOrder q x s).port = s.port := rfl
@[simp] theorem leaveOrder_wires (q : RequesterId) (x : Stamp) (s : State) : (leaveOrder q x s).wires = s.wires := rfl

/-! endWrite -/
@[simp] theorem endWrite_pending (k : Kind) (q : RequesterId) (x : Stamp) (s : State) : (endWrite k q x s).pending = s.pending := by unfold endWrite; split <;> rfl
@[simp] theorem endWrite_links (k : Kind) (q : RequesterId) (x : Stamp) (s : State) : (endWrite k q x s).links = s.links := by unfold endWrite; split <;> rfl
@[simp] theorem endWrite_classifier (k : Kind) (q : RequesterId) (x : Stamp) (s : State) : (endWrite k q x s).classifier = s.classifier := by unfold endWrite; split <;> rfl
@[simp] theorem endWrite_admission (k : Kind) (q : RequesterId) (x : Stamp) (s : State) : (endWrite k q x s).admission = s.admission := by unfold endWrite; split <;> rfl
@[simp] theorem endWrite_timer (k : Kind) (q : RequesterId) (x : Stamp) (s : State) : (endWrite k q x s).timer = s.timer := by unfold endWrite; split <;> rfl
@[simp] theorem endWrite_solver (k : Kind) (q : RequesterId) (x : Stamp) (s : State) : (endWrite k q x s).solver = s.solver := by unfold endWrite; split <;> rfl
@[simp] theorem endWrite_credit (k : Kind) (q : RequesterId) (x : Stamp) (s : State) : (endWrite k q x s).credit = s.credit := by unfold endWrite; split <;> rfl
@[simp] theorem endWrite_arbiter (k : Kind) (q : RequesterId) (x : Stamp) (s : State) : (endWrite k q x s).arbiter = s.arbiter := by unfold endWrite; split <;> rfl
@[simp] theorem endWrite_records (k : Kind) (q : RequesterId) (x : Stamp) (s : State) : (endWrite k q x s).records = s.records := by unfold endWrite; split <;> rfl
@[simp] theorem endWrite_pairHalt (k : Kind) (q : RequesterId) (x : Stamp) (s : State) : (endWrite k q x s).pairHalt = s.pairHalt := by unfold endWrite; split <;> rfl
@[simp] theorem endWrite_control (k : Kind) (q : RequesterId) (x : Stamp) (s : State) : (endWrite k q x s).control = s.control := by unfold endWrite; split <;> rfl
@[simp] theorem endWrite_observe (k : Kind) (q : RequesterId) (x : Stamp) (s : State) : (endWrite k q x s).observe = s.observe := by unfold endWrite; split <;> rfl
@[simp] theorem endWrite_port (k : Kind) (q : RequesterId) (x : Stamp) (s : State) : (endWrite k q x s).port = s.port := by unfold endWrite; split <;> rfl
@[simp] theorem endWrite_wires (k : Kind) (q : RequesterId) (x : Stamp) (s : State) : (endWrite k q x s).wires = s.wires := by unfold endWrite; split <;> rfl

/-! freeBlocks -/
@[simp] theorem freeBlocks_pending (l : List Nat) (s : State) : (freeBlocks l s).pending = s.pending := rfl
@[simp] theorem freeBlocks_links (l : List Nat) (s : State) : (freeBlocks l s).links = s.links := rfl
@[simp] theorem freeBlocks_classifier (l : List Nat) (s : State) : (freeBlocks l s).classifier = s.classifier := rfl
@[simp] theorem freeBlocks_timer (l : List Nat) (s : State) : (freeBlocks l s).timer = s.timer := rfl
@[simp] theorem freeBlocks_solver (l : List Nat) (s : State) : (freeBlocks l s).solver = s.solver := rfl
@[simp] theorem freeBlocks_credit (l : List Nat) (s : State) : (freeBlocks l s).credit = s.credit := rfl
@[simp] theorem freeBlocks_arbiter (l : List Nat) (s : State) : (freeBlocks l s).arbiter = s.arbiter := rfl
@[simp] theorem freeBlocks_paths (l : List Nat) (s : State) : (freeBlocks l s).paths = s.paths := rfl
@[simp] theorem freeBlocks_records (l : List Nat) (s : State) : (freeBlocks l s).records = s.records := rfl
@[simp] theorem freeBlocks_pairHalt (l : List Nat) (s : State) : (freeBlocks l s).pairHalt = s.pairHalt := rfl
@[simp] theorem freeBlocks_control (l : List Nat) (s : State) : (freeBlocks l s).control = s.control := rfl
@[simp] theorem freeBlocks_observe (l : List Nat) (s : State) : (freeBlocks l s).observe = s.observe := rfl
@[simp] theorem freeBlocks_port (l : List Nat) (s : State) : (freeBlocks l s).port = s.port := rfl
@[simp] theorem freeBlocks_wires (l : List Nat) (s : State) : (freeBlocks l s).wires = s.wires := rfl

/-! storePayload -/
@[simp] theorem storePayload_pending (l : List Nat) (p : List Byte) (s : State) : (storePayload l p s).pending = s.pending := rfl
@[simp] theorem storePayload_links (l : List Nat) (p : List Byte) (s : State) : (storePayload l p s).links = s.links := rfl
@[simp] theorem storePayload_classifier (l : List Nat) (p : List Byte) (s : State) : (storePayload l p s).classifier = s.classifier := rfl
@[simp] theorem storePayload_timer (l : List Nat) (p : List Byte) (s : State) : (storePayload l p s).timer = s.timer := rfl
@[simp] theorem storePayload_solver (l : List Nat) (p : List Byte) (s : State) : (storePayload l p s).solver = s.solver := rfl
@[simp] theorem storePayload_credit (l : List Nat) (p : List Byte) (s : State) : (storePayload l p s).credit = s.credit := rfl
@[simp] theorem storePayload_arbiter (l : List Nat) (p : List Byte) (s : State) : (storePayload l p s).arbiter = s.arbiter := rfl
@[simp] theorem storePayload_paths (l : List Nat) (p : List Byte) (s : State) : (storePayload l p s).paths = s.paths := rfl
@[simp] theorem storePayload_records (l : List Nat) (p : List Byte) (s : State) : (storePayload l p s).records = s.records := rfl
@[simp] theorem storePayload_pairHalt (l : List Nat) (p : List Byte) (s : State) : (storePayload l p s).pairHalt = s.pairHalt := rfl
@[simp] theorem storePayload_control (l : List Nat) (p : List Byte) (s : State) : (storePayload l p s).control = s.control := rfl
@[simp] theorem storePayload_observe (l : List Nat) (p : List Byte) (s : State) : (storePayload l p s).observe = s.observe := rfl
@[simp] theorem storePayload_port (l : List Nat) (p : List Byte) (s : State) : (storePayload l p s).port = s.port := rfl
@[simp] theorem storePayload_wires (l : List Nat) (p : List Byte) (s : State) : (storePayload l p s).wires = s.wires := rfl

/-! freeEntry -/
@[simp] theorem freeEntry_pending (tag : Byte) (s : State) : (freeEntry tag s).pending = s.pending := rfl
@[simp] theorem freeEntry_links (tag : Byte) (s : State) : (freeEntry tag s).links = s.links := rfl
@[simp] theorem freeEntry_classifier (tag : Byte) (s : State) : (freeEntry tag s).classifier = s.classifier := rfl
@[simp] theorem freeEntry_admission (tag : Byte) (s : State) : (freeEntry tag s).admission = s.admission := rfl
@[simp] theorem freeEntry_timer (tag : Byte) (s : State) : (freeEntry tag s).timer = s.timer := rfl
@[simp] theorem freeEntry_solver (tag : Byte) (s : State) : (freeEntry tag s).solver = s.solver := rfl
@[simp] theorem freeEntry_credit (tag : Byte) (s : State) : (freeEntry tag s).credit = s.credit := rfl
@[simp] theorem freeEntry_arbiter (tag : Byte) (s : State) : (freeEntry tag s).arbiter = s.arbiter := rfl
@[simp] theorem freeEntry_records (tag : Byte) (s : State) : (freeEntry tag s).records = s.records := rfl
@[simp] theorem freeEntry_pairHalt (tag : Byte) (s : State) : (freeEntry tag s).pairHalt = s.pairHalt := rfl
@[simp] theorem freeEntry_control (tag : Byte) (s : State) : (freeEntry tag s).control = s.control := rfl
@[simp] theorem freeEntry_observe (tag : Byte) (s : State) : (freeEntry tag s).observe = s.observe := rfl
@[simp] theorem freeEntry_port (tag : Byte) (s : State) : (freeEntry tag s).port = s.port := rfl
@[simp] theorem freeEntry_wires (tag : Byte) (s : State) : (freeEntry tag s).wires = s.wires := rfl

/-! takeStray -/
@[simp] theorem takeStray_pending (s : State) : (takeStray s).pending = s.pending := rfl
@[simp] theorem takeStray_links (s : State) : (takeStray s).links = s.links := rfl
@[simp] theorem takeStray_classifier (s : State) : (takeStray s).classifier = s.classifier := rfl
@[simp] theorem takeStray_admission (s : State) : (takeStray s).admission = s.admission := rfl
@[simp] theorem takeStray_timer (s : State) : (takeStray s).timer = s.timer := rfl
@[simp] theorem takeStray_solver (s : State) : (takeStray s).solver = s.solver := rfl
@[simp] theorem takeStray_credit (s : State) : (takeStray s).credit = s.credit := rfl
@[simp] theorem takeStray_arbiter (s : State) : (takeStray s).arbiter = s.arbiter := rfl
@[simp] theorem takeStray_paths (s : State) : (takeStray s).paths = s.paths := rfl
@[simp] theorem takeStray_records (s : State) : (takeStray s).records = s.records := rfl
@[simp] theorem takeStray_pairHalt (s : State) : (takeStray s).pairHalt = s.pairHalt := rfl
@[simp] theorem takeStray_control (s : State) : (takeStray s).control = s.control := rfl
@[simp] theorem takeStray_port (s : State) : (takeStray s).port = s.port := rfl
@[simp] theorem takeStray_wires (s : State) : (takeStray s).wires = s.wires := rfl

/-! abortSolve -/
@[simp] theorem abortSolve_pending (s : State) : (abortSolve s).pending = s.pending := rfl
@[simp] theorem abortSolve_links (s : State) : (abortSolve s).links = s.links := rfl
@[simp] theorem abortSolve_classifier (s : State) : (abortSolve s).classifier = s.classifier := rfl
@[simp] theorem abortSolve_admission (s : State) : (abortSolve s).admission = s.admission := rfl
@[simp] theorem abortSolve_timer (s : State) : (abortSolve s).timer = s.timer := rfl
@[simp] theorem abortSolve_credit (s : State) : (abortSolve s).credit = s.credit := rfl
@[simp] theorem abortSolve_arbiter (s : State) : (abortSolve s).arbiter = s.arbiter := rfl
@[simp] theorem abortSolve_paths (s : State) : (abortSolve s).paths = s.paths := rfl
@[simp] theorem abortSolve_records (s : State) : (abortSolve s).records = s.records := rfl
@[simp] theorem abortSolve_pairHalt (s : State) : (abortSolve s).pairHalt = s.pairHalt := rfl
@[simp] theorem abortSolve_control (s : State) : (abortSolve s).control = s.control := rfl
@[simp] theorem abortSolve_observe (s : State) : (abortSolve s).observe = s.observe := rfl
@[simp] theorem abortSolve_port (s : State) : (abortSolve s).port = s.port := rfl
@[simp] theorem abortSolve_wires (s : State) : (abortSolve s).wires = s.wires := rfl

/-! freeSlot -/
@[simp] theorem freeSlot_pending (s : State) : (freeSlot s).pending = s.pending := by unfold freeSlot; split <;> rfl
@[simp] theorem freeSlot_links (s : State) : (freeSlot s).links = s.links := by unfold freeSlot; split <;> rfl
@[simp] theorem freeSlot_classifier (s : State) : (freeSlot s).classifier = s.classifier := by unfold freeSlot; split <;> rfl
@[simp] theorem freeSlot_timer (s : State) : (freeSlot s).timer = s.timer := by unfold freeSlot; split <;> rfl
@[simp] theorem freeSlot_solver (s : State) : (freeSlot s).solver = s.solver := by unfold freeSlot; split <;> rfl
@[simp] theorem freeSlot_credit (s : State) : (freeSlot s).credit = s.credit := by unfold freeSlot; split <;> rfl
@[simp] theorem freeSlot_paths (s : State) : (freeSlot s).paths = s.paths := by unfold freeSlot; split <;> rfl
@[simp] theorem freeSlot_records (s : State) : (freeSlot s).records = s.records := by unfold freeSlot; split <;> rfl
@[simp] theorem freeSlot_pairHalt (s : State) : (freeSlot s).pairHalt = s.pairHalt := by unfold freeSlot; split <;> rfl
@[simp] theorem freeSlot_control (s : State) : (freeSlot s).control = s.control := by unfold freeSlot; split <;> rfl
@[simp] theorem freeSlot_observe (s : State) : (freeSlot s).observe = s.observe := by unfold freeSlot; split <;> rfl
@[simp] theorem freeSlot_port (s : State) : (freeSlot s).port = s.port := by unfold freeSlot; split <;> rfl
@[simp] theorem freeSlot_wires (s : State) : (freeSlot s).wires = s.wires := by unfold freeSlot; split <;> rfl

/-! testSettle -/
@[simp] theorem testSettle_pending (p : PairId) (s : State) : (testSettle p s).pending = s.pending := by unfold testSettle; split <;> rfl
@[simp] theorem testSettle_links (p : PairId) (s : State) : (testSettle p s).links = s.links := by unfold testSettle; split <;> rfl
@[simp] theorem testSettle_classifier (p : PairId) (s : State) : (testSettle p s).classifier = s.classifier := by unfold testSettle; split <;> rfl
@[simp] theorem testSettle_admission (p : PairId) (s : State) : (testSettle p s).admission = s.admission := by unfold testSettle; split <;> rfl
@[simp] theorem testSettle_timer (p : PairId) (s : State) : (testSettle p s).timer = s.timer := by unfold testSettle; split <;> rfl
@[simp] theorem testSettle_solver (p : PairId) (s : State) : (testSettle p s).solver = s.solver := by unfold testSettle; split <;> rfl
@[simp] theorem testSettle_credit (p : PairId) (s : State) : (testSettle p s).credit = s.credit := by unfold testSettle; split <;> rfl
@[simp] theorem testSettle_arbiter (p : PairId) (s : State) : (testSettle p s).arbiter = s.arbiter := by unfold testSettle; split <;> rfl
@[simp] theorem testSettle_paths (p : PairId) (s : State) : (testSettle p s).paths = s.paths := by unfold testSettle; split <;> rfl
@[simp] theorem testSettle_records (p : PairId) (s : State) : (testSettle p s).records = s.records := by unfold testSettle; split <;> rfl
@[simp] theorem testSettle_control (p : PairId) (s : State) : (testSettle p s).control = s.control := by unfold testSettle; split <;> rfl
@[simp] theorem testSettle_observe (p : PairId) (s : State) : (testSettle p s).observe = s.observe := by unfold testSettle; split <;> rfl
@[simp] theorem testSettle_port (p : PairId) (s : State) : (testSettle p s).port = s.port := by unfold testSettle; split <;> rfl
@[simp] theorem testSettle_wires (p : PairId) (s : State) : (testSettle p s).wires = s.wires := by unfold testSettle; split <;> rfl

/-! testSettles -/
@[simp] theorem testSettles_pending (s : State) : (testSettles s).pending = s.pending := foldl_keeps _ State.pending (fun s p => testSettle_pending p s) _ s
@[simp] theorem testSettles_links (s : State) : (testSettles s).links = s.links := foldl_keeps _ State.links (fun s p => testSettle_links p s) _ s
@[simp] theorem testSettles_classifier (s : State) : (testSettles s).classifier = s.classifier := foldl_keeps _ State.classifier (fun s p => testSettle_classifier p s) _ s
@[simp] theorem testSettles_admission (s : State) : (testSettles s).admission = s.admission := foldl_keeps _ State.admission (fun s p => testSettle_admission p s) _ s
@[simp] theorem testSettles_timer (s : State) : (testSettles s).timer = s.timer := foldl_keeps _ State.timer (fun s p => testSettle_timer p s) _ s
@[simp] theorem testSettles_solver (s : State) : (testSettles s).solver = s.solver := foldl_keeps _ State.solver (fun s p => testSettle_solver p s) _ s
@[simp] theorem testSettles_credit (s : State) : (testSettles s).credit = s.credit := foldl_keeps _ State.credit (fun s p => testSettle_credit p s) _ s
@[simp] theorem testSettles_arbiter (s : State) : (testSettles s).arbiter = s.arbiter := foldl_keeps _ State.arbiter (fun s p => testSettle_arbiter p s) _ s
@[simp] theorem testSettles_paths (s : State) : (testSettles s).paths = s.paths := foldl_keeps _ State.paths (fun s p => testSettle_paths p s) _ s
@[simp] theorem testSettles_records (s : State) : (testSettles s).records = s.records := foldl_keeps _ State.records (fun s p => testSettle_records p s) _ s
@[simp] theorem testSettles_control (s : State) : (testSettles s).control = s.control := foldl_keeps _ State.control (fun s p => testSettle_control p s) _ s
@[simp] theorem testSettles_observe (s : State) : (testSettles s).observe = s.observe := foldl_keeps _ State.observe (fun s p => testSettle_observe p s) _ s
@[simp] theorem testSettles_port (s : State) : (testSettles s).port = s.port := foldl_keeps _ State.port (fun s p => testSettle_port p s) _ s
@[simp] theorem testSettles_wires (s : State) : (testSettles s).wires = s.wires := foldl_keeps _ State.wires (fun s p => testSettle_wires p s) _ s

end Sys2Proof.Machine
end

