-- ==== Sys2Proof/Laws/Frames.lean ====
section
/-! SUPPORT. What the composed operations leave of the state: discards, drains, settlings, freeings, the events of the fabric, of a frame, of the lines and of the port; one lemma for each block of State that an operation does not touch. -/

namespace Sys2Proof.Machine

/- One theorem at a time: there are many small ones, and each would else take a thread of its own. -/
set_option Elab.async false

/-! ### Discards, drains and freeings -/

/-! refuseDescriptor -/
@[simp] theorem refuseDescriptor_pending (t : TenantId) (s : State) (d : Descriptor) : (refuseDescriptor t s d).pending = s.pending := by simp [refuseDescriptor]
@[simp] theorem refuseDescriptor_links (t : TenantId) (s : State) (d : Descriptor) : (refuseDescriptor t s d).links = s.links := by simp [refuseDescriptor]
@[simp] theorem refuseDescriptor_classifier (t : TenantId) (s : State) (d : Descriptor) : (refuseDescriptor t s d).classifier = s.classifier := by simp [refuseDescriptor]
@[simp] theorem refuseDescriptor_timer (t : TenantId) (s : State) (d : Descriptor) : (refuseDescriptor t s d).timer = s.timer := by simp [refuseDescriptor]
@[simp] theorem refuseDescriptor_solver (t : TenantId) (s : State) (d : Descriptor) : (refuseDescriptor t s d).solver = s.solver := by simp [refuseDescriptor]
@[simp] theorem refuseDescriptor_credit (t : TenantId) (s : State) (d : Descriptor) : (refuseDescriptor t s d).credit = s.credit := by simp [refuseDescriptor]
@[simp] theorem refuseDescriptor_arbiter (t : TenantId) (s : State) (d : Descriptor) : (refuseDescriptor t s d).arbiter = s.arbiter := by simp [refuseDescriptor]
@[simp] theorem refuseDescriptor_records (t : TenantId) (s : State) (d : Descriptor) : (refuseDescriptor t s d).records = s.records := by simp [refuseDescriptor]
@[simp] theorem refuseDescriptor_pairHalt (t : TenantId) (s : State) (d : Descriptor) : (refuseDescriptor t s d).pairHalt = s.pairHalt := by simp [refuseDescriptor]
@[simp] theorem refuseDescriptor_control (t : TenantId) (s : State) (d : Descriptor) : (refuseDescriptor t s d).control = s.control := by simp [refuseDescriptor]
@[simp] theorem refuseDescriptor_port (t : TenantId) (s : State) (d : Descriptor) : (refuseDescriptor t s d).port = s.port := by simp [refuseDescriptor]

/-! discardAll -/
@[simp] theorem discardAll_pending (t : TenantId) (s : State) : (discardAll t s).pending = s.pending := by
  unfold discardAll
  rw [foldl_keeps (refuseDescriptor t) State.pending (fun s d => refuseDescriptor_pending t s d)]
  simp
@[simp] theorem discardAll_links (t : TenantId) (s : State) : (discardAll t s).links = s.links := by
  unfold discardAll
  rw [foldl_keeps (refuseDescriptor t) State.links (fun s d => refuseDescriptor_links t s d)]
  simp
@[simp] theorem discardAll_classifier (t : TenantId) (s : State) : (discardAll t s).classifier = s.classifier := by
  unfold discardAll
  rw [foldl_keeps (refuseDescriptor t) State.classifier (fun s d => refuseDescriptor_classifier t s d)]
  simp
@[simp] theorem discardAll_timer (t : TenantId) (s : State) : (discardAll t s).timer = s.timer := by
  unfold discardAll
  rw [foldl_keeps (refuseDescriptor t) State.timer (fun s d => refuseDescriptor_timer t s d)]
  simp
@[simp] theorem discardAll_solver (t : TenantId) (s : State) : (discardAll t s).solver = s.solver := by
  unfold discardAll
  rw [foldl_keeps (refuseDescriptor t) State.solver (fun s d => refuseDescriptor_solver t s d)]
  simp
@[simp] theorem discardAll_credit (t : TenantId) (s : State) : (discardAll t s).credit = s.credit := by
  unfold discardAll
  rw [foldl_keeps (refuseDescriptor t) State.credit (fun s d => refuseDescriptor_credit t s d)]
  simp
@[simp] theorem discardAll_arbiter (t : TenantId) (s : State) : (discardAll t s).arbiter = s.arbiter := by
  unfold discardAll
  rw [foldl_keeps (refuseDescriptor t) State.arbiter (fun s d => refuseDescriptor_arbiter t s d)]
  simp
@[simp] theorem discardAll_records (t : TenantId) (s : State) : (discardAll t s).records = s.records := by
  unfold discardAll
  rw [foldl_keeps (refuseDescriptor t) State.records (fun s d => refuseDescriptor_records t s d)]
  simp
@[simp] theorem discardAll_pairHalt (t : TenantId) (s : State) : (discardAll t s).pairHalt = s.pairHalt := by
  unfold discardAll
  rw [foldl_keeps (refuseDescriptor t) State.pairHalt (fun s d => refuseDescriptor_pairHalt t s d)]
  simp
@[simp] theorem discardAll_control (t : TenantId) (s : State) : (discardAll t s).control = s.control := by
  unfold discardAll
  rw [foldl_keeps (refuseDescriptor t) State.control (fun s d => refuseDescriptor_control t s d)]
  simp
@[simp] theorem discardAll_port (t : TenantId) (s : State) : (discardAll t s).port = s.port := by
  unfold discardAll
  rw [foldl_keeps (refuseDescriptor t) State.port (fun s d => refuseDescriptor_port t s d)]
  simp

/-! discardWrites -/
@[simp] theorem discardWrites_pending (t : TenantId) (s : State) : (discardWrites t s).pending = s.pending := by
  unfold discardWrites
  rw [foldl_keeps (refuseDescriptor t) State.pending (fun s d => refuseDescriptor_pending t s d)]
  simp
@[simp] theorem discardWrites_links (t : TenantId) (s : State) : (discardWrites t s).links = s.links := by
  unfold discardWrites
  rw [foldl_keeps (refuseDescriptor t) State.links (fun s d => refuseDescriptor_links t s d)]
  simp
@[simp] theorem discardWrites_classifier (t : TenantId) (s : State) : (discardWrites t s).classifier = s.classifier := by
  unfold discardWrites
  rw [foldl_keeps (refuseDescriptor t) State.classifier (fun s d => refuseDescriptor_classifier t s d)]
  simp
@[simp] theorem discardWrites_timer (t : TenantId) (s : State) : (discardWrites t s).timer = s.timer := by
  unfold discardWrites
  rw [foldl_keeps (refuseDescriptor t) State.timer (fun s d => refuseDescriptor_timer t s d)]
  simp
@[simp] theorem discardWrites_solver (t : TenantId) (s : State) : (discardWrites t s).solver = s.solver := by
  unfold discardWrites
  rw [foldl_keeps (refuseDescriptor t) State.solver (fun s d => refuseDescriptor_solver t s d)]
  simp
@[simp] theorem discardWrites_credit (t : TenantId) (s : State) : (discardWrites t s).credit = s.credit := by
  unfold discardWrites
  rw [foldl_keeps (refuseDescriptor t) State.credit (fun s d => refuseDescriptor_credit t s d)]
  simp
@[simp] theorem discardWrites_arbiter (t : TenantId) (s : State) : (discardWrites t s).arbiter = s.arbiter := by
  unfold discardWrites
  rw [foldl_keeps (refuseDescriptor t) State.arbiter (fun s d => refuseDescriptor_arbiter t s d)]
  simp
@[simp] theorem discardWrites_records (t : TenantId) (s : State) : (discardWrites t s).records = s.records := by
  unfold discardWrites
  rw [foldl_keeps (refuseDescriptor t) State.records (fun s d => refuseDescriptor_records t s d)]
  simp
@[simp] theorem discardWrites_pairHalt (t : TenantId) (s : State) : (discardWrites t s).pairHalt = s.pairHalt := by
  unfold discardWrites
  rw [foldl_keeps (refuseDescriptor t) State.pairHalt (fun s d => refuseDescriptor_pairHalt t s d)]
  simp
@[simp] theorem discardWrites_control (t : TenantId) (s : State) : (discardWrites t s).control = s.control := by
  unfold discardWrites
  rw [foldl_keeps (refuseDescriptor t) State.control (fun s d => refuseDescriptor_control t s d)]
  simp
@[simp] theorem discardWrites_port (t : TenantId) (s : State) : (discardWrites t s).port = s.port := by
  unfold discardWrites
  rw [foldl_keeps (refuseDescriptor t) State.port (fun s d => refuseDescriptor_port t s d)]
  simp

/-! completeDrain -/
@[simp] theorem completeDrain_pending (t : TenantId) (s : State) : (completeDrain t s).pending = s.pending := by unfold completeDrain; split <;> simp
@[simp] theorem completeDrain_links (t : TenantId) (s : State) : (completeDrain t s).links = s.links := by unfold completeDrain; split <;> simp
@[simp] theorem completeDrain_classifier (t : TenantId) (s : State) : (completeDrain t s).classifier = s.classifier := by unfold completeDrain; split <;> simp
@[simp] theorem completeDrain_timer (t : TenantId) (s : State) : (completeDrain t s).timer = s.timer := by unfold completeDrain; split <;> simp
@[simp] theorem completeDrain_solver (t : TenantId) (s : State) : (completeDrain t s).solver = s.solver := by unfold completeDrain; split <;> simp
@[simp] theorem completeDrain_credit (t : TenantId) (s : State) : (completeDrain t s).credit = s.credit := by unfold completeDrain; split <;> simp
@[simp] theorem completeDrain_arbiter (t : TenantId) (s : State) : (completeDrain t s).arbiter = s.arbiter := by unfold completeDrain; split <;> simp
@[simp] theorem completeDrain_pairHalt (t : TenantId) (s : State) : (completeDrain t s).pairHalt = s.pairHalt := by unfold completeDrain; split <;> simp
@[simp] theorem completeDrain_control (t : TenantId) (s : State) : (completeDrain t s).control = s.control := by unfold completeDrain; split <;> simp
@[simp] theorem completeDrain_port (t : TenantId) (s : State) : (completeDrain t s).port = s.port := by unfold completeDrain; split <;> simp

/-! testDrain -/
@[simp] theorem testDrain_pending (t : TenantId) (s : State) : (testDrain t s).pending = s.pending := by unfold testDrain; split <;> simp
@[simp] theorem testDrain_links (t : TenantId) (s : State) : (testDrain t s).links = s.links := by unfold testDrain; split <;> simp
@[simp] theorem testDrain_classifier (t : TenantId) (s : State) : (testDrain t s).classifier = s.classifier := by unfold testDrain; split <;> simp
@[simp] theorem testDrain_timer (t : TenantId) (s : State) : (testDrain t s).timer = s.timer := by unfold testDrain; split <;> simp
@[simp] theorem testDrain_solver (t : TenantId) (s : State) : (testDrain t s).solver = s.solver := by unfold testDrain; split <;> simp
@[simp] theorem testDrain_credit (t : TenantId) (s : State) : (testDrain t s).credit = s.credit := by unfold testDrain; split <;> simp
@[simp] theorem testDrain_arbiter (t : TenantId) (s : State) : (testDrain t s).arbiter = s.arbiter := by unfold testDrain; split <;> simp
@[simp] theorem testDrain_pairHalt (t : TenantId) (s : State) : (testDrain t s).pairHalt = s.pairHalt := by unfold testDrain; split <;> simp
@[simp] theorem testDrain_control (t : TenantId) (s : State) : (testDrain t s).control = s.control := by unfold testDrain; split <;> simp
@[simp] theorem testDrain_port (t : TenantId) (s : State) : (testDrain t s).port = s.port := by unfold testDrain; split <;> simp

/-! testDrains -/
@[simp] theorem testDrains_pending (s : State) : (testDrains s).pending = s.pending := foldl_keeps _ State.pending (fun s t => testDrain_pending t s) _ s
@[simp] theorem testDrains_links (s : State) : (testDrains s).links = s.links := foldl_keeps _ State.links (fun s t => testDrain_links t s) _ s
@[simp] theorem testDrains_classifier (s : State) : (testDrains s).classifier = s.classifier := foldl_keeps _ State.classifier (fun s t => testDrain_classifier t s) _ s
@[simp] theorem testDrains_timer (s : State) : (testDrains s).timer = s.timer := foldl_keeps _ State.timer (fun s t => testDrain_timer t s) _ s
@[simp] theorem testDrains_solver (s : State) : (testDrains s).solver = s.solver := foldl_keeps _ State.solver (fun s t => testDrain_solver t s) _ s
@[simp] theorem testDrains_credit (s : State) : (testDrains s).credit = s.credit := foldl_keeps _ State.credit (fun s t => testDrain_credit t s) _ s
@[simp] theorem testDrains_arbiter (s : State) : (testDrains s).arbiter = s.arbiter := foldl_keeps _ State.arbiter (fun s t => testDrain_arbiter t s) _ s
@[simp] theorem testDrains_pairHalt (s : State) : (testDrains s).pairHalt = s.pairHalt := foldl_keeps _ State.pairHalt (fun s t => testDrain_pairHalt t s) _ s
@[simp] theorem testDrains_control (s : State) : (testDrains s).control = s.control := foldl_keeps _ State.control (fun s t => testDrain_control t s) _ s
@[simp] theorem testDrains_port (s : State) : (testDrains s).port = s.port := foldl_keeps _ State.port (fun s t => testDrain_port t s) _ s

/-! beginDrain -/
@[simp] theorem beginDrain_pending (t : TenantId) (g : DrainTarget) (s : State) : (beginDrain t g s).pending = s.pending := by simp [beginDrain]
@[simp] theorem beginDrain_links (t : TenantId) (g : DrainTarget) (s : State) : (beginDrain t g s).links = s.links := by simp [beginDrain]
@[simp] theorem beginDrain_classifier (t : TenantId) (g : DrainTarget) (s : State) : (beginDrain t g s).classifier = s.classifier := by simp [beginDrain]
@[simp] theorem beginDrain_timer (t : TenantId) (g : DrainTarget) (s : State) : (beginDrain t g s).timer = s.timer := by simp [beginDrain]
@[simp] theorem beginDrain_solver (t : TenantId) (g : DrainTarget) (s : State) : (beginDrain t g s).solver = s.solver := by simp [beginDrain]
@[simp] theorem beginDrain_credit (t : TenantId) (g : DrainTarget) (s : State) : (beginDrain t g s).credit = s.credit := by simp [beginDrain]
@[simp] theorem beginDrain_arbiter (t : TenantId) (g : DrainTarget) (s : State) : (beginDrain t g s).arbiter = s.arbiter := by simp [beginDrain]
@[simp] theorem beginDrain_pairHalt (t : TenantId) (g : DrainTarget) (s : State) : (beginDrain t g s).pairHalt = s.pairHalt := by simp [beginDrain]
@[simp] theorem beginDrain_control (t : TenantId) (g : DrainTarget) (s : State) : (beginDrain t g s).control = s.control := by simp [beginDrain]
@[simp] theorem beginDrain_port (t : TenantId) (g : DrainTarget) (s : State) : (beginDrain t g s).port = s.port := by simp [beginDrain]

/-! fence -/
@[simp] theorem fence_pending (t : TenantId) (s : State) : (fence t s).pending = s.pending := by simp [fence]
@[simp] theorem fence_links (t : TenantId) (s : State) : (fence t s).links = s.links := by simp [fence]
@[simp] theorem fence_classifier (t : TenantId) (s : State) : (fence t s).classifier = s.classifier := by simp [fence]
@[simp] theorem fence_timer (t : TenantId) (s : State) : (fence t s).timer = s.timer := by simp [fence]
@[simp] theorem fence_solver (t : TenantId) (s : State) : (fence t s).solver = s.solver := by simp [fence]
@[simp] theorem fence_credit (t : TenantId) (s : State) : (fence t s).credit = s.credit := by simp [fence]
@[simp] theorem fence_arbiter (t : TenantId) (s : State) : (fence t s).arbiter = s.arbiter := by simp [fence]
@[simp] theorem fence_pairHalt (t : TenantId) (s : State) : (fence t s).pairHalt = s.pairHalt := by simp [fence]
@[simp] theorem fence_control (t : TenantId) (s : State) : (fence t s).control = s.control := by simp [fence]
@[simp] theorem fence_port (t : TenantId) (s : State) : (fence t s).port = s.port := by simp [fence]

/-! fenceIfDue -/
@[simp] theorem fenceIfDue_pending (t : TenantId) (s : State) : (fenceIfDue t s).pending = s.pending := by unfold fenceIfDue; split <;> simp
@[simp] theorem fenceIfDue_links (t : TenantId) (s : State) : (fenceIfDue t s).links = s.links := by unfold fenceIfDue; split <;> simp
@[simp] theorem fenceIfDue_classifier (t : TenantId) (s : State) : (fenceIfDue t s).classifier = s.classifier := by unfold fenceIfDue; split <;> simp
@[simp] theorem fenceIfDue_timer (t : TenantId) (s : State) : (fenceIfDue t s).timer = s.timer := by unfold fenceIfDue; split <;> simp
@[simp] theorem fenceIfDue_solver (t : TenantId) (s : State) : (fenceIfDue t s).solver = s.solver := by unfold fenceIfDue; split <;> simp
@[simp] theorem fenceIfDue_credit (t : TenantId) (s : State) : (fenceIfDue t s).credit = s.credit := by unfold fenceIfDue; split <;> simp
@[simp] theorem fenceIfDue_arbiter (t : TenantId) (s : State) : (fenceIfDue t s).arbiter = s.arbiter := by unfold fenceIfDue; split <;> simp
@[simp] theorem fenceIfDue_pairHalt (t : TenantId) (s : State) : (fenceIfDue t s).pairHalt = s.pairHalt := by unfold fenceIfDue; split <;> simp
@[simp] theorem fenceIfDue_control (t : TenantId) (s : State) : (fenceIfDue t s).control = s.control := by unfold fenceIfDue; split <;> simp
@[simp] theorem fenceIfDue_port (t : TenantId) (s : State) : (fenceIfDue t s).port = s.port := by unfold fenceIfDue; split <;> simp

/-! drainAtBoundary -/
@[simp] theorem drainAtBoundary_pending (s : State) (t : TenantId) : (drainAtBoundary s t).pending = s.pending := by unfold drainAtBoundary; split <;> simp
@[simp] theorem drainAtBoundary_links (s : State) (t : TenantId) : (drainAtBoundary s t).links = s.links := by unfold drainAtBoundary; split <;> simp
@[simp] theorem drainAtBoundary_classifier (s : State) (t : TenantId) : (drainAtBoundary s t).classifier = s.classifier := by unfold drainAtBoundary; split <;> simp
@[simp] theorem drainAtBoundary_timer (s : State) (t : TenantId) : (drainAtBoundary s t).timer = s.timer := by unfold drainAtBoundary; split <;> simp
@[simp] theorem drainAtBoundary_solver (s : State) (t : TenantId) : (drainAtBoundary s t).solver = s.solver := by unfold drainAtBoundary; split <;> simp
@[simp] theorem drainAtBoundary_credit (s : State) (t : TenantId) : (drainAtBoundary s t).credit = s.credit := by unfold drainAtBoundary; split <;> simp
@[simp] theorem drainAtBoundary_arbiter (s : State) (t : TenantId) : (drainAtBoundary s t).arbiter = s.arbiter := by unfold drainAtBoundary; split <;> simp
@[simp] theorem drainAtBoundary_pairHalt (s : State) (t : TenantId) : (drainAtBoundary s t).pairHalt = s.pairHalt := by unfold drainAtBoundary; split <;> simp
@[simp] theorem drainAtBoundary_control (s : State) (t : TenantId) : (drainAtBoundary s t).control = s.control := by unfold drainAtBoundary; split <;> simp
@[simp] theorem drainAtBoundary_port (s : State) (t : TenantId) : (drainAtBoundary s t).port = s.port := by unfold drainAtBoundary; split <;> simp

/-! afterFreeing -/
@[simp] theorem afterFreeing_pending (s : State) : (afterFreeing s).pending = s.pending := by simp [afterFreeing]
@[simp] theorem afterFreeing_links (s : State) : (afterFreeing s).links = s.links := by simp [afterFreeing]
@[simp] theorem afterFreeing_classifier (s : State) : (afterFreeing s).classifier = s.classifier := by simp [afterFreeing]
@[simp] theorem afterFreeing_timer (s : State) : (afterFreeing s).timer = s.timer := by simp [afterFreeing]
@[simp] theorem afterFreeing_solver (s : State) : (afterFreeing s).solver = s.solver := by simp [afterFreeing]
@[simp] theorem afterFreeing_credit (s : State) : (afterFreeing s).credit = s.credit := by simp [afterFreeing]
@[simp] theorem afterFreeing_arbiter (s : State) : (afterFreeing s).arbiter = s.arbiter := by simp [afterFreeing]
@[simp] theorem afterFreeing_control (s : State) : (afterFreeing s).control = s.control := by simp [afterFreeing]
@[simp] theorem afterFreeing_port (s : State) : (afterFreeing s).port = s.port := by simp [afterFreeing]

/-! answerEntry -/
@[simp] theorem answerEntry_pending (e : OutstandingEntry) (x : ResponseStatus) (l : List Byte) (s : State) : (answerEntry e x l s).pending = s.pending := by simp [answerEntry]
@[simp] theorem answerEntry_links (e : OutstandingEntry) (x : ResponseStatus) (l : List Byte) (s : State) : (answerEntry e x l s).links = s.links := by simp [answerEntry]
@[simp] theorem answerEntry_classifier (e : OutstandingEntry) (x : ResponseStatus) (l : List Byte) (s : State) : (answerEntry e x l s).classifier = s.classifier := by simp [answerEntry]
@[simp] theorem answerEntry_admission (e : OutstandingEntry) (x : ResponseStatus) (l : List Byte) (s : State) : (answerEntry e x l s).admission = s.admission := by simp [answerEntry]
@[simp] theorem answerEntry_timer (e : OutstandingEntry) (x : ResponseStatus) (l : List Byte) (s : State) : (answerEntry e x l s).timer = s.timer := by simp [answerEntry]
@[simp] theorem answerEntry_solver (e : OutstandingEntry) (x : ResponseStatus) (l : List Byte) (s : State) : (answerEntry e x l s).solver = s.solver := by simp [answerEntry]
@[simp] theorem answerEntry_credit (e : OutstandingEntry) (x : ResponseStatus) (l : List Byte) (s : State) : (answerEntry e x l s).credit = s.credit := by simp [answerEntry]
@[simp] theorem answerEntry_arbiter (e : OutstandingEntry) (x : ResponseStatus) (l : List Byte) (s : State) : (answerEntry e x l s).arbiter = s.arbiter := by simp [answerEntry]
@[simp] theorem answerEntry_records (e : OutstandingEntry) (x : ResponseStatus) (l : List Byte) (s : State) : (answerEntry e x l s).records = s.records := by simp [answerEntry]
@[simp] theorem answerEntry_pairHalt (e : OutstandingEntry) (x : ResponseStatus) (l : List Byte) (s : State) : (answerEntry e x l s).pairHalt = s.pairHalt := by simp [answerEntry]
@[simp] theorem answerEntry_control (e : OutstandingEntry) (x : ResponseStatus) (l : List Byte) (s : State) : (answerEntry e x l s).control = s.control := by simp [answerEntry]
@[simp] theorem answerEntry_observe (e : OutstandingEntry) (x : ResponseStatus) (l : List Byte) (s : State) : (answerEntry e x l s).observe = s.observe := by simp [answerEntry]
@[simp] theorem answerEntry_port (e : OutstandingEntry) (x : ResponseStatus) (l : List Byte) (s : State) : (answerEntry e x l s).port = s.port := by simp [answerEntry]

/-! expireEntry -/
@[simp] theorem expireEntry_pending (tag : Byte) (s : State) : (expireEntry tag s).pending = s.pending := by
  unfold expireEntry
  split; · rfl
  · simp only [raiseAlert_pending, freeEntry_pending]; split <;> simp
@[simp] theorem expireEntry_links (tag : Byte) (s : State) : (expireEntry tag s).links = s.links := by
  unfold expireEntry
  split; · rfl
  · simp only [raiseAlert_links, freeEntry_links]; split <;> simp
@[simp] theorem expireEntry_classifier (tag : Byte) (s : State) : (expireEntry tag s).classifier = s.classifier := by
  unfold expireEntry
  split; · rfl
  · simp only [raiseAlert_classifier, freeEntry_classifier]; split <;> simp
@[simp] theorem expireEntry_admission (tag : Byte) (s : State) : (expireEntry tag s).admission = s.admission := by
  unfold expireEntry
  split; · rfl
  · simp only [raiseAlert_admission, freeEntry_admission]; split <;> simp
@[simp] theorem expireEntry_timer (tag : Byte) (s : State) : (expireEntry tag s).timer = s.timer := by
  unfold expireEntry
  split; · rfl
  · simp only [raiseAlert_timer, freeEntry_timer]; split <;> simp
@[simp] theorem expireEntry_solver (tag : Byte) (s : State) : (expireEntry tag s).solver = s.solver := by
  unfold expireEntry
  split; · rfl
  · simp only [raiseAlert_solver, freeEntry_solver]; split <;> simp
@[simp] theorem expireEntry_credit (tag : Byte) (s : State) : (expireEntry tag s).credit = s.credit := by
  unfold expireEntry
  split; · rfl
  · simp only [raiseAlert_credit, freeEntry_credit]; split <;> simp
@[simp] theorem expireEntry_arbiter (tag : Byte) (s : State) : (expireEntry tag s).arbiter = s.arbiter := by
  unfold expireEntry
  split; · rfl
  · simp only [raiseAlert_arbiter, freeEntry_arbiter]; split <;> simp
@[simp] theorem expireEntry_records (tag : Byte) (s : State) : (expireEntry tag s).records = s.records := by
  unfold expireEntry
  split; · rfl
  · simp only [raiseAlert_records, freeEntry_records]; split <;> simp
@[simp] theorem expireEntry_pairHalt (tag : Byte) (s : State) : (expireEntry tag s).pairHalt = s.pairHalt := by
  unfold expireEntry
  split; · rfl
  · simp only [raiseAlert_pairHalt, freeEntry_pairHalt]; split <;> simp
@[simp] theorem expireEntry_control (tag : Byte) (s : State) : (expireEntry tag s).control = s.control := by
  unfold expireEntry
  split; · rfl
  · simp only [raiseAlert_control, freeEntry_control]; split <;> simp
@[simp] theorem expireEntry_port (tag : Byte) (s : State) : (expireEntry tag s).port = s.port := by
  unfold expireEntry
  split; · rfl
  · simp only [raiseAlert_port, freeEntry_port]; split <;> simp

/-! expireAtBoundary -/
@[simp] theorem expireAtBoundary_pending (s : State) : (expireAtBoundary s).pending = s.pending := by
  unfold expireAtBoundary
  rw [foldl_keeps _ State.pending (fun s c => expireEntry_pending _ s)]
@[simp] theorem expireAtBoundary_links (s : State) : (expireAtBoundary s).links = s.links := by
  unfold expireAtBoundary
  rw [foldl_keeps _ State.links (fun s c => expireEntry_links _ s)]
@[simp] theorem expireAtBoundary_classifier (s : State) : (expireAtBoundary s).classifier = s.classifier := by
  unfold expireAtBoundary
  rw [foldl_keeps _ State.classifier (fun s c => expireEntry_classifier _ s)]
@[simp] theorem expireAtBoundary_admission (s : State) : (expireAtBoundary s).admission = s.admission := by
  unfold expireAtBoundary
  rw [foldl_keeps _ State.admission (fun s c => expireEntry_admission _ s)]
@[simp] theorem expireAtBoundary_timer (s : State) : (expireAtBoundary s).timer = s.timer := by
  unfold expireAtBoundary
  rw [foldl_keeps _ State.timer (fun s c => expireEntry_timer _ s)]
@[simp] theorem expireAtBoundary_solver (s : State) : (expireAtBoundary s).solver = s.solver := by
  unfold expireAtBoundary
  rw [foldl_keeps _ State.solver (fun s c => expireEntry_solver _ s)]
@[simp] theorem expireAtBoundary_credit (s : State) : (expireAtBoundary s).credit = s.credit := by
  unfold expireAtBoundary
  rw [foldl_keeps _ State.credit (fun s c => expireEntry_credit _ s)]
@[simp] theorem expireAtBoundary_arbiter (s : State) : (expireAtBoundary s).arbiter = s.arbiter := by
  unfold expireAtBoundary
  rw [foldl_keeps _ State.arbiter (fun s c => expireEntry_arbiter _ s)]
@[simp] theorem expireAtBoundary_records (s : State) : (expireAtBoundary s).records = s.records := by
  unfold expireAtBoundary
  rw [foldl_keeps _ State.records (fun s c => expireEntry_records _ s)]
@[simp] theorem expireAtBoundary_pairHalt (s : State) : (expireAtBoundary s).pairHalt = s.pairHalt := by
  unfold expireAtBoundary
  rw [foldl_keeps _ State.pairHalt (fun s c => expireEntry_pairHalt _ s)]
@[simp] theorem expireAtBoundary_control (s : State) : (expireAtBoundary s).control = s.control := by
  unfold expireAtBoundary
  rw [foldl_keeps _ State.control (fun s c => expireEntry_control _ s)]
@[simp] theorem expireAtBoundary_port (s : State) : (expireAtBoundary s).port = s.port := by
  unfold expireAtBoundary
  rw [foldl_keeps _ State.port (fun s c => expireEntry_port _ s)]

/-! forwardResponse -/
@[simp] theorem forwardResponse_pending (tag : Byte) (e : OutstandingEntry) (x : PoolStatus) (l : List Byte) (s : State) : (forwardResponse tag e x l s).pending = s.pending := by
  unfold forwardResponse
  simp only [freeEntry_pending]
  split; · rfl
  · split <;> simp
@[simp] theorem forwardResponse_links (tag : Byte) (e : OutstandingEntry) (x : PoolStatus) (l : List Byte) (s : State) : (forwardResponse tag e x l s).links = s.links := by
  unfold forwardResponse
  simp only [freeEntry_links]
  split; · rfl
  · split <;> simp
@[simp] theorem forwardResponse_classifier (tag : Byte) (e : OutstandingEntry) (x : PoolStatus) (l : List Byte) (s : State) : (forwardResponse tag e x l s).classifier = s.classifier := by
  unfold forwardResponse
  simp only [freeEntry_classifier]
  split; · rfl
  · split <;> simp
@[simp] theorem forwardResponse_admission (tag : Byte) (e : OutstandingEntry) (x : PoolStatus) (l : List Byte) (s : State) : (forwardResponse tag e x l s).admission = s.admission := by
  unfold forwardResponse
  simp only [freeEntry_admission]
  split; · rfl
  · split <;> simp
@[simp] theorem forwardResponse_timer (tag : Byte) (e : OutstandingEntry) (x : PoolStatus) (l : List Byte) (s : State) : (forwardResponse tag e x l s).timer = s.timer := by
  unfold forwardResponse
  simp only [freeEntry_timer]
  split; · rfl
  · split <;> simp
@[simp] theorem forwardResponse_solver (tag : Byte) (e : OutstandingEntry) (x : PoolStatus) (l : List Byte) (s : State) : (forwardResponse tag e x l s).solver = s.solver := by
  unfold forwardResponse
  simp only [freeEntry_solver]
  split; · rfl
  · split <;> simp
@[simp] theorem forwardResponse_credit (tag : Byte) (e : OutstandingEntry) (x : PoolStatus) (l : List Byte) (s : State) : (forwardResponse tag e x l s).credit = s.credit := by
  unfold forwardResponse
  simp only [freeEntry_credit]
  split; · rfl
  · split <;> simp
@[simp] theorem forwardResponse_arbiter (tag : Byte) (e : OutstandingEntry) (x : PoolStatus) (l : List Byte) (s : State) : (forwardResponse tag e x l s).arbiter = s.arbiter := by
  unfold forwardResponse
  simp only [freeEntry_arbiter]
  split; · rfl
  · split <;> simp
@[simp] theorem forwardResponse_records (tag : Byte) (e : OutstandingEntry) (x : PoolStatus) (l : List Byte) (s : State) : (forwardResponse tag e x l s).records = s.records := by
  unfold forwardResponse
  simp only [freeEntry_records]
  split; · rfl
  · split <;> simp
@[simp] theorem forwardResponse_pairHalt (tag : Byte) (e : OutstandingEntry) (x : PoolStatus) (l : List Byte) (s : State) : (forwardResponse tag e x l s).pairHalt = s.pairHalt := by
  unfold forwardResponse
  simp only [freeEntry_pairHalt]
  split; · rfl
  · split <;> simp
@[simp] theorem forwardResponse_control (tag : Byte) (e : OutstandingEntry) (x : PoolStatus) (l : List Byte) (s : State) : (forwardResponse tag e x l s).control = s.control := by
  unfold forwardResponse
  simp only [freeEntry_control]
  split; · rfl
  · split <;> simp
@[simp] theorem forwardResponse_port (tag : Byte) (e : OutstandingEntry) (x : PoolStatus) (l : List Byte) (s : State) : (forwardResponse tag e x l s).port = s.port := by
  unfold forwardResponse
  simp only [freeEntry_port]
  split; · rfl
  · split <;> simp

/-! loseEntry -/
@[simp] theorem loseEntry_pending (s : State) (e : OutstandingEntry) : (loseEntry s e).pending = s.pending := by unfold loseEntry; split <;> simp
@[simp] theorem loseEntry_links (s : State) (e : OutstandingEntry) : (loseEntry s e).links = s.links := by unfold loseEntry; split <;> simp
@[simp] theorem loseEntry_classifier (s : State) (e : OutstandingEntry) : (loseEntry s e).classifier = s.classifier := by unfold loseEntry; split <;> simp
@[simp] theorem loseEntry_admission (s : State) (e : OutstandingEntry) : (loseEntry s e).admission = s.admission := by unfold loseEntry; split <;> simp
@[simp] theorem loseEntry_timer (s : State) (e : OutstandingEntry) : (loseEntry s e).timer = s.timer := by unfold loseEntry; split <;> simp
@[simp] theorem loseEntry_solver (s : State) (e : OutstandingEntry) : (loseEntry s e).solver = s.solver := by unfold loseEntry; split <;> simp
@[simp] theorem loseEntry_credit (s : State) (e : OutstandingEntry) : (loseEntry s e).credit = s.credit := by unfold loseEntry; split <;> simp
@[simp] theorem loseEntry_arbiter (s : State) (e : OutstandingEntry) : (loseEntry s e).arbiter = s.arbiter := by unfold loseEntry; split <;> simp
@[simp] theorem loseEntry_records (s : State) (e : OutstandingEntry) : (loseEntry s e).records = s.records := by unfold loseEntry; split <;> simp
@[simp] theorem loseEntry_pairHalt (s : State) (e : OutstandingEntry) : (loseEntry s e).pairHalt = s.pairHalt := by unfold loseEntry; split <;> simp
@[simp] theorem loseEntry_control (s : State) (e : OutstandingEntry) : (loseEntry s e).control = s.control := by unfold loseEntry; split <;> simp
@[simp] theorem loseEntry_port (s : State) (e : OutstandingEntry) : (loseEntry s e).port = s.port := by unfold loseEntry; split <;> simp

/-! ### Fabric traffic -/

/-! answerArrival -/
@[simp] theorem answerArrival_pending (q : RequesterId) (g : Byte) (b : RequestBody) (x : ResponseStatus) (s : State) : (answerArrival q g b x s).pending = s.pending := by simp [answerArrival]
@[simp] theorem answerArrival_links (q : RequesterId) (g : Byte) (b : RequestBody) (x : ResponseStatus) (s : State) : (answerArrival q g b x s).links = s.links := by simp [answerArrival]
@[simp] theorem answerArrival_classifier (q : RequesterId) (g : Byte) (b : RequestBody) (x : ResponseStatus) (s : State) : (answerArrival q g b x s).classifier = s.classifier := by simp [answerArrival]
@[simp] theorem answerArrival_admission (q : RequesterId) (g : Byte) (b : RequestBody) (x : ResponseStatus) (s : State) : (answerArrival q g b x s).admission = s.admission := by simp [answerArrival]
@[simp] theorem answerArrival_timer (q : RequesterId) (g : Byte) (b : RequestBody) (x : ResponseStatus) (s : State) : (answerArrival q g b x s).timer = s.timer := by simp [answerArrival]
@[simp] theorem answerArrival_solver (q : RequesterId) (g : Byte) (b : RequestBody) (x : ResponseStatus) (s : State) : (answerArrival q g b x s).solver = s.solver := by simp [answerArrival]
@[simp] theorem answerArrival_credit (q : RequesterId) (g : Byte) (b : RequestBody) (x : ResponseStatus) (s : State) : (answerArrival q g b x s).credit = s.credit := by simp [answerArrival]
@[simp] theorem answerArrival_arbiter (q : RequesterId) (g : Byte) (b : RequestBody) (x : ResponseStatus) (s : State) : (answerArrival q g b x s).arbiter = s.arbiter := by simp [answerArrival]
@[simp] theorem answerArrival_paths (q : RequesterId) (g : Byte) (b : RequestBody) (x : ResponseStatus) (s : State) : (answerArrival q g b x s).paths = s.paths := by simp [answerArrival]
@[simp] theorem answerArrival_records (q : RequesterId) (g : Byte) (b : RequestBody) (x : ResponseStatus) (s : State) : (answerArrival q g b x s).records = s.records := by simp [answerArrival]
@[simp] theorem answerArrival_pairHalt (q : RequesterId) (g : Byte) (b : RequestBody) (x : ResponseStatus) (s : State) : (answerArrival q g b x s).pairHalt = s.pairHalt := by simp [answerArrival]
@[simp] theorem answerArrival_control (q : RequesterId) (g : Byte) (b : RequestBody) (x : ResponseStatus) (s : State) : (answerArrival q g b x s).control = s.control := by simp [answerArrival]
@[simp] theorem answerArrival_observe (q : RequesterId) (g : Byte) (b : RequestBody) (x : ResponseStatus) (s : State) : (answerArrival q g b x s).observe = s.observe := by simp [answerArrival]
@[simp] theorem answerArrival_port (q : RequesterId) (g : Byte) (b : RequestBody) (x : ResponseStatus) (s : State) : (answerArrival q g b x s).port = s.port := by simp [answerArrival]

/-! refuseArrival -/
@[simp] theorem refuseArrival_pending (t : TenantId) (u : Bool) (q : RequesterId) (g : Byte) (b : RequestBody) (s : State) : (refuseArrival t u q g b s).pending = s.pending := by unfold refuseArrival; simp only; split <;> simp
@[simp] theorem refuseArrival_links (t : TenantId) (u : Bool) (q : RequesterId) (g : Byte) (b : RequestBody) (s : State) : (refuseArrival t u q g b s).links = s.links := by unfold refuseArrival; simp only; split <;> simp
@[simp] theorem refuseArrival_classifier (t : TenantId) (u : Bool) (q : RequesterId) (g : Byte) (b : RequestBody) (s : State) : (refuseArrival t u q g b s).classifier = s.classifier := by unfold refuseArrival; simp only; split <;> simp
@[simp] theorem refuseArrival_admission (t : TenantId) (u : Bool) (q : RequesterId) (g : Byte) (b : RequestBody) (s : State) : (refuseArrival t u q g b s).admission = s.admission := by unfold refuseArrival; simp only; split <;> simp
@[simp] theorem refuseArrival_timer (t : TenantId) (u : Bool) (q : RequesterId) (g : Byte) (b : RequestBody) (s : State) : (refuseArrival t u q g b s).timer = s.timer := by unfold refuseArrival; simp only; split <;> simp
@[simp] theorem refuseArrival_solver (t : TenantId) (u : Bool) (q : RequesterId) (g : Byte) (b : RequestBody) (s : State) : (refuseArrival t u q g b s).solver = s.solver := by unfold refuseArrival; simp only; split <;> simp
@[simp] theorem refuseArrival_credit (t : TenantId) (u : Bool) (q : RequesterId) (g : Byte) (b : RequestBody) (s : State) : (refuseArrival t u q g b s).credit = s.credit := by unfold refuseArrival; simp only; split <;> simp
@[simp] theorem refuseArrival_arbiter (t : TenantId) (u : Bool) (q : RequesterId) (g : Byte) (b : RequestBody) (s : State) : (refuseArrival t u q g b s).arbiter = s.arbiter := by unfold refuseArrival; simp only; split <;> simp
@[simp] theorem refuseArrival_paths (t : TenantId) (u : Bool) (q : RequesterId) (g : Byte) (b : RequestBody) (s : State) : (refuseArrival t u q g b s).paths = s.paths := by unfold refuseArrival; simp only; split <;> simp
@[simp] theorem refuseArrival_records (t : TenantId) (u : Bool) (q : RequesterId) (g : Byte) (b : RequestBody) (s : State) : (refuseArrival t u q g b s).records = s.records := by unfold refuseArrival; simp only; split <;> simp
@[simp] theorem refuseArrival_pairHalt (t : TenantId) (u : Bool) (q : RequesterId) (g : Byte) (b : RequestBody) (s : State) : (refuseArrival t u q g b s).pairHalt = s.pairHalt := by unfold refuseArrival; simp only; split <;> simp
@[simp] theorem refuseArrival_control (t : TenantId) (u : Bool) (q : RequesterId) (g : Byte) (b : RequestBody) (s : State) : (refuseArrival t u q g b s).control = s.control := by unfold refuseArrival; simp only; split <;> simp
@[simp] theorem refuseArrival_port (t : TenantId) (u : Bool) (q : RequesterId) (g : Byte) (b : RequestBody) (s : State) : (refuseArrival t u q g b s).port = s.port := by unfold refuseArrival; simp only; split <;> simp

/-! retryArrival -/
@[simp] theorem retryArrival_pending (t : TenantId) (q : RequesterId) (g : Byte) (b : RequestBody) (s : State) : (retryArrival t q g b s).pending = s.pending := by simp [retryArrival]
@[simp] theorem retryArrival_links (t : TenantId) (q : RequesterId) (g : Byte) (b : RequestBody) (s : State) : (retryArrival t q g b s).links = s.links := by simp [retryArrival]
@[simp] theorem retryArrival_classifier (t : TenantId) (q : RequesterId) (g : Byte) (b : RequestBody) (s : State) : (retryArrival t q g b s).classifier = s.classifier := by simp [retryArrival]
@[simp] theorem retryArrival_timer (t : TenantId) (q : RequesterId) (g : Byte) (b : RequestBody) (s : State) : (retryArrival t q g b s).timer = s.timer := by simp [retryArrival]
@[simp] theorem retryArrival_solver (t : TenantId) (q : RequesterId) (g : Byte) (b : RequestBody) (s : State) : (retryArrival t q g b s).solver = s.solver := by simp [retryArrival]
@[simp] theorem retryArrival_credit (t : TenantId) (q : RequesterId) (g : Byte) (b : RequestBody) (s : State) : (retryArrival t q g b s).credit = s.credit := by simp [retryArrival]
@[simp] theorem retryArrival_arbiter (t : TenantId) (q : RequesterId) (g : Byte) (b : RequestBody) (s : State) : (retryArrival t q g b s).arbiter = s.arbiter := by simp [retryArrival]
@[simp] theorem retryArrival_paths (t : TenantId) (q : RequesterId) (g : Byte) (b : RequestBody) (s : State) : (retryArrival t q g b s).paths = s.paths := by simp [retryArrival]
@[simp] theorem retryArrival_records (t : TenantId) (q : RequesterId) (g : Byte) (b : RequestBody) (s : State) : (retryArrival t q g b s).records = s.records := by simp [retryArrival]
@[simp] theorem retryArrival_pairHalt (t : TenantId) (q : RequesterId) (g : Byte) (b : RequestBody) (s : State) : (retryArrival t q g b s).pairHalt = s.pairHalt := by simp [retryArrival]
@[simp] theorem retryArrival_control (t : TenantId) (q : RequesterId) (g : Byte) (b : RequestBody) (s : State) : (retryArrival t q g b s).control = s.control := by simp [retryArrival]
@[simp] theorem retryArrival_port (t : TenantId) (q : RequesterId) (g : Byte) (b : RequestBody) (s : State) : (retryArrival t q g b s).port = s.port := by simp [retryArrival]

/-! admitArrival -/
@[simp] theorem admitArrival_pending (t : TenantId) (q : RequesterId) (g : Byte) (b : RequestBody) (s : State) : (admitArrival t q g b s).pending = s.pending := by unfold admitArrival; simp only [countTenant_pending]; split <;> simp
@[simp] theorem admitArrival_links (t : TenantId) (q : RequesterId) (g : Byte) (b : RequestBody) (s : State) : (admitArrival t q g b s).links = s.links := by unfold admitArrival; simp only [countTenant_links]; split <;> simp
@[simp] theorem admitArrival_classifier (t : TenantId) (q : RequesterId) (g : Byte) (b : RequestBody) (s : State) : (admitArrival t q g b s).classifier = s.classifier := by unfold admitArrival; simp only [countTenant_classifier]; split <;> simp
@[simp] theorem admitArrival_timer (t : TenantId) (q : RequesterId) (g : Byte) (b : RequestBody) (s : State) : (admitArrival t q g b s).timer = s.timer := by unfold admitArrival; simp only [countTenant_timer]; split <;> simp
@[simp] theorem admitArrival_solver (t : TenantId) (q : RequesterId) (g : Byte) (b : RequestBody) (s : State) : (admitArrival t q g b s).solver = s.solver := by unfold admitArrival; simp only [countTenant_solver]; split <;> simp
@[simp] theorem admitArrival_credit (t : TenantId) (q : RequesterId) (g : Byte) (b : RequestBody) (s : State) : (admitArrival t q g b s).credit = s.credit := by unfold admitArrival; simp only [countTenant_credit]; split <;> simp
@[simp] theorem admitArrival_arbiter (t : TenantId) (q : RequesterId) (g : Byte) (b : RequestBody) (s : State) : (admitArrival t q g b s).arbiter = s.arbiter := by unfold admitArrival; simp only [countTenant_arbiter]; split <;> simp
@[simp] theorem admitArrival_records (t : TenantId) (q : RequesterId) (g : Byte) (b : RequestBody) (s : State) : (admitArrival t q g b s).records = s.records := by unfold admitArrival; simp only [countTenant_records]; split <;> simp
@[simp] theorem admitArrival_pairHalt (t : TenantId) (q : RequesterId) (g : Byte) (b : RequestBody) (s : State) : (admitArrival t q g b s).pairHalt = s.pairHalt := by unfold admitArrival; simp only [countTenant_pairHalt]; split <;> simp
@[simp] theorem admitArrival_control (t : TenantId) (q : RequesterId) (g : Byte) (b : RequestBody) (s : State) : (admitArrival t q g b s).control = s.control := by unfold admitArrival; simp only [countTenant_control]; split <;> simp
@[simp] theorem admitArrival_port (t : TenantId) (q : RequesterId) (g : Byte) (b : RequestBody) (s : State) : (admitArrival t q g b s).port = s.port := by unfold admitArrival; simp only [countTenant_port]; split <;> simp
@[simp] theorem admitArrival_wires (t : TenantId) (q : RequesterId) (g : Byte) (b : RequestBody) (s : State) : (admitArrival t q g b s).wires = s.wires := by unfold admitArrival; simp only [countTenant_wires]; split <;> simp

/-! admission -/
@[simp] theorem admission_pending (t : TenantId) (u : Bool) (q : RequesterId) (g : Byte) (b : RequestBody) (s : State) : (admission t u q g b s).pending = s.pending := by
  unfold admission
  split; · simp
  split; · simp
  split <;> simp
@[simp] theorem admission_links (t : TenantId) (u : Bool) (q : RequesterId) (g : Byte) (b : RequestBody) (s : State) : (admission t u q g b s).links = s.links := by
  unfold admission
  split; · simp
  split; · simp
  split <;> simp
@[simp] theorem admission_classifier (t : TenantId) (u : Bool) (q : RequesterId) (g : Byte) (b : RequestBody) (s : State) : (admission t u q g b s).classifier = s.classifier := by
  unfold admission
  split; · simp
  split; · simp
  split <;> simp
@[simp] theorem admission_timer (t : TenantId) (u : Bool) (q : RequesterId) (g : Byte) (b : RequestBody) (s : State) : (admission t u q g b s).timer = s.timer := by
  unfold admission
  split; · simp
  split; · simp
  split <;> simp
@[simp] theorem admission_solver (t : TenantId) (u : Bool) (q : RequesterId) (g : Byte) (b : RequestBody) (s : State) : (admission t u q g b s).solver = s.solver := by
  unfold admission
  split; · simp
  split; · simp
  split <;> simp
@[simp] theorem admission_credit (t : TenantId) (u : Bool) (q : RequesterId) (g : Byte) (b : RequestBody) (s : State) : (admission t u q g b s).credit = s.credit := by
  unfold admission
  split; · simp
  split; · simp
  split <;> simp
@[simp] theorem admission_arbiter (t : TenantId) (u : Bool) (q : RequesterId) (g : Byte) (b : RequestBody) (s : State) : (admission t u q g b s).arbiter = s.arbiter := by
  unfold admission
  split; · simp
  split; · simp
  split <;> simp
@[simp] theorem admission_records (t : TenantId) (u : Bool) (q : RequesterId) (g : Byte) (b : RequestBody) (s : State) : (admission t u q g b s).records = s.records := by
  unfold admission
  split; · simp
  split; · simp
  split <;> simp
@[simp] theorem admission_pairHalt (t : TenantId) (u : Bool) (q : RequesterId) (g : Byte) (b : RequestBody) (s : State) : (admission t u q g b s).pairHalt = s.pairHalt := by
  unfold admission
  split; · simp
  split; · simp
  split <;> simp
@[simp] theorem admission_control (t : TenantId) (u : Bool) (q : RequesterId) (g : Byte) (b : RequestBody) (s : State) : (admission t u q g b s).control = s.control := by
  unfold admission
  split; · simp
  split; · simp
  split <;> simp
@[simp] theorem admission_port (t : TenantId) (u : Bool) (q : RequesterId) (g : Byte) (b : RequestBody) (s : State) : (admission t u q g b s).port = s.port := by
  unfold admission
  split; · simp
  split; · simp
  split <;> simp

/-! takeArrival -/
@[simp] theorem takeArrival_pending (q : RequesterId) (g : Byte) (b : RequestBody) (s : State) : (takeArrival q g b s).pending = s.pending := by unfold takeArrival; split <;> simp
@[simp] theorem takeArrival_links (q : RequesterId) (g : Byte) (b : RequestBody) (s : State) : (takeArrival q g b s).links = s.links := by unfold takeArrival; split <;> simp
@[simp] theorem takeArrival_classifier (q : RequesterId) (g : Byte) (b : RequestBody) (s : State) : (takeArrival q g b s).classifier = s.classifier := by unfold takeArrival; split <;> simp
@[simp] theorem takeArrival_timer (q : RequesterId) (g : Byte) (b : RequestBody) (s : State) : (takeArrival q g b s).timer = s.timer := by unfold takeArrival; split <;> simp
@[simp] theorem takeArrival_solver (q : RequesterId) (g : Byte) (b : RequestBody) (s : State) : (takeArrival q g b s).solver = s.solver := by unfold takeArrival; split <;> simp
@[simp] theorem takeArrival_credit (q : RequesterId) (g : Byte) (b : RequestBody) (s : State) : (takeArrival q g b s).credit = s.credit := by unfold takeArrival; split <;> simp
@[simp] theorem takeArrival_arbiter (q : RequesterId) (g : Byte) (b : RequestBody) (s : State) : (takeArrival q g b s).arbiter = s.arbiter := by unfold takeArrival; split <;> simp
@[simp] theorem takeArrival_records (q : RequesterId) (g : Byte) (b : RequestBody) (s : State) : (takeArrival q g b s).records = s.records := by unfold takeArrival; split <;> simp
@[simp] theorem takeArrival_pairHalt (q : RequesterId) (g : Byte) (b : RequestBody) (s : State) : (takeArrival q g b s).pairHalt = s.pairHalt := by unfold takeArrival; split <;> simp
@[simp] theorem takeArrival_control (q : RequesterId) (g : Byte) (b : RequestBody) (s : State) : (takeArrival q g b s).control = s.control := by unfold takeArrival; split <;> simp
@[simp] theorem takeArrival_port (q : RequesterId) (g : Byte) (b : RequestBody) (s : State) : (takeArrival q g b s).port = s.port := by unfold takeArrival; split <;> simp

/-! payCharge -/
@[simp] theorem payCharge_pending (t : TenantId) (n : Nat) (s : State) : (payCharge t n s).pending = s.pending := by unfold payCharge; split <;> simp
@[simp] theorem payCharge_links (t : TenantId) (n : Nat) (s : State) : (payCharge t n s).links = s.links := by unfold payCharge; split <;> simp
@[simp] theorem payCharge_classifier (t : TenantId) (n : Nat) (s : State) : (payCharge t n s).classifier = s.classifier := by unfold payCharge; split <;> simp
@[simp] theorem payCharge_admission (t : TenantId) (n : Nat) (s : State) : (payCharge t n s).admission = s.admission := by unfold payCharge; split <;> simp
@[simp] theorem payCharge_timer (t : TenantId) (n : Nat) (s : State) : (payCharge t n s).timer = s.timer := by unfold payCharge; split <;> simp
@[simp] theorem payCharge_solver (t : TenantId) (n : Nat) (s : State) : (payCharge t n s).solver = s.solver := by unfold payCharge; split <;> simp
@[simp] theorem payCharge_arbiter (t : TenantId) (n : Nat) (s : State) : (payCharge t n s).arbiter = s.arbiter := by unfold payCharge; split <;> simp
@[simp] theorem payCharge_paths (t : TenantId) (n : Nat) (s : State) : (payCharge t n s).paths = s.paths := by unfold payCharge; split <;> simp
@[simp] theorem payCharge_records (t : TenantId) (n : Nat) (s : State) : (payCharge t n s).records = s.records := by unfold payCharge; split <;> simp
@[simp] theorem payCharge_pairHalt (t : TenantId) (n : Nat) (s : State) : (payCharge t n s).pairHalt = s.pairHalt := by unfold payCharge; split <;> simp
@[simp] theorem payCharge_control (t : TenantId) (n : Nat) (s : State) : (payCharge t n s).control = s.control := by unfold payCharge; split <;> simp
@[simp] theorem payCharge_observe (t : TenantId) (n : Nat) (s : State) : (payCharge t n s).observe = s.observe := by unfold payCharge; split <;> simp
@[simp] theorem payCharge_port (t : TenantId) (n : Nat) (s : State) : (payCharge t n s).port = s.port := by unfold payCharge; split <;> simp
@[simp] theorem payCharge_wires (t : TenantId) (n : Nat) (s : State) : (payCharge t n s).wires = s.wires := by unfold payCharge; split <;> simp

/-! payRelease -/
@[simp] theorem payRelease_pending (c : Candidate) (s : State) : (payRelease c s).pending = s.pending := by unfold payRelease; simp only [changeCredit_pending]; split <;> simp
@[simp] theorem payRelease_links (c : Candidate) (s : State) : (payRelease c s).links = s.links := by unfold payRelease; simp only [changeCredit_links]; split <;> simp
@[simp] theorem payRelease_classifier (c : Candidate) (s : State) : (payRelease c s).classifier = s.classifier := by unfold payRelease; simp only [changeCredit_classifier]; split <;> simp
@[simp] theorem payRelease_admission (c : Candidate) (s : State) : (payRelease c s).admission = s.admission := by unfold payRelease; simp only [changeCredit_admission]; split <;> simp
@[simp] theorem payRelease_timer (c : Candidate) (s : State) : (payRelease c s).timer = s.timer := by unfold payRelease; simp only [changeCredit_timer]; split <;> simp
@[simp] theorem payRelease_solver (c : Candidate) (s : State) : (payRelease c s).solver = s.solver := by unfold payRelease; simp only [changeCredit_solver]; split <;> simp
@[simp] theorem payRelease_arbiter (c : Candidate) (s : State) : (payRelease c s).arbiter = s.arbiter := by unfold payRelease; simp only [changeCredit_arbiter]; split <;> simp
@[simp] theorem payRelease_paths (c : Candidate) (s : State) : (payRelease c s).paths = s.paths := by unfold payRelease; simp only [changeCredit_paths]; split <;> simp
@[simp] theorem payRelease_records (c : Candidate) (s : State) : (payRelease c s).records = s.records := by unfold payRelease; simp only [changeCredit_records]; split <;> simp
@[simp] theorem payRelease_pairHalt (c : Candidate) (s : State) : (payRelease c s).pairHalt = s.pairHalt := by unfold payRelease; simp only [changeCredit_pairHalt]; split <;> simp
@[simp] theorem payRelease_control (c : Candidate) (s : State) : (payRelease c s).control = s.control := by unfold payRelease; simp only [changeCredit_control]; split <;> simp
@[simp] theorem payRelease_observe (c : Candidate) (s : State) : (payRelease c s).observe = s.observe := by unfold payRelease; simp only [changeCredit_observe]; split <;> simp
@[simp] theorem payRelease_port (c : Candidate) (s : State) : (payRelease c s).port = s.port := by unfold payRelease; simp only [changeCredit_port]; split <;> simp
@[simp] theorem payRelease_wires (c : Candidate) (s : State) : (payRelease c s).wires = s.wires := by unfold payRelease; simp only [changeCredit_wires]; split <;> simp

/-! movePointer -/
@[simp] theorem movePointer_pending (c : Candidate) (k : ReleaseClass) (s : State) : (movePointer c k s).pending = s.pending := by cases k <;> rfl
@[simp] theorem movePointer_links (c : Candidate) (k : ReleaseClass) (s : State) : (movePointer c k s).links = s.links := by cases k <;> rfl
@[simp] theorem movePointer_classifier (c : Candidate) (k : ReleaseClass) (s : State) : (movePointer c k s).classifier = s.classifier := by cases k <;> rfl
@[simp] theorem movePointer_admission (c : Candidate) (k : ReleaseClass) (s : State) : (movePointer c k s).admission = s.admission := by cases k <;> rfl
@[simp] theorem movePointer_timer (c : Candidate) (k : ReleaseClass) (s : State) : (movePointer c k s).timer = s.timer := by cases k <;> rfl
@[simp] theorem movePointer_solver (c : Candidate) (k : ReleaseClass) (s : State) : (movePointer c k s).solver = s.solver := by cases k <;> rfl
@[simp] theorem movePointer_credit (c : Candidate) (k : ReleaseClass) (s : State) : (movePointer c k s).credit = s.credit := by cases k <;> rfl
@[simp] theorem movePointer_paths (c : Candidate) (k : ReleaseClass) (s : State) : (movePointer c k s).paths = s.paths := by cases k <;> rfl
@[simp] theorem movePointer_records (c : Candidate) (k : ReleaseClass) (s : State) : (movePointer c k s).records = s.records := by cases k <;> rfl
@[simp] theorem movePointer_pairHalt (c : Candidate) (k : ReleaseClass) (s : State) : (movePointer c k s).pairHalt = s.pairHalt := by cases k <;> rfl
@[simp] theorem movePointer_control (c : Candidate) (k : ReleaseClass) (s : State) : (movePointer c k s).control = s.control := by cases k <;> rfl
@[simp] theorem movePointer_observe (c : Candidate) (k : ReleaseClass) (s : State) : (movePointer c k s).observe = s.observe := by cases k <;> rfl
@[simp] theorem movePointer_port (c : Candidate) (k : ReleaseClass) (s : State) : (movePointer c k s).port = s.port := by cases k <;> rfl
@[simp] theorem movePointer_wires (c : Candidate) (k : ReleaseClass) (s : State) : (movePointer c k s).wires = s.wires := by cases k <;> rfl

/-! recordRelease -/
@[simp] theorem recordRelease_pending (c : Candidate) (n : Nat) (s : State) : (recordRelease c n s).pending = s.pending := by simp [recordRelease]
@[simp] theorem recordRelease_links (c : Candidate) (n : Nat) (s : State) : (recordRelease c n s).links = s.links := by simp [recordRelease]
@[simp] theorem recordRelease_classifier (c : Candidate) (n : Nat) (s : State) : (recordRelease c n s).classifier = s.classifier := by simp [recordRelease]
@[simp] theorem recordRelease_timer (c : Candidate) (n : Nat) (s : State) : (recordRelease c n s).timer = s.timer := by simp [recordRelease]
@[simp] theorem recordRelease_solver (c : Candidate) (n : Nat) (s : State) : (recordRelease c n s).solver = s.solver := by simp [recordRelease]
@[simp] theorem recordRelease_credit (c : Candidate) (n : Nat) (s : State) : (recordRelease c n s).credit = s.credit := by simp [recordRelease]
@[simp] theorem recordRelease_arbiter (c : Candidate) (n : Nat) (s : State) : (recordRelease c n s).arbiter = s.arbiter := by simp [recordRelease]
@[simp] theorem recordRelease_records (c : Candidate) (n : Nat) (s : State) : (recordRelease c n s).records = s.records := by simp [recordRelease]
@[simp] theorem recordRelease_pairHalt (c : Candidate) (n : Nat) (s : State) : (recordRelease c n s).pairHalt = s.pairHalt := by simp [recordRelease]
@[simp] theorem recordRelease_control (c : Candidate) (n : Nat) (s : State) : (recordRelease c n s).control = s.control := by simp [recordRelease]
@[simp] theorem recordRelease_observe (c : Candidate) (n : Nat) (s : State) : (recordRelease c n s).observe = s.observe := by simp [recordRelease]
@[simp] theorem recordRelease_port (c : Candidate) (n : Nat) (s : State) : (recordRelease c n s).port = s.port := by simp [recordRelease]
@[simp] theorem recordRelease_wires (c : Candidate) (n : Nat) (s : State) : (recordRelease c n s).wires = s.wires := by simp [recordRelease]

/-! beginSend -/
@[simp] theorem beginSend_pending (c : Candidate) (n : Nat) (s : State) : (beginSend c n s).pending = s.pending := rfl
@[simp] theorem beginSend_links (c : Candidate) (n : Nat) (s : State) : (beginSend c n s).links = s.links := rfl
@[simp] theorem beginSend_classifier (c : Candidate) (n : Nat) (s : State) : (beginSend c n s).classifier = s.classifier := rfl
@[simp] theorem beginSend_admission (c : Candidate) (n : Nat) (s : State) : (beginSend c n s).admission = s.admission := rfl
@[simp] theorem beginSend_timer (c : Candidate) (n : Nat) (s : State) : (beginSend c n s).timer = s.timer := rfl
@[simp] theorem beginSend_solver (c : Candidate) (n : Nat) (s : State) : (beginSend c n s).solver = s.solver := rfl
@[simp] theorem beginSend_credit (c : Candidate) (n : Nat) (s : State) : (beginSend c n s).credit = s.credit := rfl
@[simp] theorem beginSend_paths (c : Candidate) (n : Nat) (s : State) : (beginSend c n s).paths = s.paths := rfl
@[simp] theorem beginSend_records (c : Candidate) (n : Nat) (s : State) : (beginSend c n s).records = s.records := rfl
@[simp] theorem beginSend_pairHalt (c : Candidate) (n : Nat) (s : State) : (beginSend c n s).pairHalt = s.pairHalt := rfl
@[simp] theorem beginSend_control (c : Candidate) (n : Nat) (s : State) : (beginSend c n s).control = s.control := rfl
@[simp] theorem beginSend_observe (c : Candidate) (n : Nat) (s : State) : (beginSend c n s).observe = s.observe := rfl
@[simp] theorem beginSend_port (c : Candidate) (n : Nat) (s : State) : (beginSend c n s).port = s.port := rfl
@[simp] theorem beginSend_wires (c : Candidate) (n : Nat) (s : State) : (beginSend c n s).wires = s.wires := rfl

/-! release -/
@[simp] theorem release_pending (c : Candidate) (k : ReleaseClass) (n : Nat) (s : State) : (release c k n s).pending = s.pending := by simp [release]
@[simp] theorem release_links (c : Candidate) (k : ReleaseClass) (n : Nat) (s : State) : (release c k n s).links = s.links := by simp [release]
@[simp] theorem release_classifier (c : Candidate) (k : ReleaseClass) (n : Nat) (s : State) : (release c k n s).classifier = s.classifier := by simp [release]
@[simp] theorem release_timer (c : Candidate) (k : ReleaseClass) (n : Nat) (s : State) : (release c k n s).timer = s.timer := by simp [release]
@[simp] theorem release_solver (c : Candidate) (k : ReleaseClass) (n : Nat) (s : State) : (release c k n s).solver = s.solver := by simp [release]
@[simp] theorem release_records (c : Candidate) (k : ReleaseClass) (n : Nat) (s : State) : (release c k n s).records = s.records := by simp [release]
@[simp] theorem release_pairHalt (c : Candidate) (k : ReleaseClass) (n : Nat) (s : State) : (release c k n s).pairHalt = s.pairHalt := by simp [release]
@[simp] theorem release_control (c : Candidate) (k : ReleaseClass) (n : Nat) (s : State) : (release c k n s).control = s.control := by simp [release]
@[simp] theorem release_port (c : Candidate) (k : ReleaseClass) (n : Nat) (s : State) : (release c k n s).port = s.port := by simp [release]
@[simp] theorem release_wires (c : Candidate) (k : ReleaseClass) (n : Nat) (s : State) : (release c k n s).wires = s.wires := by simp [release]

/-! takeGrant -/
@[simp] theorem takeGrant_pending (s : State) : (takeGrant s).pending = s.pending := by
  unfold takeGrant
  split; · split <;> simp
  · rfl
@[simp] theorem takeGrant_links (s : State) : (takeGrant s).links = s.links := by
  unfold takeGrant
  split; · split <;> simp
  · rfl
@[simp] theorem takeGrant_classifier (s : State) : (takeGrant s).classifier = s.classifier := by
  unfold takeGrant
  split; · split <;> simp
  · rfl
@[simp] theorem takeGrant_timer (s : State) : (takeGrant s).timer = s.timer := by
  unfold takeGrant
  split; · split <;> simp
  · rfl
@[simp] theorem takeGrant_solver (s : State) : (takeGrant s).solver = s.solver := by
  unfold takeGrant
  split; · split <;> simp
  · rfl
@[simp] theorem takeGrant_records (s : State) : (takeGrant s).records = s.records := by
  unfold takeGrant
  split; · split <;> simp
  · rfl
@[simp] theorem takeGrant_pairHalt (s : State) : (takeGrant s).pairHalt = s.pairHalt := by
  unfold takeGrant
  split; · split <;> simp
  · rfl
@[simp] theorem takeGrant_control (s : State) : (takeGrant s).control = s.control := by
  unfold takeGrant
  split; · split <;> simp
  · rfl
@[simp] theorem takeGrant_port (s : State) : (takeGrant s).port = s.port := by
  unfold takeGrant
  split; · split <;> simp
  · rfl
@[simp] theorem takeGrant_wires (s : State) : (takeGrant s).wires = s.wires := by
  unfold takeGrant
  split; · split <;> simp
  · rfl

/-! endSend -/
@[simp] theorem endSend_pending (s : State) : (endSend s).pending = s.pending := by unfold endSend; split <;> simp
@[simp] theorem endSend_links (s : State) : (endSend s).links = s.links := by unfold endSend; split <;> simp
@[simp] theorem endSend_classifier (s : State) : (endSend s).classifier = s.classifier := by unfold endSend; split <;> simp
@[simp] theorem endSend_timer (s : State) : (endSend s).timer = s.timer := by unfold endSend; split <;> simp
@[simp] theorem endSend_solver (s : State) : (endSend s).solver = s.solver := by unfold endSend; split <;> simp
@[simp] theorem endSend_credit (s : State) : (endSend s).credit = s.credit := by unfold endSend; split <;> simp
@[simp] theorem endSend_paths (s : State) : (endSend s).paths = s.paths := by unfold endSend; split <;> simp
@[simp] theorem endSend_records (s : State) : (endSend s).records = s.records := by unfold endSend; split <;> simp
@[simp] theorem endSend_pairHalt (s : State) : (endSend s).pairHalt = s.pairHalt := by unfold endSend; split <;> simp
@[simp] theorem endSend_control (s : State) : (endSend s).control = s.control := by unfold endSend; split <;> simp
@[simp] theorem endSend_observe (s : State) : (endSend s).observe = s.observe := by unfold endSend; split <;> simp
@[simp] theorem endSend_port (s : State) : (endSend s).port = s.port := by unfold endSend; split <;> simp

/-! takeResponse -/
@[simp] theorem takeResponse_pending (g : Byte) (k : ResponseKind) (x : PoolStatus) (l : List Byte) (s : State) : (takeResponse g k x l s).pending = s.pending := by
  unfold takeResponse
  split
  · split; · simp
    · split <;> simp
  · rfl
@[simp] theorem takeResponse_links (g : Byte) (k : ResponseKind) (x : PoolStatus) (l : List Byte) (s : State) : (takeResponse g k x l s).links = s.links := by
  unfold takeResponse
  split
  · split; · simp
    · split <;> simp
  · rfl
@[simp] theorem takeResponse_classifier (g : Byte) (k : ResponseKind) (x : PoolStatus) (l : List Byte) (s : State) : (takeResponse g k x l s).classifier = s.classifier := by
  unfold takeResponse
  split
  · split; · simp
    · split <;> simp
  · rfl
@[simp] theorem takeResponse_timer (g : Byte) (k : ResponseKind) (x : PoolStatus) (l : List Byte) (s : State) : (takeResponse g k x l s).timer = s.timer := by
  unfold takeResponse
  split
  · split; · simp
    · split <;> simp
  · rfl
@[simp] theorem takeResponse_solver (g : Byte) (k : ResponseKind) (x : PoolStatus) (l : List Byte) (s : State) : (takeResponse g k x l s).solver = s.solver := by
  unfold takeResponse
  split
  · split; · simp
    · split <;> simp
  · rfl
@[simp] theorem takeResponse_credit (g : Byte) (k : ResponseKind) (x : PoolStatus) (l : List Byte) (s : State) : (takeResponse g k x l s).credit = s.credit := by
  unfold takeResponse
  split
  · split; · simp
    · split <;> simp
  · rfl
@[simp] theorem takeResponse_arbiter (g : Byte) (k : ResponseKind) (x : PoolStatus) (l : List Byte) (s : State) : (takeResponse g k x l s).arbiter = s.arbiter := by
  unfold takeResponse
  split
  · split; · simp
    · split <;> simp
  · rfl
@[simp] theorem takeResponse_control (g : Byte) (k : ResponseKind) (x : PoolStatus) (l : List Byte) (s : State) : (takeResponse g k x l s).control = s.control := by
  unfold takeResponse
  split
  · split; · simp
    · split <;> simp
  · rfl
@[simp] theorem takeResponse_port (g : Byte) (k : ResponseKind) (x : PoolStatus) (l : List Byte) (s : State) : (takeResponse g k x l s).port = s.port := by
  unfold takeResponse
  split
  · split; · simp
    · split <;> simp
  · rfl

/-! ### Frames -/

/-! openFrame -/
@[simp] theorem openFrame_pending (s : State) : (openFrame s).pending = s.pending := rfl
@[simp] theorem openFrame_links (s : State) : (openFrame s).links = s.links := rfl
@[simp] theorem openFrame_classifier (s : State) : (openFrame s).classifier = s.classifier := rfl
@[simp] theorem openFrame_admission (s : State) : (openFrame s).admission = s.admission := rfl
@[simp] theorem openFrame_credit (s : State) : (openFrame s).credit = s.credit := rfl
@[simp] theorem openFrame_arbiter (s : State) : (openFrame s).arbiter = s.arbiter := rfl
@[simp] theorem openFrame_paths (s : State) : (openFrame s).paths = s.paths := rfl
@[simp] theorem openFrame_records (s : State) : (openFrame s).records = s.records := rfl
@[simp] theorem openFrame_pairHalt (s : State) : (openFrame s).pairHalt = s.pairHalt := rfl
@[simp] theorem openFrame_control (s : State) : (openFrame s).control = s.control := rfl
@[simp] theorem openFrame_observe (s : State) : (openFrame s).observe = s.observe := rfl
@[simp] theorem openFrame_port (s : State) : (openFrame s).port = s.port := rfl
@[simp] theorem openFrame_wires (s : State) : (openFrame s).wires = s.wires := rfl
@[simp] theorem openFrame_timer (s : State) : (openFrame s).timer = { s.timer with
    number := s.timer.number + 1, frameLength := s.timer.fp, frameLend := s.timer.lp, phase := 0, startDue := false } := rfl
@[simp] theorem openFrame_solver (s : State) : (openFrame s).solver = { s.solver with solving := false } := rfl

/-! ageBoundary -/
@[simp] theorem ageBoundary_pending (s : State) : (ageBoundary s).pending = s.pending := rfl
@[simp] theorem ageBoundary_links (s : State) : (ageBoundary s).links = s.links := rfl
@[simp] theorem ageBoundary_classifier (s : State) : (ageBoundary s).classifier = s.classifier := rfl
@[simp] theorem ageBoundary_timer (s : State) : (ageBoundary s).timer = s.timer := rfl
@[simp] theorem ageBoundary_solver (s : State) : (ageBoundary s).solver = s.solver := rfl
@[simp] theorem ageBoundary_credit (s : State) : (ageBoundary s).credit = s.credit := rfl
@[simp] theorem ageBoundary_arbiter (s : State) : (ageBoundary s).arbiter = s.arbiter := rfl
@[simp] theorem ageBoundary_paths (s : State) : (ageBoundary s).paths = s.paths := rfl
@[simp] theorem ageBoundary_records (s : State) : (ageBoundary s).records = s.records := rfl
@[simp] theorem ageBoundary_pairHalt (s : State) : (ageBoundary s).pairHalt = s.pairHalt := rfl
@[simp] theorem ageBoundary_control (s : State) : (ageBoundary s).control = s.control := rfl
@[simp] theorem ageBoundary_port (s : State) : (ageBoundary s).port = s.port := rfl
@[simp] theorem ageBoundary_wires (s : State) : (ageBoundary s).wires = s.wires := rfl

/-! strikeBoundary -/
@[simp] theorem strikeBoundary_pending (s : State) : (strikeBoundary s).pending = s.pending := by unfold strikeBoundary; simp only; split <;> simp
@[simp] theorem strikeBoundary_links (s : State) : (strikeBoundary s).links = s.links := by unfold strikeBoundary; simp only; split <;> simp
@[simp] theorem strikeBoundary_classifier (s : State) : (strikeBoundary s).classifier = s.classifier := by unfold strikeBoundary; simp only; split <;> simp
@[simp] theorem strikeBoundary_timer (s : State) : (strikeBoundary s).timer = s.timer := by unfold strikeBoundary; simp only; split <;> simp
@[simp] theorem strikeBoundary_solver (s : State) : (strikeBoundary s).solver = s.solver := by unfold strikeBoundary; simp only; split <;> simp
@[simp] theorem strikeBoundary_credit (s : State) : (strikeBoundary s).credit = s.credit := by unfold strikeBoundary; simp only; split <;> simp
@[simp] theorem strikeBoundary_arbiter (s : State) : (strikeBoundary s).arbiter = s.arbiter := by unfold strikeBoundary; simp only; split <;> simp
@[simp] theorem strikeBoundary_paths (s : State) : (strikeBoundary s).paths = s.paths := by unfold strikeBoundary; simp only; split <;> simp
@[simp] theorem strikeBoundary_pairHalt (s : State) : (strikeBoundary s).pairHalt = s.pairHalt := by unfold strikeBoundary; simp only; split <;> simp
@[simp] theorem strikeBoundary_control (s : State) : (strikeBoundary s).control = s.control := by unfold strikeBoundary; simp only; split <;> simp
@[simp] theorem strikeBoundary_port (s : State) : (strikeBoundary s).port = s.port := by unfold strikeBoundary; simp only; split <;> simp
@[simp] theorem strikeBoundary_wires (s : State) : (strikeBoundary s).wires = s.wires := by unfold strikeBoundary; simp only; split <;> simp

/-! drainsBoundary -/
@[simp] theorem drainsBoundary_pending (s : State) : (drainsBoundary s).pending = s.pending := foldl_keeps _ State.pending (fun s t => drainAtBoundary_pending s t) _ s
@[simp] theorem drainsBoundary_links (s : State) : (drainsBoundary s).links = s.links := foldl_keeps _ State.links (fun s t => drainAtBoundary_links s t) _ s
@[simp] theorem drainsBoundary_classifier (s : State) : (drainsBoundary s).classifier = s.classifier := foldl_keeps _ State.classifier (fun s t => drainAtBoundary_classifier s t) _ s
@[simp] theorem drainsBoundary_timer (s : State) : (drainsBoundary s).timer = s.timer := foldl_keeps _ State.timer (fun s t => drainAtBoundary_timer s t) _ s
@[simp] theorem drainsBoundary_solver (s : State) : (drainsBoundary s).solver = s.solver := foldl_keeps _ State.solver (fun s t => drainAtBoundary_solver s t) _ s
@[simp] theorem drainsBoundary_credit (s : State) : (drainsBoundary s).credit = s.credit := foldl_keeps _ State.credit (fun s t => drainAtBoundary_credit s t) _ s
@[simp] theorem drainsBoundary_arbiter (s : State) : (drainsBoundary s).arbiter = s.arbiter := foldl_keeps _ State.arbiter (fun s t => drainAtBoundary_arbiter s t) _ s
@[simp] theorem drainsBoundary_pairHalt (s : State) : (drainsBoundary s).pairHalt = s.pairHalt := foldl_keeps _ State.pairHalt (fun s t => drainAtBoundary_pairHalt s t) _ s
@[simp] theorem drainsBoundary_control (s : State) : (drainsBoundary s).control = s.control := foldl_keeps _ State.control (fun s t => drainAtBoundary_control s t) _ s
@[simp] theorem drainsBoundary_port (s : State) : (drainsBoundary s).port = s.port := foldl_keeps _ State.port (fun s t => drainAtBoundary_port s t) _ s

/-! guardsBoundary -/
@[simp] theorem guardsBoundary_pending (s : State) : (guardsBoundary s).pending = s.pending := by simp [guardsBoundary]
@[simp] theorem guardsBoundary_links (s : State) : (guardsBoundary s).links = s.links := by simp [guardsBoundary]
@[simp] theorem guardsBoundary_classifier (s : State) : (guardsBoundary s).classifier = s.classifier := by simp [guardsBoundary]
@[simp] theorem guardsBoundary_admission (s : State) : (guardsBoundary s).admission = s.admission := by simp [guardsBoundary]
@[simp] theorem guardsBoundary_timer (s : State) : (guardsBoundary s).timer = s.timer := by simp [guardsBoundary]
@[simp] theorem guardsBoundary_solver (s : State) : (guardsBoundary s).solver = s.solver := by simp [guardsBoundary]
@[simp] theorem guardsBoundary_credit (s : State) : (guardsBoundary s).credit = s.credit := by simp [guardsBoundary]
@[simp] theorem guardsBoundary_arbiter (s : State) : (guardsBoundary s).arbiter = s.arbiter := by simp [guardsBoundary]
@[simp] theorem guardsBoundary_paths (s : State) : (guardsBoundary s).paths = s.paths := by simp [guardsBoundary]
@[simp] theorem guardsBoundary_records (s : State) : (guardsBoundary s).records = s.records := by simp [guardsBoundary]
@[simp] theorem guardsBoundary_control (s : State) : (guardsBoundary s).control = s.control := by simp [guardsBoundary]
@[simp] theorem guardsBoundary_observe (s : State) : (guardsBoundary s).observe = s.observe := by simp [guardsBoundary]
@[simp] theorem guardsBoundary_port (s : State) : (guardsBoundary s).port = s.port := by simp [guardsBoundary]
@[simp] theorem guardsBoundary_wires (s : State) : (guardsBoundary s).wires = s.wires := by simp [guardsBoundary]

/-! modeBoundary -/
@[simp] theorem modeBoundary_pending (s : State) : (modeBoundary s).pending = s.pending := by unfold modeBoundary; split <;> rfl
@[simp] theorem modeBoundary_links (s : State) : (modeBoundary s).links = s.links := by unfold modeBoundary; split <;> rfl
@[simp] theorem modeBoundary_classifier (s : State) : (modeBoundary s).classifier = s.classifier := by unfold modeBoundary; split <;> rfl
@[simp] theorem modeBoundary_admission (s : State) : (modeBoundary s).admission = s.admission := by unfold modeBoundary; split <;> rfl
@[simp] theorem modeBoundary_timer (s : State) : (modeBoundary s).timer = s.timer := by unfold modeBoundary; split <;> rfl
@[simp] theorem modeBoundary_solver (s : State) : (modeBoundary s).solver = s.solver := by unfold modeBoundary; split <;> rfl
@[simp] theorem modeBoundary_credit (s : State) : (modeBoundary s).credit = s.credit := by unfold modeBoundary; split <;> rfl
@[simp] theorem modeBoundary_arbiter (s : State) : (modeBoundary s).arbiter = s.arbiter := by unfold modeBoundary; split <;> rfl
@[simp] theorem modeBoundary_paths (s : State) : (modeBoundary s).paths = s.paths := by unfold modeBoundary; split <;> rfl
@[simp] theorem modeBoundary_records (s : State) : (modeBoundary s).records = s.records := by unfold modeBoundary; split <;> rfl
@[simp] theorem modeBoundary_pairHalt (s : State) : (modeBoundary s).pairHalt = s.pairHalt := by unfold modeBoundary; split <;> rfl
@[simp] theorem modeBoundary_observe (s : State) : (modeBoundary s).observe = s.observe := by unfold modeBoundary; split <;> rfl
@[simp] theorem modeBoundary_port (s : State) : (modeBoundary s).port = s.port := by unfold modeBoundary; split <;> rfl
@[simp] theorem modeBoundary_wires (s : State) : (modeBoundary s).wires = s.wires := by unfold modeBoundary; split <;> rfl

/-! takeSnapshot -/
@[simp] theorem takeSnapshot_pending (s : State) : (takeSnapshot s).pending = s.pending := rfl
@[simp] theorem takeSnapshot_links (s : State) : (takeSnapshot s).links = s.links := rfl
@[simp] theorem takeSnapshot_classifier (s : State) : (takeSnapshot s).classifier = s.classifier := rfl
@[simp] theorem takeSnapshot_admission (s : State) : (takeSnapshot s).admission = s.admission := rfl
@[simp] theorem takeSnapshot_timer (s : State) : (takeSnapshot s).timer = s.timer := rfl
@[simp] theorem takeSnapshot_credit (s : State) : (takeSnapshot s).credit = s.credit := rfl
@[simp] theorem takeSnapshot_arbiter (s : State) : (takeSnapshot s).arbiter = s.arbiter := rfl
@[simp] theorem takeSnapshot_paths (s : State) : (takeSnapshot s).paths = s.paths := rfl
@[simp] theorem takeSnapshot_records (s : State) : (takeSnapshot s).records = s.records := rfl
@[simp] theorem takeSnapshot_pairHalt (s : State) : (takeSnapshot s).pairHalt = s.pairHalt := rfl
@[simp] theorem takeSnapshot_control (s : State) : (takeSnapshot s).control = s.control := rfl
@[simp] theorem takeSnapshot_observe (s : State) : (takeSnapshot s).observe = s.observe := rfl
@[simp] theorem takeSnapshot_port (s : State) : (takeSnapshot s).port = s.port := rfl
@[simp] theorem takeSnapshot_wires (s : State) : (takeSnapshot s).wires = s.wires := rfl

/-! loadCredit -/
@[simp] theorem loadCredit_pending (k : LoadKind) (s : State) : (loadCredit k s).pending = s.pending := rfl
@[simp] theorem loadCredit_links (k : LoadKind) (s : State) : (loadCredit k s).links = s.links := rfl
@[simp] theorem loadCredit_classifier (k : LoadKind) (s : State) : (loadCredit k s).classifier = s.classifier := rfl
@[simp] theorem loadCredit_admission (k : LoadKind) (s : State) : (loadCredit k s).admission = s.admission := rfl
@[simp] theorem loadCredit_timer (k : LoadKind) (s : State) : (loadCredit k s).timer = s.timer := rfl
@[simp] theorem loadCredit_arbiter (k : LoadKind) (s : State) : (loadCredit k s).arbiter = s.arbiter := rfl
@[simp] theorem loadCredit_paths (k : LoadKind) (s : State) : (loadCredit k s).paths = s.paths := rfl
@[simp] theorem loadCredit_records (k : LoadKind) (s : State) : (loadCredit k s).records = s.records := rfl
@[simp] theorem loadCredit_pairHalt (k : LoadKind) (s : State) : (loadCredit k s).pairHalt = s.pairHalt := rfl
@[simp] theorem loadCredit_control (k : LoadKind) (s : State) : (loadCredit k s).control = s.control := rfl
@[simp] theorem loadCredit_observe (k : LoadKind) (s : State) : (loadCredit k s).observe = s.observe := rfl
@[simp] theorem loadCredit_port (k : LoadKind) (s : State) : (loadCredit k s).port = s.port := rfl
@[simp] theorem loadCredit_wires (k : LoadKind) (s : State) : (loadCredit k s).wires = s.wires := rfl

/-! noteStale -/
@[simp] theorem noteStale_pending (s : State) : (noteStale s).pending = s.pending := by simp [noteStale]
@[simp] theorem noteStale_links (s : State) : (noteStale s).links = s.links := by simp [noteStale]
@[simp] theorem noteStale_classifier (s : State) : (noteStale s).classifier = s.classifier := by simp [noteStale]
@[simp] theorem noteStale_admission (s : State) : (noteStale s).admission = s.admission := by simp [noteStale]
@[simp] theorem noteStale_timer (s : State) : (noteStale s).timer = s.timer := by simp [noteStale]
@[simp] theorem noteStale_solver (s : State) : (noteStale s).solver = s.solver := by simp [noteStale]
@[simp] theorem noteStale_credit (s : State) : (noteStale s).credit = s.credit := by simp [noteStale]
@[simp] theorem noteStale_arbiter (s : State) : (noteStale s).arbiter = s.arbiter := by simp [noteStale]
@[simp] theorem noteStale_paths (s : State) : (noteStale s).paths = s.paths := by simp [noteStale]
@[simp] theorem noteStale_records (s : State) : (noteStale s).records = s.records := by simp [noteStale]
@[simp] theorem noteStale_pairHalt (s : State) : (noteStale s).pairHalt = s.pairHalt := by simp [noteStale]
@[simp] theorem noteStale_control (s : State) : (noteStale s).control = s.control := by simp [noteStale]
@[simp] theorem noteStale_port (s : State) : (noteStale s).port = s.port := by simp [noteStale]
@[simp] theorem noteStale_wires (s : State) : (noteStale s).wires = s.wires := by simp [noteStale]

/-! renewPauseMarks -/
@[simp] theorem renewPauseMarks_pending (s : State) : (renewPauseMarks s).pending = s.pending := rfl
@[simp] theorem renewPauseMarks_links (s : State) : (renewPauseMarks s).links = s.links := rfl
@[simp] theorem renewPauseMarks_classifier (s : State) : (renewPauseMarks s).classifier = s.classifier := rfl
@[simp] theorem renewPauseMarks_admission (s : State) : (renewPauseMarks s).admission = s.admission := rfl
@[simp] theorem renewPauseMarks_timer (s : State) : (renewPauseMarks s).timer = s.timer := rfl
@[simp] theorem renewPauseMarks_solver (s : State) : (renewPauseMarks s).solver = s.solver := rfl
@[simp] theorem renewPauseMarks_credit (s : State) : (renewPauseMarks s).credit = s.credit := rfl
@[simp] theorem renewPauseMarks_arbiter (s : State) : (renewPauseMarks s).arbiter = s.arbiter := rfl
@[simp] theorem renewPauseMarks_paths (s : State) : (renewPauseMarks s).paths = s.paths := rfl
@[simp] theorem renewPauseMarks_pairHalt (s : State) : (renewPauseMarks s).pairHalt = s.pairHalt := rfl
@[simp] theorem renewPauseMarks_control (s : State) : (renewPauseMarks s).control = s.control := rfl
@[simp] theorem renewPauseMarks_observe (s : State) : (renewPauseMarks s).observe = s.observe := rfl
@[simp] theorem renewPauseMarks_port (s : State) : (renewPauseMarks s).port = s.port := rfl
@[simp] theorem renewPauseMarks_wires (s : State) : (renewPauseMarks s).wires = s.wires := rfl

/-! loadBoundary -/
@[simp] theorem loadBoundary_pending (k : LoadKind) (s : State) : (loadBoundary k s).pending = s.pending := by unfold loadBoundary; split <;> simp
@[simp] theorem loadBoundary_links (k : LoadKind) (s : State) : (loadBoundary k s).links = s.links := by unfold loadBoundary; split <;> simp
@[simp] theorem loadBoundary_classifier (k : LoadKind) (s : State) : (loadBoundary k s).classifier = s.classifier := by unfold loadBoundary; split <;> simp
@[simp] theorem loadBoundary_admission (k : LoadKind) (s : State) : (loadBoundary k s).admission = s.admission := by unfold loadBoundary; split <;> simp
@[simp] theorem loadBoundary_timer (k : LoadKind) (s : State) : (loadBoundary k s).timer = s.timer := by unfold loadBoundary; split <;> simp
@[simp] theorem loadBoundary_arbiter (k : LoadKind) (s : State) : (loadBoundary k s).arbiter = s.arbiter := by unfold loadBoundary; split <;> simp
@[simp] theorem loadBoundary_paths (k : LoadKind) (s : State) : (loadBoundary k s).paths = s.paths := by unfold loadBoundary; split <;> simp
@[simp] theorem loadBoundary_records (k : LoadKind) (s : State) : (loadBoundary k s).records = s.records := by unfold loadBoundary; split <;> simp
@[simp] theorem loadBoundary_pairHalt (k : LoadKind) (s : State) : (loadBoundary k s).pairHalt = s.pairHalt := by unfold loadBoundary; split <;> simp
@[simp] theorem loadBoundary_control (k : LoadKind) (s : State) : (loadBoundary k s).control = s.control := by unfold loadBoundary; split <;> simp
@[simp] theorem loadBoundary_port (k : LoadKind) (s : State) : (loadBoundary k s).port = s.port := by unfold loadBoundary; split <;> simp
@[simp] theorem loadBoundary_wires (k : LoadKind) (s : State) : (loadBoundary k s).wires = s.wires := by unfold loadBoundary; split <;> simp

/-! beforeSnapshot -/
@[simp] theorem beforeSnapshot_pending (s : State) : (beforeSnapshot s).pending = s.pending := by simp [beforeSnapshot]
@[simp] theorem beforeSnapshot_links (s : State) : (beforeSnapshot s).links = s.links := by simp [beforeSnapshot]
@[simp] theorem beforeSnapshot_classifier (s : State) : (beforeSnapshot s).classifier = s.classifier := by simp [beforeSnapshot]
@[simp] theorem beforeSnapshot_credit (s : State) : (beforeSnapshot s).credit = s.credit := by simp [beforeSnapshot]
@[simp] theorem beforeSnapshot_arbiter (s : State) : (beforeSnapshot s).arbiter = s.arbiter := by simp [beforeSnapshot]
@[simp] theorem beforeSnapshot_port (s : State) : (beforeSnapshot s).port = s.port := by simp [beforeSnapshot]

/-! frameBoundary -/
@[simp] theorem frameBoundary_pending (s : State) : (frameBoundary s).pending = s.pending := by simp [frameBoundary]
@[simp] theorem frameBoundary_links (s : State) : (frameBoundary s).links = s.links := by simp [frameBoundary]
@[simp] theorem frameBoundary_classifier (s : State) : (frameBoundary s).classifier = s.classifier := by simp [frameBoundary]
@[simp] theorem frameBoundary_arbiter (s : State) : (frameBoundary s).arbiter = s.arbiter := by simp [frameBoundary]
@[simp] theorem frameBoundary_port (s : State) : (frameBoundary s).port = s.port := by simp [frameBoundary]
@[simp] theorem frameBoundary_timer (s : State) : (frameBoundary s).timer = { s.timer with
    number := s.timer.number + 1, frameLength := s.timer.fp, frameLend := s.timer.lp, phase := 0, startDue := false } := by
  simp [frameBoundary, beforeSnapshot]

/-! expiryEvent -/
@[simp] theorem expiryEvent_pending (g : Byte) (s : State) : (expiryEvent g s).pending = s.pending := by unfold expiryEvent; split <;> simp
@[simp] theorem expiryEvent_links (g : Byte) (s : State) : (expiryEvent g s).links = s.links := by unfold expiryEvent; split <;> simp
@[simp] theorem expiryEvent_classifier (g : Byte) (s : State) : (expiryEvent g s).classifier = s.classifier := by unfold expiryEvent; split <;> simp
@[simp] theorem expiryEvent_timer (g : Byte) (s : State) : (expiryEvent g s).timer = s.timer := by unfold expiryEvent; split <;> simp
@[simp] theorem expiryEvent_solver (g : Byte) (s : State) : (expiryEvent g s).solver = s.solver := by unfold expiryEvent; split <;> simp
@[simp] theorem expiryEvent_credit (g : Byte) (s : State) : (expiryEvent g s).credit = s.credit := by unfold expiryEvent; split <;> simp
@[simp] theorem expiryEvent_arbiter (g : Byte) (s : State) : (expiryEvent g s).arbiter = s.arbiter := by unfold expiryEvent; split <;> simp
@[simp] theorem expiryEvent_control (g : Byte) (s : State) : (expiryEvent g s).control = s.control := by unfold expiryEvent; split <;> simp
@[simp] theorem expiryEvent_port (g : Byte) (s : State) : (expiryEvent g s).port = s.port := by unfold expiryEvent; split <;> simp

/-! lendOne -/
@[simp] theorem lendOne_pending (s : State) (t : TenantId) : (lendOne s t).pending = s.pending := by unfold lendOne; split <;> simp
@[simp] theorem lendOne_links (s : State) (t : TenantId) : (lendOne s t).links = s.links := by unfold lendOne; split <;> simp
@[simp] theorem lendOne_classifier (s : State) (t : TenantId) : (lendOne s t).classifier = s.classifier := by unfold lendOne; split <;> simp
@[simp] theorem lendOne_admission (s : State) (t : TenantId) : (lendOne s t).admission = s.admission := by unfold lendOne; split <;> simp
@[simp] theorem lendOne_timer (s : State) (t : TenantId) : (lendOne s t).timer = s.timer := by unfold lendOne; split <;> simp
@[simp] theorem lendOne_solver (s : State) (t : TenantId) : (lendOne s t).solver = s.solver := by unfold lendOne; split <;> simp
@[simp] theorem lendOne_arbiter (s : State) (t : TenantId) : (lendOne s t).arbiter = s.arbiter := by unfold lendOne; split <;> simp
@[simp] theorem lendOne_paths (s : State) (t : TenantId) : (lendOne s t).paths = s.paths := by unfold lendOne; split <;> simp
@[simp] theorem lendOne_records (s : State) (t : TenantId) : (lendOne s t).records = s.records := by unfold lendOne; split <;> simp
@[simp] theorem lendOne_pairHalt (s : State) (t : TenantId) : (lendOne s t).pairHalt = s.pairHalt := by unfold lendOne; split <;> simp
@[simp] theorem lendOne_control (s : State) (t : TenantId) : (lendOne s t).control = s.control := by unfold lendOne; split <;> simp
@[simp] theorem lendOne_observe (s : State) (t : TenantId) : (lendOne s t).observe = s.observe := by unfold lendOne; split <;> simp
@[simp] theorem lendOne_port (s : State) (t : TenantId) : (lendOne s t).port = s.port := by unfold lendOne; split <;> simp
@[simp] theorem lendOne_wires (s : State) (t : TenantId) : (lendOne s t).wires = s.wires := by unfold lendOne; split <;> simp

/-! lendAll -/
@[simp] theorem lendAll_pending (s : State) : (lendAll s).pending = s.pending := foldl_keeps _ State.pending (fun s t => lendOne_pending s t) _ s
@[simp] theorem lendAll_links (s : State) : (lendAll s).links = s.links := foldl_keeps _ State.links (fun s t => lendOne_links s t) _ s
@[simp] theorem lendAll_classifier (s : State) : (lendAll s).classifier = s.classifier := foldl_keeps _ State.classifier (fun s t => lendOne_classifier s t) _ s
@[simp] theorem lendAll_admission (s : State) : (lendAll s).admission = s.admission := foldl_keeps _ State.admission (fun s t => lendOne_admission s t) _ s
@[simp] theorem lendAll_timer (s : State) : (lendAll s).timer = s.timer := foldl_keeps _ State.timer (fun s t => lendOne_timer s t) _ s
@[simp] theorem lendAll_solver (s : State) : (lendAll s).solver = s.solver := foldl_keeps _ State.solver (fun s t => lendOne_solver s t) _ s
@[simp] theorem lendAll_arbiter (s : State) : (lendAll s).arbiter = s.arbiter := foldl_keeps _ State.arbiter (fun s t => lendOne_arbiter s t) _ s
@[simp] theorem lendAll_paths (s : State) : (lendAll s).paths = s.paths := foldl_keeps _ State.paths (fun s t => lendOne_paths s t) _ s
@[simp] theorem lendAll_records (s : State) : (lendAll s).records = s.records := foldl_keeps _ State.records (fun s t => lendOne_records s t) _ s
@[simp] theorem lendAll_pairHalt (s : State) : (lendAll s).pairHalt = s.pairHalt := foldl_keeps _ State.pairHalt (fun s t => lendOne_pairHalt s t) _ s
@[simp] theorem lendAll_control (s : State) : (lendAll s).control = s.control := foldl_keeps _ State.control (fun s t => lendOne_control s t) _ s
@[simp] theorem lendAll_observe (s : State) : (lendAll s).observe = s.observe := foldl_keeps _ State.observe (fun s t => lendOne_observe s t) _ s
@[simp] theorem lendAll_port (s : State) : (lendAll s).port = s.port := foldl_keeps _ State.port (fun s t => lendOne_port s t) _ s
@[simp] theorem lendAll_wires (s : State) : (lendAll s).wires = s.wires := foldl_keeps _ State.wires (fun s t => lendOne_wires s t) _ s

/-! lendPoint -/
@[simp] theorem lendPoint_pending (s : State) : (lendPoint s).pending = s.pending := by unfold lendPoint; split <;> simp
@[simp] theorem lendPoint_links (s : State) : (lendPoint s).links = s.links := by unfold lendPoint; split <;> simp
@[simp] theorem lendPoint_classifier (s : State) : (lendPoint s).classifier = s.classifier := by unfold lendPoint; split <;> simp
@[simp] theorem lendPoint_admission (s : State) : (lendPoint s).admission = s.admission := by unfold lendPoint; split <;> simp
@[simp] theorem lendPoint_solver (s : State) : (lendPoint s).solver = s.solver := by unfold lendPoint; split <;> simp
@[simp] theorem lendPoint_arbiter (s : State) : (lendPoint s).arbiter = s.arbiter := by unfold lendPoint; split <;> simp
@[simp] theorem lendPoint_paths (s : State) : (lendPoint s).paths = s.paths := by unfold lendPoint; split <;> simp
@[simp] theorem lendPoint_records (s : State) : (lendPoint s).records = s.records := by unfold lendPoint; split <;> simp
@[simp] theorem lendPoint_pairHalt (s : State) : (lendPoint s).pairHalt = s.pairHalt := by unfold lendPoint; split <;> simp
@[simp] theorem lendPoint_control (s : State) : (lendPoint s).control = s.control := by unfold lendPoint; split <;> simp
@[simp] theorem lendPoint_observe (s : State) : (lendPoint s).observe = s.observe := by unfold lendPoint; split <;> simp
@[simp] theorem lendPoint_port (s : State) : (lendPoint s).port = s.port := by unfold lendPoint; split <;> simp
@[simp] theorem lendPoint_wires (s : State) : (lendPoint s).wires = s.wires := by unfold lendPoint; split <;> simp

/-! completeSolve -/
@[simp] theorem completeSolve_pending (s : State) : (completeSolve s).pending = s.pending := by unfold completeSolve; split <;> simp
@[simp] theorem completeSolve_links (s : State) : (completeSolve s).links = s.links := by unfold completeSolve; split <;> simp
@[simp] theorem completeSolve_classifier (s : State) : (completeSolve s).classifier = s.classifier := by unfold completeSolve; split <;> simp
@[simp] theorem completeSolve_admission (s : State) : (completeSolve s).admission = s.admission := by unfold completeSolve; split <;> simp
@[simp] theorem completeSolve_timer (s : State) : (completeSolve s).timer = s.timer := by unfold completeSolve; split <;> simp
@[simp] theorem completeSolve_credit (s : State) : (completeSolve s).credit = s.credit := by unfold completeSolve; split <;> simp
@[simp] theorem completeSolve_arbiter (s : State) : (completeSolve s).arbiter = s.arbiter := by unfold completeSolve; split <;> simp
@[simp] theorem completeSolve_paths (s : State) : (completeSolve s).paths = s.paths := by unfold completeSolve; split <;> simp
@[simp] theorem completeSolve_records (s : State) : (completeSolve s).records = s.records := by unfold completeSolve; split <;> simp
@[simp] theorem completeSolve_pairHalt (s : State) : (completeSolve s).pairHalt = s.pairHalt := by unfold completeSolve; split <;> simp
@[simp] theorem completeSolve_control (s : State) : (completeSolve s).control = s.control := by unfold completeSolve; split <;> simp
@[simp] theorem completeSolve_port (s : State) : (completeSolve s).port = s.port := by unfold completeSolve; split <;> simp
@[simp] theorem completeSolve_wires (s : State) : (completeSolve s).wires = s.wires := by unfold completeSolve; split <;> simp

/-! solveDue -/
@[simp] theorem solveDue_pending (s : State) : (solveDue s).pending = s.pending := by unfold solveDue; split <;> simp
@[simp] theorem solveDue_links (s : State) : (solveDue s).links = s.links := by unfold solveDue; split <;> simp
@[simp] theorem solveDue_classifier (s : State) : (solveDue s).classifier = s.classifier := by unfold solveDue; split <;> simp
@[simp] theorem solveDue_admission (s : State) : (solveDue s).admission = s.admission := by unfold solveDue; split <;> simp
@[simp] theorem solveDue_timer (s : State) : (solveDue s).timer = s.timer := by unfold solveDue; split <;> simp
@[simp] theorem solveDue_credit (s : State) : (solveDue s).credit = s.credit := by unfold solveDue; split <;> simp
@[simp] theorem solveDue_arbiter (s : State) : (solveDue s).arbiter = s.arbiter := by unfold solveDue; split <;> simp
@[simp] theorem solveDue_paths (s : State) : (solveDue s).paths = s.paths := by unfold solveDue; split <;> simp
@[simp] theorem solveDue_records (s : State) : (solveDue s).records = s.records := by unfold solveDue; split <;> simp
@[simp] theorem solveDue_pairHalt (s : State) : (solveDue s).pairHalt = s.pairHalt := by unfold solveDue; split <;> simp
@[simp] theorem solveDue_control (s : State) : (solveDue s).control = s.control := by unfold solveDue; split <;> simp
@[simp] theorem solveDue_port (s : State) : (solveDue s).port = s.port := by unfold solveDue; split <;> simp
@[simp] theorem solveDue_wires (s : State) : (solveDue s).wires = s.wires := by unfold solveDue; split <;> simp

/-! lendDue -/
@[simp] theorem lendDue_pending (s : State) : (lendDue s).pending = s.pending := by unfold lendDue; split <;> simp
@[simp] theorem lendDue_links (s : State) : (lendDue s).links = s.links := by unfold lendDue; split <;> simp
@[simp] theorem lendDue_classifier (s : State) : (lendDue s).classifier = s.classifier := by unfold lendDue; split <;> simp
@[simp] theorem lendDue_admission (s : State) : (lendDue s).admission = s.admission := by unfold lendDue; split <;> simp
@[simp] theorem lendDue_timer (s : State) : (lendDue s).timer = s.timer := by unfold lendDue; split <;> simp
@[simp] theorem lendDue_solver (s : State) : (lendDue s).solver = s.solver := by unfold lendDue; split <;> simp
@[simp] theorem lendDue_arbiter (s : State) : (lendDue s).arbiter = s.arbiter := by unfold lendDue; split <;> simp
@[simp] theorem lendDue_paths (s : State) : (lendDue s).paths = s.paths := by unfold lendDue; split <;> simp
@[simp] theorem lendDue_records (s : State) : (lendDue s).records = s.records := by unfold lendDue; split <;> simp
@[simp] theorem lendDue_pairHalt (s : State) : (lendDue s).pairHalt = s.pairHalt := by unfold lendDue; split <;> simp
@[simp] theorem lendDue_control (s : State) : (lendDue s).control = s.control := by unfold lendDue; split <;> simp
@[simp] theorem lendDue_observe (s : State) : (lendDue s).observe = s.observe := by unfold lendDue; split <;> simp
@[simp] theorem lendDue_port (s : State) : (lendDue s).port = s.port := by unfold lendDue; split <;> simp
@[simp] theorem lendDue_wires (s : State) : (lendDue s).wires = s.wires := by unfold lendDue; split <;> simp

/-! tick -/
@[simp] theorem tick_pending (s : State) : (tick s).pending = s.pending := by
  unfold tick
  split; · rfl
  split <;> simp
@[simp] theorem tick_links (s : State) : (tick s).links = s.links := by
  unfold tick
  split; · rfl
  split <;> simp
@[simp] theorem tick_classifier (s : State) : (tick s).classifier = s.classifier := by
  unfold tick
  split; · rfl
  split <;> simp
@[simp] theorem tick_arbiter (s : State) : (tick s).arbiter = s.arbiter := by
  unfold tick
  split; · rfl
  split <;> simp
@[simp] theorem tick_port (s : State) : (tick s).port = s.port := by
  unfold tick
  split; · rfl
  split <;> simp

/-! ### Lines, resets and commands -/

/-! emptyQueues -/
@[simp] theorem emptyQueues_pending (s : State) : (emptyQueues s).pending = s.pending := rfl
@[simp] theorem emptyQueues_links (s : State) : (emptyQueues s).links = s.links := rfl
@[simp] theorem emptyQueues_classifier (s : State) : (emptyQueues s).classifier = s.classifier := rfl
@[simp] theorem emptyQueues_timer (s : State) : (emptyQueues s).timer = s.timer := rfl
@[simp] theorem emptyQueues_solver (s : State) : (emptyQueues s).solver = s.solver := rfl
@[simp] theorem emptyQueues_credit (s : State) : (emptyQueues s).credit = s.credit := rfl
@[simp] theorem emptyQueues_arbiter (s : State) : (emptyQueues s).arbiter = s.arbiter := rfl
@[simp] theorem emptyQueues_paths (s : State) : (emptyQueues s).paths = s.paths := rfl
@[simp] theorem emptyQueues_records (s : State) : (emptyQueues s).records = s.records := rfl
@[simp] theorem emptyQueues_pairHalt (s : State) : (emptyQueues s).pairHalt = s.pairHalt := rfl
@[simp] theorem emptyQueues_control (s : State) : (emptyQueues s).control = s.control := rfl
@[simp] theorem emptyQueues_observe (s : State) : (emptyQueues s).observe = s.observe := rfl
@[simp] theorem emptyQueues_port (s : State) : (emptyQueues s).port = s.port := rfl
@[simp] theorem emptyQueues_wires (s : State) : (emptyQueues s).wires = s.wires := rfl

/-! orphanAll -/
@[simp] theorem orphanAll_pending (s : State) : (orphanAll s).pending = s.pending := rfl
@[simp] theorem orphanAll_links (s : State) : (orphanAll s).links = s.links := rfl
@[simp] theorem orphanAll_classifier (s : State) : (orphanAll s).classifier = s.classifier := rfl
@[simp] theorem orphanAll_admission (s : State) : (orphanAll s).admission = s.admission := rfl
@[simp] theorem orphanAll_timer (s : State) : (orphanAll s).timer = s.timer := rfl
@[simp] theorem orphanAll_solver (s : State) : (orphanAll s).solver = s.solver := rfl
@[simp] theorem orphanAll_credit (s : State) : (orphanAll s).credit = s.credit := rfl
@[simp] theorem orphanAll_arbiter (s : State) : (orphanAll s).arbiter = s.arbiter := rfl
@[simp] theorem orphanAll_records (s : State) : (orphanAll s).records = s.records := rfl
@[simp] theorem orphanAll_pairHalt (s : State) : (orphanAll s).pairHalt = s.pairHalt := rfl
@[simp] theorem orphanAll_control (s : State) : (orphanAll s).control = s.control := rfl
@[simp] theorem orphanAll_observe (s : State) : (orphanAll s).observe = s.observe := rfl
@[simp] theorem orphanAll_port (s : State) : (orphanAll s).port = s.port := rfl
@[simp] theorem orphanAll_wires (s : State) : (orphanAll s).wires = s.wires := rfl

/-! switchLinkReset -/
@[simp] theorem switchLinkReset_pending (s : State) : (switchLinkReset s).pending = s.pending := by unfold switchLinkReset; split <;> simp
@[simp] theorem switchLinkReset_classifier (s : State) : (switchLinkReset s).classifier = s.classifier := by unfold switchLinkReset; split <;> simp
@[simp] theorem switchLinkReset_timer (s : State) : (switchLinkReset s).timer = s.timer := by unfold switchLinkReset; split <;> simp
@[simp] theorem switchLinkReset_solver (s : State) : (switchLinkReset s).solver = s.solver := by unfold switchLinkReset; split <;> simp
@[simp] theorem switchLinkReset_credit (s : State) : (switchLinkReset s).credit = s.credit := by unfold switchLinkReset; split <;> simp
@[simp] theorem switchLinkReset_arbiter (s : State) : (switchLinkReset s).arbiter = s.arbiter := by unfold switchLinkReset; split <;> simp
@[simp] theorem switchLinkReset_pairHalt (s : State) : (switchLinkReset s).pairHalt = s.pairHalt := by unfold switchLinkReset; split <;> simp
@[simp] theorem switchLinkReset_control (s : State) : (switchLinkReset s).control = s.control := by unfold switchLinkReset; split <;> simp
@[simp] theorem switchLinkReset_port (s : State) : (switchLinkReset s).port = s.port := by unfold switchLinkReset; split <;> simp

/-! loseEntries -/
@[simp] theorem loseEntries_pending (s : State) : (loseEntries s).pending = s.pending := by
  unfold loseEntries
  exact foldl_keeps loseEntry State.pending loseEntry_pending _ s
@[simp] theorem loseEntries_links (s : State) : (loseEntries s).links = s.links := by
  unfold loseEntries
  exact foldl_keeps loseEntry State.links loseEntry_links _ s
@[simp] theorem loseEntries_classifier (s : State) : (loseEntries s).classifier = s.classifier := by
  unfold loseEntries
  exact foldl_keeps loseEntry State.classifier loseEntry_classifier _ s
@[simp] theorem loseEntries_admission (s : State) : (loseEntries s).admission = s.admission := by
  unfold loseEntries
  exact foldl_keeps loseEntry State.admission loseEntry_admission _ s
@[simp] theorem loseEntries_timer (s : State) : (loseEntries s).timer = s.timer := by
  unfold loseEntries
  exact foldl_keeps loseEntry State.timer loseEntry_timer _ s
@[simp] theorem loseEntries_solver (s : State) : (loseEntries s).solver = s.solver := by
  unfold loseEntries
  exact foldl_keeps loseEntry State.solver loseEntry_solver _ s
@[simp] theorem loseEntries_credit (s : State) : (loseEntries s).credit = s.credit := by
  unfold loseEntries
  exact foldl_keeps loseEntry State.credit loseEntry_credit _ s
@[simp] theorem loseEntries_arbiter (s : State) : (loseEntries s).arbiter = s.arbiter := by
  unfold loseEntries
  exact foldl_keeps loseEntry State.arbiter loseEntry_arbiter _ s
@[simp] theorem loseEntries_records (s : State) : (loseEntries s).records = s.records := by
  unfold loseEntries
  exact foldl_keeps loseEntry State.records loseEntry_records _ s
@[simp] theorem loseEntries_pairHalt (s : State) : (loseEntries s).pairHalt = s.pairHalt := by
  unfold loseEntries
  exact foldl_keeps loseEntry State.pairHalt loseEntry_pairHalt _ s
@[simp] theorem loseEntries_control (s : State) : (loseEntries s).control = s.control := by
  unfold loseEntries
  exact foldl_keeps loseEntry State.control loseEntry_control _ s
@[simp] theorem loseEntries_port (s : State) : (loseEntries s).port = s.port := by
  unfold loseEntries
  exact foldl_keeps loseEntry State.port loseEntry_port _ s

/-! pauseAll -/
@[simp] theorem pauseAll_pending (s : State) : (pauseAll s).pending = s.pending := rfl
@[simp] theorem pauseAll_links (s : State) : (pauseAll s).links = s.links := rfl
@[simp] theorem pauseAll_classifier (s : State) : (pauseAll s).classifier = s.classifier := rfl
@[simp] theorem pauseAll_admission (s : State) : (pauseAll s).admission = s.admission := rfl
@[simp] theorem pauseAll_timer (s : State) : (pauseAll s).timer = s.timer := rfl
@[simp] theorem pauseAll_solver (s : State) : (pauseAll s).solver = s.solver := rfl
@[simp] theorem pauseAll_credit (s : State) : (pauseAll s).credit = s.credit := rfl
@[simp] theorem pauseAll_arbiter (s : State) : (pauseAll s).arbiter = s.arbiter := rfl
@[simp] theorem pauseAll_paths (s : State) : (pauseAll s).paths = s.paths := rfl
@[simp] theorem pauseAll_pairHalt (s : State) : (pauseAll s).pairHalt = s.pairHalt := rfl
@[simp] theorem pauseAll_control (s : State) : (pauseAll s).control = s.control := rfl
@[simp] theorem pauseAll_observe (s : State) : (pauseAll s).observe = s.observe := rfl
@[simp] theorem pauseAll_port (s : State) : (pauseAll s).port = s.port := rfl
@[simp] theorem pauseAll_wires (s : State) : (pauseAll s).wires = s.wires := rfl

/-! poolLinkLoss -/
@[simp] theorem poolLinkLoss_pending (s : State) : (poolLinkLoss s).pending = s.pending := by unfold poolLinkLoss; split <;> simp
@[simp] theorem poolLinkLoss_classifier (s : State) : (poolLinkLoss s).classifier = s.classifier := by unfold poolLinkLoss; split <;> simp
@[simp] theorem poolLinkLoss_timer (s : State) : (poolLinkLoss s).timer = s.timer := by unfold poolLinkLoss; split <;> simp
@[simp] theorem poolLinkLoss_solver (s : State) : (poolLinkLoss s).solver = s.solver := by unfold poolLinkLoss; split <;> simp
@[simp] theorem poolLinkLoss_credit (s : State) : (poolLinkLoss s).credit = s.credit := by unfold poolLinkLoss; split <;> simp
@[simp] theorem poolLinkLoss_control (s : State) : (poolLinkLoss s).control = s.control := by unfold poolLinkLoss; split <;> simp
@[simp] theorem poolLinkLoss_port (s : State) : (poolLinkLoss s).port = s.port := by unfold poolLinkLoss; split <;> simp

/-! assertHalt -/
@[simp] theorem assertHalt_pending (s : State) : (assertHalt s).pending = s.pending := rfl
@[simp] theorem assertHalt_links (s : State) : (assertHalt s).links = s.links := rfl
@[simp] theorem assertHalt_classifier (s : State) : (assertHalt s).classifier = s.classifier := rfl
@[simp] theorem assertHalt_admission (s : State) : (assertHalt s).admission = s.admission := rfl
@[simp] theorem assertHalt_timer (s : State) : (assertHalt s).timer = s.timer := rfl
@[simp] theorem assertHalt_solver (s : State) : (assertHalt s).solver = s.solver := rfl
@[simp] theorem assertHalt_credit (s : State) : (assertHalt s).credit = s.credit := rfl
@[simp] theorem assertHalt_arbiter (s : State) : (assertHalt s).arbiter = s.arbiter := rfl
@[simp] theorem assertHalt_paths (s : State) : (assertHalt s).paths = s.paths := rfl
@[simp] theorem assertHalt_control (s : State) : (assertHalt s).control = s.control := rfl
@[simp] theorem assertHalt_observe (s : State) : (assertHalt s).observe = s.observe := rfl
@[simp] theorem assertHalt_port (s : State) : (assertHalt s).port = s.port := rfl
@[simp] theorem assertHalt_wires (s : State) : (assertHalt s).wires = s.wires := rfl

/-! riseHalt -/
@[simp] theorem riseHalt_pending (s : State) : (riseHalt s).pending = s.pending := by
  unfold riseHalt
  split; · rfl
  · split <;> simp
@[simp] theorem riseHalt_links (s : State) : (riseHalt s).links = s.links := by
  unfold riseHalt
  split; · rfl
  · split <;> simp
@[simp] theorem riseHalt_classifier (s : State) : (riseHalt s).classifier = s.classifier := by
  unfold riseHalt
  split; · rfl
  · split <;> simp
@[simp] theorem riseHalt_admission (s : State) : (riseHalt s).admission = s.admission := by
  unfold riseHalt
  split; · rfl
  · split <;> simp
@[simp] theorem riseHalt_timer (s : State) : (riseHalt s).timer = s.timer := by
  unfold riseHalt
  split; · rfl
  · split <;> simp
@[simp] theorem riseHalt_solver (s : State) : (riseHalt s).solver = s.solver := by
  unfold riseHalt
  split; · rfl
  · split <;> simp
@[simp] theorem riseHalt_credit (s : State) : (riseHalt s).credit = s.credit := by
  unfold riseHalt
  split; · rfl
  · split <;> simp
@[simp] theorem riseHalt_arbiter (s : State) : (riseHalt s).arbiter = s.arbiter := by
  unfold riseHalt
  split; · rfl
  · split <;> simp
@[simp] theorem riseHalt_paths (s : State) : (riseHalt s).paths = s.paths := by
  unfold riseHalt
  split; · rfl
  · split <;> simp
@[simp] theorem riseHalt_control (s : State) : (riseHalt s).control = s.control := by
  unfold riseHalt
  split; · rfl
  · split <;> simp
@[simp] theorem riseHalt_observe (s : State) : (riseHalt s).observe = s.observe := by
  unfold riseHalt
  split; · rfl
  · split <;> simp
@[simp] theorem riseHalt_port (s : State) : (riseHalt s).port = s.port := by
  unfold riseHalt
  split; · rfl
  · split <;> simp
@[simp] theorem riseHalt_wires (s : State) : (riseHalt s).wires = s.wires := by
  unfold riseHalt
  split; · rfl
  · split <;> simp

/-! dataByteTaken -/
@[simp] theorem dataByteTaken_pending (f : Field) (s : State) : (dataByteTaken f s).pending = s.pending := rfl
@[simp] theorem dataByteTaken_links (f : Field) (s : State) : (dataByteTaken f s).links = s.links := rfl
@[simp] theorem dataByteTaken_classifier (f : Field) (s : State) : (dataByteTaken f s).classifier = s.classifier := rfl
@[simp] theorem dataByteTaken_admission (f : Field) (s : State) : (dataByteTaken f s).admission = s.admission := rfl
@[simp] theorem dataByteTaken_timer (f : Field) (s : State) : (dataByteTaken f s).timer = s.timer := rfl
@[simp] theorem dataByteTaken_solver (f : Field) (s : State) : (dataByteTaken f s).solver = s.solver := rfl
@[simp] theorem dataByteTaken_credit (f : Field) (s : State) : (dataByteTaken f s).credit = s.credit := rfl
@[simp] theorem dataByteTaken_arbiter (f : Field) (s : State) : (dataByteTaken f s).arbiter = s.arbiter := rfl
@[simp] theorem dataByteTaken_paths (f : Field) (s : State) : (dataByteTaken f s).paths = s.paths := rfl
@[simp] theorem dataByteTaken_records (f : Field) (s : State) : (dataByteTaken f s).records = s.records := rfl
@[simp] theorem dataByteTaken_pairHalt (f : Field) (s : State) : (dataByteTaken f s).pairHalt = s.pairHalt := rfl
@[simp] theorem dataByteTaken_control (f : Field) (s : State) : (dataByteTaken f s).control = s.control := rfl
@[simp] theorem dataByteTaken_observe (f : Field) (s : State) : (dataByteTaken f s).observe = s.observe := rfl

/-! sweepWrites -/
@[simp] theorem sweepWrites_pending (t : TenantId) (s : State) : (sweepWrites t s).pending = s.pending := by unfold sweepWrites; simp only; split <;> simp
@[simp] theorem sweepWrites_links (t : TenantId) (s : State) : (sweepWrites t s).links = s.links := by unfold sweepWrites; simp only; split <;> simp
@[simp] theorem sweepWrites_classifier (t : TenantId) (s : State) : (sweepWrites t s).classifier = s.classifier := by unfold sweepWrites; simp only; split <;> simp
@[simp] theorem sweepWrites_timer (t : TenantId) (s : State) : (sweepWrites t s).timer = s.timer := by unfold sweepWrites; simp only; split <;> simp
@[simp] theorem sweepWrites_solver (t : TenantId) (s : State) : (sweepWrites t s).solver = s.solver := by unfold sweepWrites; simp only; split <;> simp
@[simp] theorem sweepWrites_credit (t : TenantId) (s : State) : (sweepWrites t s).credit = s.credit := by unfold sweepWrites; simp only; split <;> simp
@[simp] theorem sweepWrites_arbiter (t : TenantId) (s : State) : (sweepWrites t s).arbiter = s.arbiter := by unfold sweepWrites; simp only; split <;> simp
@[simp] theorem sweepWrites_control (t : TenantId) (s : State) : (sweepWrites t s).control = s.control := by unfold sweepWrites; simp only; split <;> simp
@[simp] theorem sweepWrites_port (t : TenantId) (s : State) : (sweepWrites t s).port = s.port := by unfold sweepWrites; simp only; split <;> simp

/-! swapPair -/
@[simp] theorem swapPair_pending (p : PairId) (s : State) : (swapPair p s).pending = s.pending := by simp [swapPair]
@[simp] theorem swapPair_links (p : PairId) (s : State) : (swapPair p s).links = s.links := by simp [swapPair]
@[simp] theorem swapPair_classifier (p : PairId) (s : State) : (swapPair p s).classifier = s.classifier := by simp [swapPair]
@[simp] theorem swapPair_timer (p : PairId) (s : State) : (swapPair p s).timer = s.timer := by simp [swapPair]
@[simp] theorem swapPair_solver (p : PairId) (s : State) : (swapPair p s).solver = s.solver := by simp [swapPair]
@[simp] theorem swapPair_credit (p : PairId) (s : State) : (swapPair p s).credit = s.credit := by simp [swapPair]
@[simp] theorem swapPair_arbiter (p : PairId) (s : State) : (swapPair p s).arbiter = s.arbiter := by simp [swapPair]
@[simp] theorem swapPair_control (p : PairId) (s : State) : (swapPair p s).control = s.control := by simp [swapPair]
@[simp] theorem swapPair_port (p : PairId) (s : State) : (swapPair p s).port = s.port := by simp [swapPair]

/-! runtimeReset -/
@[simp] theorem runtimeReset_pending (s : State) : (runtimeReset s).pending = s.pending := rfl
@[simp] theorem runtimeReset_links (s : State) : (runtimeReset s).links = s.links := rfl
@[simp] theorem runtimeReset_classifier (s : State) : (runtimeReset s).classifier = s.classifier := rfl
@[simp] theorem runtimeReset_paths (s : State) : (runtimeReset s).paths = s.paths := rfl
@[simp] theorem runtimeReset_pairHalt (s : State) : (runtimeReset s).pairHalt = s.pairHalt := rfl
@[simp] theorem runtimeReset_port (s : State) : (runtimeReset s).port = s.port := rfl
@[simp] theorem runtimeReset_wires (s : State) : (runtimeReset s).wires = s.wires := rfl
@[simp] theorem runtimeReset_timer (s : State) : (runtimeReset s).timer =
    { s.timer with phase := 16 * s.timer.frameLength - 1, startDue := true } := rfl
@[simp] theorem runtimeReset_solver (s : State) :
    (runtimeReset s).solver = ⟨false, Snapshot.empty, SolveResult.empty, false⟩ := rfl
@[simp] theorem runtimeReset_spare (s : State) : (runtimeReset s).credit.spare = 0 := rfl
@[simp] theorem runtimeReset_arbiter (s : State) : (runtimeReset s).arbiter = ⟨23, 23, s.arbiter.slot⟩ := rfl
@[simp] theorem runtimeReset_control (s : State) : (runtimeReset s).control = { s.control with cause := .runtime } := rfl
@[simp] theorem runtimeReset_observe (s : State) : (runtimeReset s).observe = { s.observe with ring := [] } := rfl
@[simp] theorem runtimeReset_recordAt (s : State) (t : TenantId) : recordAt (runtimeReset s) t =
    { recordAt s t with strikes := 0, demoted := false, pauseMark := true } := Table.get_map _ _ _
@[simp] theorem runtimeReset_creditAt (s : State) (t : TenantId) : creditAt (runtimeReset s) t =
    { creditAt s t with credit := 0, spent := 0, releasedNow := 0, releasedPrevious := 0 } := Table.get_map _ _ _
@[simp] theorem runtimeReset_queuesAt (s : State) (t : TenantId) : queuesAt (runtimeReset s) t =
    { queuesAt s t with retryMark := false } := Table.get_map _ _ _

/-! enterHold -/
@[simp] theorem enterHold_pending (s : State) : (enterHold s).pending = s.pending := by unfold enterHold; simp only; split <;> rfl
@[simp] theorem enterHold_links (s : State) : (enterHold s).links = s.links := by unfold enterHold; simp only; split <;> rfl
@[simp] theorem enterHold_classifier (s : State) : (enterHold s).classifier = s.classifier := by unfold enterHold; simp only; split <;> rfl
@[simp] theorem enterHold_admission (s : State) : (enterHold s).admission = s.admission := by unfold enterHold; simp only; split <;> rfl
@[simp] theorem enterHold_timer (s : State) : (enterHold s).timer = s.timer := by unfold enterHold; simp only; split <;> rfl
@[simp] theorem enterHold_solver (s : State) : (enterHold s).solver = s.solver := by unfold enterHold; simp only; split <;> rfl
@[simp] theorem enterHold_credit (s : State) : (enterHold s).credit = s.credit := by unfold enterHold; simp only; split <;> rfl
@[simp] theorem enterHold_arbiter (s : State) : (enterHold s).arbiter = s.arbiter := by unfold enterHold; simp only; split <;> rfl
@[simp] theorem enterHold_paths (s : State) : (enterHold s).paths = s.paths := by unfold enterHold; simp only; split <;> rfl
@[simp] theorem enterHold_pairHalt (s : State) : (enterHold s).pairHalt = s.pairHalt := by unfold enterHold; simp only; split <;> rfl
@[simp] theorem enterHold_observe (s : State) : (enterHold s).observe = s.observe := by unfold enterHold; simp only; split <;> rfl
@[simp] theorem enterHold_port (s : State) : (enterHold s).port = s.port := by unfold enterHold; simp only; split <;> rfl
@[simp] theorem enterHold_wires (s : State) : (enterHold s).wires = s.wires := by unfold enterHold; simp only; split <;> rfl

/-! ### The Management Port -/

/-! writeFp -/
@[simp] theorem writeFp_pending (v : Nat) (s : State) : (writeFp v s).pending = s.pending := by unfold writeFp; split <;> rfl
@[simp] theorem writeFp_links (v : Nat) (s : State) : (writeFp v s).links = s.links := by unfold writeFp; split <;> rfl
@[simp] theorem writeFp_classifier (v : Nat) (s : State) : (writeFp v s).classifier = s.classifier := by unfold writeFp; split <;> rfl
@[simp] theorem writeFp_admission (v : Nat) (s : State) : (writeFp v s).admission = s.admission := by unfold writeFp; split <;> rfl
@[simp] theorem writeFp_credit (v : Nat) (s : State) : (writeFp v s).credit = s.credit := by unfold writeFp; split <;> rfl
@[simp] theorem writeFp_arbiter (v : Nat) (s : State) : (writeFp v s).arbiter = s.arbiter := by unfold writeFp; split <;> rfl
@[simp] theorem writeFp_paths (v : Nat) (s : State) : (writeFp v s).paths = s.paths := by unfold writeFp; split <;> rfl
@[simp] theorem writeFp_records (v : Nat) (s : State) : (writeFp v s).records = s.records := by unfold writeFp; split <;> rfl
@[simp] theorem writeFp_pairHalt (v : Nat) (s : State) : (writeFp v s).pairHalt = s.pairHalt := by unfold writeFp; split <;> rfl
@[simp] theorem writeFp_control (v : Nat) (s : State) : (writeFp v s).control = s.control := by unfold writeFp; split <;> rfl
@[simp] theorem writeFp_observe (v : Nat) (s : State) : (writeFp v s).observe = s.observe := by unfold writeFp; split <;> rfl
@[simp] theorem writeFp_wires (v : Nat) (s : State) : (writeFp v s).wires = s.wires := by unfold writeFp; split <;> rfl

/-! writeCap -/
@[simp] theorem writeCap_pending (v : Nat) (s : State) : (writeCap v s).pending = s.pending := by unfold writeCap; split <;> rfl
@[simp] theorem writeCap_links (v : Nat) (s : State) : (writeCap v s).links = s.links := by unfold writeCap; split <;> rfl
@[simp] theorem writeCap_classifier (v : Nat) (s : State) : (writeCap v s).classifier = s.classifier := by unfold writeCap; split <;> rfl
@[simp] theorem writeCap_admission (v : Nat) (s : State) : (writeCap v s).admission = s.admission := by unfold writeCap; split <;> rfl
@[simp] theorem writeCap_credit (v : Nat) (s : State) : (writeCap v s).credit = s.credit := by unfold writeCap; split <;> rfl
@[simp] theorem writeCap_arbiter (v : Nat) (s : State) : (writeCap v s).arbiter = s.arbiter := by unfold writeCap; split <;> rfl
@[simp] theorem writeCap_paths (v : Nat) (s : State) : (writeCap v s).paths = s.paths := by unfold writeCap; split <;> rfl
@[simp] theorem writeCap_records (v : Nat) (s : State) : (writeCap v s).records = s.records := by unfold writeCap; split <;> rfl
@[simp] theorem writeCap_pairHalt (v : Nat) (s : State) : (writeCap v s).pairHalt = s.pairHalt := by unfold writeCap; split <;> rfl
@[simp] theorem writeCap_control (v : Nat) (s : State) : (writeCap v s).control = s.control := by unfold writeCap; split <;> rfl
@[simp] theorem writeCap_observe (v : Nat) (s : State) : (writeCap v s).observe = s.observe := by unfold writeCap; split <;> rfl
@[simp] theorem writeCap_wires (v : Nat) (s : State) : (writeCap v s).wires = s.wires := by unfold writeCap; split <;> rfl

/-! writeWf -/
@[simp] theorem writeWf_pending (v : Nat) (s : State) : (writeWf v s).pending = s.pending := rfl
@[simp] theorem writeWf_links (v : Nat) (s : State) : (writeWf v s).links = s.links := rfl
@[simp] theorem writeWf_classifier (v : Nat) (s : State) : (writeWf v s).classifier = s.classifier := rfl
@[simp] theorem writeWf_timer (v : Nat) (s : State) : (writeWf v s).timer = s.timer := rfl
@[simp] theorem writeWf_credit (v : Nat) (s : State) : (writeWf v s).credit = s.credit := rfl
@[simp] theorem writeWf_arbiter (v : Nat) (s : State) : (writeWf v s).arbiter = s.arbiter := rfl
@[simp] theorem writeWf_paths (v : Nat) (s : State) : (writeWf v s).paths = s.paths := rfl
@[simp] theorem writeWf_records (v : Nat) (s : State) : (writeWf v s).records = s.records := rfl
@[simp] theorem writeWf_pairHalt (v : Nat) (s : State) : (writeWf v s).pairHalt = s.pairHalt := rfl
@[simp] theorem writeWf_control (v : Nat) (s : State) : (writeWf v s).control = s.control := rfl
@[simp] theorem writeWf_observe (v : Nat) (s : State) : (writeWf v s).observe = s.observe := rfl
@[simp] theorem writeWf_port (v : Nat) (s : State) : (writeWf v s).port = s.port := rfl
@[simp] theorem writeWf_wires (v : Nat) (s : State) : (writeWf v s).wires = s.wires := rfl

/-! writeLp -/
@[simp] theorem writeLp_pending (v : Nat) (s : State) : (writeLp v s).pending = s.pending := rfl
@[simp] theorem writeLp_links (v : Nat) (s : State) : (writeLp v s).links = s.links := rfl
@[simp] theorem writeLp_classifier (v : Nat) (s : State) : (writeLp v s).classifier = s.classifier := rfl
@[simp] theorem writeLp_admission (v : Nat) (s : State) : (writeLp v s).admission = s.admission := rfl
@[simp] theorem writeLp_credit (v : Nat) (s : State) : (writeLp v s).credit = s.credit := rfl
@[simp] theorem writeLp_arbiter (v : Nat) (s : State) : (writeLp v s).arbiter = s.arbiter := rfl
@[simp] theorem writeLp_paths (v : Nat) (s : State) : (writeLp v s).paths = s.paths := rfl
@[simp] theorem writeLp_records (v : Nat) (s : State) : (writeLp v s).records = s.records := rfl
@[simp] theorem writeLp_pairHalt (v : Nat) (s : State) : (writeLp v s).pairHalt = s.pairHalt := rfl
@[simp] theorem writeLp_control (v : Nat) (s : State) : (writeLp v s).control = s.control := rfl
@[simp] theorem writeLp_observe (v : Nat) (s : State) : (writeLp v s).observe = s.observe := rfl
@[simp] theorem writeLp_port (v : Nat) (s : State) : (writeLp v s).port = s.port := rfl
@[simp] theorem writeLp_wires (v : Nat) (s : State) : (writeLp v s).wires = s.wires := rfl

/-! writeCto -/
@[simp] theorem writeCto_pending (v : Nat) (s : State) : (writeCto v s).pending = s.pending := rfl
@[simp] theorem writeCto_links (v : Nat) (s : State) : (writeCto v s).links = s.links := rfl
@[simp] theorem writeCto_classifier (v : Nat) (s : State) : (writeCto v s).classifier = s.classifier := rfl
@[simp] theorem writeCto_admission (v : Nat) (s : State) : (writeCto v s).admission = s.admission := rfl
@[simp] theorem writeCto_timer (v : Nat) (s : State) : (writeCto v s).timer = s.timer := rfl
@[simp] theorem writeCto_solver (v : Nat) (s : State) : (writeCto v s).solver = s.solver := rfl
@[simp] theorem writeCto_credit (v : Nat) (s : State) : (writeCto v s).credit = s.credit := rfl
@[simp] theorem writeCto_arbiter (v : Nat) (s : State) : (writeCto v s).arbiter = s.arbiter := rfl
@[simp] theorem writeCto_records (v : Nat) (s : State) : (writeCto v s).records = s.records := rfl
@[simp] theorem writeCto_pairHalt (v : Nat) (s : State) : (writeCto v s).pairHalt = s.pairHalt := rfl
@[simp] theorem writeCto_control (v : Nat) (s : State) : (writeCto v s).control = s.control := rfl
@[simp] theorem writeCto_observe (v : Nat) (s : State) : (writeCto v s).observe = s.observe := rfl
@[simp] theorem writeCto_port (v : Nat) (s : State) : (writeCto v s).port = s.port := rfl
@[simp] theorem writeCto_wires (v : Nat) (s : State) : (writeCto v s).wires = s.wires := rfl

/-! writeDefaultTenant -/
@[simp] theorem writeDefaultTenant_pending (v : Byte) (s : State) : (writeDefaultTenant v s).pending = s.pending := by unfold writeDefaultTenant; split <;> rfl
@[simp] theorem writeDefaultTenant_links (v : Byte) (s : State) : (writeDefaultTenant v s).links = s.links := by unfold writeDefaultTenant; split <;> rfl
@[simp] theorem writeDefaultTenant_admission (v : Byte) (s : State) : (writeDefaultTenant v s).admission = s.admission := by unfold writeDefaultTenant; split <;> rfl
@[simp] theorem writeDefaultTenant_timer (v : Byte) (s : State) : (writeDefaultTenant v s).timer = s.timer := by unfold writeDefaultTenant; split <;> rfl
@[simp] theorem writeDefaultTenant_credit (v : Byte) (s : State) : (writeDefaultTenant v s).credit = s.credit := by unfold writeDefaultTenant; split <;> rfl
@[simp] theorem writeDefaultTenant_arbiter (v : Byte) (s : State) : (writeDefaultTenant v s).arbiter = s.arbiter := by unfold writeDefaultTenant; split <;> rfl
@[simp] theorem writeDefaultTenant_paths (v : Byte) (s : State) : (writeDefaultTenant v s).paths = s.paths := by unfold writeDefaultTenant; split <;> rfl
@[simp] theorem writeDefaultTenant_records (v : Byte) (s : State) : (writeDefaultTenant v s).records = s.records := by unfold writeDefaultTenant; split <;> rfl
@[simp] theorem writeDefaultTenant_pairHalt (v : Byte) (s : State) : (writeDefaultTenant v s).pairHalt = s.pairHalt := by unfold writeDefaultTenant; split <;> rfl
@[simp] theorem writeDefaultTenant_control (v : Byte) (s : State) : (writeDefaultTenant v s).control = s.control := by unfold writeDefaultTenant; split <;> rfl
@[simp] theorem writeDefaultTenant_observe (v : Byte) (s : State) : (writeDefaultTenant v s).observe = s.observe := by unfold writeDefaultTenant; split <;> rfl
@[simp] theorem writeDefaultTenant_wires (v : Byte) (s : State) : (writeDefaultTenant v s).wires = s.wires := by unfold writeDefaultTenant; split <;> rfl

/-! writeFloor -/
@[simp] theorem writeFloor_pending (t : TenantId) (v : Nat) (s : State) : (writeFloor t v s).pending = s.pending := by unfold writeFloor; simp only; split <;> rfl
@[simp] theorem writeFloor_links (t : TenantId) (v : Nat) (s : State) : (writeFloor t v s).links = s.links := by unfold writeFloor; simp only; split <;> rfl
@[simp] theorem writeFloor_classifier (t : TenantId) (v : Nat) (s : State) : (writeFloor t v s).classifier = s.classifier := by unfold writeFloor; simp only; split <;> rfl
@[simp] theorem writeFloor_admission (t : TenantId) (v : Nat) (s : State) : (writeFloor t v s).admission = s.admission := by unfold writeFloor; simp only; split <;> rfl
@[simp] theorem writeFloor_timer (t : TenantId) (v : Nat) (s : State) : (writeFloor t v s).timer = s.timer := by unfold writeFloor; simp only; split <;> rfl
@[simp] theorem writeFloor_solver (t : TenantId) (v : Nat) (s : State) : (writeFloor t v s).solver = s.solver := by unfold writeFloor; simp only; split <;> rfl
@[simp] theorem writeFloor_credit (t : TenantId) (v : Nat) (s : State) : (writeFloor t v s).credit = s.credit := by unfold writeFloor; simp only; split <;> rfl
@[simp] theorem writeFloor_arbiter (t : TenantId) (v : Nat) (s : State) : (writeFloor t v s).arbiter = s.arbiter := by unfold writeFloor; simp only; split <;> rfl
@[simp] theorem writeFloor_paths (t : TenantId) (v : Nat) (s : State) : (writeFloor t v s).paths = s.paths := by unfold writeFloor; simp only; split <;> rfl
@[simp] theorem writeFloor_pairHalt (t : TenantId) (v : Nat) (s : State) : (writeFloor t v s).pairHalt = s.pairHalt := by unfold writeFloor; simp only; split <;> rfl
@[simp] theorem writeFloor_control (t : TenantId) (v : Nat) (s : State) : (writeFloor t v s).control = s.control := by unfold writeFloor; simp only; split <;> rfl
@[simp] theorem writeFloor_observe (t : TenantId) (v : Nat) (s : State) : (writeFloor t v s).observe = s.observe := by unfold writeFloor; simp only; split <;> rfl
@[simp] theorem writeFloor_wires (t : TenantId) (v : Nat) (s : State) : (writeFloor t v s).wires = s.wires := by unfold writeFloor; simp only; split <;> rfl

/-! writeQlim -/
@[simp] theorem writeQlim_pending (t : TenantId) (v : Nat) (s : State) : (writeQlim t v s).pending = s.pending := by unfold writeQlim; split <;> rfl
@[simp] theorem writeQlim_links (t : TenantId) (v : Nat) (s : State) : (writeQlim t v s).links = s.links := by unfold writeQlim; split <;> rfl
@[simp] theorem writeQlim_classifier (t : TenantId) (v : Nat) (s : State) : (writeQlim t v s).classifier = s.classifier := by unfold writeQlim; split <;> rfl
@[simp] theorem writeQlim_admission (t : TenantId) (v : Nat) (s : State) : (writeQlim t v s).admission = s.admission := by unfold writeQlim; split <;> rfl
@[simp] theorem writeQlim_timer (t : TenantId) (v : Nat) (s : State) : (writeQlim t v s).timer = s.timer := by unfold writeQlim; split <;> rfl
@[simp] theorem writeQlim_solver (t : TenantId) (v : Nat) (s : State) : (writeQlim t v s).solver = s.solver := by unfold writeQlim; split <;> rfl
@[simp] theorem writeQlim_credit (t : TenantId) (v : Nat) (s : State) : (writeQlim t v s).credit = s.credit := by unfold writeQlim; split <;> rfl
@[simp] theorem writeQlim_arbiter (t : TenantId) (v : Nat) (s : State) : (writeQlim t v s).arbiter = s.arbiter := by unfold writeQlim; split <;> rfl
@[simp] theorem writeQlim_paths (t : TenantId) (v : Nat) (s : State) : (writeQlim t v s).paths = s.paths := by unfold writeQlim; split <;> rfl
@[simp] theorem writeQlim_pairHalt (t : TenantId) (v : Nat) (s : State) : (writeQlim t v s).pairHalt = s.pairHalt := by unfold writeQlim; split <;> rfl
@[simp] theorem writeQlim_control (t : TenantId) (v : Nat) (s : State) : (writeQlim t v s).control = s.control := by unfold writeQlim; split <;> rfl
@[simp] theorem writeQlim_observe (t : TenantId) (v : Nat) (s : State) : (writeQlim t v s).observe = s.observe := by unfold writeQlim; split <;> rfl
@[simp] theorem writeQlim_wires (t : TenantId) (v : Nat) (s : State) : (writeQlim t v s).wires = s.wires := by unfold writeQlim; split <;> rfl

/-! writeQres -/
@[simp] theorem writeQres_pending (t : TenantId) (v : Nat) (s : State) : (writeQres t v s).pending = s.pending := by
  unfold writeQres
  simp only
  split; · rfl
  · split <;> rfl
@[simp] theorem writeQres_links (t : TenantId) (v : Nat) (s : State) : (writeQres t v s).links = s.links := by
  unfold writeQres
  simp only
  split; · rfl
  · split <;> rfl
@[simp] theorem writeQres_classifier (t : TenantId) (v : Nat) (s : State) : (writeQres t v s).classifier = s.classifier := by
  unfold writeQres
  simp only
  split; · rfl
  · split <;> rfl
@[simp] theorem writeQres_admission (t : TenantId) (v : Nat) (s : State) : (writeQres t v s).admission = s.admission := by
  unfold writeQres
  simp only
  split; · rfl
  · split <;> rfl
@[simp] theorem writeQres_timer (t : TenantId) (v : Nat) (s : State) : (writeQres t v s).timer = s.timer := by
  unfold writeQres
  simp only
  split; · rfl
  · split <;> rfl
@[simp] theorem writeQres_solver (t : TenantId) (v : Nat) (s : State) : (writeQres t v s).solver = s.solver := by
  unfold writeQres
  simp only
  split; · rfl
  · split <;> rfl
@[simp] theorem writeQres_credit (t : TenantId) (v : Nat) (s : State) : (writeQres t v s).credit = s.credit := by
  unfold writeQres
  simp only
  split; · rfl
  · split <;> rfl
@[simp] theorem writeQres_arbiter (t : TenantId) (v : Nat) (s : State) : (writeQres t v s).arbiter = s.arbiter := by
  unfold writeQres
  simp only
  split; · rfl
  · split <;> rfl
@[simp] theorem writeQres_paths (t : TenantId) (v : Nat) (s : State) : (writeQres t v s).paths = s.paths := by
  unfold writeQres
  simp only
  split; · rfl
  · split <;> rfl
@[simp] theorem writeQres_pairHalt (t : TenantId) (v : Nat) (s : State) : (writeQres t v s).pairHalt = s.pairHalt := by
  unfold writeQres
  simp only
  split; · rfl
  · split <;> rfl
@[simp] theorem writeQres_control (t : TenantId) (v : Nat) (s : State) : (writeQres t v s).control = s.control := by
  unfold writeQres
  simp only
  split; · rfl
  · split <;> rfl
@[simp] theorem writeQres_observe (t : TenantId) (v : Nat) (s : State) : (writeQres t v s).observe = s.observe := by
  unfold writeQres
  simp only
  split; · rfl
  · split <;> rfl
@[simp] theorem writeQres_wires (t : TenantId) (v : Nat) (s : State) : (writeQres t v s).wires = s.wires := by
  unfold writeQres
  simp only
  split; · rfl
  · split <;> rfl

/-! writeAttrs -/
@[simp] theorem writeAttrs_pending (t : TenantId) (a : Attributes) (s : State) : (writeAttrs t a s).pending = s.pending := rfl
@[simp] theorem writeAttrs_links (t : TenantId) (a : Attributes) (s : State) : (writeAttrs t a s).links = s.links := rfl
@[simp] theorem writeAttrs_classifier (t : TenantId) (a : Attributes) (s : State) : (writeAttrs t a s).classifier = s.classifier := rfl
@[simp] theorem writeAttrs_admission (t : TenantId) (a : Attributes) (s : State) : (writeAttrs t a s).admission = s.admission := rfl
@[simp] theorem writeAttrs_timer (t : TenantId) (a : Attributes) (s : State) : (writeAttrs t a s).timer = s.timer := rfl
@[simp] theorem writeAttrs_solver (t : TenantId) (a : Attributes) (s : State) : (writeAttrs t a s).solver = s.solver := rfl
@[simp] theorem writeAttrs_credit (t : TenantId) (a : Attributes) (s : State) : (writeAttrs t a s).credit = s.credit := rfl
@[simp] theorem writeAttrs_arbiter (t : TenantId) (a : Attributes) (s : State) : (writeAttrs t a s).arbiter = s.arbiter := rfl
@[simp] theorem writeAttrs_paths (t : TenantId) (a : Attributes) (s : State) : (writeAttrs t a s).paths = s.paths := rfl
@[simp] theorem writeAttrs_pairHalt (t : TenantId) (a : Attributes) (s : State) : (writeAttrs t a s).pairHalt = s.pairHalt := rfl
@[simp] theorem writeAttrs_control (t : TenantId) (a : Attributes) (s : State) : (writeAttrs t a s).control = s.control := rfl
@[simp] theorem writeAttrs_observe (t : TenantId) (a : Attributes) (s : State) : (writeAttrs t a s).observe = s.observe := rfl
@[simp] theorem writeAttrs_port (t : TenantId) (a : Attributes) (s : State) : (writeAttrs t a s).port = s.port := rfl
@[simp] theorem writeAttrs_wires (t : TenantId) (a : Attributes) (s : State) : (writeAttrs t a s).wires = s.wires := rfl

/-! writeTenantField -/
@[simp] theorem writeTenantField_pending (t : TenantId) (f : TenantField) (v : Nat) (s : State) : (writeTenantField t f v s).pending = s.pending := by cases f <;> simp [writeTenantField]
@[simp] theorem writeTenantField_links (t : TenantId) (f : TenantField) (v : Nat) (s : State) : (writeTenantField t f v s).links = s.links := by cases f <;> simp [writeTenantField]
@[simp] theorem writeTenantField_classifier (t : TenantId) (f : TenantField) (v : Nat) (s : State) : (writeTenantField t f v s).classifier = s.classifier := by cases f <;> simp [writeTenantField]
@[simp] theorem writeTenantField_admission (t : TenantId) (f : TenantField) (v : Nat) (s : State) : (writeTenantField t f v s).admission = s.admission := by cases f <;> simp [writeTenantField]
@[simp] theorem writeTenantField_timer (t : TenantId) (f : TenantField) (v : Nat) (s : State) : (writeTenantField t f v s).timer = s.timer := by cases f <;> simp [writeTenantField]
@[simp] theorem writeTenantField_solver (t : TenantId) (f : TenantField) (v : Nat) (s : State) : (writeTenantField t f v s).solver = s.solver := by cases f <;> simp [writeTenantField]
@[simp] theorem writeTenantField_credit (t : TenantId) (f : TenantField) (v : Nat) (s : State) : (writeTenantField t f v s).credit = s.credit := by cases f <;> simp [writeTenantField]
@[simp] theorem writeTenantField_arbiter (t : TenantId) (f : TenantField) (v : Nat) (s : State) : (writeTenantField t f v s).arbiter = s.arbiter := by cases f <;> simp [writeTenantField]
@[simp] theorem writeTenantField_paths (t : TenantId) (f : TenantField) (v : Nat) (s : State) : (writeTenantField t f v s).paths = s.paths := by cases f <;> simp [writeTenantField]
@[simp] theorem writeTenantField_pairHalt (t : TenantId) (f : TenantField) (v : Nat) (s : State) : (writeTenantField t f v s).pairHalt = s.pairHalt := by cases f <;> simp [writeTenantField]
@[simp] theorem writeTenantField_control (t : TenantId) (f : TenantField) (v : Nat) (s : State) : (writeTenantField t f v s).control = s.control := by cases f <;> simp [writeTenantField]
@[simp] theorem writeTenantField_observe (t : TenantId) (f : TenantField) (v : Nat) (s : State) : (writeTenantField t f v s).observe = s.observe := by cases f <;> simp [writeTenantField]
@[simp] theorem writeTenantField_wires (t : TenantId) (f : TenantField) (v : Nat) (s : State) : (writeTenantField t f v s).wires = s.wires := by cases f <;> simp [writeTenantField]

/-! writeClassifier -/
@[simp] theorem writeClassifier_pending (i : EntryId) (w : ClassifierWrite) (s : State) : (writeClassifier i w s).pending = s.pending := by
  unfold writeClassifier
  split; · rfl
  · split <;> rfl
@[simp] theorem writeClassifier_links (i : EntryId) (w : ClassifierWrite) (s : State) : (writeClassifier i w s).links = s.links := by
  unfold writeClassifier
  split; · rfl
  · split <;> rfl
@[simp] theorem writeClassifier_admission (i : EntryId) (w : ClassifierWrite) (s : State) : (writeClassifier i w s).admission = s.admission := by
  unfold writeClassifier
  split; · rfl
  · split <;> rfl
@[simp] theorem writeClassifier_timer (i : EntryId) (w : ClassifierWrite) (s : State) : (writeClassifier i w s).timer = s.timer := by
  unfold writeClassifier
  split; · rfl
  · split <;> rfl
@[simp] theorem writeClassifier_solver (i : EntryId) (w : ClassifierWrite) (s : State) : (writeClassifier i w s).solver = s.solver := by
  unfold writeClassifier
  split; · rfl
  · split <;> rfl
@[simp] theorem writeClassifier_credit (i : EntryId) (w : ClassifierWrite) (s : State) : (writeClassifier i w s).credit = s.credit := by
  unfold writeClassifier
  split; · rfl
  · split <;> rfl
@[simp] theorem writeClassifier_arbiter (i : EntryId) (w : ClassifierWrite) (s : State) : (writeClassifier i w s).arbiter = s.arbiter := by
  unfold writeClassifier
  split; · rfl
  · split <;> rfl
@[simp] theorem writeClassifier_paths (i : EntryId) (w : ClassifierWrite) (s : State) : (writeClassifier i w s).paths = s.paths := by
  unfold writeClassifier
  split; · rfl
  · split <;> rfl
@[simp] theorem writeClassifier_records (i : EntryId) (w : ClassifierWrite) (s : State) : (writeClassifier i w s).records = s.records := by
  unfold writeClassifier
  split; · rfl
  · split <;> rfl
@[simp] theorem writeClassifier_pairHalt (i : EntryId) (w : ClassifierWrite) (s : State) : (writeClassifier i w s).pairHalt = s.pairHalt := by
  unfold writeClassifier
  split; · rfl
  · split <;> rfl
@[simp] theorem writeClassifier_control (i : EntryId) (w : ClassifierWrite) (s : State) : (writeClassifier i w s).control = s.control := by
  unfold writeClassifier
  split; · rfl
  · split <;> rfl
@[simp] theorem writeClassifier_observe (i : EntryId) (w : ClassifierWrite) (s : State) : (writeClassifier i w s).observe = s.observe := by
  unfold writeClassifier
  split; · rfl
  · split <;> rfl
@[simp] theorem writeClassifier_wires (i : EntryId) (w : ClassifierWrite) (s : State) : (writeClassifier i w s).wires = s.wires := by
  unfold writeClassifier
  split; · rfl
  · split <;> rfl

/-! writePair -/
@[simp] theorem writePair_pending (p : PairId) (w : PairWrite) (s : State) : (writePair p w s).pending = s.pending := by
  unfold writePair
  split; · rfl
  split; · rfl
  split; · rfl
  split <;> rfl
@[simp] theorem writePair_links (p : PairId) (w : PairWrite) (s : State) : (writePair p w s).links = s.links := by
  unfold writePair
  split; · rfl
  split; · rfl
  split; · rfl
  split <;> rfl
@[simp] theorem writePair_classifier (p : PairId) (w : PairWrite) (s : State) : (writePair p w s).classifier = s.classifier := by
  unfold writePair
  split; · rfl
  split; · rfl
  split; · rfl
  split <;> rfl
@[simp] theorem writePair_admission (p : PairId) (w : PairWrite) (s : State) : (writePair p w s).admission = s.admission := by
  unfold writePair
  split; · rfl
  split; · rfl
  split; · rfl
  split <;> rfl
@[simp] theorem writePair_timer (p : PairId) (w : PairWrite) (s : State) : (writePair p w s).timer = s.timer := by
  unfold writePair
  split; · rfl
  split; · rfl
  split; · rfl
  split <;> rfl
@[simp] theorem writePair_solver (p : PairId) (w : PairWrite) (s : State) : (writePair p w s).solver = s.solver := by
  unfold writePair
  split; · rfl
  split; · rfl
  split; · rfl
  split <;> rfl
@[simp] theorem writePair_credit (p : PairId) (w : PairWrite) (s : State) : (writePair p w s).credit = s.credit := by
  unfold writePair
  split; · rfl
  split; · rfl
  split; · rfl
  split <;> rfl
@[simp] theorem writePair_arbiter (p : PairId) (w : PairWrite) (s : State) : (writePair p w s).arbiter = s.arbiter := by
  unfold writePair
  split; · rfl
  split; · rfl
  split; · rfl
  split <;> rfl
@[simp] theorem writePair_paths (p : PairId) (w : PairWrite) (s : State) : (writePair p w s).paths = s.paths := by
  unfold writePair
  split; · rfl
  split; · rfl
  split; · rfl
  split <;> rfl
@[simp] theorem writePair_records (p : PairId) (w : PairWrite) (s : State) : (writePair p w s).records = s.records := by
  unfold writePair
  split; · rfl
  split; · rfl
  split; · rfl
  split <;> rfl
@[simp] theorem writePair_control (p : PairId) (w : PairWrite) (s : State) : (writePair p w s).control = s.control := by
  unfold writePair
  split; · rfl
  split; · rfl
  split; · rfl
  split <;> rfl
@[simp] theorem writePair_observe (p : PairId) (w : PairWrite) (s : State) : (writePair p w s).observe = s.observe := by
  unfold writePair
  split; · rfl
  split; · rfl
  split; · rfl
  split <;> rfl
@[simp] theorem writePair_wires (p : PairId) (w : PairWrite) (s : State) : (writePair p w s).wires = s.wires := by
  unfold writePair
  split; · rfl
  split; · rfl
  split; · rfl
  split <;> rfl

/-! writePairField -/
@[simp] theorem writePairField_pending (p : PairId) (f : PairField) (v : Nat) (s : State) : (writePairField p f v s).pending = s.pending := by cases f <;> simp [writePairField]
@[simp] theorem writePairField_links (p : PairId) (f : PairField) (v : Nat) (s : State) : (writePairField p f v s).links = s.links := by cases f <;> simp [writePairField]
@[simp] theorem writePairField_classifier (p : PairId) (f : PairField) (v : Nat) (s : State) : (writePairField p f v s).classifier = s.classifier := by cases f <;> simp [writePairField]
@[simp] theorem writePairField_admission (p : PairId) (f : PairField) (v : Nat) (s : State) : (writePairField p f v s).admission = s.admission := by cases f <;> simp [writePairField]
@[simp] theorem writePairField_timer (p : PairId) (f : PairField) (v : Nat) (s : State) : (writePairField p f v s).timer = s.timer := by cases f <;> simp [writePairField]
@[simp] theorem writePairField_solver (p : PairId) (f : PairField) (v : Nat) (s : State) : (writePairField p f v s).solver = s.solver := by cases f <;> simp [writePairField]
@[simp] theorem writePairField_credit (p : PairId) (f : PairField) (v : Nat) (s : State) : (writePairField p f v s).credit = s.credit := by cases f <;> simp [writePairField]
@[simp] theorem writePairField_arbiter (p : PairId) (f : PairField) (v : Nat) (s : State) : (writePairField p f v s).arbiter = s.arbiter := by cases f <;> simp [writePairField]
@[simp] theorem writePairField_paths (p : PairId) (f : PairField) (v : Nat) (s : State) : (writePairField p f v s).paths = s.paths := by cases f <;> simp [writePairField]
@[simp] theorem writePairField_records (p : PairId) (f : PairField) (v : Nat) (s : State) : (writePairField p f v s).records = s.records := by cases f <;> simp [writePairField]
@[simp] theorem writePairField_control (p : PairId) (f : PairField) (v : Nat) (s : State) : (writePairField p f v s).control = s.control := by cases f <;> simp [writePairField]
@[simp] theorem writePairField_observe (p : PairId) (f : PairField) (v : Nat) (s : State) : (writePairField p f v s).observe = s.observe := by cases f <;> simp [writePairField]
@[simp] theorem writePairField_wires (p : PairId) (f : PairField) (v : Nat) (s : State) : (writePairField p f v s).wires = s.wires := by cases f <;> simp [writePairField]

/-! writePage -/
@[simp] theorem writePage_pending (v : Byte) (s : State) : (writePage v s).pending = s.pending := by unfold writePage; split <;> rfl
@[simp] theorem writePage_links (v : Byte) (s : State) : (writePage v s).links = s.links := by unfold writePage; split <;> rfl
@[simp] theorem writePage_classifier (v : Byte) (s : State) : (writePage v s).classifier = s.classifier := by unfold writePage; split <;> rfl
@[simp] theorem writePage_admission (v : Byte) (s : State) : (writePage v s).admission = s.admission := by unfold writePage; split <;> rfl
@[simp] theorem writePage_timer (v : Byte) (s : State) : (writePage v s).timer = s.timer := by unfold writePage; split <;> rfl
@[simp] theorem writePage_solver (v : Byte) (s : State) : (writePage v s).solver = s.solver := by unfold writePage; split <;> rfl
@[simp] theorem writePage_credit (v : Byte) (s : State) : (writePage v s).credit = s.credit := by unfold writePage; split <;> rfl
@[simp] theorem writePage_arbiter (v : Byte) (s : State) : (writePage v s).arbiter = s.arbiter := by unfold writePage; split <;> rfl
@[simp] theorem writePage_paths (v : Byte) (s : State) : (writePage v s).paths = s.paths := by unfold writePage; split <;> rfl
@[simp] theorem writePage_records (v : Byte) (s : State) : (writePage v s).records = s.records := by unfold writePage; split <;> rfl
@[simp] theorem writePage_pairHalt (v : Byte) (s : State) : (writePage v s).pairHalt = s.pairHalt := by unfold writePage; split <;> rfl
@[simp] theorem writePage_control (v : Byte) (s : State) : (writePage v s).control = s.control := by unfold writePage; split <;> rfl
@[simp] theorem writePage_observe (v : Byte) (s : State) : (writePage v s).observe = s.observe := by unfold writePage; split <;> rfl
@[simp] theorem writePage_wires (v : Byte) (s : State) : (writePage v s).wires = s.wires := by unfold writePage; split <;> rfl

/-! writeIndex -/
@[simp] theorem writeIndex_pending (v : Byte) (s : State) : (writeIndex v s).pending = s.pending := by
  unfold writeIndex
  split; · split <;> rfl
  · rfl
@[simp] theorem writeIndex_links (v : Byte) (s : State) : (writeIndex v s).links = s.links := by
  unfold writeIndex
  split; · split <;> rfl
  · rfl
@[simp] theorem writeIndex_classifier (v : Byte) (s : State) : (writeIndex v s).classifier = s.classifier := by
  unfold writeIndex
  split; · split <;> rfl
  · rfl
@[simp] theorem writeIndex_admission (v : Byte) (s : State) : (writeIndex v s).admission = s.admission := by
  unfold writeIndex
  split; · split <;> rfl
  · rfl
@[simp] theorem writeIndex_timer (v : Byte) (s : State) : (writeIndex v s).timer = s.timer := by
  unfold writeIndex
  split; · split <;> rfl
  · rfl
@[simp] theorem writeIndex_solver (v : Byte) (s : State) : (writeIndex v s).solver = s.solver := by
  unfold writeIndex
  split; · split <;> rfl
  · rfl
@[simp] theorem writeIndex_credit (v : Byte) (s : State) : (writeIndex v s).credit = s.credit := by
  unfold writeIndex
  split; · split <;> rfl
  · rfl
@[simp] theorem writeIndex_arbiter (v : Byte) (s : State) : (writeIndex v s).arbiter = s.arbiter := by
  unfold writeIndex
  split; · split <;> rfl
  · rfl
@[simp] theorem writeIndex_paths (v : Byte) (s : State) : (writeIndex v s).paths = s.paths := by
  unfold writeIndex
  split; · split <;> rfl
  · rfl
@[simp] theorem writeIndex_records (v : Byte) (s : State) : (writeIndex v s).records = s.records := by
  unfold writeIndex
  split; · split <;> rfl
  · rfl
@[simp] theorem writeIndex_pairHalt (v : Byte) (s : State) : (writeIndex v s).pairHalt = s.pairHalt := by
  unfold writeIndex
  split; · split <;> rfl
  · rfl
@[simp] theorem writeIndex_control (v : Byte) (s : State) : (writeIndex v s).control = s.control := by
  unfold writeIndex
  split; · split <;> rfl
  · rfl
@[simp] theorem writeIndex_observe (v : Byte) (s : State) : (writeIndex v s).observe = s.observe := by
  unfold writeIndex
  split; · split <;> rfl
  · rfl
@[simp] theorem writeIndex_wires (v : Byte) (s : State) : (writeIndex v s).wires = s.wires := by
  unfold writeIndex
  split; · split <;> rfl
  · rfl

/-! writeStatus -/
@[simp] theorem writeStatus_pending (v : Byte) (s : State) : (writeStatus v s).pending = s.pending := by unfold writeStatus; split <;> rfl
@[simp] theorem writeStatus_links (v : Byte) (s : State) : (writeStatus v s).links = s.links := by unfold writeStatus; split <;> rfl
@[simp] theorem writeStatus_classifier (v : Byte) (s : State) : (writeStatus v s).classifier = s.classifier := by unfold writeStatus; split <;> rfl
@[simp] theorem writeStatus_admission (v : Byte) (s : State) : (writeStatus v s).admission = s.admission := by unfold writeStatus; split <;> rfl
@[simp] theorem writeStatus_timer (v : Byte) (s : State) : (writeStatus v s).timer = s.timer := by unfold writeStatus; split <;> rfl
@[simp] theorem writeStatus_solver (v : Byte) (s : State) : (writeStatus v s).solver = s.solver := by unfold writeStatus; split <;> rfl
@[simp] theorem writeStatus_credit (v : Byte) (s : State) : (writeStatus v s).credit = s.credit := by unfold writeStatus; split <;> rfl
@[simp] theorem writeStatus_arbiter (v : Byte) (s : State) : (writeStatus v s).arbiter = s.arbiter := by unfold writeStatus; split <;> rfl
@[simp] theorem writeStatus_paths (v : Byte) (s : State) : (writeStatus v s).paths = s.paths := by unfold writeStatus; split <;> rfl
@[simp] theorem writeStatus_records (v : Byte) (s : State) : (writeStatus v s).records = s.records := by unfold writeStatus; split <;> rfl
@[simp] theorem writeStatus_pairHalt (v : Byte) (s : State) : (writeStatus v s).pairHalt = s.pairHalt := by unfold writeStatus; split <;> rfl
@[simp] theorem writeStatus_control (v : Byte) (s : State) : (writeStatus v s).control = s.control := by unfold writeStatus; split <;> rfl
@[simp] theorem writeStatus_observe (v : Byte) (s : State) : (writeStatus v s).observe = s.observe := by unfold writeStatus; split <;> rfl
@[simp] theorem writeStatus_wires (v : Byte) (s : State) : (writeStatus v s).wires = s.wires := by unfold writeStatus; split <;> rfl

/-! writeAlertFlags -/
@[simp] theorem writeAlertFlags_pending (v : Byte) (s : State) : (writeAlertFlags v s).pending = s.pending := rfl
@[simp] theorem writeAlertFlags_links (v : Byte) (s : State) : (writeAlertFlags v s).links = s.links := rfl
@[simp] theorem writeAlertFlags_classifier (v : Byte) (s : State) : (writeAlertFlags v s).classifier = s.classifier := rfl
@[simp] theorem writeAlertFlags_admission (v : Byte) (s : State) : (writeAlertFlags v s).admission = s.admission := rfl
@[simp] theorem writeAlertFlags_timer (v : Byte) (s : State) : (writeAlertFlags v s).timer = s.timer := rfl
@[simp] theorem writeAlertFlags_solver (v : Byte) (s : State) : (writeAlertFlags v s).solver = s.solver := rfl
@[simp] theorem writeAlertFlags_credit (v : Byte) (s : State) : (writeAlertFlags v s).credit = s.credit := rfl
@[simp] theorem writeAlertFlags_arbiter (v : Byte) (s : State) : (writeAlertFlags v s).arbiter = s.arbiter := rfl
@[simp] theorem writeAlertFlags_paths (v : Byte) (s : State) : (writeAlertFlags v s).paths = s.paths := rfl
@[simp] theorem writeAlertFlags_records (v : Byte) (s : State) : (writeAlertFlags v s).records = s.records := rfl
@[simp] theorem writeAlertFlags_pairHalt (v : Byte) (s : State) : (writeAlertFlags v s).pairHalt = s.pairHalt := rfl
@[simp] theorem writeAlertFlags_control (v : Byte) (s : State) : (writeAlertFlags v s).control = s.control := rfl
@[simp] theorem writeAlertFlags_port (v : Byte) (s : State) : (writeAlertFlags v s).port = s.port := rfl
@[simp] theorem writeAlertFlags_wires (v : Byte) (s : State) : (writeAlertFlags v s).wires = s.wires := rfl

/-! writeAlertEnables -/
@[simp] theorem writeAlertEnables_pending (v : Byte) (s : State) : (writeAlertEnables v s).pending = s.pending := rfl
@[simp] theorem writeAlertEnables_links (v : Byte) (s : State) : (writeAlertEnables v s).links = s.links := rfl
@[simp] theorem writeAlertEnables_classifier (v : Byte) (s : State) : (writeAlertEnables v s).classifier = s.classifier := rfl
@[simp] theorem writeAlertEnables_admission (v : Byte) (s : State) : (writeAlertEnables v s).admission = s.admission := rfl
@[simp] theorem writeAlertEnables_timer (v : Byte) (s : State) : (writeAlertEnables v s).timer = s.timer := rfl
@[simp] theorem writeAlertEnables_solver (v : Byte) (s : State) : (writeAlertEnables v s).solver = s.solver := rfl
@[simp] theorem writeAlertEnables_credit (v : Byte) (s : State) : (writeAlertEnables v s).credit = s.credit := rfl
@[simp] theorem writeAlertEnables_arbiter (v : Byte) (s : State) : (writeAlertEnables v s).arbiter = s.arbiter := rfl
@[simp] theorem writeAlertEnables_paths (v : Byte) (s : State) : (writeAlertEnables v s).paths = s.paths := rfl
@[simp] theorem writeAlertEnables_records (v : Byte) (s : State) : (writeAlertEnables v s).records = s.records := rfl
@[simp] theorem writeAlertEnables_pairHalt (v : Byte) (s : State) : (writeAlertEnables v s).pairHalt = s.pairHalt := rfl
@[simp] theorem writeAlertEnables_control (v : Byte) (s : State) : (writeAlertEnables v s).control = s.control := rfl
@[simp] theorem writeAlertEnables_port (v : Byte) (s : State) : (writeAlertEnables v s).port = s.port := rfl
@[simp] theorem writeAlertEnables_wires (v : Byte) (s : State) : (writeAlertEnables v s).wires = s.wires := rfl

/-! clearLinkCount -/
@[simp] theorem clearLinkCount_pending (p : FabricPort) (s : State) : (clearLinkCount p s).pending = s.pending := by cases p <;> rfl
@[simp] theorem clearLinkCount_classifier (p : FabricPort) (s : State) : (clearLinkCount p s).classifier = s.classifier := by cases p <;> rfl
@[simp] theorem clearLinkCount_admission (p : FabricPort) (s : State) : (clearLinkCount p s).admission = s.admission := by cases p <;> rfl
@[simp] theorem clearLinkCount_timer (p : FabricPort) (s : State) : (clearLinkCount p s).timer = s.timer := by cases p <;> rfl
@[simp] theorem clearLinkCount_solver (p : FabricPort) (s : State) : (clearLinkCount p s).solver = s.solver := by cases p <;> rfl
@[simp] theorem clearLinkCount_credit (p : FabricPort) (s : State) : (clearLinkCount p s).credit = s.credit := by cases p <;> rfl
@[simp] theorem clearLinkCount_arbiter (p : FabricPort) (s : State) : (clearLinkCount p s).arbiter = s.arbiter := by cases p <;> rfl
@[simp] theorem clearLinkCount_paths (p : FabricPort) (s : State) : (clearLinkCount p s).paths = s.paths := by cases p <;> rfl
@[simp] theorem clearLinkCount_records (p : FabricPort) (s : State) : (clearLinkCount p s).records = s.records := by cases p <;> rfl
@[simp] theorem clearLinkCount_pairHalt (p : FabricPort) (s : State) : (clearLinkCount p s).pairHalt = s.pairHalt := by cases p <;> rfl
@[simp] theorem clearLinkCount_control (p : FabricPort) (s : State) : (clearLinkCount p s).control = s.control := by cases p <;> rfl
@[simp] theorem clearLinkCount_observe (p : FabricPort) (s : State) : (clearLinkCount p s).observe = s.observe := by cases p <;> rfl
@[simp] theorem clearLinkCount_port (p : FabricPort) (s : State) : (clearLinkCount p s).port = s.port := by cases p <;> rfl
@[simp] theorem clearLinkCount_wires (p : FabricPort) (s : State) : (clearLinkCount p s).wires = s.wires := by cases p <;> rfl

/-! clearGlobalCounter -/
@[simp] theorem clearGlobalCounter_pending (c : GlobalCounter) (s : State) : (clearGlobalCounter c s).pending = s.pending := by cases c <;> rfl
@[simp] theorem clearGlobalCounter_links (c : GlobalCounter) (s : State) : (clearGlobalCounter c s).links = s.links := by cases c <;> rfl
@[simp] theorem clearGlobalCounter_classifier (c : GlobalCounter) (s : State) : (clearGlobalCounter c s).classifier = s.classifier := by cases c <;> rfl
@[simp] theorem clearGlobalCounter_admission (c : GlobalCounter) (s : State) : (clearGlobalCounter c s).admission = s.admission := by cases c <;> rfl
@[simp] theorem clearGlobalCounter_timer (c : GlobalCounter) (s : State) : (clearGlobalCounter c s).timer = s.timer := by cases c <;> rfl
@[simp] theorem clearGlobalCounter_solver (c : GlobalCounter) (s : State) : (clearGlobalCounter c s).solver = s.solver := by cases c <;> rfl
@[simp] theorem clearGlobalCounter_credit (c : GlobalCounter) (s : State) : (clearGlobalCounter c s).credit = s.credit := by cases c <;> rfl
@[simp] theorem clearGlobalCounter_arbiter (c : GlobalCounter) (s : State) : (clearGlobalCounter c s).arbiter = s.arbiter := by cases c <;> rfl
@[simp] theorem clearGlobalCounter_paths (c : GlobalCounter) (s : State) : (clearGlobalCounter c s).paths = s.paths := by cases c <;> rfl
@[simp] theorem clearGlobalCounter_records (c : GlobalCounter) (s : State) : (clearGlobalCounter c s).records = s.records := by cases c <;> rfl
@[simp] theorem clearGlobalCounter_pairHalt (c : GlobalCounter) (s : State) : (clearGlobalCounter c s).pairHalt = s.pairHalt := by cases c <;> rfl
@[simp] theorem clearGlobalCounter_control (c : GlobalCounter) (s : State) : (clearGlobalCounter c s).control = s.control := by cases c <;> rfl
@[simp] theorem clearGlobalCounter_port (c : GlobalCounter) (s : State) : (clearGlobalCounter c s).port = s.port := by cases c <;> rfl
@[simp] theorem clearGlobalCounter_wires (c : GlobalCounter) (s : State) : (clearGlobalCounter c s).wires = s.wires := by cases c <;> rfl

/-! advancePointer -/
@[simp] theorem advancePointer_pending (s : State) : (advancePointer s).pending = s.pending := rfl
@[simp] theorem advancePointer_links (s : State) : (advancePointer s).links = s.links := rfl
@[simp] theorem advancePointer_classifier (s : State) : (advancePointer s).classifier = s.classifier := rfl
@[simp] theorem advancePointer_admission (s : State) : (advancePointer s).admission = s.admission := rfl
@[simp] theorem advancePointer_timer (s : State) : (advancePointer s).timer = s.timer := rfl
@[simp] theorem advancePointer_solver (s : State) : (advancePointer s).solver = s.solver := rfl
@[simp] theorem advancePointer_credit (s : State) : (advancePointer s).credit = s.credit := rfl
@[simp] theorem advancePointer_arbiter (s : State) : (advancePointer s).arbiter = s.arbiter := rfl
@[simp] theorem advancePointer_paths (s : State) : (advancePointer s).paths = s.paths := rfl
@[simp] theorem advancePointer_records (s : State) : (advancePointer s).records = s.records := rfl
@[simp] theorem advancePointer_pairHalt (s : State) : (advancePointer s).pairHalt = s.pairHalt := rfl
@[simp] theorem advancePointer_control (s : State) : (advancePointer s).control = s.control := rfl
@[simp] theorem advancePointer_observe (s : State) : (advancePointer s).observe = s.observe := rfl
@[simp] theorem advancePointer_wires (s : State) : (advancePointer s).wires = s.wires := rfl

/-! driveBus -/
@[simp] theorem driveBus_pending (o : BusOutput) (s : State) : (driveBus o s).pending = s.pending := rfl
@[simp] theorem driveBus_links (o : BusOutput) (s : State) : (driveBus o s).links = s.links := rfl
@[simp] theorem driveBus_classifier (o : BusOutput) (s : State) : (driveBus o s).classifier = s.classifier := rfl
@[simp] theorem driveBus_admission (o : BusOutput) (s : State) : (driveBus o s).admission = s.admission := rfl
@[simp] theorem driveBus_timer (o : BusOutput) (s : State) : (driveBus o s).timer = s.timer := rfl
@[simp] theorem driveBus_solver (o : BusOutput) (s : State) : (driveBus o s).solver = s.solver := rfl
@[simp] theorem driveBus_credit (o : BusOutput) (s : State) : (driveBus o s).credit = s.credit := rfl
@[simp] theorem driveBus_arbiter (o : BusOutput) (s : State) : (driveBus o s).arbiter = s.arbiter := rfl
@[simp] theorem driveBus_paths (o : BusOutput) (s : State) : (driveBus o s).paths = s.paths := rfl
@[simp] theorem driveBus_records (o : BusOutput) (s : State) : (driveBus o s).records = s.records := rfl
@[simp] theorem driveBus_pairHalt (o : BusOutput) (s : State) : (driveBus o s).pairHalt = s.pairHalt := rfl
@[simp] theorem driveBus_control (o : BusOutput) (s : State) : (driveBus o s).control = s.control := rfl
@[simp] theorem driveBus_observe (o : BusOutput) (s : State) : (driveBus o s).observe = s.observe := rfl
@[simp] theorem driveBus_port (o : BusOutput) (s : State) : (driveBus o s).port = s.port := rfl

/-! clearOnRead -/
@[simp] theorem clearOnRead_pending (f : Option Field) (s : State) : (clearOnRead f s).pending = s.pending := by unfold clearOnRead; split <;> rfl
@[simp] theorem clearOnRead_links (f : Option Field) (s : State) : (clearOnRead f s).links = s.links := by unfold clearOnRead; split <;> rfl
@[simp] theorem clearOnRead_classifier (f : Option Field) (s : State) : (clearOnRead f s).classifier = s.classifier := by unfold clearOnRead; split <;> rfl
@[simp] theorem clearOnRead_admission (f : Option Field) (s : State) : (clearOnRead f s).admission = s.admission := by unfold clearOnRead; split <;> rfl
@[simp] theorem clearOnRead_timer (f : Option Field) (s : State) : (clearOnRead f s).timer = s.timer := by unfold clearOnRead; split <;> rfl
@[simp] theorem clearOnRead_solver (f : Option Field) (s : State) : (clearOnRead f s).solver = s.solver := by unfold clearOnRead; split <;> rfl
@[simp] theorem clearOnRead_credit (f : Option Field) (s : State) : (clearOnRead f s).credit = s.credit := by unfold clearOnRead; split <;> rfl
@[simp] theorem clearOnRead_arbiter (f : Option Field) (s : State) : (clearOnRead f s).arbiter = s.arbiter := by unfold clearOnRead; split <;> rfl
@[simp] theorem clearOnRead_paths (f : Option Field) (s : State) : (clearOnRead f s).paths = s.paths := by unfold clearOnRead; split <;> rfl
@[simp] theorem clearOnRead_records (f : Option Field) (s : State) : (clearOnRead f s).records = s.records := by unfold clearOnRead; split <;> rfl
@[simp] theorem clearOnRead_pairHalt (f : Option Field) (s : State) : (clearOnRead f s).pairHalt = s.pairHalt := by unfold clearOnRead; split <;> rfl
@[simp] theorem clearOnRead_control (f : Option Field) (s : State) : (clearOnRead f s).control = s.control := by unfold clearOnRead; split <;> rfl
@[simp] theorem clearOnRead_port (f : Option Field) (s : State) : (clearOnRead f s).port = s.port := by unfold clearOnRead; split <;> rfl
@[simp] theorem clearOnRead_wires (f : Option Field) (s : State) : (clearOnRead f s).wires = s.wires := by unfold clearOnRead; split <;> rfl

/-! dataByteSent -/
@[simp] theorem dataByteSent_pending (a : Bool) (s : State) : (dataByteSent a s).pending = s.pending := by simp [dataByteSent]
@[simp] theorem dataByteSent_links (a : Bool) (s : State) : (dataByteSent a s).links = s.links := by simp [dataByteSent]
@[simp] theorem dataByteSent_classifier (a : Bool) (s : State) : (dataByteSent a s).classifier = s.classifier := by simp [dataByteSent]
@[simp] theorem dataByteSent_admission (a : Bool) (s : State) : (dataByteSent a s).admission = s.admission := by simp [dataByteSent]
@[simp] theorem dataByteSent_timer (a : Bool) (s : State) : (dataByteSent a s).timer = s.timer := by simp [dataByteSent]
@[simp] theorem dataByteSent_solver (a : Bool) (s : State) : (dataByteSent a s).solver = s.solver := by simp [dataByteSent]
@[simp] theorem dataByteSent_credit (a : Bool) (s : State) : (dataByteSent a s).credit = s.credit := by simp [dataByteSent]
@[simp] theorem dataByteSent_arbiter (a : Bool) (s : State) : (dataByteSent a s).arbiter = s.arbiter := by simp [dataByteSent]
@[simp] theorem dataByteSent_paths (a : Bool) (s : State) : (dataByteSent a s).paths = s.paths := by simp [dataByteSent]
@[simp] theorem dataByteSent_records (a : Bool) (s : State) : (dataByteSent a s).records = s.records := by simp [dataByteSent]
@[simp] theorem dataByteSent_pairHalt (a : Bool) (s : State) : (dataByteSent a s).pairHalt = s.pairHalt := by simp [dataByteSent]
@[simp] theorem dataByteSent_control (a : Bool) (s : State) : (dataByteSent a s).control = s.control := by simp [dataByteSent]

/-! startTransfer -/
@[simp] theorem startTransfer_pending (g : BitVec 7) (d : Direction) (s : State) : (startTransfer g d s).pending = s.pending := by unfold startTransfer; simp only; split <;> rfl
@[simp] theorem startTransfer_links (g : BitVec 7) (d : Direction) (s : State) : (startTransfer g d s).links = s.links := by unfold startTransfer; simp only; split <;> rfl
@[simp] theorem startTransfer_classifier (g : BitVec 7) (d : Direction) (s : State) : (startTransfer g d s).classifier = s.classifier := by unfold startTransfer; simp only; split <;> rfl
@[simp] theorem startTransfer_admission (g : BitVec 7) (d : Direction) (s : State) : (startTransfer g d s).admission = s.admission := by unfold startTransfer; simp only; split <;> rfl
@[simp] theorem startTransfer_timer (g : BitVec 7) (d : Direction) (s : State) : (startTransfer g d s).timer = s.timer := by unfold startTransfer; simp only; split <;> rfl
@[simp] theorem startTransfer_solver (g : BitVec 7) (d : Direction) (s : State) : (startTransfer g d s).solver = s.solver := by unfold startTransfer; simp only; split <;> rfl
@[simp] theorem startTransfer_credit (g : BitVec 7) (d : Direction) (s : State) : (startTransfer g d s).credit = s.credit := by unfold startTransfer; simp only; split <;> rfl
@[simp] theorem startTransfer_arbiter (g : BitVec 7) (d : Direction) (s : State) : (startTransfer g d s).arbiter = s.arbiter := by unfold startTransfer; simp only; split <;> rfl
@[simp] theorem startTransfer_paths (g : BitVec 7) (d : Direction) (s : State) : (startTransfer g d s).paths = s.paths := by unfold startTransfer; simp only; split <;> rfl
@[simp] theorem startTransfer_records (g : BitVec 7) (d : Direction) (s : State) : (startTransfer g d s).records = s.records := by unfold startTransfer; simp only; split <;> rfl
@[simp] theorem startTransfer_pairHalt (g : BitVec 7) (d : Direction) (s : State) : (startTransfer g d s).pairHalt = s.pairHalt := by unfold startTransfer; simp only; split <;> rfl
@[simp] theorem startTransfer_control (g : BitVec 7) (d : Direction) (s : State) : (startTransfer g d s).control = s.control := by unfold startTransfer; simp only; split <;> rfl
@[simp] theorem startTransfer_observe (g : BitVec 7) (d : Direction) (s : State) : (startTransfer g d s).observe = s.observe := by unfold startTransfer; simp only; split <;> rfl

/-! stopTransfer -/
@[simp] theorem stopTransfer_pending (s : State) : (stopTransfer s).pending = s.pending := rfl
@[simp] theorem stopTransfer_links (s : State) : (stopTransfer s).links = s.links := rfl
@[simp] theorem stopTransfer_classifier (s : State) : (stopTransfer s).classifier = s.classifier := rfl
@[simp] theorem stopTransfer_admission (s : State) : (stopTransfer s).admission = s.admission := rfl
@[simp] theorem stopTransfer_timer (s : State) : (stopTransfer s).timer = s.timer := rfl
@[simp] theorem stopTransfer_solver (s : State) : (stopTransfer s).solver = s.solver := rfl
@[simp] theorem stopTransfer_credit (s : State) : (stopTransfer s).credit = s.credit := rfl
@[simp] theorem stopTransfer_arbiter (s : State) : (stopTransfer s).arbiter = s.arbiter := rfl
@[simp] theorem stopTransfer_paths (s : State) : (stopTransfer s).paths = s.paths := rfl
@[simp] theorem stopTransfer_records (s : State) : (stopTransfer s).records = s.records := rfl
@[simp] theorem stopTransfer_pairHalt (s : State) : (stopTransfer s).pairHalt = s.pairHalt := rfl
@[simp] theorem stopTransfer_control (s : State) : (stopTransfer s).control = s.control := rfl
@[simp] theorem stopTransfer_observe (s : State) : (stopTransfer s).observe = s.observe := rfl
@[simp] theorem stopTransfer_wires (s : State) : (stopTransfer s).wires = s.wires := rfl

/-! takePointer -/
@[simp] theorem takePointer_pending (b : Byte) (s : State) : (takePointer b s).pending = s.pending := by unfold takePointer; split <;> rfl
@[simp] theorem takePointer_links (b : Byte) (s : State) : (takePointer b s).links = s.links := by unfold takePointer; split <;> rfl
@[simp] theorem takePointer_classifier (b : Byte) (s : State) : (takePointer b s).classifier = s.classifier := by unfold takePointer; split <;> rfl
@[simp] theorem takePointer_admission (b : Byte) (s : State) : (takePointer b s).admission = s.admission := by unfold takePointer; split <;> rfl
@[simp] theorem takePointer_timer (b : Byte) (s : State) : (takePointer b s).timer = s.timer := by unfold takePointer; split <;> rfl
@[simp] theorem takePointer_solver (b : Byte) (s : State) : (takePointer b s).solver = s.solver := by unfold takePointer; split <;> rfl
@[simp] theorem takePointer_credit (b : Byte) (s : State) : (takePointer b s).credit = s.credit := by unfold takePointer; split <;> rfl
@[simp] theorem takePointer_arbiter (b : Byte) (s : State) : (takePointer b s).arbiter = s.arbiter := by unfold takePointer; split <;> rfl
@[simp] theorem takePointer_paths (b : Byte) (s : State) : (takePointer b s).paths = s.paths := by unfold takePointer; split <;> rfl
@[simp] theorem takePointer_records (b : Byte) (s : State) : (takePointer b s).records = s.records := by unfold takePointer; split <;> rfl
@[simp] theorem takePointer_pairHalt (b : Byte) (s : State) : (takePointer b s).pairHalt = s.pairHalt := by unfold takePointer; split <;> rfl
@[simp] theorem takePointer_control (b : Byte) (s : State) : (takePointer b s).control = s.control := by unfold takePointer; split <;> rfl
@[simp] theorem takePointer_observe (b : Byte) (s : State) : (takePointer b s).observe = s.observe := by unfold takePointer; split <;> rfl

end Sys2Proof.Machine
end

