-- ==== Sys2Proof/Laws/Ops.lean ====
section
/-! SUPPORT. What each shared operation can do, said once: the tests read as propositions, the discards in closed form, and for each operation with a choice the cases it has. -/

namespace Sys2Proof.Machine

/-! ### Arguments and the port -/

theorem tenantOf_of_val {v : Byte} {t : TenantId} (h : v.toNat = t.val) : tenantOf v = some t := by
  simp [tenantOf, h]

theorem tenantOf_of_ge {v : Byte} (h : 24 ≤ v.toNat) : tenantOf v = none := by
  rw [tenantOf, dif_neg (by omega)]

theorem pairOf_of_val {v : Byte} {p : PairId} (h : v.toNat = p.val) : pairOf v = some p := by
  simp [pairOf, h]

theorem pairOf_of_ge {v : Byte} (h : 8 ≤ v.toNat) : pairOf v = none := by
  rw [pairOf, dif_neg (by omega)]

/-- A field whose last byte has been taken leaves the port after the field. -/
theorem dataByteTaken_eq (f : Field) (s : State) :
    dataByteTaken f s = written ((fieldPlace f).1 + (fieldPlace f).2) s := rfl

/-- A command's write of CMD leaves the port as a taken command. -/
theorem issueCommand_eq (code arg : Byte) (s : State) :
    issueCommand code arg s = commandEvent code (commandTaken arg s) := rfl

/-! ### Tests as propositions -/

theorem quiet_iff (s : State) (t : TenantId) : quiet s t = true ↔ IsQuiet s t := by
  simp [quiet, IsQuiet]

theorem entryQuiet_iff (s : State) (e : ClassifierEntry) :
    entryQuiet s e = true ↔ (e.valid = true → IsQuiet s e.tenant) := by
  cases h : e.valid <;> simp [entryQuiet, h, quiet_iff]

theorem pairQuiet_iff (s : State) (e : PairEntry) :
    pairQuiet s e = true ↔ (e.valid = true → IsQuiet s e.primary ∧ IsQuiet s e.secondary) := by
  cases h : e.valid <;> simp [pairQuiet, h, quiet_iff]

theorem pairNames_iff (e : PairEntry) (t : TenantId) : pairNames e t = true ↔ e.primary = t ∨ e.secondary = t := by
  simp [pairNames]

theorem pairedElsewhere_iff (s : State) (p : PairId) (t : TenantId) :
    pairedElsewhere s p t = true ↔ NamedElsewhere s p t := by
  simp [pairedElsewhere, NamedElsewhere, pairNames_iff, List.any_eq_true, and_assoc]

theorem floorSum_eq (s : State) : floorSum s = floorsHeld s := sumOver_toList s.records countedFloor

theorem heldByHalt_iff (s : State) (t : TenantId) :
    heldByHalt s t = true ↔ s.pairHalt.haltCondition = true ∧ (recordAt s t).attrs.haltable = true := by
  simp [heldByHalt]

/-- A tenant has nothing outstanding exactly when no entry in use names it. -/
theorem outstandingCount_eq_zero (s : State) (t : TenantId) :
    outstandingCount s t = 0 ↔ ∀ k e, s.paths.entries.get k = some e → e.tenant ≠ t := by
  rw [outstandingCount, List.countP_eq_zero]
  constructor
  · intro h k e he hn
    exact h _ (Table.mem_toList.2 ⟨k, he⟩) (by simp [entryOf, hn])
  · intro h o ho
    obtain ⟨k, rfl⟩ := Table.mem_toList.1 ho
    cases he : s.paths.entries.get k with
    | none => simp [entryOf]
    | some e => simpa [entryOf] using h k e he

theorem drainDone_iff (s : State) (t : TenantId) : drainDone s t = true ↔ DrainFinished s t := by
  simp [drainDone, DrainFinished, List.all_eq_true, outstandingCount_eq_zero, and_assoc]

theorem settlePasses_iff (s : State) (p : PairId) : settlePasses s p = true ↔
    (s.pairHalt.pairs.get p).valid = true ∧ (s.pairHalt.pairs.get p).inGuard = true ∧
      (s.pairHalt.pairs.get p).counter = 0 ∧
      outstandingWrites s (inactiveTenant (s.pairHalt.pairs.get p)) = 0 := by
  simp [settlePasses, and_assoc]

theorem gateOpen_iff (s : State) (t : TenantId) : gateOpen s t = true ↔ GateIsOpen s t := by
  rw [gateOpen, Table.all_toList]
  refine forall_congr' fun p => ?_
  generalize s.pairHalt.pairs.get p = e
  obtain ⟨valid, primary, secondary, active, guard, inGuard, counter⟩ := e
  cases valid <;> cases inGuard <;> cases active <;>
    simp [entryOpens, pairNames, activeTenant] <;> tauto

theorem stateReleases_iff (r : TenantRecord) (d : Descriptor) :
    stateReleases r d = true ↔ r.state = .active ∨ (r.state = .draining ∧ d.parked = false) := by
  simp [stateReleases]

theorem barrierOpen_iff (s : State) (d : Descriptor) : barrierOpen s d = true ↔
    (d.kind = .flush → ∀ x ∈ s.paths.orderLists.get d.requester.toFin, older x d.stamp = false) := by
  cases h : d.kind <;> simp [barrierOpen, h, List.all_eq_true]

theorem gatesPass_iff (s : State) (t : TenantId) (fromWq : Bool) (d : Descriptor) :
    gatesPass s t fromWq d = true ↔ ReleaseGates s t fromWq d := by
  have h : gatesPass s t fromWq d = true ↔ stateReleases (recordAt s t) d = true ∧ ¬heldByHalt s t = true ∧
      (fromWq = true → gateOpen s t = true) ∧ barrierOpen s d = true := by
    cases fromWq <;> simp [gatesPass, and_assoc]
  rw [h, stateReleases_iff, heldByHalt_iff, gateOpen_iff, barrierOpen_iff, ReleaseGates]

theorem headAged_iff (s : State) (t : TenantId) (d : Descriptor) : headAged s t d = true ↔ Aged s t d := by
  simp [headAged, Aged]

theorem canPay_iff (s : State) (t : TenantId) (d : Descriptor) : canPay s t d = true ↔ CanPay s t d := by
  simp only [canPay, CanPay, Bool.or_eq_true, Bool.and_eq_true, headAged_iff, sparePays, SpareCanPay,
    decide_eq_true_eq]

theorem headPasses_iff (s : State) (t : TenantId) (fromWq : Bool) (d : Descriptor) :
    headPasses s t fromWq d = true ↔ ReleaseGates s t fromWq d ∧ (s.control.mode = .govern → CanPay s t d) ∧
      (s.control.mode = .hold → (creditAt s t).settings.exempt = true) := by
  rw [headPasses, Bool.and_eq_true, gatesPass_iff]
  cases h : s.control.mode <;> simp [canPay_iff]

/-- A presented head is an eligible one. -/
theorem presented_iff (s : State) (t : TenantId) (fromWq : Bool) (c : Candidate) :
    presented s t fromWq (if fromWq then (queuesAt s t).wq else (queuesAt s t).rq) = some c ↔
      ∃ d, Eligible s t fromWq d ∧ c = ⟨t, fromWq, d⟩ := by
  have hh : ∀ d, headOf s t fromWq = some d ↔
      (if fromWq then (queuesAt s t).wq else (queuesAt s t).rq).head? = some d := by
    intro d; cases fromWq <;> rfl
  simp only [Eligible, hh]
  generalize (if fromWq then (queuesAt s t).wq else (queuesAt s t).rq) = l
  cases l with
  | nil => simp [presented]
  | cons d rest =>
    by_cases hp : headPasses s t fromWq d = true
    · rw [presented, if_pos hp]
      rw [headPasses_iff] at hp
      simp only [List.head?_cons, Option.some.injEq]
      exact ⟨fun h => ⟨d, ⟨rfl, hp⟩, h.symm⟩, fun ⟨_, ⟨h1, _⟩, h2⟩ => by subst h1; exact h2.symm⟩
    · rw [presented, if_neg hp]
      rw [headPasses_iff] at hp
      simp only [List.head?_cons, Option.some.injEq]
      exact ⟨nofun, fun ⟨_, ⟨h1, h3⟩, _⟩ => absurd (h1 ▸ h3) hp⟩

/-! ### Stamps and discards -/

theorem insertByStamp_perm (d : Descriptor) (l : List Descriptor) : (insertByStamp d l).Perm (d :: l) := by
  induction l with
  | nil => exact .refl _
  | cons e rest ih =>
    rw [insertByStamp]
    split
    · exact (ih.cons e).trans (.swap d e rest)
    · exact .refl _

/-- Ordering by stamp keeps every descriptor. -/
theorem byStamp_perm (ds : List Descriptor) : (byStamp ds).Perm ds := by
  induction ds with
  | nil => exact .refl _
  | cons d ds ih => exact (insertByStamp_perm d _).trans (ih.cons d)

/-- Within half the serial range, older is less from a common base. -/
theorem older_iff_of_near {base a b : Stamp} (ha : (a - base).toNat < 2147483648) (hb : (b - base).toNat < 2147483648) :
    older a b = true ↔ (a - base).toNat < (b - base).toNat := by
  have e : b - a = (b - base) - (a - base) := by bv_omega
  rw [older, Bool.and_eq_true, decide_eq_true_eq, decide_eq_true_eq, e]
  generalize a - base = x at *
  generalize b - base = y at *
  constructor
  · rintro ⟨h1, h2⟩
    rw [BitVec.toNat_sub] at h1 h2
    omega
  · intro h
    rw [BitVec.toNat_sub]
    omega

theorem insertByStamp_sorted {base : Stamp} {d : Descriptor} {l : List Descriptor}
    (hd : (d.stamp - base).toNat < 2147483648) (hl : ∀ e ∈ l, (e.stamp - base).toNat < 2147483648)
    (h : l.Pairwise fun a b => (a.stamp - base).toNat ≤ (b.stamp - base).toNat) :
    (insertByStamp d l).Pairwise fun a b => (a.stamp - base).toNat ≤ (b.stamp - base).toNat := by
  induction l with
  | nil => simp [insertByStamp]
  | cons e rest ih =>
    rw [List.pairwise_cons] at h
    have he := hl e (by simp)
    rw [insertByStamp]
    split
    · rename_i ho
      rw [older_iff_of_near he hd] at ho
      refine List.pairwise_cons.2 ⟨fun b hb => ?_, ih (fun c hc => hl c (by simp [hc])) h.2⟩
      rcases List.mem_cons.1 ((insertByStamp_perm d rest).subset hb) with rfl | hb
      · exact Nat.le_of_lt ho
      · exact h.1 b hb
    · rename_i ho
      rw [older_iff_of_near he hd] at ho
      refine List.pairwise_cons.2 ⟨fun b hb => ?_, List.pairwise_cons.2 h⟩
      rcases List.mem_cons.1 hb with rfl | hb
      · omega
      · have := h.1 b hb; omega

/-- Ordering by stamp gives stamp order, oldest first. -/
theorem byStamp_inStampOrder (ds : List Descriptor) : InStampOrder ds (byStamp ds) := by
  refine ⟨byStamp_perm ds, fun ⟨base, hb⟩ => ?_⟩
  have hs : (byStamp ds).Pairwise fun a b => (a.stamp - base).toNat ≤ (b.stamp - base).toNat := by
    clear * - hb
    induction ds with
    | nil => exact .nil
    | cons d ds ih =>
      exact insertByStamp_sorted (hb d (by simp))
        (fun e he => hb e (by simp [(byStamp_perm ds).subset he])) (ih fun e he => hb e (by simp [he]))
  refine hs.imp_of_mem fun {a b} ha hb' h => ?_
  rw [Bool.eq_false_iff, ne_eq, older_iff_of_near (hb b ((byStamp_perm ds).subset hb')) (hb a ((byStamp_perm ds).subset ha))]
  omega

theorem refuseDescriptor_order (t : TenantId) (s : State) (d : Descriptor) (q : Fin 64) :
    (refuseDescriptor t s d).paths.orderLists.get q =
      (s.paths.orderLists.get q).filter fun x => !holdsWrite [d] q x := by
  have h : (refuseDescriptor t s d).paths.orderLists = if d.kind = .write then
      s.paths.orderLists.modify d.requester.toFin fun l => l.filter (· != d.stamp) else s.paths.orderLists := by
    simp only [refuseDescriptor, countTenant, sendUp, endWrite, leaveOrder]
    split <;> split <;> rfl
  rw [h]
  by_cases hk : d.kind = .write
  · rw [if_pos hk, Table.get_modify]
    by_cases hq : d.requester.toFin = q
    · rw [if_pos hq]
      refine List.filter_congr fun x _ => ?_
      simp [holdsWrite, hk, hq, bne, BEq.comm]
    · rw [if_neg hq]
      symm
      rw [List.filter_eq_self]
      intro x _
      simp [holdsWrite, hq]
  · rw [if_neg hk]
    symm
    rw [List.filter_eq_self]
    intro x _
    simp [holdsWrite, hk]

theorem refuseDescriptor_store (t : TenantId) (s : State) (d : Descriptor) :
    (refuseDescriptor t s d).admission =
      { s.admission with store := s.admission.store.filter fun c => !d.blocks.contains c.1 } := by
  simp only [refuseDescriptor, countTenant, sendUp, endWrite, leaveOrder]
  split <;> split <;> rfl

theorem refuseDescriptor_wires (t : TenantId) (s : State) (d : Descriptor) :
    (refuseDescriptor t s d).wires =
      { s.wires with upstream := s.wires.upstream ++ if s.links.switchUp then [refusal d] else [] } := by
  simp only [refuseDescriptor, countTenant, sendUp, endWrite, leaveOrder, freeBlocks]
  by_cases hk : d.kind = .write <;> cases hu : s.links.switchUp <;> simp [hk, hu, refusal]

theorem refuseDescriptor_paths (t : TenantId) (s : State) (d : Descriptor) :
    (refuseDescriptor t s d).paths.entries = s.paths.entries ∧ (refuseDescriptor t s d).paths.cto = s.paths.cto ∧
      (refuseDescriptor t s d).paths.ctoInForce = s.paths.ctoInForce := by
  simp only [refuseDescriptor, countTenant, sendUp, endWrite, leaveOrder]
  split <;> split <;> exact ⟨rfl, rfl, rfl⟩

theorem refuseDescriptor_counters (t : TenantId) (s : State) (d : Descriptor) :
    (refuseDescriptor t s d).observe = { s.observe with counters := s.observe.counters.modify t fun c =>
      { c with refused := c.refused + 1 } } := by
  simp only [refuseDescriptor, countTenant, sendUp, endWrite, leaveOrder]
  split <;> split <;> rfl

/-- Refusing descriptors one by one refuses them all, in that order. -/
theorem refused_foldl (t : TenantId) (ds : List Descriptor) (s : State) :
    Refused t ds s (ds.foldl (refuseDescriptor t) s) := by
  induction ds generalizing s with
  | nil =>
    refine ⟨?_, ?_, rfl, rfl, rfl, rfl, rfl, fun q => ?_, ?_⟩
    · simp
    · simp
    · simp [holdsWrite]
    · have : (s.observe.counters.modify t fun c => { c with refused := c.refused + BitVec.ofNat 32 0 }) =
          s.observe.counters := by
        apply Table.ext_get
        intro i
        by_cases h : t = i
        · subst h; simp
        · simp [h]
      simp only [List.foldl_nil, List.length_nil, this]
  | cons d ds ih =>
    rw [List.foldl_cons]
    obtain ⟨h1, h2, h3, h4, h5, h6, h7, h8, h9⟩ := ih (refuseDescriptor t s d)
    obtain ⟨p1, p2, p3⟩ := refuseDescriptor_paths t s d
    have hadm := refuseDescriptor_store t s d
    refine ⟨?_, ?_, ?_, ?_, h5.trans p1, h6.trans p2, h7.trans p3, fun q => ?_, ?_⟩
    · rw [h1, refuseDescriptor_wires, refuseDescriptor_links]
      cases s.links.switchUp <;> simp
    · rw [h2, hadm, List.filter_filter]
      refine List.filter_congr fun c _ => ?_
      simp [Bool.and_comm]
    · rw [h3, hadm]
    · rw [h4, hadm]
    · rw [h8, refuseDescriptor_order, List.filter_filter]
      refine List.filter_congr fun x _ => ?_
      simp [holdsWrite, Bool.and_comm]
    · rw [h9, refuseDescriptor_counters]
      have : ∀ T : Table TenantCounters 24,
          (T.modify t fun c => { c with refused := c.refused + 1 }).modify t
            (fun c => { c with refused := c.refused + BitVec.ofNat 32 ds.length }) =
          T.modify t fun c => { c with refused := c.refused + BitVec.ofNat 32 (d :: ds).length } := by
        intro T
        apply Table.ext_get
        intro i
        by_cases h : t = i
        · subst h
          simp only [Table.get_modify_self, List.length_cons]
          have : (T.get t).refused + 1 + BitVec.ofNat 32 ds.length =
              (T.get t).refused + BitVec.ofNat 32 (ds.length + 1) := by
            rw [BitVec.add_assoc, Nat.add_comm, BitVec.ofNat_add]
            rfl
          rw [this]
        · simp [h]
      simp only [this]

/-- Discarding a tenant's queue refuses every queued descriptor in stamp order. -/
theorem queueRefused_discardAll (t : TenantId) (s : State) : QueueRefused t s (discardAll t s) := by
  have hr := refused_foldl t (byStamp (queuedOf (queuesAt s t)))
    (changeQueues t (fun q => { q with rq := [], wq := [] }) s)
  have hq := foldl_keeps (refuseDescriptor t) (fun u => u.admission.queues)
    (fun u d => by simp only [refuseDescriptor_store]) (byStamp (queuedOf (queuesAt s t)))
    (changeQueues t (fun q => { q with rq := [], wq := [] }) s)
  refine ⟨⟨_, byStamp_inStampOrder _, ?_⟩, ?_, ?_⟩
  · unfold discardAll
    exact hr
  · unfold discardAll
    exact hq
  · simp [OtherBlocksKept]

/-- Discarding a tenant's WQ refuses every WQ descriptor in stamp order. -/
theorem writesRefused_discardWrites (t : TenantId) (s : State) : WritesRefused t s (discardWrites t s) := by
  have hr := refused_foldl t (byStamp (queuesAt s t).wq) (changeQueues t (fun q => { q with wq := [] }) s)
  have hq := foldl_keeps (refuseDescriptor t) (fun u => u.admission.queues)
    (fun u d => by simp only [refuseDescriptor_store]) (byStamp (queuesAt s t).wq)
    (changeQueues t (fun q => { q with wq := [] }) s)
  refine ⟨⟨_, byStamp_inStampOrder _, ?_⟩, ?_, ?_⟩
  · unfold discardWrites
    exact hr
  · unfold discardWrites
    exact hq
  · simp [OtherBlocksKept]

/-! ### Operations with cases -/

theorem sendUp_cases (r : Response) (s : State) :
    (s.links.switchUp = true ∧ sendUp r s = { s with wires.upstream := s.wires.upstream ++ [r] }) ∨
      (s.links.switchUp = false ∧ sendUp r s = s) := by
  rw [sendUp]
  cases s.links.switchUp <;> simp

theorem endWrite_cases (kind : Kind) (q : RequesterId) (x : Stamp) (s : State) :
    (kind = .write ∧ endWrite kind q x s = leaveOrder q x s) ∨ (kind ≠ .write ∧ endWrite kind q x s = s) := by
  rw [endWrite]
  split
  · exact .inl ⟨‹_›, rfl⟩
  · exact .inr ⟨‹_›, rfl⟩

theorem freeSlot_cases (s : State) : (s.arbiter.slot = none ∧ freeSlot s = s) ∨
    ∃ x, s.arbiter.slot = some x ∧ freeSlot s = freeBlocks x.blocks { s with arbiter.slot := none } := by
  rw [freeSlot]
  split
  · exact .inl ⟨‹_›, rfl⟩
  · exact .inr ⟨_, ‹_›, rfl⟩

/-- The test of a drain ends it in its target, or changes nothing. -/
theorem testDrain_cases (t : TenantId) (s : State) :
    (testDrain t s = s ∧ (DrainFinished s t → (recordAt s t).target = .none)) ∨
    (DrainFinished s t ∧ (recordAt s t).target = .quiesced ∧ testDrain t s =
      changeRecord t (fun r => { r with state := .quiesced, target := .none, fenceDue := false }) s) ∨
    (DrainFinished s t ∧ (recordAt s t).target = .off ∧ testDrain t s =
      changeRecord t (fun r => { r with state := .off, target := .none, fenceDue := false }) (discardAll t s)) := by
  rw [testDrain]
  split
  · have hd := (drainDone_iff s t).1 ‹_›
    rw [completeDrain]
    split
    · exact .inr (.inr ⟨hd, ‹_›, rfl⟩)
    · exact .inr (.inl ⟨hd, ‹_›, rfl⟩)
    · exact .inl ⟨rfl, fun _ => ‹_›⟩
  · exact .inl ⟨rfl, fun h => absurd ((drainDone_iff s t).2 h) ‹_›⟩

theorem fenceIfDue_cases (t : TenantId) (s : State) :
    ((recordAt s t).state = .draining ∧ (recordAt s t).fenceDue = true ∧ fenceIfDue t s = fence t s) ∨
      (¬((recordAt s t).state = .draining ∧ (recordAt s t).fenceDue = true) ∧ fenceIfDue t s = s) := by
  rw [fenceIfDue]
  split
  · rename_i h; exact .inl ⟨h.1, h.2, rfl⟩
  · exact .inr ⟨‹_›, rfl⟩

theorem testSettle_cases (p : PairId) (s : State) :
    (settlePasses s p = true ∧ testSettle p s =
      { s with pairHalt.pairs := s.pairHalt.pairs.set p { s.pairHalt.pairs.get p with inGuard := false } }) ∨
    (settlePasses s p = false ∧ testSettle p s = s) := by
  rw [testSettle]
  split
  · exact .inl ⟨‹_›, rfl⟩
  · exact .inr ⟨Bool.eq_false_iff.2 ‹_›, rfl⟩

/-- One settle test leaves every other pair's entry and test alone. -/
theorem testSettle_other {p q : PairId} (h : p ≠ q) (s : State) :
    (testSettle p s).pairHalt.pairs.get q = s.pairHalt.pairs.get q ∧ settlePasses (testSettle p s) q = settlePasses s q := by
  rcases testSettle_cases p s with ⟨-, e⟩ | ⟨-, e⟩
  · rw [e]
    constructor
    · exact Table.get_set_of_ne _ h _
    · simp only [settlePasses, outstandingWrites, Table.get_set_of_ne _ h]
  · rw [e]; exact ⟨rfl, rfl⟩

theorem pressureFall_cases (s : State) :
    (4 ≤ s.observe.fallCount ∧ pressureFall s =
      { s with observe.level := s.observe.fallMax, observe.fallCount := 0, observe.fallMax := 0 }) ∨
    (s.observe.fallCount < 4 ∧ pressureFall s = s) := by
  rw [pressureFall]
  split
  · exact .inl ⟨‹_›, rfl⟩
  · exact .inr ⟨by omega, rfl⟩

/-- A level taken is a rise, a level kept, a fall counted or the fourth fall. -/
theorem takeLevel_cases (c : Nat) (s : State) :
    (s.observe.level < c ∧ takeLevel c s =
      { s with observe.level := c, observe.fallCount := 0, observe.fallMax := 0 }) ∨
    (c = s.observe.level ∧ takeLevel c s = { s with observe.fallCount := 0, observe.fallMax := 0 }) ∨
    (c < s.observe.level ∧ s.observe.fallCount < 3 ∧ takeLevel c s = { s with
      observe.fallCount := s.observe.fallCount + 1, observe.fallMax := max s.observe.fallMax c }) ∨
    (c < s.observe.level ∧ 3 ≤ s.observe.fallCount ∧ takeLevel c s = { s with
      observe.level := max s.observe.fallMax c, observe.fallCount := 0, observe.fallMax := 0 }) := by
  rw [takeLevel]
  split
  · exact .inl ⟨‹_›, rfl⟩
  · split
    · exact .inr (.inl ⟨‹_›, rfl⟩)
    · by_cases h : 3 ≤ s.observe.fallCount
      · refine .inr (.inr (.inr ⟨by omega, h, ?_⟩))
        rw [pressureFall, if_pos (Nat.succ_le_succ h)]
      · refine .inr (.inr (.inl ⟨by omega, by omega, ?_⟩))
        rw [pressureFall, if_neg (fun hh => h (Nat.le_of_succ_le_succ hh))]

theorem lendOne_cases (s : State) (t : TenantId) :
    (lends s t = true ∧ lendOne s t = { s with
      credit := ⟨s.credit.tenants.modify t fun e => { e with credit := 0 },
        s.credit.spare + (creditAt s t).credit.toNat⟩ }) ∨
    (lends s t = false ∧ lendOne s t = s) := by
  rw [lendOne]
  split
  · exact .inl ⟨‹_›, rfl⟩
  · exact .inr ⟨Bool.eq_false_iff.2 ‹_›, rfl⟩

/-- An expiry frees its entry with EXPIRE set, or finds the tag free. -/
theorem expireEntry_cases (tag : Byte) (s : State) :
    (s.paths.entries.get tag.toFin = none ∧ expireEntry tag s = s) ∨
    (∃ e, s.paths.entries.get tag.toFin = some e ∧ e.orphan = true ∧
      expireEntry tag s = raiseAlert .expire (freeEntry tag s)) ∨
    ∃ e, s.paths.entries.get tag.toFin = some e ∧ e.orphan = false ∧
      expireEntry tag s = raiseAlert .expire (freeEntry tag
        (countTenant e.tenant (fun c => { c with expired := c.expired + 1 }) (answerEntry e .expired [] s))) := by
  rw [expireEntry]
  split
  · exact .inl ⟨‹_›, rfl⟩
  · rename_i e he
    cases ho : e.orphan with
    | true => exact .inr (.inl ⟨e, he, ho, by simp⟩)
    | false => exact .inr (.inr ⟨e, he, ho, by simp⟩)

theorem loseEntry_cases (s : State) (e : OutstandingEntry) :
    (e.orphan = true ∧ loseEntry s e = s) ∨
    (e.orphan = false ∧ loseEntry s e =
      countTenant e.tenant (fun c => { c with pathLost := c.pathLost + 1 }) (answerEntry e .pathLost [] s)) := by
  rw [loseEntry]
  cases e.orphan <;> simp

/-- The end of a send, or an idle slot. -/
theorem endSend_cases (s : State) : (s.arbiter.slot = none ∧ endSend s = s) ∨
    ∃ x, s.arbiter.slot = some x ∧ endSend s = freeBlocks x.blocks { s with
      wires.downstream := s.wires.downstream ++ [sentRequest x s], arbiter.slot := none } := by
  rw [endSend]
  split
  · exact .inl ⟨‹_›, rfl⟩
  · rename_i x hx
    refine .inr ⟨x, hx, ?_⟩
    rw [freeSlot]
    show (match s.arbiter.slot with | none => _ | some y => _) = _
    rw [hx]

/-- A grant releases the chosen candidate under the lowest free tag, or changes nothing. -/
theorem takeGrant_cases (s : State) : takeGrant s = s ∨
    ∃ tag c k, s.arbiter.slot = none ∧ s.links.poolUp = true ∧ lowestFreeTag s = some tag ∧
      chooseRelease s = some (c, k) ∧ takeGrant s = release c k tag s := by
  rw [takeGrant]
  split
  · rename_i h
    split
    · rename_i tag c k ht hc
      exact .inr ⟨tag, c, k, h.1, h.2, ht, hc, rfl⟩
    · exact .inl rfl
  · exact .inl rfl

/-- An arrival is refused, answered RETRY or admitted. -/
theorem admission_cases (t : TenantId) (unmapped : Bool) (q : RequesterId) (tag : Byte) (b : RequestBody) (s : State) :
    (((recordAt s t).state = .off ∨ (recordAt s t).state = .fenced) ∧
      admission t unmapped q tag b s = refuseArrival t unmapped q tag b s) ∨
    ((recordAt s t).state ≠ .off ∧ (recordAt s t).state ≠ .fenced ∧
      (descriptorTest s t = false ∨ freeBlockCount s < blocksNeeded b) ∧
      admission t unmapped q tag b s = retryArrival t q tag b s) ∨
    ((recordAt s t).state ≠ .off ∧ (recordAt s t).state ≠ .fenced ∧
      descriptorTest s t = true ∧ blocksNeeded b ≤ freeBlockCount s ∧
      admission t unmapped q tag b s = admitArrival t q tag b s) := by
  rw [admission]
  split
  · exact .inl ⟨‹_›, rfl⟩
  · rename_i h
    rw [not_or] at h
    split
    · exact .inr (.inl ⟨h.1, h.2, .inl ‹_›, rfl⟩)
    · rename_i hd
      split
      · exact .inr (.inl ⟨h.1, h.2, .inr ‹_›, rfl⟩)
      · exact .inr (.inr ⟨h.1, h.2, by simpa using hd, by omega, rfl⟩)

/-- A pool response is lost with the link, a stray, or ends its entry. -/
theorem takeResponse_cases (tag : Byte) (kind : ResponseKind) (status : PoolStatus) (data : List Byte) (s : State) :
    (s.links.poolUp = false ∧ takeResponse tag kind status data s = s) ∨
    (s.links.poolUp = true ∧ (∀ e, s.paths.entries.get tag.toFin = some e → answersKind kind e.kind = false) ∧
      takeResponse tag kind status data s = takeStray s) ∨
    ∃ e, s.links.poolUp = true ∧ s.paths.entries.get tag.toFin = some e ∧ answersKind kind e.kind = true ∧
      takeResponse tag kind status data s = afterFreeing (forwardResponse tag e status data s) := by
  rw [takeResponse]
  cases hp : s.links.poolUp with
  | false => exact .inl ⟨rfl, rfl⟩
  | true =>
    rw [if_pos rfl]
    split
    · rename_i hn
      exact .inr (.inl ⟨rfl, fun e he => (by rw [hn] at he; cases he), rfl⟩)
    · rename_i e he
      split
      · exact .inr (.inr ⟨e, rfl, he, ‹_›, rfl⟩)
      · rename_i ha
        exact .inr (.inl ⟨rfl, fun e' he' => (by rw [he] at he'; cases he'; exact Bool.eq_false_iff.2 ha), rfl⟩)

/-- The solver's completion stores the result and hands a record, or finds the solver IDLE. -/
theorem completeSolve_cases (s : State) : (s.solver.solving = false ∧ completeSolve s = s) ∨
    (s.solver.solving = true ∧ completeSolve s =
      takeLevel (solvedLevel (solve s.solver.snapshot s.timer.number))
        (handRecord (recordOf (solve s.solver.snapshot s.timer.number) s.timer.number .solved)
          { s with
            solver.solving := false
            solver.result := solve s.solver.snapshot s.timer.number
            solver.newResult := true })) := by
  rw [completeSolve]
  split
  · exact .inr ⟨‹_›, rfl⟩
  · exact .inl ⟨Bool.eq_false_iff.2 ‹_›, rfl⟩

/-- One tenant's drain at a boundary: ended, or its clock handled and then a due fence made. -/
theorem drainAtBoundary_cases (s : State) (t : TenantId) :
    (DrainFinished s t ∧ drainAtBoundary s t = completeDrain t s) ∨
    (¬DrainFinished s t ∧ (recordAt (changeRecord t tickDrainClock s) t).state = .draining ∧
      (recordAt (changeRecord t tickDrainClock s) t).fenceDue = true ∧
      drainAtBoundary s t = fence t (changeRecord t tickDrainClock s)) ∨
    (¬DrainFinished s t ∧ ¬((recordAt (changeRecord t tickDrainClock s) t).state = .draining ∧
        (recordAt (changeRecord t tickDrainClock s) t).fenceDue = true) ∧
      drainAtBoundary s t = changeRecord t tickDrainClock s) := by
  rw [drainAtBoundary]
  split
  · exact .inl ⟨(drainDone_iff s t).1 ‹_›, rfl⟩
  · rename_i h
    have hn : ¬DrainFinished s t := fun hd => h ((drainDone_iff s t).2 hd)
    rcases fenceIfDue_cases t (changeRecord t tickDrainClock s) with ⟨h1, h2, e⟩ | ⟨h1, e⟩
    · exact .inr (.inl ⟨hn, h1, h2, e⟩)
    · exact .inr (.inr ⟨hn, h1, e⟩)

/-- A drain clock: counted with its fence due or not, or paused. -/
theorem tickDrainClock_cases (r : TenantRecord) :
    (r.state = .draining ∧ r.pauseMark = false ∧ tickDrainClock r = { r with
      drainClock := min 65535 (r.drainClock + 1)
      fenceDue := r.drainb != 0 && r.drainb ≤ min 65535 (r.drainClock + 1) }) ∨
    (¬(r.state = .draining ∧ r.pauseMark = false) ∧ tickDrainClock r = { r with fenceDue := false }) := by
  rw [tickDrainClock]
  split
  · rename_i h; exact .inl ⟨h.1, h.2, rfl⟩
  · exact .inr ⟨‹_›, rfl⟩

/-- The payment in GOVERN is from credit of 1 or more, else from the spare pool. -/
theorem payCharge_cases (t : TenantId) (charge : Nat) (s : State) :
    (1 ≤ (creditAt s t).credit ∧ payCharge t charge s = paidFromCredit t charge s) ∨
    ((creditAt s t).credit ≤ 0 ∧ payCharge t charge s = paidFromSpare charge s) := by
  rw [payCharge]
  split
  · exact .inl ⟨‹_›, rfl⟩
  · exact .inr ⟨by omega, rfl⟩

/-- A matched response frees its entry, and answers it upstream but for an orphan. -/
theorem forwardResponse_cases (tag : Byte) (e : OutstandingEntry) (status : PoolStatus) (data : List Byte) (s : State) :
    (e.orphan = true ∧ forwardResponse tag e status data s = freeEntry tag s) ∨
    (e.orphan = false ∧ status = .good ∧ forwardResponse tag e status data s =
      freeEntry tag (answerEntry e .good (if e.kind = .read then data else []) s)) ∨
    (e.orphan = false ∧ status = .mediaFault ∧ forwardResponse tag e status data s =
      freeEntry tag (countTenant e.tenant (fun c => { c with mediaFault := c.mediaFault + 1 })
        (answerEntry e .mediaFault [] s))) := by
  rw [forwardResponse]
  cases ho : e.orphan
  · cases status
    · exact .inr (.inl ⟨rfl, rfl, by simp [statusOf]⟩)
    · exact .inr (.inr ⟨rfl, rfl, by simp [statusOf]⟩)
  · exact .inl ⟨rfl, by simp⟩

/-! ### The swap of a pair -/

/-- A swap's sweep either refuses the whole queue of a drain that it ends in OFF, or refuses the WQ and tests the drain. -/
theorem sweepWrites_cases (t : TenantId) (s : State) :
    (DrainFinished (discardWrites t s) t ∧ (recordAt s t).target = .off ∧ sweepWrites t s = completeDrain t s) ∨
    (¬(DrainFinished (discardWrites t s) t ∧ (recordAt s t).target = .off) ∧
      sweepWrites t s = testDrain t (discardWrites t s)) := by
  rw [← drainDone_iff, sweepWrites]
  split
  · rename_i h; exact .inl ⟨h.1, h.2, rfl⟩
  · exact .inr ⟨‹_›, rfl⟩

/-! ### The load of a boundary -/

/-- A load is the start load where a start boundary is due, else fresh with a new result and stale without (R59). -/
theorem loadKind_cases (due : Bool) (s : State) :
    (due = true ∧ loadKind due s = .start) ∨ (due = false ∧ s.solver.newResult = true ∧ loadKind due s = .fresh) ∨
      (due = false ∧ s.solver.newResult = false ∧ loadKind due s = .stale) := by
  cases due <;> cases h : s.solver.newResult <;> simp [loadKind, h]

/-- Only a stale load is noted (R60). -/
theorem loadBoundary_cases (k : LoadKind) (s : State) :
    (k = .stale ∧ loadBoundary k s = noteStale (loadCredit k s)) ∨ (k ≠ .stale ∧ loadBoundary k s = loadCredit k s) := by
  rw [loadBoundary]
  split
  · exact .inl ⟨‹_›, rfl⟩
  · exact .inr ⟨‹_›, rfl⟩

/-! ### Field writes -/

/-- An FP write is refused where the floors would not fit, else stored. -/
theorem writeFp_cases (v : Nat) (s : State) :
    (effCapOf (clamp 8 1024 v) s.timer.cap s.control.straps < floorsHeld s ∧ writeFp v s = refuseWrite .floor s) ∨
    (floorsHeld s ≤ effCapOf (clamp 8 1024 v) s.timer.cap s.control.straps ∧
      writeFp v s = abortSolve { s with timer.fp := clamp 8 1024 v }) := by
  rw [← floorSum_eq, writeFp]
  split
  · exact .inl ⟨‹_›, rfl⟩
  · exact .inr ⟨by omega, rfl⟩

/-- A CAP write is refused where the floors would not fit, else stored. -/
theorem writeCap_cases (v : Nat) (s : State) :
    (effCapOf s.timer.fp (clamp 1 16383 v) s.control.straps < floorsHeld s ∧ writeCap v s = refuseWrite .floor s) ∨
    (floorsHeld s ≤ effCapOf s.timer.fp (clamp 1 16383 v) s.control.straps ∧
      writeCap v s = abortSolve { s with timer.cap := clamp 1 16383 v }) := by
  rw [← floorSum_eq, writeCap]
  split
  · exact .inl ⟨‹_›, rfl⟩
  · exact .inr ⟨Nat.not_lt.1 ‹_›, rfl⟩

/-- A default tenant write is refused above 23, else stored. -/
theorem writeDefaultTenant_cases (v : Byte) (s : State) :
    (tenantOf v = none ∧ writeDefaultTenant v s = refuseWrite .range s) ∨
    ∃ t, tenantOf v = some t ∧ writeDefaultTenant v s = abortSolve { s with classifier.defaultTenant := t } := by
  rw [writeDefaultTenant]
  split
  · exact .inl ⟨‹_›, rfl⟩
  · exact .inr ⟨_, ‹_›, rfl⟩

/-- A FLOOR write is refused where the floors would not fit, else stored. -/
theorem writeFloor_cases (t : TenantId) (v : Nat) (s : State) :
    ((recordAt s t).state ≠ .off ∧
      effectiveCap s < floorsHeld (changeRecord t (fun r => { r with floor := min 4095 v }) s) ∧
      writeFloor t v s = refuseWrite .floor s) ∨
    (((recordAt s t).state = .off ∨
      floorsHeld (changeRecord t (fun r => { r with floor := min 4095 v }) s) ≤ effectiveCap s) ∧
      writeFloor t v s = changeRecord t (fun r => { r with floor := min 4095 v }) s) := by
  rw [← floorSum_eq, writeFloor]
  split
  · rename_i h; exact .inl ⟨h.1, h.2, rfl⟩
  · rename_i h
    refine .inr ⟨?_, rfl⟩
    by_cases ho : (recordAt s t).state = .off
    · exact .inl ho
    · exact .inr (Nat.not_lt.1 fun hlt => h ⟨ho, hlt⟩)

/-- A QLIM write is refused unless the tenant is OFF, else stored with QRES cut to it. -/
theorem writeQlim_cases (t : TenantId) (v : Nat) (s : State) :
    ((recordAt s t).state ≠ .off ∧ writeQlim t v s = refuseWrite .state s) ∨
    ((recordAt s t).state = .off ∧ writeQlim t v s =
      changeRecord t (fun r => { r with qlim := min 1024 v, qres := min r.qres (min 1024 v) }) s) := by
  rw [writeQlim]
  split
  · exact .inl ⟨‹_›, rfl⟩
  · rename_i h
    exact .inr ⟨Decidable.not_not.1 h, rfl⟩

/-- A QRES write is refused unless the tenant is OFF and the reserves still fit, else stored. -/
theorem writeQres_cases (t : TenantId) (v : Nat) (s : State) :
    ((recordAt s t).state ≠ .off ∧ writeQres t v s = refuseWrite .state s) ∨
    ((recordAt s t).state = .off ∧
      1024 < reserveSum (changeRecord t (fun r => { r with qres := min r.qlim v }) s) ∧
      writeQres t v s = refuseWrite .reserve s) ∨
    ((recordAt s t).state = .off ∧
      reserveSum (changeRecord t (fun r => { r with qres := min r.qlim v }) s) ≤ 1024 ∧
      writeQres t v s = changeRecord t (fun r => { r with qres := min r.qlim v }) s) := by
  rw [writeQres]
  split
  · exact .inl ⟨‹_›, rfl⟩
  · rename_i h
    have ho : (recordAt s t).state = .off := Decidable.not_not.1 h
    split
    · exact .inr (.inl ⟨ho, ‹_›, rfl⟩)
    · exact .inr (.inr ⟨ho, Nat.not_lt.1 ‹_›, rfl⟩)

/-- A classifier write is out of range, refused for a tenant that is not quiet, or stored. -/
theorem writeClassifier_cases (i : EntryId) (w : ClassifierWrite) (s : State) :
    (entryAfter w (s.classifier.entries.get i) = none ∧ writeClassifier i w s = refuseWrite .range s) ∨
    ∃ e, entryAfter w (s.classifier.entries.get i) = some e ∧
      ((entryQuiet s (s.classifier.entries.get i) = true ∧ entryQuiet s e = true ∧
          writeClassifier i w s = { s with classifier.entries := s.classifier.entries.set i e }) ∨
        (¬(entryQuiet s (s.classifier.entries.get i) = true ∧ entryQuiet s e = true) ∧
          writeClassifier i w s = refuseWrite .state s)) := by
  rw [writeClassifier]
  split
  · exact .inl ⟨‹_›, rfl⟩
  · rename_i e he
    refine .inr ⟨e, he, ?_⟩
    split
    · rename_i h
      rw [Bool.and_eq_true] at h
      exact .inl ⟨h.1, h.2, rfl⟩
    · rename_i h
      rw [Bool.and_eq_true] at h
      exact .inr ⟨h, rfl⟩

/-- A pair write is out of range, refused by one of three tests in turn, or stored. -/
theorem writePair_cases (p : PairId) (w : PairWrite) (s : State) :
    (pairAfter w (s.pairHalt.pairs.get p) = none ∧ writePair p w s = refuseWrite .range s) ∨
    ∃ e, pairAfter w (s.pairHalt.pairs.get p) = some e ∧
      (((s.pairHalt.pairs.get p).inGuard = true ∧ writePair p w s = refuseWrite .guard s) ∨
        ((s.pairHalt.pairs.get p).inGuard = false ∧
          (pairQuiet s (s.pairHalt.pairs.get p) && pairQuiet s e) = false ∧ writePair p w s = refuseWrite .state s) ∨
        ((s.pairHalt.pairs.get p).inGuard = false ∧
          (pairQuiet s (s.pairHalt.pairs.get p) && pairQuiet s e) = true ∧ membersClash s p e = true ∧
          writePair p w s = refuseWrite .member s) ∨
        ((s.pairHalt.pairs.get p).inGuard = false ∧
          (pairQuiet s (s.pairHalt.pairs.get p) && pairQuiet s e) = true ∧ membersClash s p e = false ∧
          writePair p w s =
            { s with pairHalt.pairs := s.pairHalt.pairs.set p { e with inGuard := false, counter := 0 } })) := by
  rw [writePair]
  split
  · exact .inl ⟨‹_›, rfl⟩
  · rename_i e he
    refine .inr ⟨e, he, ?_⟩
    cases hg : (s.pairHalt.pairs.get p).inGuard <;>
      cases hq : (pairQuiet s (s.pairHalt.pairs.get p) && pairQuiet s e) <;>
      cases hm : membersClash s p e <;> simp

end Sys2Proof.Machine
end

