-- ==== Sys2Proof/Laws/Store.lean ====
section
/-! SUPPORT. The Payload Store: every operation keeps its one form, the blocks an admitted request takes are free, distinct and as many as it needs, and a payload stored in its blocks is read back. -/

namespace Sys2Proof.Machine

theorem rising_iff (st : List (Nat × List Byte)) : rising st = true ↔ st.Pairwise fun c d => c.1 < d.1 := by
  induction st with
  | nil => simp [rising]
  | cons c st ih => simp [rising, ih, List.all_eq_true, List.pairwise_cons]

/-- The store's form: block numbers rise, each is below 4096 and holds at most 64 bytes. -/
theorem storeWf_iff (st : List (Nat × List Byte)) :
    storeWf st = true ↔ st.Pairwise (fun c d => c.1 < d.1) ∧ ∀ c ∈ st, c.1 < 4096 ∧ c.2.length ≤ 64 := by
  simp [storeWf, rising_iff, List.all_eq_true, Config.storeBlocks, Config.blockBytes]

theorem storeWf_nil : storeWf [] = true := rfl

/-- Freeing blocks keeps the form. -/
theorem storeWf_filter {st : List (Nat × List Byte)} (h : storeWf st = true) (p : Nat × List Byte → Bool) :
    storeWf (st.filter p) = true := by
  rw [storeWf_iff] at h ⊢
  exact ⟨h.1.filter p, fun c hc => h.2 c (List.mem_of_mem_filter hc)⟩

theorem mem_storeBlock {b : Nat} {x : List Byte} {st : List (Nat × List Byte)} {c : Nat × List Byte} :
    c ∈ storeBlock b x st ↔ c = (b, x) ∨ c ∈ st := by
  induction st with
  | nil => simp [storeBlock]
  | cons d st ih =>
    rw [storeBlock]
    split
    · simp
    · simp only [List.mem_cons, ih]; tauto

/-- Storing one free block keeps the form. -/
theorem storeWf_storeBlock {b : Nat} {x : List Byte} {st : List (Nat × List Byte)} (h : storeWf st = true)
    (hb : b < 4096) (hx : x.length ≤ 64) (hf : b ∉ st.map (·.1)) : storeWf (storeBlock b x st) = true := by
  rw [storeWf_iff] at h ⊢
  refine ⟨?_, fun c hc => ?_⟩
  · replace h := h.1
    induction st with
    | nil => simp [storeBlock]
    | cons d st ih =>
      simp only [List.map_cons, List.mem_cons, not_or] at hf
      rw [List.pairwise_cons] at h
      rw [storeBlock]
      split
      · rename_i hlt
        refine List.pairwise_cons.2 ⟨fun c hc => ?_, List.pairwise_cons.2 h⟩
        rcases List.mem_cons.1 hc with rfl | hc
        · exact hlt
        · exact Nat.lt_trans hlt (h.1 c hc)
      · rename_i hge
        refine List.pairwise_cons.2 ⟨fun c hc => ?_, ih hf.2 h.2⟩
        rcases mem_storeBlock.1 hc with rfl | hc
        · exact Nat.lt_of_le_of_ne (Nat.not_lt.1 hge) (Ne.symm hf.1)
        · exact h.1 c hc
  · rcases mem_storeBlock.1 hc with rfl | hc
    · exact ⟨hb, hx⟩
    · exact h.2 c hc

/-- The block just stored reads as its bytes, every other block as before. -/
theorem lookup_storeBlock {b : Nat} {x : List Byte} {st : List (Nat × List Byte)} (h : storeWf st = true)
    (hf : b ∉ st.map (·.1)) (k : Nat) :
    (storeBlock b x st).lookup k = if k = b then some x else st.lookup k := by
  rw [storeWf_iff] at h
  replace h := h.1
  induction st with
  | nil =>
    by_cases hk : k = b
    · simp [storeBlock, hk]
    · have : (k == b) = false := by simpa using hk
      simp [storeBlock, List.lookup, this, hk]
  | cons d st ih =>
    simp only [List.map_cons, List.mem_cons, not_or] at hf
    rw [List.pairwise_cons] at h
    rw [storeBlock]
    split
    · by_cases hk : k = b
      · simp [List.lookup, hk]
      · have : (k == b) = false := by simpa using hk
        simp [List.lookup, hk, this]
    · obtain ⟨n, y⟩ := d
      by_cases hd : k = n
      · subst hd
        have : k ≠ b := fun e => hf.1 e.symm
        simp [List.lookup, this]
      · have hd' : (k == n) = false := by simpa using hd
        simp only [List.lookup, hd', ih hf.2 h.2]

theorem length_cutPayload (n : Nat) (p : List Byte) : (cutPayload n p).length = n := by
  induction n generalizing p with
  | zero => rfl
  | succ n ih => simp [cutPayload, ih]

/-- What storing a payload in free distinct blocks does to the store: its form is kept, every block given reads as its part of the payload, and every other block reads as before. -/
theorem storePayload_cases (blocks : List Nat) (p : List Byte) (s : State) (h : storeWf s.admission.store = true)
    (hn : blocks.Nodup) (hb : ∀ b ∈ blocks, b < 4096) (hf : ∀ b ∈ blocks, b ∉ s.admission.store.map (·.1)) :
    storeWf (storePayload blocks p s).admission.store = true ∧
      (∀ k, k ∉ blocks → (storePayload blocks p s).admission.store.lookup k = s.admission.store.lookup k) ∧
      blocks.map (fun b => ((storePayload blocks p s).admission.store.lookup b).getD []) = cutPayload blocks.length p ∧
      ∀ k, k ∈ (storePayload blocks p s).admission.store.map (·.1) ↔ k ∈ blocks ∨ k ∈ s.admission.store.map (·.1) := by
  show storeWf ((blocks.zip (cutPayload blocks.length p)).foldl _ s.admission.store) = true ∧
    (∀ k, k ∉ blocks → ((blocks.zip (cutPayload blocks.length p)).foldl _ s.admission.store).lookup k = _) ∧
    blocks.map (fun b => (((blocks.zip (cutPayload blocks.length p)).foldl _ s.admission.store).lookup b).getD []) = _ ∧
    ∀ k, k ∈ ((blocks.zip (cutPayload blocks.length p)).foldl _ s.admission.store).map (·.1) ↔ _
  generalize s.admission.store = st at *
  induction blocks generalizing p st with
  | nil => exact ⟨h, fun _ _ => rfl, rfl, by simp⟩
  | cons b rest ih =>
    rw [List.nodup_cons] at hn
    have hfb : b ∉ st.map (·.1) := hf b (by simp)
    have hlen : (p.take 64).length ≤ 64 := by simp
    have hwf := storeWf_storeBlock h (hb b (by simp)) hlen hfb
    have hmem : ∀ k, k ∈ (storeBlock b (p.take 64) st).map (·.1) ↔ k = b ∨ k ∈ st.map (·.1) := by
      intro k
      simp only [List.mem_map, mem_storeBlock]
      constructor
      · rintro ⟨c, rfl | hc, rfl⟩
        · exact .inl rfl
        · exact .inr ⟨c, hc, rfl⟩
      · rintro (rfl | ⟨c, hc, rfl⟩)
        · exact ⟨(_, p.take 64), .inl rfl, rfl⟩
        · exact ⟨c, .inr hc, rfl⟩
    have hfr : ∀ k ∈ rest, k ∉ (storeBlock b (p.take 64) st).map (·.1) := by
      intro k hk hm
      rcases (hmem k).1 hm with rfl | hm
      · exact hn.1 hk
      · exact hf k (by simp [hk]) hm
    obtain ⟨h1, h2, h3, h4⟩ := ih (p.drop 64) hn.2 (fun k hk => hb k (List.mem_cons_of_mem _ hk)) _ hwf hfr
    simp only [List.length_cons, cutPayload, List.zip_cons_cons, List.foldl_cons, List.map_cons]
    refine ⟨h1, fun k hk => ?_, ?_, fun k => ?_⟩
    · simp only [List.mem_cons, not_or] at hk
      rw [h2 k hk.2, lookup_storeBlock h hfb, if_neg hk.1]
    · rw [h2 b hn.1, lookup_storeBlock h hfb, if_pos rfl]
      exact congrArg _ h3
    · rw [h4 k, hmem k, List.mem_cons]; tauto

theorem flatten_cutPayload (n : Nat) (p : List Byte) (h : p.length ≤ 64 * n) : (cutPayload n p).flatten = p := by
  induction n generalizing p with
  | zero => simp_all [cutPayload]
  | succ n ih =>
    rw [cutPayload, List.flatten_cons, ih (p.drop 64) (by simp; omega)]
    exact List.take_append_drop 64 p

/-- A payload stored in free distinct blocks, enough of them, is read back from them. -/
theorem readPayload_storePayload (blocks : List Nat) (p : List Byte) (s : State) (h : storeWf s.admission.store = true)
    (hn : blocks.Nodup) (hb : ∀ b ∈ blocks, b < 4096) (hf : ∀ b ∈ blocks, b ∉ s.admission.store.map (·.1))
    (hp : p.length ≤ 64 * blocks.length) : readPayload blocks (storePayload blocks p s) = p := by
  obtain ⟨-, -, h3, -⟩ := storePayload_cases blocks p s h hn hb hf
  rw [readPayload, List.flatMap_def, h3, flatten_cutPayload _ _ hp]

/-! ### The blocks taken -/

/-- The picked blocks start at `b`, lie below `b + fuel`, are free and are all distinct. -/
theorem pickBlocks_mem (fuel n b : Nat) (used : List Nat) :
    (pickBlocks fuel n b used).Nodup ∧ ∀ k ∈ pickBlocks fuel n b used, b ≤ k ∧ k < b + fuel ∧ k ∉ used := by
  induction fuel generalizing n b with
  | zero => simp [pickBlocks]
  | succ fuel ih =>
    rw [pickBlocks]
    split
    · simp
    · split
      · obtain ⟨h1, h2⟩ := ih n (b + 1)
        exact ⟨h1, fun k hk => ⟨by have := h2 k hk; omega, by have := h2 k hk; omega, (h2 k hk).2.2⟩⟩
      · rename_i hu
        obtain ⟨h1, h2⟩ := ih (n - 1) (b + 1)
        refine ⟨List.nodup_cons.2 ⟨fun hm => by have := (h2 b hm).1; omega, h1⟩, fun k hk => ?_⟩
        rcases List.mem_cons.1 hk with rfl | hk
        · exact ⟨Nat.le_refl _, by omega, by simpa using hu⟩
        · exact ⟨by have := h2 k hk; omega, by have := h2 k hk; omega, (h2 k hk).2.2⟩

/-- With enough fuel as many blocks are picked as are asked for. -/
theorem length_pickBlocks (fuel n b : Nat) (used : List Nat)
    (h : n + (used.filter fun k => b ≤ k).length ≤ fuel) : (pickBlocks fuel n b used).length = n := by
  induction fuel generalizing n b with
  | zero =>
    have : n = 0 := by omega
    subst this; rfl
  | succ fuel ih =>
    have hsub : ∀ l : List Nat, (l.filter fun k => b + 1 ≤ k).length ≤ (l.filter fun k => b ≤ k).length ∧
        (b ∈ l → (l.filter fun k => b + 1 ≤ k).length < (l.filter fun k => b ≤ k).length) := by
      intro l
      induction l with
      | nil => simp
      | cons c l ihl =>
        obtain ⟨i1, i2⟩ := ihl
        constructor
        · by_cases h1 : b + 1 ≤ c
          · have h2 : b ≤ c := by omega
            simp only [List.filter_cons, h1, h2, decide_true, if_true, List.length_cons]; omega
          · by_cases h2 : b ≤ c
            · simp only [List.filter_cons, h1, h2, decide_true, decide_false, if_true, List.length_cons, Bool.false_eq_true, if_false]; omega
            · simp only [List.filter_cons, h1, h2, decide_false]; simpa using i1
        · intro hm
          by_cases h1 : b = c
          · subst h1
            have h2 : ¬b + 1 ≤ b := by omega
            simp only [List.filter_cons, h2, decide_false, Nat.le_refl, decide_true, if_true, List.length_cons, Bool.false_eq_true, if_false]
            omega
          · have hm' : b ∈ l := by
              rcases List.mem_cons.1 hm with h | h
              · exact absurd h h1
              · exact h
            have := i2 hm'
            by_cases h2 : b + 1 ≤ c
            · have h3 : b ≤ c := by omega
              simp only [List.filter_cons, h2, h3, decide_true, if_true, List.length_cons]; omega
            · have h3 : ¬b ≤ c := by omega
              simp only [List.filter_cons, h2, h3, decide_false]; simpa using this
    rw [pickBlocks]
    split
    · rename_i h0; simp [h0]
    · rename_i h0
      split
      · rename_i hu
        have := (hsub used).2 (by simpa using hu)
        exact ih n (b + 1) (by omega)
      · have := (hsub used).1
        rw [List.length_cons, ih (n - 1) (b + 1) (by omega)]
        omega

/-- The blocks an admitted request takes: as many as asked for, distinct, free, and inside the store where they fit. -/
theorem blocksFor_cases (n : Nat) (s : State) :
    (blocksFor n s).length = n ∧ (blocksFor n s).Nodup ∧
      (∀ b ∈ blocksFor n s, b ∉ s.admission.store.map (·.1)) ∧
      (n + s.admission.store.length ≤ 4096 → ∀ b ∈ blocksFor n s, b < 4096) := by
  obtain ⟨h1, h2⟩ := pickBlocks_mem (n + s.admission.store.length) n 0 (s.admission.store.map (·.1))
  refine ⟨length_pickBlocks _ _ _ _ ?_, h1, fun b hb => (h2 b hb).2.2, fun h b hb => ?_⟩
  · have := List.length_filter_le (fun k => decide (0 ≤ k)) (s.admission.store.map (·.1))
    rw [List.length_map] at this
    omega
  · have := (h2 b hb).2.1
    omega

/-! ### The operations on the store keep its form -/

theorem storeWf_freeBlocks (blocks : List Nat) (s : State) (h : storeWf s.admission.store = true) :
    storeWf (freeBlocks blocks s).admission.store = true := storeWf_filter h _

theorem storeWf_freeSlot (s : State) (h : storeWf s.admission.store = true) :
    storeWf (freeSlot s).admission.store = true := by
  rw [freeSlot]
  split
  · exact h
  · exact storeWf_freeBlocks _ _ h

/-- Admission's payload write keeps the form where the payload test has passed. -/
theorem storeWf_storePayload (n : Nat) (p : List Byte) (s : State) (h : storeWf s.admission.store = true)
    (hroom : n + s.admission.store.length ≤ 4096) :
    storeWf (storePayload (blocksFor n s) p s).admission.store = true := by
  obtain ⟨-, h2, h3, h4⟩ := blocksFor_cases n s
  exact (storePayload_cases _ p s h h2 (h4 hroom) h3).1

theorem storeWf_refuseDescriptor (t : TenantId) (s : State) (d : Descriptor) (h : storeWf s.admission.store = true) :
    storeWf (refuseDescriptor t s d).admission.store = true := by
  have : (refuseDescriptor t s d).admission.store = (freeBlocks d.blocks s).admission.store := by
    simp only [refuseDescriptor, countTenant, sendUp, endWrite, leaveOrder]
    split <;> split <;> rfl
  rw [this]
  exact storeWf_freeBlocks _ _ h

theorem storeWf_discardAll (t : TenantId) (s : State) (h : storeWf s.admission.store = true) :
    storeWf (discardAll t s).admission.store = true := by
  unfold discardAll
  refine foldl_preserves _ (fun u => storeWf u.admission.store = true) _
    (fun u d _ hu => storeWf_refuseDescriptor t u d hu) _ ?_
  exact h

theorem storeWf_discardWrites (t : TenantId) (s : State) (h : storeWf s.admission.store = true) :
    storeWf (discardWrites t s).admission.store = true := by
  unfold discardWrites
  refine foldl_preserves _ (fun u => storeWf u.admission.store = true) _
    (fun u d _ hu => storeWf_refuseDescriptor t u d hu) _ ?_
  exact h

theorem storeWf_emptyQueues (s : State) (h : storeWf s.admission.store = true) :
    storeWf (emptyQueues s).admission.store = true := storeWf_filter h _

theorem storeWf_reset : storeWf State.reset.admission.store = true := rfl

end Sys2Proof.Machine
end

