-- ==== Sys2Proof/Tests/Slice0.lean ====
section
/-! SUPPORT. Tests: the checks of WellFormed refuse ill-formed commands; single commands against the manual's worked examples and tables; and for every statement with hypotheses a state and operands that meet them. -/

namespace Sys2Proof.Tests

open Sys2Proof.Machine

/- One theorem at a time: each kernel evaluation takes a thread of its own. -/
set_option Elab.async false

/-! ### Small states -/

/-- The state a command answers; a refused command shows itself by a waiting command. -/
def after (c : Instr) (s : State) : State :=
  match exec c s with
  | .next t => t
  | _ => { s with pending := [c] }

/-- Right after reset, with both links UP. -/
def up : State := { State.reset with links := ⟨true, true, 0, 0⟩ }

/-- Small changes to a state: one tenant's queues, state or credit, one outstanding entry, one write order list, one pair. -/
def withQueues (t : TenantId) (rq wq : List Descriptor) (s : State) : State :=
  changeQueues t (fun u => { u with rq := rq, wq := wq }) s

def withState (t : TenantId) (st : TenantState) (s : State) : State := changeRecord t (fun r => { r with state := st }) s

def withCredit (t : TenantId) (c : Int) (s : State) : State := changeCredit t (fun e => { e with credit := c }) s

def withEntry (tag : Fin 256) (e : OutstandingEntry) (s : State) : State :=
  { s with paths.entries := s.paths.entries.set tag (some e) }

def withStamps (q : Fin 64) (l : List Stamp) (s : State) : State :=
  { s with paths.orderLists := s.paths.orderLists.set q l }

def inMode (m : PortMode) (s : State) : State := { s with control.mode := m }

def withPair (p : PairId) (e : PairEntry) (s : State) : State := { s with pairHalt.pairs := s.pairHalt.pairs.set p e }

/-- A queued READ of Q3. -/
def aRead (t : TenantId) (stamp : Stamp) (charge : Nat) : Descriptor :=
  ⟨t, 3, 7, .read, some 0, some (64 * charge), charge, stamp, 0, false, []⟩

/-- A queued WRITE of Q3 of one block. -/
def aWrite (t : TenantId) (stamp : Stamp) (block : Nat) : Descriptor :=
  ⟨t, 3, 8, .write, some 0, some 2, 1, stamp, 0, false, [block]⟩

/-- A queued FLUSH of Q3. -/
def aFlush (t : TenantId) (stamp : Stamp) : Descriptor := ⟨t, 3, 9, .flush, none, none, 1, stamp, 0, false, []⟩

/-- A WRITE's descriptor queued whole: its block holds two bytes and its stamp stands in Q3's list. -/
def wholeWrite : State :=
  withStamps 3 [800] (withQueues 23 [] [aWrite 23 800 5]
    { up with admission.store := [(5, [0xAA, 0xBB])], admission.nextStamp := 801 })

/-! ### Well-formedness -/

theorem test_wf_read_of_one_byte : (Instr.arrival 3 7 (.read 0 1)).wf = true := by decide
theorem test_wf_refuses_read_of_no_bytes : (Instr.arrival 3 7 (.read 0 0)).wf = false := by decide
theorem test_wf_refuses_read_beyond_4096 : (Instr.arrival 3 7 (.read 0 4097)).wf = false := by decide
theorem test_wf_refuses_write_of_no_bytes : (Instr.arrival 3 7 (.write 0 [])).wf = false := by decide
theorem test_wf_refuses_data_on_write_ack : (Instr.poolResponse 0 .writeAck .good [1]).wf = false := by decide
theorem test_wf_refuses_data_on_media_fault : (Instr.poolResponse 0 .readData .mediaFault [1]).wf = false := by decide
theorem test_wf_refuses_a_known_code : (Instr.unknownCommand 1).wf = false := by decide
theorem test_wf_refuses_the_last_known_code : (Instr.unknownCommand 9).wf = false := by decide
theorem test_impossible_length_is_refused :
    exec (.arrival 3 7 (.read 0 0)) up = .refused .impossibleLength := rfl

/-! ### Fabric traffic -/

/-- The table of "Worked example: classifying six requests" (chapter 1). -/
def sixRequests : Classifier :=
  ⟨((((Table.fill 64 ClassifierEntry.reset).set 2 ⟨true, 16, 48, .writes, false, 0, 0, 9, 1⟩).set 3
      ⟨true, 0, 0, .all, true, 0, 4294967295, 4, 5⟩).set 7 ⟨true, 16, 60, .all, false, 0, 0, 9, 2⟩).set 9
      ⟨true, 32, 32, .reads, false, 0, 0, 2, 3⟩, 23⟩

/-- Their six outcomes. -/
theorem test_classify_six_requests :
    [classify sixRequests 17 (.write 8589934592 [0]), classify sixRequests 17 .flush,
      classify sixRequests 17 (.read 1073741824 64), classify sixRequests 40 (.read 1073741824 64),
      classify sixRequests 40 (.write 6442450944 [0]), classify sixRequests 40 .flush] =
    [(1, false), (1, false), (2, false), (5, false), (23, true), (23, true)] := by decide +kernel

/-- A WRITE of 100 bytes at WF 5 is charged 3 (chapter 2, Charge examples). -/
theorem test_arrival_charges_a_write :
    (queuesAt (after (.arrival 3 7 (.write 0 (List.replicate 100 0))) { up with admission.writeFactor := 5 }) 23).wq.map
      (fun d => (d.charge, d.blocks, d.stamp)) = [(3, [0, 1], 0)] := by decide +kernel

/-- T5's READ of "admission against reservations": 224 of 600 held, the shared free count 0: RETRY. -/
theorem test_arrival_without_shared_room_is_retried :
    let s := changeRecord 23 (fun r => { r with qres := 1024 }) up
    let t := after (.arrival 3 7 (.read 0 64)) (changeRecord 5 (fun r => { r with state := .active, qlim := 600 })
      { s with classifier.defaultTenant := 5 })
    t.wires.upstream = [⟨.read, 3, 7, .retry, []⟩] ∧ (queuesAt t 5).retryMark = true := by decide +kernel

/-- The six tenants of "one grant after another" (chapter 4). -/
def grantsExample : State :=
  let head (t : TenantId) (stamp : Stamp) (charge : Nat) (c : Int) (b : Bool) (s : State) : State :=
    changeCredit t (fun _ => ⟨c, 0, 0, 0, ⟨false, b, false, 5, 16383⟩⟩)
      (withState t .active (withQueues t [aRead t stamp charge] [] s))
  let aged (s : State) : State := withQueues 5 [{ aRead 5 6980 16 with age := 5 }] [] s
  aged (head 0 7012 8 40 false (head 3 7005 24 5 false (head 5 6980 16 0 false (head 9 7001 64 (-30) true
    (head 14 6990 2 0 true (head 20 7020 1 200 false (inMode .govern
      { up with arbiter := ⟨2, 10, none⟩, credit.spare := 300 })))))))

/-- Grant 1: T5 is aged and pays 16 from the spare pool. -/
theorem test_grant_serves_the_aged_head :
    let t := after .grant grantsExample
    (t.paths.entries.get 0).map (·.stamp) = some 6980 ∧ t.credit.spare = 284 ∧ t.arbiter.ownPointer = 2 := by
  decide +kernel

/-- Grant 2: T3 is the first of the own-credit class after T2, and its credit falls from 5 to −19. -/
theorem test_grant_serves_own_credit_in_turn :
    let t := after .grant (withQueues 5 [] [] grantsExample)
    (t.paths.entries.get 0).map (·.stamp) = some 7005 ∧ (creditAt t 3).credit = -19 ∧ t.arbiter.ownPointer = 3 := by
  decide +kernel

theorem test_end_of_send_hands_over_the_payload :
    let t := after .endOfSend { wholeWrite with arbiter.slot := some ⟨.write, 3, 4, some 0, some 2, [5]⟩ }
    t.wires.downstream = [⟨.write, 3, 4, some 0, some 2, [0xAA, 0xBB]⟩] ∧ t.admission.store = [] := by decide +kernel

/-- "expiry and a reused tag": READ_DATA under a WRITE's tag is a stray. -/
theorem test_response_of_another_kind_is_a_stray :
    let t := after (.poolResponse 3 .readData .good [1]) (withEntry 3 ⟨1, 41, 2, .write, 900, 0, false⟩ up)
    t.observe.strays = 1 ∧ t.wires.upstream = [] ∧ alertSet .stray t = true := by decide +kernel

/-- "a flush across two tenants", step 8: a MEDIA_FAULT goes upstream and the stamp leaves Q17's list. -/
theorem test_media_fault_is_forwarded :
    let t := after (.poolResponse 1 .writeAck .mediaFault [])
      (withStamps 17 [802] (withEntry 1 ⟨2, 17, 6, .write, 802, 0, false⟩ up))
    t.wires.upstream = [⟨.write, 17, 6, .mediaFault, []⟩] ∧ t.paths.orderLists.get 17 = [] := by decide +kernel

/-! ### The frame -/

/-- Chapter 3, after R50: T1 holds 700 queued and released 200, so its demand is 900. -/
theorem test_boundary_takes_demand :
    let s := changeCredit 1 (fun e => { e with releasedNow := 200 })
      (withState 1 .active (withQueues 1 [aRead 1 10 350, aRead 1 11 350] [] up))
    ((after .frameBoundary s).solver.snapshot.tenants.get 1).demand = 900 := by decide +kernel

/-- "a drain that is fenced", the boundary opening frame 208: clock 5, FENCED, the queue refused in stamp order. -/
theorem test_boundary_fences_a_late_drain :
    let s := changeRecord 6 (fun r => { r with state := .draining, target := .off, drainb := 5, drainClock := 4, pauseMark := false })
      (withEntry 9 ⟨6, 3, 1, .read, 2990, 0, false⟩ (withQueues 6 [aRead 6 3000 64, aRead 6 3004 64]
        [{ aFlush 6 3010 with parked := true }] up))
    let t := after .frameBoundary s
    (recordAt t 6).state = .fenced ∧ (recordAt t 6).drainClock = 5 ∧ t.wires.upstream.map (·.tag) = [7, 7, 9] := by
  decide +kernel

/-- "expiry and a reused tag": the entry of tag 3 that has reached CTO 4 expires. -/
theorem test_expiry_answers_expired :
    let t := after (.expiry 3) (withEntry 3 ⟨5, 40, 7, .read, 1, 4, false⟩ { up with paths.ctoInForce := 4 })
    t.wires.upstream = [⟨.read, 40, 7, .expired, []⟩] ∧ (t.observe.counters.get 5).expired = 1 := by decide +kernel

theorem test_fence_makes_fenced :
    let t := after (.fence 6) (changeRecord 6 (fun r => { r with state := .draining, target := .off, fenceDue := true }) up)
    (recordAt t 6).state = .fenced ∧ alertSet .fence t = true := by decide +kernel

theorem test_drain_completion_enters_the_target :
    (recordAt (after (.drainCompletion 4) (changeRecord 4 (fun r => { r with state := .draining, target := .off }) up)) 4).state =
      .off := by decide +kernel

theorem test_settling :
    ((after (.settling 2) (withPair 2 ⟨true, 10, 11, .secondary, 3, true, 0⟩ up)).pairHalt.pairs.get 2).inGuard = false := by decide +kernel

/-- "pressure hysteresis", frame 305: the fourth lower record brings the level to the fall maximum 2. -/
theorem test_pressure_fall :
    (after .pressureFall { up with observe := { up.observe with level := 3, fallCount := 4, fallMax := 2 } }).observe.level =
      2 := by decide +kernel

theorem test_pressure_takes_the_fourth_lower_level :
    let t := takeLevel 1 { up with observe := { up.observe with level := 3, fallCount := 3, fallMax := 2 } }
    (t.observe.level, t.observe.fallCount, t.observe.fallMax) = (2, 0, 0) := by decide +kernel

/-- "a frame of debt, lending and borrowing", the lend point: T2's 140 join a spare pool of 2. -/
theorem test_lend_point :
    let s := changeCredit 2 (fun e => { e with credit := 140, settings := ⟨true, false, false, 0, 1000⟩ })
      { up with timer.frameLend := 8, credit.spare := 2 }
    let t := after .lendPoint s
    (creditAt t 2).credit = 0 ∧ t.credit.spare = 142 := by decide +kernel

/-- The snapshot of "one solve" (chapter 3). -/
def oneSolve : Snapshot :=
  ⟨1000, ((((Table.fill 24 ⟨16, 0, 16383, false, false, 0⟩).set 1 ⟨64, 100, 600, false, true, 900⟩).set 2
    ⟨32, 50, 1000, false, true, 300⟩).set 3 ⟨16, 0, 400, false, true, 500⟩).set 4 ⟨8, 200, 300, false, true, 120⟩⟩

/-- Its level, allotments and spare. -/
theorem test_solve_completion :
    let r := (after .solveCompletion { up with solver.snapshot := oneSolve }).solver.result
    (r.level, r.spare) = (52, 2) ∧ [1, 2, 3, 4].map r.allotments.get = [516, 258, 104, 120] := by decide +kernel

/-- "the limits": snapshots B, C and D. -/
theorem test_solve_limits :
    let blank : Table SnapshotTenant 24 := Table.fill 24 ⟨16, 0, 16383, false, false, 0⟩
    let b := solve ⟨1000, (blank.set 7 ⟨1, 0, 16383, false, true, 600⟩).set 9 ⟨64, 0, 16383, false, true, 300⟩⟩ 0
    let c := solve ⟨1000, blank.set 8 ⟨16, 200, 50, false, true, 500⟩⟩ 0
    let d := solve ⟨1000, blank.set 8 ⟨16, 200, 50, true, true, 500⟩⟩ 0
    (b.level, b.allotments.get 7, b.allotments.get 9, b.spare) = (4095, 511, 300, 189) ∧
      (c.allotments.get 8, c.spare) = (200, 800) ∧ (d.allotments.get 8, d.spare) = (50, 950) := by decide +kernel

/-! ### Links, resets and halt lines -/

/-- "a switch link reset over outstanding writes": no response, the entry an orphan, the list empty. -/
theorem test_switch_port_link_reset :
    let t := after .switchPortLinkReset (withEntry 4 ⟨3, 3, 1, .write, 910, 0, false⟩ wholeWrite)
    t.wires.upstream = [] ∧ (t.paths.entries.get 4).map (·.orphan) = some true ∧ t.paths.orderLists.get 3 = [] ∧
      queuedOf (queuesAt t 23) = [] := by decide +kernel

theorem test_switch_port_link_up : (after .switchPortLinkUp State.reset).links.switchUp = true := by decide +kernel

theorem test_pool_port_link_loss :
    let t := after .poolPortLinkLoss (withEntry 4 ⟨3, 20, 1, .write, 910, 0, false⟩ up)
    t.wires.upstream = [⟨.write, 20, 1, .pathLost, []⟩] ∧ t.paths.entries.get 4 = none ∧ alertSet .plink t = true := by
  decide +kernel

theorem test_pool_port_link_up : (after .poolPortLinkUp State.reset).links.poolUp = true := by decide +kernel

theorem test_power_on_reset : (after .powerOnReset wholeWrite).admission.nextStamp = 0 := by decide +kernel

/-- Chapter 8: DIV at code 2 and START high give a divisor of 3, an effective CAP of 341 and HOLD. -/
theorem test_power_on_release :
    let t := after (.powerOnRelease ⟨2, 2, true⟩) State.powerOn
    effectiveCap t = 341 ∧ t.control.mode = .hold ∧ t.timer.number = 0 ∧ t.control.cause = .powerOn := by decide +kernel

theorem test_pin_reset : (after .pinReset wholeWrite).control.held = .pin := by decide +kernel

theorem test_pin_reset_release : (after .pinResetRelease (after .pinReset up)).control.cause = .pin := by decide +kernel

/-- "a halt over two tenants": HALT_ACK waits for a HALTABLE tenant's entry. -/
theorem test_halt_req_rising :
    let s := changeRecord 3 (fun r => { r with attrs := { r.attrs with haltable := true } }) up
    haltAck (after .haltReqRising s) = true ∧
      haltAck (after .haltReqRising (withEntry 21 ⟨3, 1, 1, .read, 1, 0, false⟩ s)) = false := by decide +kernel

theorem test_halt_req_falling :
    (after .haltReqFalling { up with pairHalt.haltReq := true, pairHalt.haltCondition := true }).pairHalt.haltCondition =
      false := by decide +kernel

/-! ### Commands -/

/-- "changing FP and starting a tenant": DIV 3, CAP 16383, floors 100, 50 and 200, T5 OFF with FLOOR 100. -/
def floors (fp : Nat) : State :=
  let floored (t : TenantId) (n : Nat) (st : TenantState) (s : State) : State :=
    changeRecord t (fun r => { r with floor := n, state := st }) s
  floored 1 100 .active (floored 2 50 .active (floored 4 200 .active (floored 5 100 .off
    { up with timer.fp := fp, control.straps := ⟨0, 2, false⟩ })))

theorem test_start_over_the_floors : (after (.start 5) (floors 80)).port.cmdResult = .floorOver := by decide +kernel
theorem test_start : (recordAt (after (.start 5) (floors 128)) 5).state = .active := by decide +kernel

/-- "quiescing a tenant with queued work": drain mark 506, target QUIESCED. -/
theorem test_quiesce :
    let t := after (.quiesce 4) (withState 4 .active (withQueues 4 [aRead 4 500 8] [] { up with admission.nextStamp := 506 }))
    ((recordAt t 4).state, (recordAt t 4).target, (recordAt t 4).drainMark) = (.draining, .quiesced, 506) := by
  decide +kernel

theorem test_stop_of_a_quiesced_tenant :
    let t := after (.stop 4) (withState 4 .quiesced (withQueues 4 [{ aRead 4 506 2 with parked := true }] [] up))
    (recordAt t 4).state = .off ∧ t.wires.upstream = [⟨.read, 3, 7, .refused, []⟩] := by decide +kernel

theorem test_resume :
    let t := after (.resume 4) (withState 4 .quiesced (withQueues 4 [{ aRead 4 506 2 with parked := true }] [] up))
    (recordAt t 4).state = .active ∧ (queuesAt t 4).rq = [aRead 4 506 2] := by decide +kernel

theorem test_clear : (recordAt (after (.clear 6) (withState 6 .fenced up)) 6).state = .off := by decide +kernel

theorem test_tenant_reset :
    let t := after (.tenantReset 23) (withCredit 23 9 wholeWrite)
    (creditAt t 23).credit = 0 ∧ (t.observe.counters.get 23).refused = 0 ∧
      t.wires.upstream = [⟨.write, 3, 8, .refused, []⟩] := by decide +kernel

/-- "a journal failover during traffic": the swap of P2 refuses 4100, 4103 and 4106 and leaves the READ. -/
theorem test_pair_swap :
    let s := withQueues 10 [aRead 10 4102 8] [aWrite 10 4100 0, aFlush 10 4103, aWrite 10 4106 1] (withState 10 .active
      (withPair 2 ⟨true, 10, 11, .primary, 3, false, 0⟩ up))
    let t := after (.pairSwap 2) (withEntry 12 ⟨10, 3, 1, .write, 4090, 0, false⟩ s)
    t.pairHalt.pairs.get 2 = ⟨true, 10, 11, .secondary, 3, true, 3⟩ ∧ t.wires.upstream.map (·.tag) = [8, 9, 8] ∧
      (queuesAt t 10).rq = [aRead 10 4102 8] := by decide +kernel

/-- R33: a swap that ends the old member's drain in OFF refuses its parked READ, stamp 4101, between the WQ's 4100 and 4103. -/
theorem test_pair_swap_that_ends_a_drain :
    let parked := { aRead 10 4101 8 with parked := true }
    let t := after (.pairSwap 2) (changeRecord 10 (fun r => { r with state := .draining, target := .off })
      (withQueues 10 [parked] [aWrite 10 4100 0, aFlush 10 4103] (withPair 2 ⟨true, 10, 11, .primary, 3, false, 0⟩ up)))
    t.wires.upstream.map (·.tag) = [8, 7, 9] ∧ (recordAt t 10).state = .off := by decide +kernel

theorem test_mode_set_pending : (after (.modeSet 2) up).control.pendingMode = .govern := by decide +kernel
theorem test_mode_set_hold : (after (.modeSet 3) up).control.mode = .hold := by decide +kernel

theorem test_runtime_reset :
    let t := after .runtimeReset (withCredit 23 9 wholeWrite)
    (creditAt t 23).credit = 0 ∧ (queuesAt t 23).wq.map (·.stamp) = [800] ∧ t.control.cause = .runtime ∧
      (after .frameBoundary t).timer.number = 1 := by decide +kernel

/-- R153: a grant between the reset and its start boundary releases in TRANSPARENT, and in GOVERN nothing. -/
theorem test_grant_after_runtime_reset :
    let t := after .runtimeReset (withCredit 23 9 wholeWrite)
    ((after .grant t).paths.entries.get 0).map (·.stamp) = some 800 ∧
      ((after .grant (inMode .govern t)).paths.entries.get 0) = none := by decide +kernel

theorem test_unknown_command :
    ((after (.unknownCommand 10) up).port.cmd, (after (.unknownCommand 10) up).port.cmdResult) = (10, .badArg) := by
  decide +kernel

/-! ### The management port -/

/-- A transfer in progress with the pointer at an address. -/
def atPointer (t : Transfer) (p : BitVec 7) (s : State) : State := { s with port.transfer := t, port.pointer := p }

/-- Transfer 2 of "changing FP and starting a tenant": 0x40 is latched, then 0x00 writes FP 64, refused with FLOOR. -/
theorem test_management_write_latches :
    (after (.managementWrite 0x40) (atPointer .writing 0x0C (floors 128))).port.writeLatch =
      some ⟨.direct .fp, [(0, 0x40)]⟩ := by decide +kernel

theorem test_management_write_of_the_highest_byte :
    let s := atPointer .writing 0x0D { floors 128 with port.writeLatch := some ⟨.direct .fp, [(0, 0x40)]⟩ }
    (after (.managementWrite 0) s).port.status = some .floor ∧ (after (.managementWrite 0) s).timer.fp = 128 := by
  decide +kernel

/-- R174: ID reads 0x55 at address 0, and the lowest byte fills the snapshot latch. -/
theorem test_read_snapshot :
    let t := after (.readSnapshot true) (atPointer .reading 0 up)
    t.wires.bus = [.byte 0x55] ∧ (t.port.readLatch.map (·.field)) = some (.direct .id) := by decide +kernel

theorem test_data_byte_read :
    (after (.dataByteRead true) (atPointer .reading 2 up)).wires.bus = [.byte 0x24] := by decide +kernel

theorem test_pointer_byte : (after (.pointerByte 0x8C) (atPointer .awaitPointer 0 up)).port.pointer = 0x0C := by
  decide +kernel

theorem test_i2c_start_condition :
    (after (.i2cStartCondition 0x5A .write) { up with control.straps := ⟨2, 2, true⟩ }).port.transfer = .awaitPointer := by
  decide +kernel

theorem test_i2c_stop_condition : (after .i2cStopCondition (atPointer .reading 0 up)).port.transfer = .idle := by
  decide +kernel

theorem test_page_write_brings_index_to_0 :
    (after (.pageWrite 2) { up with port.index := 8, port.page := .classifier }).port.index = 0 := by decide +kernel

theorem test_index_write_beyond_the_page : (after (.indexWrite 24) up).port.status = some .range := by decide +kernel
theorem test_status_clear : (after (.statusClear 0x80) { up with port.status := some .floor }).port.status = none := by
  decide +kernel

theorem test_alert_flag_clear :
    (after (.alertFlagClear 8) { up with observe.flags := 24 }).observe.flags = 16 := by decide +kernel

/-- Chapter 9: with STALE and STRAY set and only STRAY enabled, ALERT_CODE reads 5; enabling STALE makes it 4. -/
theorem test_alert_enables_write :
    (alertCode { up with observe.flags := 24, observe.enables := 16 },
      alertCode (after (.alertEnablesWrite 24) { up with observe.flags := 24, observe.enables := 16 })) = (5, 4) := by
  decide +kernel

theorem test_link_reset_count_clear :
    (after (.linkResetCountClear .switch 9) { up with links.switchResets := 4 }).links.switchResets = 0 := by decide +kernel

theorem test_global_counter_clear :
    (after (.globalCounterClear .stray 9) { up with observe.strays := 4 }).observe.strays = 0 := by decide +kernel

theorem test_maximum_head_age_read :
    let t := after (.maximumHeadAgeRead 2) (countTenant 2 (fun c => { c with maxHeadAge := 9 }) up)
    t.wires.bus = [.byte 9] ∧ (t.observe.counters.get 2).maxHeadAge = 0 := by decide +kernel

/-- Chapter 3, after R47: FP 64 would make the effective CAP 341, below 350; FP 80 makes it 426. -/
theorem test_fp_write : (after (.fpWrite 64) (floors 128)).timer.fp = 128 ∧ (after (.fpWrite 80) (floors 128)).timer.fp = 80 := by
  decide +kernel

theorem test_cap_write : (after (.capWrite 0) up).timer.cap = 1 ∧ (after (.capWrite 0) up).solver.solving = false := by
  decide +kernel

theorem test_wf_write : (after (.wfWrite 3) up).admission.writeFactor = 4 := by decide +kernel
theorem test_lp_write : (after (.lpWrite 16) up).timer.lp = 15 := by decide +kernel
theorem test_cto_write : (after (.ctoWrite 5000) up).paths.cto = 4095 ∧ (after (.ctoWrite 5000) up).solver.solving = true := by
  decide +kernel

theorem test_default_tenant_write : (after (.defaultTenantWrite 24) up).port.status = some .range := by decide +kernel

/-- Chapter 3, after R47: FLOOR 300 for T4 would make the floors 450, above 426. -/
theorem test_floor_write : (after (.floorWrite 4 300) (floors 80)).port.status = some .floor := by decide +kernel

theorem test_qlim_write : (recordAt (after (.qlimWrite 0 2000) up) 0).qlim = 1024 := by decide +kernel
theorem test_qres_write_beyond_the_pool :
    (after (.qresWrite 0 64) (changeRecord 23 (fun r => { r with qres := 961 }) up)).port.status = some .reserve := by
  decide +kernel

theorem test_haltable_write : (recordAt (after (.haltableWrite 5 true) up) 5).attrs.haltable = true := by decide +kernel

theorem test_classifier_entry_write_names_an_active_tenant :
    (after (.classifierEntryWrite 7 (.flags 1)) { up with
      classifier.entries := up.classifier.entries.set 7 ⟨false, 0, 0, .all, false, 0, 0, 0, 23⟩ }).port.status = some .state := by decide +kernel

theorem test_classifier_entry_write :
    ((after (.classifierEntryWrite 7 (.flags 9)) up).classifier.entries.get 7).window = true := by decide +kernel

theorem test_pair_entry_write :
    ((after (.pairEntryWrite 2 (.flags 3)) up).pairHalt.pairs.get 2) = ⟨true, 0, 1, .secondary, 0, false, 0⟩ := by
  decide +kernel

/-- Steps take the queue in order, and a tick passes on an empty one. -/
theorem test_step_takes_the_front :
    step { up with pending := [.lpWrite 3, .grant] } = .next (after (.lpWrite 3) { up with pending := [.grant] }) := rfl

theorem test_step_ticks : (match step up with
    | .next t => t.timer.phase
    | _ => 99) = 1 := by decide +kernel

/-! ### A state and operands for every statement with hypotheses, each clause at a boundary value -/

/-- A drain that is finished when nothing is outstanding. -/
def drained (t : TenantId) (target : DrainTarget) (s : State) : State :=
  changeRecord t (fun r => { r with state := .draining, target := target, pauseMark := false }) s

/-- T23 with a whole WRITE queued behind an outstanding one, a READ, credit 16383, and a pair in GUARD. -/
def busy : State :=
  withCredit 23 16383 (withPair 2 ⟨true, 10, 11, .secondary, 3, true, 3⟩ (withEntry 4 ⟨23, 3, 1, .write, 799, 0, false⟩
    (withStamps 3 [799, 800] (withQueues 23 [aRead 23 798 4] [aWrite 23 800 5] wholeWrite))))

theorem entries_up (k : Fin 256) : up.paths.entries.get k = none := Table.get_fill _ _

theorem entries_withEntry {P : OutstandingEntry → Prop} {tag k : Fin 256} {e f : OutstandingEntry} {s : State}
    (hs : ∀ k, s.paths.entries.get k = none) (he : P e) (h : (withEntry tag e s).paths.entries.get k = some f) : P f := by
  have h' : (s.paths.entries.set tag (some e)).get k = some f := h
  rw [Table.get_set] at h'
  split at h'
  · cases h'; exact he
  · rw [hs] at h'; cases h'

theorem witness_step_takes_front_command : ({ up with pending := [.grant] } : State).pending = .grant :: [] := rfl

/-- The phases just below and at the frame's end, the solve bound and the lend point. -/
theorem witness_empty_queue :
    let s := fun (length lend phase : Nat) =>
      ({ up with timer.frameLength := length, timer.frameLend := lend, timer.phase := phase } : State)
    let lends := fun (s : State) => s.timer.frameLend ≠ 0 ∧ s.timer.phase + 1 = s.timer.frameLend * s.timer.frameLength
    (State.powerOn.pending = [] ∧ State.powerOn.control.held ≠ .no) ∧
      ((s 64 0 1023).pending = [] ∧ Running (s 64 0 1023) ∧ 16 * (s 64 0 1023).timer.frameLength ≤ 1023 + 1) ∧
      (¬lends (s 64 0 1022) ∧ 1022 + 1 < 16 * (s 64 0 1022).timer.frameLength ∧ 96 ≤ 1022 + 1) ∧
      (¬lends (s 64 0 94) ∧ 94 + 1 < 96) ∧ (¬lends (s 64 0 95) ∧ 96 ≤ 95 + 1) ∧ (lends (s 8 1 7) ∧ 7 + 1 < 96) ∧
      lends (s 64 15 959) := by
  refine ⟨⟨rfl, by decide⟩, ⟨rfl, rfl, by decide⟩, ?_⟩
  decide

theorem witness_well_formed_commands :
    (Instr.arrival 3 7 (.read 0 4096)).wf = true ∧ (Instr.arrival 3 7 (.read 0 4097)).wf = false ∧
      (Instr.arrival 3 7 (.read 0 0)).wf = false := by decide

theorem heldLaw_powerOn : HeldLaw State.powerOn := ⟨fun _ => rfl, nofun⟩
theorem heldLaw_pin : HeldLaw (after .pinReset up) := ⟨nofun, fun _ => rfl⟩
theorem heldLaw_up : HeldLaw up := ⟨nofun, nofun⟩

theorem witness_held_resets :
    up.control.held ≠ .powerOn ∧ State.powerOn.control.held = .powerOn ∧ (Instr.grant).wf = true ∧
      actsWhileHeld .grant = false ∧ HeldLaw State.powerOn := ⟨by decide, rfl, rfl, rfl, heldLaw_powerOn⟩

theorem witness_release_of_a_reset :
    (HeldLaw State.powerOn ∧ State.powerOn.control.held = .powerOn) ∧
      (HeldLaw (after .pinReset up) ∧ (after .pinReset up).control.held = .pin) ∧
      (HeldLaw up ∧ up.control.held ≠ .powerOn ∧ up.control.held ≠ .pin) :=
  ⟨⟨heldLaw_powerOn, rfl⟩, ⟨heldLaw_pin, rfl⟩, heldLaw_up, by decide, by decide⟩

theorem witness_held_and_halt_laws : HeldLaw (after .pinReset up) ∧ HaltLaw (after .pinReset up) ∧
    ∃ t, step (after .pinReset up) = .next t :=
  ⟨heldLaw_pin, ⟨nofun, fun _ => ⟨rfl, rfl, rfl⟩⟩, _, rfl⟩

theorem divisionLaw_busy : DivisionLaw busy := by
  unfold DivisionLaw FloorLaw SnapshotLaw ResultLaw CreditLaw ChargeLaw
  decide +kernel

theorem witness_division_law : HeldLaw busy ∧ DivisionLaw busy ∧ ∃ t, step busy = .next t :=
  ⟨⟨nofun, nofun⟩, divisionLaw_busy, _, rfl⟩

theorem queueLaw_busy : QueueLaw busy := by
  unfold QueueLaw TenantQueueLaw
  decide +kernel

theorem targetLaw_busy : TargetLaw busy := by
  unfold TargetLaw
  decide +kernel

theorem witness_queue_law : QueueLaw busy ∧ TargetLaw busy ∧ ∃ t, step busy = .next t :=
  ⟨queueLaw_busy, targetLaw_busy, _, rfl⟩

theorem orderLaw_busy : OrderLaw busy := by
  intro q x hx
  have h : ∀ q : Fin 64, (busy.paths.orderLists.get q).all (fun x => q == 3 && (x == 799 || x == 800)) = true := by
    decide +kernel
  have hq := List.all_eq_true.1 (h q) x hx
  simp only [Bool.and_eq_true, Bool.or_eq_true, beq_iff_eq] at hq
  obtain ⟨rfl, rfl | rfl⟩ := hq
  · exact .inr ⟨4, ⟨23, 3, 1, .write, 799, 0, false⟩, by decide +kernel, rfl, rfl, rfl, rfl⟩
  · exact .inl ⟨23, aWrite 23 800 5, by decide +kernel, rfl, rfl, rfl⟩

theorem blocksLaw_busy : BlocksLaw busy := by
  have h : heldBlocks busy = [5] := by decide +kernel
  refine ⟨rfl, by rw [h]; decide, fun b => ?_⟩
  rw [h]
  exact Iff.rfl

theorem listedLaw_busy : ListedLaw busy := by
  have hq : ∀ t, ∀ d ∈ queuedOf (queuesAt busy t), d.kind = .write →
      d.stamp ∈ busy.paths.orderLists.get d.requester.toFin := by decide +kernel
  have he : ∀ k, ∀ e ∈ busy.paths.entries.get k, e.kind = .write →
      e.stamp ∈ busy.paths.orderLists.get e.requester.toFin := by decide +kernel
  rintro q x (⟨t, d, hd, hk, rfl, rfl⟩ | ⟨k, e, h, hk, -, rfl, rfl⟩)
  · exact hq t d hd hk
  · exact he k e h hk

theorem liveStampsDistinct_busy : LiveStampsDistinct busy := by
  have hq : ∀ t, ∀ d ∈ queuedOf (queuesAt busy t), d.kind = .write → d.stamp = 799 ∨ d.stamp = 800 := by decide +kernel
  have he : ∀ o ∈ busy.paths.entries.toList, ∀ e ∈ o, e.stamp = 799 ∨ e.stamp = 800 := by decide +kernel
  have hs : ∀ x : Stamp, x = 799 ∨ x = 800 → ∀ q : Fin 64,
      sumTenants (fun t => (queuedOf (queuesAt busy t)).countP (isWriteOf q x)) +
        busy.paths.entries.toList.countP (isEntryOf q x) ≤ 1 := by
    rintro x (rfl | rfl) <;> decide +kernel
  intro q x
  by_cases h : x = 799 ∨ x = 800
  · exact hs x h q
  · have h1 : ∀ t, (queuedOf (queuesAt busy t)).countP (isWriteOf q x) = 0 := fun t => by
      rw [List.countP_eq_zero]
      intro d hd hw
      simp only [isWriteOf, Bool.and_eq_true, beq_iff_eq] at hw
      exact h (hw.2 ▸ hq t d hd hw.1.1)
    have h2 : busy.paths.entries.toList.countP (isEntryOf q x) = 0 := by
      rw [List.countP_eq_zero]
      rintro (_ | e) ho hw
      · cases hw
      · simp only [isEntryOf, Bool.and_eq_true, beq_iff_eq] at hw
        exact h (hw.2 ▸ he _ ho e rfl)
    simp [sumTenants, sumOver, h1, h2]

theorem witness_order_and_blocks_laws : OrderLaw busy ∧ BlocksLaw busy ∧ LiveStampsDistinct busy ∧ ListedLaw busy ∧
    ∃ t, step busy = .next t :=
  ⟨orderLaw_busy, blocksLaw_busy, liveStampsDistinct_busy, listedLaw_busy, _, rfl⟩

theorem pairLaw_busy : PairLaw busy := by
  unfold PairLaw
  decide +kernel

/-- With the Switch Port DOWN and an orphan outstanding, and with the Pool Port DOWN. -/
theorem switchDownLaw_orphan :
    SwitchDownLaw { withEntry 4 ⟨23, 3, 1, .write, 799, 0, true⟩ up with links.switchUp := false } := fun _ =>
  ⟨by decide +kernel, fun _ _ h => entries_withEntry (P := fun e => e.orphan = true) entries_up rfl h,
    fun _ => Table.get_fill _ _⟩

theorem poolDownLaw_reset : PoolDownLaw State.reset := fun _ => ⟨fun _ => Table.get_fill _ _, rfl⟩

theorem witness_pair_and_link_laws :
    (PairLaw busy ∧ ∃ t, step busy = .next t) ∧
      (SwitchDownLaw { withEntry 4 ⟨23, 3, 1, .write, 799, 0, true⟩ up with links.switchUp := false } ∧
        PoolDownLaw { withEntry 4 ⟨23, 3, 1, .write, 799, 0, true⟩ up with links.switchUp := false }) ∧
      PoolDownLaw State.reset :=
  ⟨⟨pairLaw_busy, _, rfl⟩, ⟨switchDownLaw_orphan, nofun⟩, poolDownLaw_reset⟩

theorem witness_range_laws :
    TimeoutLaw busy ∧ ObservationLaw busy ∧ PortLaw busy ∧ TimerLaw busy ∧ RangeLaw busy ∧
      ∃ t, step busy = .next t := by
  refine ⟨⟨by decide, by decide, by decide, by decide, fun _ _ h =>
    entries_withEntry (P := fun e => e.age < 256) entries_up (by decide) h⟩, ?_, ?_, ?_, ?_, _, rfl⟩
  · unfold ObservationLaw; decide +kernel
  · unfold PortLaw; decide +kernel
  · unfold TimerLaw; decide +kernel
  · unfold RangeLaw TenantRangeLaw; decide +kernel

/-- With a start boundary due, at the end of the frame. -/
theorem witness_timer_law_with_a_start_boundary_due :
    TimerLaw (after .runtimeReset up) ∧ (after .runtimeReset up).timer.startDue = true := by
  unfold TimerLaw
  decide +kernel

theorem witness_every_request_is_answered_once :
    SwitchDownLaw busy ∧ (silences (.arrival 3 7 .flush) = false ∧ ∃ t, exec (.arrival 3 7 .flush) busy = .next t) ∧
      silences .switchPortLinkReset = true ∧ Running busy ∧ ∃ t, exec .switchPortLinkReset busy = .next t :=
  ⟨nofun, ⟨rfl, _, rfl⟩, rfl, rfl, _, rfl⟩

/-- Two heads in TRANSPARENT: T23's READ, stamp 798, and its WRITE, stamp 800. -/
theorem witness_only_grants_release :
    QueueLaw busy ∧ exec .grant busy = .next (after .grant busy) ∧ busy.paths.entries.get 0 = none ∧
      (after .grant busy).paths.entries.get 0 = some ⟨23, 3, 7, .read, 798, 0, false⟩ :=
  ⟨queueLaw_busy, rfl, by decide +kernel, by decide +kernel⟩

/-- A halted HALTABLE tenant with nothing outstanding, beside one that is not HALTABLE. -/
theorem witness_halt_ack_stays :
    let s := changeRecord 3 (fun r => { r with attrs := { r.attrs with haltable := true } })
      { busy with pairHalt := ⟨busy.pairHalt.pairs, true, true⟩ }
    haltAck s = true ∧ step s = .next (tick s) ∧ (tick s).pairHalt.haltCondition = true ∧
      ∀ x, (recordAt (tick s) x).attrs.haltable = true →
        (recordAt s x).attrs.haltable = true ∨ outstandingCount s x = 0 :=
  ⟨by decide +kernel, rfl, rfl, by decide +kernel⟩

theorem witness_classifier :
    (∃ i, entryMatches 17 .flush (sixRequests.entries.get i) = true) ∧
      ∀ i, entryMatches 40 .flush (sixRequests.entries.get i) = false :=
  ⟨⟨2, by decide +kernel⟩, by decide +kernel⟩

/-- Every Payload Store block in use. -/
def fullStore : State := { up with admission.store := (List.range 4096).map fun k => (k, []) }

/-- At QLIM, with 4096 blocks in use, and for an OFF and a FENCED tenant. -/
theorem witness_arrivals_answered_at_once :
    let full := changeRecord 23 (fun r => { r with qlim := 2 }) busy
    (Running busy ∧ (Instr.arrival 3 7 (.write 0 [1])).wf = true) ∧
      (busy.links.switchUp = true ∧ (classify full.classifier 3 (.write 0 [1])).1 = 23 ∧
        (recordAt (withState 23 .off busy) 23).state = .off ∧ (recordAt (withState 23 .fenced busy) 23).state = .fenced) ∧
      ((recordAt full 23).state = .active ∧ ¬PassesDescriptorTest full 23) ∧
      FailsPayloadTest fullStore (.write 0 [1]) ∧ State.reset.links.switchUp = false := by
  refine ⟨⟨rfl, rfl⟩, ⟨rfl, by decide +kernel, by decide +kernel, by decide +kernel⟩,
    ⟨by decide +kernel, ?_⟩, ?_, rfl⟩
  · unfold PassesDescriptorTest; decide +kernel
  · have h : fullStore.admission.store.length = 4096 := by simp [fullStore]
    rw [FailsPayloadTest, h]
    decide

/-- With one place left below QLIM, for a whole-block WRITE and a READ of 4096 bytes. -/
theorem witness_arrival_with_room :
    let room := changeRecord 23 (fun r => { r with qlim := 3 }) busy
    Running room ∧ room.links.switchUp = true ∧ (Instr.arrival 3 7 (.write 0 (List.replicate 64 1))).wf = true ∧
      (Instr.arrival 3 7 (.read 0 4096)).wf = true ∧ StoreLaw room.admission ∧
      (classify room.classifier 3 (.write 0 (List.replicate 64 1))).1 = 23 ∧ (recordAt room 23).state = .active ∧
      PassesDescriptorTest room 23 ∧ ¬FailsPayloadTest room (.write 0 (List.replicate 64 1)) := by
  refine ⟨rfl, rfl, by decide, by decide, rfl, by decide +kernel, by decide +kernel, ?_, ?_⟩
  · unfold PassesDescriptorTest; decide +kernel
  · show ¬(4096 < ((List.replicate 64 (1 : Byte)).length + 63) / 64 + 1)
    decide

/-- No tenant of `up` has a head. -/
theorem noHead_up (x : TenantId) (w : Bool) : headOf up x w = none := by
  revert x w; decide +kernel

theorem witness_grant_without_candidate :
    ({ busy with arbiter.slot := some ⟨.read, 3, 0, some 0, some 64, []⟩ } : State).arbiter.slot ≠ none ∧
      State.reset.links.poolUp = false ∧
      (∀ k, ({ busy with paths.entries := Table.fill 256 (some ⟨23, 3, 1, .read, 1, 0, false⟩) } : State).paths.entries.get
        k ≠ none) ∧
      ∀ x w d, ¬Eligible up x w d :=
  ⟨nofun, rfl, fun k => by show (Table.fill 256 _).get k ≠ none; rw [Table.get_fill]; nofun,
    fun x w d h => by have := h.1; rw [noHead_up] at this; cases this⟩

/-- A head passes when the model's own test, read as a proposition, passes. -/
theorem eligible_of {s : State} {t : TenantId} {w : Bool} {d : Descriptor} (h : headOf s t w = some d)
    (hp : headPasses s t w d = true) : Eligible s t w d := ⟨h, (headPasses_iff s t w d).1 hp⟩

theorem witness_oldest_eligible_head :
    Running busy ∧ busy.control.mode ≠ .govern ∧ CanRelease busy 0 ∧ Eligible busy 23 false (aRead 23 798 4) ∧
      Eligible busy 23 true (aWrite 23 800 5) ∧
      ∀ y w e, Eligible busy y w e → (y, w) ≠ (23, false) → older (aRead 23 798 4).stamp e.stamp = true := by
  have heads : ∀ y : TenantId, ∀ w : Bool, ∀ e ∈ headOf busy y w, (y, w) ≠ (23, false) → older 798 e.stamp = true := by
    decide +kernel
  refine ⟨rfl, by decide, ⟨rfl, rfl, by decide +kernel, fun k hk => absurd hk (Nat.not_lt_zero _)⟩,
    eligible_of (by decide +kernel) (by decide +kernel), eligible_of (by decide +kernel) (by decide +kernel),
    fun y w e h => heads y w e h.1⟩

/-- An aged head of T5 with credit 1, and with credit 0, among the candidates of "one grant after another". -/
theorem witness_govern_aged :
    let rich := withCredit 5 1 grantsExample
    let d := { aRead 5 6980 16 with age := 5 }
    (Running rich ∧ rich.control.mode = .govern ∧ CanRelease rich 0 ∧ IsCandidate rich 5 false d ∧ Aged rich 5 d ∧
        1 ≤ (creditAt rich 5).credit) ∧
      (CanRelease grantsExample 0 ∧ IsCandidate grantsExample 5 false d ∧ Aged grantsExample 5 d ∧
        (creditAt grantsExample 5).credit ≤ 0) ∧
      ∀ y w e, y ≠ 5 → MayBeCandidate grantsExample y w e → Aged grantsExample y e → older d.stamp e.stamp = true := by
  have heads : ∀ y : TenantId, ∀ w : Bool, ∀ e ∈ headOf grantsExample y w, y ≠ 5 → headAged grantsExample y e = false := by
    decide +kernel
  have one : ∀ s : State, headOf s 5 true = none → Eligible s 5 false { aRead 5 6980 16 with age := 5 } →
      IsCandidate s 5 false { aRead 5 6980 16 with age := 5 } :=
    fun s hn he => ⟨he, fun d' hd' => by have := hd'.1; rw [show (!false) = true from rfl, hn] at this; cases this⟩
  refine ⟨⟨rfl, rfl, ⟨rfl, rfl, by decide +kernel, fun k hk => absurd hk (Nat.not_lt_zero _)⟩,
      one _ (by decide +kernel) (eligible_of (by decide +kernel) (by decide +kernel)),
      (headAged_iff _ _ _).1 (by decide +kernel), by decide +kernel⟩,
    ⟨⟨rfl, rfl, by decide +kernel, fun k hk => absurd hk (Nat.not_lt_zero _)⟩,
      one _ (by decide +kernel) (eligible_of (by decide +kernel) (by decide +kernel)),
      (headAged_iff _ _ _).1 (by decide +kernel), by decide +kernel⟩, fun y w e hy hc ha => ?_⟩
  rw [← headAged_iff, heads y w e hc.1.1 hy] at ha
  cases ha

/-- T3 with credit 1 first in turn after T2, and T14 with credit 0 first in turn after T10. -/
theorem witness_govern_in_turn :
    let own := withCredit 3 1 (withQueues 5 [] [] grantsExample)
    let borrow := withQueues 0 [] [] (withQueues 3 [] [] (withQueues 20 [] [] (withQueues 5 [] [] grantsExample)))
    (CanRelease own 0 ∧ IsCandidate own 3 false (aRead 3 7005 24) ∧ (∀ y w e, MayBeCandidate own y w e → ¬Aged own y e) ∧
        1 ≤ (creditAt own 3).credit ∧ ∀ y w e, y ≠ 3 → MayBeCandidate own y w e → 1 ≤ (creditAt own y).credit →
          turnsAfter own.arbiter.ownPointer 3 < turnsAfter own.arbiter.ownPointer y) ∧
      (CanRelease borrow 0 ∧ IsCandidate borrow 14 false (aRead 14 6990 2) ∧
        (∀ y w e, MayBeCandidate borrow y w e → ¬Aged borrow y e) ∧ (creditAt borrow 14).credit ≤ 0 ∧
        (∀ y w e, MayBeCandidate borrow y w e → (creditAt borrow y).credit ≤ 0) ∧
        ∀ y w e, y ≠ 14 → MayBeCandidate borrow y w e →
          turnsAfter borrow.arbiter.borrowPointer 14 < turnsAfter borrow.arbiter.borrowPointer y) := by
  intro own borrow
  have h1 : ∀ y : TenantId, ∀ w : Bool, ∀ e ∈ headOf own y w, headAged own y e = false ∧
      (y ≠ 3 → 1 ≤ (creditAt own y).credit → turnsAfter own.arbiter.ownPointer 3 < turnsAfter own.arbiter.ownPointer y) := by
    decide +kernel
  have h2 : ∀ y : TenantId, ∀ w : Bool, ∀ e ∈ headOf borrow y w, headAged borrow y e = false ∧
      (creditAt borrow y).credit ≤ 0 ∧
      (y ≠ 14 → turnsAfter borrow.arbiter.borrowPointer 14 < turnsAfter borrow.arbiter.borrowPointer y) := by
    decide +kernel
  have n1 : headOf own 3 true = none := by decide +kernel
  have n2 : headOf borrow 14 true = none := by decide +kernel
  refine ⟨⟨⟨rfl, rfl, by decide +kernel, fun k hk => absurd hk (Nat.not_lt_zero _)⟩,
      ⟨eligible_of (by decide +kernel) (by decide +kernel), fun d' hd' => ?_⟩, fun y w e hc ha => ?_, by decide +kernel,
      fun y w e hy hc => (h1 y w e hc.1.1).2 hy⟩,
    ⟨⟨rfl, rfl, by decide +kernel, fun k hk => absurd hk (Nat.not_lt_zero _)⟩,
      ⟨eligible_of (by decide +kernel) (by decide +kernel), fun d' hd' => ?_⟩, fun y w e hc ha => ?_, by decide +kernel,
      fun y w e hc => (h2 y w e hc.1.1).2.1, fun y w e hy hc => (h2 y w e hc.1.1).2.2 hy⟩⟩
  · have := hd'.1; rw [show (!false) = true from rfl, n1] at this; cases this
  · rw [← headAged_iff, (h1 y w e hc.1.1).1] at ha; cases ha
  · have := hd'.1; rw [show (!false) = true from rfl, n2] at this; cases this
  · rw [← headAged_iff, (h2 y w e hc.1.1).1] at ha; cases ha

theorem witness_end_of_send : Running up ∧ up.arbiter.slot = none ∧
    ({ up with arbiter.slot := some ⟨.write, 3, 4, some 0, some 2, [5]⟩ } : State).arbiter.slot =
      some ⟨.write, 3, 4, some 0, some 2, [5]⟩ := ⟨rfl, rfl, rfl⟩

/-- Tag 4 of `busy` is a WRITE; tag 255 is free; and an orphan under tag 0. -/
theorem witness_pool_responses :
    (Running busy ∧ busy.links.poolUp = true ∧ busy.links.switchUp = true ∧
        busy.paths.entries.get (4 : Byte).toFin = some ⟨23, 3, 1, .write, 799, 0, false⟩) ∧
      State.reset.links.poolUp = false ∧ busy.paths.entries.get (255 : Byte).toFin = none ∧
      (withEntry 0 ⟨23, 3, 1, .flush, 799, 0, true⟩ up).paths.entries.get (0 : Byte).toFin =
        some ⟨23, 3, 1, .flush, 799, 0, true⟩ :=
  ⟨⟨rfl, rfl, rfl, by decide +kernel⟩, rfl, by decide +kernel, by decide +kernel⟩

theorem targetLaw_drained : TargetLaw (drained 6 .off up) ∧ TargetLaw (drained 6 .quiesced up) := by
  unfold TargetLaw
  decide +kernel

/-- A finished drain with either target, one with a parked READ to refuse, and one that waits for an entry. -/
theorem witness_freeing :
    (TargetLaw (drained 6 .off up) ∧ DrainFinished (drained 6 .off up) 6 ∧ (recordAt (drained 6 .off up) 6).target = .off) ∧
      DrainFinished (withQueues 6 [{ aRead 6 506 2 with parked := true }] [] (drained 6 .off up)) 6 ∧
      (DrainFinished (drained 6 .quiesced up) 6 ∧ (recordAt (drained 6 .quiesced up) 6).target = .quiesced) ∧
      ¬DrainFinished (withEntry 0 ⟨6, 3, 1, .read, 1, 0, false⟩ (drained 6 .off up)) 6 := by
  refine ⟨⟨targetLaw_drained.1, (drainDone_iff _ _).1 (by decide +kernel), by decide +kernel⟩,
    (drainDone_iff _ _).1 (by decide +kernel), ⟨(drainDone_iff _ _).1 (by decide +kernel), by decide +kernel⟩, ?_⟩
  rw [← drainDone_iff]
  decide +kernel

theorem witness_stale_boundary : Running up ∧ up.solver.newResult = false ∧ up.timer.startDue = false ∧
    (after .runtimeReset up).timer.startDue = true ∧
    ({ up with observe.level := 3 } : State).observe.level ≤ 3 ∧
    ({ up with solver.newResult := true } : State).solver.newResult = true := ⟨rfl, rfl, rfl, rfl, by decide, rfl⟩

theorem witness_strikes : Running up ∧ (recordAt up 9).demoted = false ∧
    (recordAt (changeRecord 9 (fun r => { r with demoted := true, attrs := { r.attrs with demotable := true } }) up) 9).demoted =
      true := ⟨rfl, by decide +kernel, by decide +kernel⟩

/-- An entry whose age reaches CTO at the boundary, and one boundary earlier. -/
theorem witness_boundary_expiries :
    (expiringEntries (withEntry 3 ⟨5, 40, 7, .read, 1, 255, false⟩ up)).length = 1 ∧
      (expiringEntries (withEntry 3 ⟨5, 40, 7, .read, 1, 254, false⟩ up)).length = 0 := by decide +kernel

/-- Finished drains, a paused one, one that reaches DRAINB and one that is a frame short of it. -/
theorem witness_boundary_drains :
    let waiting := withEntry 9 ⟨6, 3, 1, .read, 2990, 0, false⟩ (drained 6 .off up)
    let reaching := changeRecord 6 (fun r => { r with drainb := 5, drainClock := 4 }) waiting
    let short := changeRecord 6 (fun r => { r with drainb := 5, drainClock := 3 }) waiting
    let paused := changeRecord 6 (fun r => { r with pauseMark := true }) waiting
    (Running waiting ∧ TargetLaw waiting ∧ (recordAt waiting 0).state ≠ .draining) ∧
      (outstandingCount (after .frameBoundary (drained 6 .off up)) 6 = 0 ∧ queuedOf (queuesAt (drained 6 .off up) 6) = []) ∧
      outstandingCount (after .frameBoundary waiting) 6 ≠ 0 ∧ (recordAt paused 6).pauseMark = true ∧
      ((recordAt reaching 6).pauseMark = false ∧ (recordAt reaching 6).drainb ≠ 0 ∧
        (recordAt reaching 6).drainb ≤ min 65535 ((recordAt reaching 6).drainClock + 1)) ∧
      min 65535 ((recordAt short 6).drainClock + 1) < (recordAt short 6).drainb := by
  refine ⟨⟨rfl, ?_, by decide +kernel⟩, by decide +kernel, by decide +kernel, by decide +kernel, by decide +kernel,
    by decide +kernel⟩
  unfold TargetLaw
  decide +kernel

/-- T2's finished drain to OFF, T6's fence and an entry that expires at one boundary (R6): EXPIRED, then T2's READ, then T6's queue in stamp order. -/
theorem witness_boundary_refusals :
    let s := withEntry 3 ⟨5, 40, 7, .read, 1, 255, false⟩ (withEntry 9 ⟨6, 3, 1, .read, 2990, 0, false⟩
      (drained 2 .off (withQueues 2 [{ aRead 2 3020 1 with parked := true }] []
        (changeRecord 6 (fun r => { r with drainb := 5, drainClock := 4 })
          (drained 6 .off (withQueues 6 [aRead 6 3004 64] [aWrite 6 3000 5, { aFlush 6 3010 with parked := true }]
            { up with admission.store := [(5, [1, 2])] }))))))
    (Running s ∧ TargetLaw s) ∧
      (after .frameBoundary s).wires.upstream.map (fun r => (r.kind, r.status)) =
        [(.read, .expired), (.read, .refused), (.write, .refused), (.read, .refused), (.flush, .refused)] ∧
      (after .frameBoundary s).admission.store = [] := by
  refine ⟨⟨rfl, ?_⟩, by decide +kernel, by decide +kernel⟩
  unfold TargetLaw
  decide +kernel

/-- Entries one frame short of the CTO in force and at it, an orphan among them. -/
theorem witness_expiry :
    Running up ∧ (⟨5, 40, 7, .read, 1, 255, false⟩ : OutstandingEntry).age < up.paths.ctoInForce ∧
      up.paths.ctoInForce ≤ (⟨5, 40, 7, .read, 1, 256, false⟩ : OutstandingEntry).age ∧
      (withEntry 3 ⟨5, 40, 7, .read, 1, 256, true⟩ up).paths.entries.get (3 : Byte).toFin =
        some ⟨5, 40, 7, .read, 1, 256, true⟩ := ⟨rfl, by decide, by decide, by decide +kernel⟩

theorem witness_fence_and_drain_completion :
    let due := changeRecord 6 (fun r => { r with fenceDue := true }) (drained 6 .off up)
    ((recordAt due 6).state = .draining ∧ (recordAt due 6).fenceDue = true) ∧
      ((recordAt up 6).state ≠ .draining ∧ (recordAt (drained 6 .off up) 6).fenceDue = false) ∧
      (¬DrainFinished up 6 ∧ DrainFinished (drained 6 .quiesced up) 6 ∧ DrainFinished (drained 6 .off up) 6) := by
  refine ⟨by decide +kernel, by decide +kernel, ?_, (drainDone_iff _ _).1 (by decide +kernel),
    (drainDone_iff _ _).1 (by decide +kernel)⟩
  rw [← drainDone_iff]
  decide +kernel

theorem witness_settling_and_pressure_fall :
    let s := withPair 2 ⟨true, 10, 11, .secondary, 3, true, 0⟩ up
    settlePasses s 2 = true ∧ settlePasses busy 2 = false ∧
      4 ≤ ({ up with observe.fallCount := 4 } : State).observe.fallCount ∧
      ({ up with observe.fallCount := 3 } : State).observe.fallCount < 4 := by decide +kernel

/-- No lend point, the phase just before it and at it; and a gate open and closed. -/
theorem witness_lend_point :
    let s := fun (phase : Nat) => ({ up with timer.frameLend := 8, timer.phase := phase } : State)
    up.timer.frameLend = 0 ∧ (s 511).timer.phase < (s 511).timer.frameLend * (s 511).timer.frameLength ∧
      (s 512).timer.frameLend * (s 512).timer.frameLength ≤ (s 512).timer.phase ∧ GateIsOpen busy 23 ∧
      ¬GateIsOpen busy 10 := by
  refine ⟨rfl, by decide, by decide, (gateOpen_iff _ _).1 (by decide +kernel), ?_⟩
  rw [← gateOpen_iff]
  decide +kernel

theorem witness_solve_completion : Running up ∧ up.solver.solving = true ∧ ObservationLaw up ∧
    ({ up with solver.solving := false } : State).solver.solving = false := by
  refine ⟨rfl, rfl, ?_, rfl⟩
  unfold ObservationLaw
  decide +kernel

/-- Snapshot A of "the limits", whose residual is 0, and "one solve". -/
theorem witness_solve :
    let a : Snapshot := ⟨300, ((Table.fill 24 ⟨16, 0, 16383, false, false, 0⟩).set 4 ⟨8, 200, 300, false, true, 250⟩).set 6
      ⟨1, 100, 200, false, true, 180⟩⟩
    residualOf a = 0 ∧ totalGuaranteed a ≤ a.effCap ∧ 0 < residualOf oneSolve ∧
      totalGuaranteed oneSolve ≤ oneSolve.effCap ∧ oneSolve.effCap ≤ 16383 ∧
      (oneSolve.tenants.get 0).eligible = false ∧ (oneSolve.tenants.get 1).eligible = true := by decide +kernel

theorem witness_links : Running up ∧ up.links.switchUp = true ∧ up.links.poolUp = true ∧ Running State.reset ∧
    State.reset.links.switchUp = false ∧ State.reset.links.poolUp = false := ⟨rfl, rfl, rfl, rfl, rfl, rfl⟩

theorem witness_halt_lines : up.pairHalt.haltReq = false ∧
    (after .haltReqRising up).pairHalt.haltReq = true ∧ Running (after .haltReqRising up) := ⟨rfl, rfl, rfl⟩

/-- START at floors that fit exactly and one block over; RESUME and CLEAR in and out of their states. -/
theorem witness_start_resume_clear :
    let exact := changeRecord 5 (fun r => { r with floor := 76 }) (floors 80)
    let high := changeRecord 5 (fun r => { r with floor := 77 }) (floors 80)
    ((5 : Byte).toNat = (5 : TenantId).val ∧ (recordAt exact 5).state = .off ∧
        floorsHeld exact + (recordAt exact 5).floor ≤ effectiveCap exact) ∧
      effectiveCap high < floorsHeld high + (recordAt high 5).floor ∧ (recordAt exact 4).state ≠ .off ∧
      (recordAt (drained 6 .off up) 6).state = .draining ∧ (recordAt (withState 6 .quiesced up) 6).state = .quiesced ∧
      (recordAt up 6).state ≠ .draining ∧ (recordAt (withState 6 .fenced up) 6).state = .fenced ∧
      (recordAt up 6).state ≠ .fenced := by decide +kernel

theorem witness_quiesce_and_stop :
    let parked := withState 4 .quiesced (withQueues 4 [{ aRead 4 506 2 with parked := true }] [] up)
    ((23 : Byte).toNat = (23 : TenantId).val ∧ (recordAt busy 23).state = .active ∧
        (∃ d ∈ queuedOf (queuesAt busy 23), d.parked = false) ∧ outstandingCount busy 23 ≠ 0) ∧
      ((recordAt up 23).state = .active ∧ queuedOf (queuesAt up 23) = [] ∧ outstandingCount up 23 = 0) ∧
      ((recordAt up 6).state ≠ .active ∧ (recordAt up 6).state ≠ .quiesced) ∧ (recordAt parked 4).state = .quiesced := by
  decide +kernel

theorem witness_bad_arguments : 24 ≤ (24 : Byte).toNat ∧ 8 ≤ (8 : Byte).toNat ∧
    (Instr.unknownCommand 0).wf = true ∧ (Instr.unknownCommand 10).wf = true := by decide

theorem witness_pair_swap :
    let settled := withPair 7 ⟨true, 10, 11, .primary, 3, false, 0⟩ up
    (7 : Byte).toNat = (7 : PairId).val ∧ (up.pairHalt.pairs.get 7).valid = false ∧
      ((busy.pairHalt.pairs.get 2).valid = true ∧ (busy.pairHalt.pairs.get 2).inGuard = true) ∧
      ((settled.pairHalt.pairs.get 7).valid = true ∧ (settled.pairHalt.pairs.get 7).inGuard = false ∧
        (recordAt settled 10).state ≠ .draining) := by decide +kernel

/-- A swap whose old active member drains to OFF with a parked READ and nothing outstanding. -/
theorem witness_pair_swap_that_ends_a_drain :
    let s := drained 10 .off (withQueues 10 [{ aRead 10 506 2 with parked := true }] [aFlush 10 507]
      (withPair 7 ⟨true, 10, 11, .primary, 3, false, 0⟩ up))
    Running s ∧ (s.pairHalt.pairs.get 7).valid = true ∧ (s.pairHalt.pairs.get 7).inGuard = false ∧
      (recordAt s 10).state = .draining ∧ (recordAt s 10).target = .off ∧ (∀ d ∈ (queuesAt s 10).rq, d.parked = true) ∧
      ∀ k x, s.paths.entries.get k = some x → x.tenant ≠ 10 :=
  ⟨rfl, by decide +kernel, by decide +kernel, by decide +kernel, by decide +kernel, by decide +kernel,
    fun k _ h => nomatch (entries_up k).symm.trans h⟩

theorem witness_mode_set :
    ((0 : Byte) ≠ 1 ∧ (0 : Byte) ≠ 2 ∧ (0 : Byte) ≠ 3) ∧ ((4 : Byte) ≠ 1 ∧ (4 : Byte) ≠ 2 ∧ (4 : Byte) ≠ 3) ∧
      Running up ∧ up.control.mode ≠ .hold ∧ (inMode .hold up).control.mode = .hold :=
  ⟨by decide, by decide, rfl, by decide, rfl⟩

/-- `busy` in GOVERN: credit 16383 before the reset, and charges of 1 and 4 queued. -/
theorem witness_runtime_reset :
    Running (inMode .govern busy) ∧ (inMode .govern busy).control.mode = .govern ∧
      ChargeLaw (inMode .govern busy).admission := by
  refine ⟨rfl, rfl, ?_⟩
  unfold ChargeLaw
  decide +kernel

/-- Floors of 350 under DIV 3: FP 66 gives 352, FP 65 gives 346; CAP 350 fits and 349 does not. -/
theorem witness_global_settings :
    let cap := fun (fp cap : Nat) => min cap (min 16383 (fp * 16 / ((floors 128).control.straps.div.toNat + 1)))
    floorsHeld (floors 128) = 350 ∧ cap 65 16383 < 350 ∧ 350 ≤ cap 66 16383 ∧ cap 128 349 < 350 ∧ 350 ≤ cap 128 350 ∧
      24 ≤ (24 : Byte).toNat ∧ (23 : Byte).toNat = (23 : TenantId).val := by decide +kernel

/-- FLOOR 276 for T4 fits an effective CAP of 426, 277 does not; QRES 64 fits 960 other reserves, and not 961. -/
theorem witness_tenant_settings :
    let sum := fun (v : Nat) => sumTenants fun y =>
      if (recordAt (floors 80) y).state = .off then 0 else if y = 4 then v else (recordAt (floors 80) y).floor
    let reserves := fun (n : Nat) => sumTenants fun y =>
      if y = 0 then 64 else (recordAt (changeRecord 23 (fun r => { r with qres := n }) up) y).qres
    ((recordAt (floors 80) 4).state ≠ .off ∧ effectiveCap (floors 80) < sum 277 ∧ sum 276 ≤ effectiveCap (floors 80)) ∧
      (recordAt up 0).state = .off ∧ 1024 < reserves 961 ∧ reserves 960 ≤ 1024 := by decide +kernel

/-- Record 23 of the TENANT page, at WEIGHT and at the high byte of CEIL with its low byte latched. -/
theorem witness_live_fields :
    let s := fun (a : BitVec 7) => atPointer .writing a { up with port.index := 23 }
    Running (s 0x41) ∧ (s 0x41).port.transfer = .writing ∧ (s 0x41).port.page = .tenant ∧
      (s 0x41).port.index.val = (23 : TenantId).val ∧ (s 0x41).port.pointer = 0x41 ∧
      ({ s 0x45 with port.writeLatch := some ⟨.tenant 23 .ceil, [(0, 0xFF)]⟩ } : State).port.writeLatch =
        some ⟨.tenant 23 .ceil, [(0, 0xFF)]⟩ := ⟨rfl, rfl, rfl, rfl, rfl, rfl⟩

/-- R174: WEIGHT 0 stores 1, and CEIL 0x40FF stores 16383. -/
theorem test_live_field_writes :
    let s := fun (a : BitVec 7) => atPointer .writing a { up with port.index := 23 }
    (recordAt (after (.managementWrite 0) (s 0x41)) 23).weight = 1 ∧
      (recordAt (after (.managementWrite 0x40) { s 0x45 with
        port.writeLatch := some ⟨.tenant 23 .ceil, [(0, 0xFF)]⟩ }) 23).ceil = 16383 := by decide +kernel

/-- R174, R91: a credit of −30 reads 0xFFE2; R162: slot 0 of an empty ring reads 0. -/
theorem test_field_values :
    fieldValue (withCredit 9 (-30) up) (.tenant 9 .credit) = 0xFFE2 ∧ fieldValue up (.frames 0 .outcome) = 0 := by
  decide +kernel

/-- A quiet entry and pair, and ones that name an ACTIVE tenant. -/
theorem witness_structural_entries :
    Running up ∧ 24 ≤ (24 : Byte).toNat ∧ (23 : Byte).toNat = (23 : TenantId).val ∧ IsQuiet up 0 ∧ ¬IsQuiet up 23 ∧
      (busy.pairHalt.pairs.get 2).inGuard = true ∧ NamedElsewhere busy 0 10 := by
  refine ⟨rfl, by decide, rfl, ?_, ?_, by decide +kernel, ⟨2, by decide +kernel⟩⟩
  · unfold IsQuiet; decide +kernel
  · unfold IsQuiet; decide +kernel

theorem witness_register_writes : Running up ∧ 5 ≤ (5 : Byte).toNat ∧
    ((23 : Byte).toNat = (23 : EntryId).val ∧ (23 : EntryId).val < 24) ∧ 24 ≤ (24 : Byte).toNat ∧
    (0x80 : Byte).getLsbD 7 = true ∧ (0x7F : Byte).getLsbD 7 = false := ⟨rfl, by decide⟩

theorem witness_alert_code :
    let s : State := { up with observe.flags := 96, observe.enables := 64 }
    alertAsserted s = true ∧ (s.observe.flags.getLsbD 6 = true ∧ s.observe.enables.getLsbD 6 = true) ∧
      ∀ m < 6, s.observe.flags.getLsbD m = false ∨ s.observe.enables.getLsbD m = false := by decide +kernel

theorem witness_transfers : Running up ∧ (0x58 : BitVec 7).toNat = 0x58 + up.control.straps.addr.toNat ∧
    (0x59 : BitVec 7).toNat ≠ 0x58 + up.control.straps.addr.toNat ∧
    (atPointer .awaitPointer 0 up).port.transfer = .awaitPointer ∧ up.port.transfer ≠ .awaitPointer :=
  ⟨rfl, by decide, by decide, rfl, by decide⟩

/-- The bounds of a 16-bit credit, an empty slot and a held one. -/
theorem witness_field_values :
    (-32768 ≤ (creditAt (withCredit 9 (-32768) up) 9).credit ∧ (creditAt (withCredit 9 32767 up) 9).credit ≤ 32767) ∧
      up.observe.ring.length ≤ (0 : Fin 32).val ∧
      (after .solveCompletion up).observe.ring[(0 : Fin 32).val]?.map (·.outcome) = some .solved := by decide +kernel

/-- The highest bytes of a direct register and of a field of each page. -/
theorem witness_fields :
    let on := fun (p : Page) (i : EntryId) (a : BitVec 7) => ({ up with port.page := p, port.index := i, port.pointer := a } : State)
    (on .tenant 0 0x2B).port.pointer.toNat = (directPlace .staleFrames).1 + 3 ∧
      (on .tenant 23 0x43).port.pointer.toNat = 0x40 + (tenantPlace .floor).1 + 1 ∧
      (on .classifier 63 0x4A).port.pointer.toNat = 0x40 + (classifierPlace .base).1 + 5 ∧
      (on .pair 7 0x43).port.pointer.toNat = 0x40 + (pairPlace .guard).1 + 0 ∧
      (on .counters 23 0x43).port.pointer.toNat = 0x40 + (counterPlace .accepted).1 + 3 ∧
      (on .frames 31 0x41).port.pointer.toNat = 0x40 + (framePlace .number).1 + 1 := by decide +kernel

/-- Addresses that belong to no field, at the edges of their ranges. -/
theorem witness_unassigned_addresses :
    let on := fun (p : Page) (a : BitVec 7) => ({ up with port.page := p, port.pointer := a } : State)
    ([0x0B, 0x17, 0x1F, 0x2C, 0x3F, 0x56, 0x5F, 0x69, 0x7D, 0x7F].all fun a => (fieldAt (on .tenant a)).isNone) = true ∧
      fieldAt (on .classifier 0x51) = none ∧ fieldAt (on .pair 0x46) = none ∧ fieldAt (on .counters 0x61) = none ∧
      fieldAt (on .frames 0x7F) = none := by decide +kernel

/-- The low and high byte of FP, and an unassigned address. -/
theorem witness_data_bytes_written :
    let s := fun (a : BitVec 7) => atPointer .writing a up
    (Running up ∧ up.port.transfer ≠ .writing) ∧ fieldAt (s 0x0B) = none ∧ fieldAt (s 0x0C) = some (.direct .fp) ∧
      fieldAt (s 0x0D) = some (.direct .fp) ∧ 0 + 1 < (fieldPlace (.direct .fp)).2 ∧ 1 + 1 = (fieldPlace (.direct .fp)).2 :=
  ⟨⟨rfl, by decide⟩, by decide +kernel, by decide +kernel, by decide +kernel, by decide, by decide⟩

/-- The low byte of FP latches it; its high byte is then read from the latch; a maximum head age; an unassigned address. -/
theorem witness_data_bytes_read :
    let s := fun (a : BitVec 7) => atPointer .reading a up
    let t := after (.dataByteRead true) (s 0x0C)
    let u : State := { s 0x0D with port := { t.port with pointer := 0x0D } }
    (Running u ∧ up.port.transfer ≠ .reading ∧ fieldAt (s 0x0B) = none ∧ fieldAt (s 0x0C) = some (.direct .fp)) ∧
      (exec (.dataByteRead true) (s 0x0C) = .next t ∧ t.port.readLatch.map (·.field) = some (.direct .fp)) ∧
      u.port = { t.port with pointer := BitVec.ofNat 7 ((fieldPlace (.direct .fp)).1 + 1) } ∧
      (∃ v, exec (.dataByteRead false) u = .next v) ∧
      fieldAt { s 0x60 with port.page := .counters } = some (.counters 0 .maxHeadAge) := by
  refine ⟨⟨rfl, by decide, by decide +kernel, by decide +kernel⟩, ⟨rfl, by decide +kernel⟩, rfl, ⟨_, rfl⟩,
    by decide +kernel⟩

theorem witness_bytes_make_whole_writes :
    let s := atPointer .writing 0x0C up
    let at4A := atPointer .writing 0x4A { up with port.index := 23 }
    (Running s ∧ s.port.transfer = .writing ∧ s.port.writeLatch = none ∧ s.port.pointer = 0x0C ∧
        (Instr.unknownCommand 10).wf = true) ∧
      (at4A.port.page = .tenant ∧ at4A.port.index.val = (23 : TenantId).val ∧
        { (recordAt at4A 23).attrs with haltable := true } =
          (⟨(4 : Byte).getLsbD 0, (4 : Byte).getLsbD 1, (4 : Byte).getLsbD 2, (4 : Byte).getLsbD 3,
            (4 : Byte).getLsbD 4⟩ : Attributes)) ∧
      (∃ v, exec (.haltableWrite 23 true) at4A = .next v) := ⟨⟨rfl, rfl, rfl, rfl, rfl⟩, ⟨rfl, rfl, rfl⟩, _, rfl⟩

/-- The last byte of a read-only field, a counter's byte, and the place of a maximum head age. -/
theorem witness_bytes_ignored_and_read :
    let s := atPointer .writing 0x03 up
    let onCounters := fun (t : Transfer) (a : BitVec 7) => atPointer t a { up with port.page := .counters, port.index := 23 }
    (fieldAt s = some (.direct .id) ∧ readOnly (.direct .id) = true ∧
        s.port.pointer.toNat + 1 = (fieldPlace (.direct .id)).1 + (fieldPlace (.direct .id)).2) ∧
      0x40 ≤ (onCounters .writing 0x40).port.pointer.toNat ∧ (onCounters .writing 0x40).port.page = .counters ∧
      (onCounters .reading 0x60).port.index.val = (23 : TenantId).val ∧ (onCounters .reading 0x60).port.readLatch = none :=
  ⟨⟨by decide +kernel, rfl, rfl⟩, by decide, rfl, rfl, rfl⟩

/-- R169, R174: six bytes from 0x45 store a window base, lowest byte first; two bytes on the COUNTERS page store nothing. -/
theorem test_bytes_of_a_window_base :
    let s := atPointer .writing 0x45 { up with port.page := .classifier, port.index := 63 }
    (bytesWritten [1, 2, 3, 4, 5, 6] s).map (fun t => (t.classifier.entries.get 63).base) = some 0x060504030201 ∧
      (bytesWritten [1, 2] { s with port.page := .counters }).map (·.observe) = some s.observe := by decide +kernel

end Sys2Proof.Tests
end

