-- ==== Sys2Proof/Proofs/FabricTraffic.lean ====
section
/-! PROOFS. Fabric traffic: classification, arrivals, the end of a send, link events, and the writes of global and structural settings (01_fabric_traffic_and_classification.md and the management writes that go with it). -/

namespace Sys2Proof.Machine

/-! ### The end of a send -/

/-- Settles O25. -/
theorem endOfSendFreesSlotAndBlocks : Obligations.EndOfSendFreesSlotAndBlocks := by
  unfold Obligations.EndOfSendFreesSlotAndBlocks
  intro s running
  rw [exec_endOfSend, whileRunning_of_running running]
  rcases endSend_cases s with ⟨idle, result⟩ | ⟨x, busy, result⟩
  · refine ⟨fun _ => by rw [result], fun x busy => ?_⟩
    rw [idle] at busy
    cases busy
  · refine ⟨fun idle => ?_, fun y busy' => ?_⟩
    · rw [idle] at busy
      cases busy
    · obtain rfl : x = y := Option.some.inj (busy.symm.trans busy')
      rw [result]
      rfl

/-! ### Classification -/

/-- A masked comparison is a comparison of the masked bits (R12). -/
theorem and_mask_eq_iff (q v m : RequesterId) :
    q &&& m = v &&& m ↔ ∀ k < 6, m.getLsbD k = true → q.getLsbD k = v.getLsbD k := by
  constructor
  · intro h k _ hm
    have hk := congrArg (·.getLsbD k) h
    simpa [hm] using hk
  · intro h
    refine BitVec.eq_of_getLsbD_eq fun k hk => ?_
    cases hm : m.getLsbD k with
    | false => simp [hm]
    | true => simp [hm, h k hk hm]

/-- What a kind filter passes (R12). -/
theorem filterPasses_iff (f : KindFilter) (k : Kind) :
    filterPasses f k = true ↔ (f = .reads → k = .read) ∧ (f = .writes → k ≠ .read) := by
  cases f <;> simp [filterPasses]

/-- What a window passes (R12). -/
theorem windowPasses_iff (e : ClassifierEntry) (address : Option Address) :
    windowPasses e address = true ↔
      (e.window = true → ∃ a, address = some a ∧ e.base.toNat ≤ a.toNat ∧ a.toNat ≤ e.limit.toNat) := by
  cases h : e.window with
  | false => simp [windowPasses, h]
  | true => cases address <;> simp [windowPasses, h]

/-- Settles O17. -/
theorem requestMatchesClassifierEntry : Obligations.RequestMatchesClassifierEntry := by
  unfold Obligations.RequestMatchesClassifierEntry
  intro q b e
  rw [entryMatches, Bool.and_eq_true, Bool.and_eq_true, Bool.and_eq_true, beq_iff_eq, and_mask_eq_iff,
    filterPasses_iff, windowPasses_iff]
  tauto

/-- The best match of a list of entries: it matches, every other match stands behind it, and those before it in the list have a lower priority (R13). -/
def BestOf (q : RequesterId) (b : RequestBody) (l : List ClassifierEntry) (w : ClassifierEntry) : Prop :=
  ∃ before after, l = before ++ w :: after ∧ entryMatches q b w = true ∧
    (∀ e ∈ before, entryMatches q b e = true → e.priority.toNat < w.priority.toNat) ∧
    ∀ e ∈ after, entryMatches q b e = true → e.priority.toNat ≤ w.priority.toNat

/-- The search that goes through the entries in ascending order finds the best match (R13). -/
theorem foldl_betterMatch (q : RequesterId) (b : RequestBody) (l : List ClassifierEntry) :
    (l.foldl (betterMatch q b) none = none ∧ ∀ e ∈ l, entryMatches q b e = false) ∨
      ∃ w, l.foldl (betterMatch q b) none = some w ∧ BestOf q b l w := by
  induction l using List.reverseRecOn with
  | nil => exact .inl ⟨rfl, by simp⟩
  | append_singleton l e ih =>
    rw [List.foldl_append, List.foldl_cons, List.foldl_nil]
    cases he : entryMatches q b e with
    | false =>
      rcases ih with ⟨hn, hl⟩ | ⟨w, hw, before, after, hl, hm, hb, ha⟩
      · exact .inl ⟨by simp [betterMatch, he, hn], by simpa [or_imp, forall_and, he] using hl⟩
      · refine .inr ⟨w, by simp [betterMatch, he, hw], before, after ++ [e], by simp [hl], hm, hb, ?_⟩
        simpa [or_imp, forall_and, he] using ha
    | true =>
      rcases ih with ⟨hn, hl⟩ | ⟨w, hw, before, after, hl, hm, hb, ha⟩
      · refine .inr ⟨e, by simp [betterMatch, he, hn], l, [], rfl, he, fun x hx hxm => ?_, by simp⟩
        rw [hl x hx] at hxm
        cases hxm
      · by_cases hp : w.priority.toNat < e.priority.toNat
        · refine .inr ⟨e, by simp [betterMatch, he, hw, hp], l, [], rfl, he, fun x hx hxm => ?_, by simp⟩
          have hxw : x.priority.toNat ≤ w.priority.toNat := by
            rw [hl] at hx
            rcases List.mem_append.1 hx with hx | hx
            · exact (hb x hx hxm).le
            · rcases List.mem_cons.1 hx with rfl | hx
              · exact le_rfl
              · exact ha x hx hxm
          exact hxw.trans_lt hp
        · refine .inr ⟨w, by simp [betterMatch, he, hw, hp], before, after ++ [e], by simp [hl], hm, hb, ?_⟩
          intro x hx hxm
          rcases List.mem_append.1 hx with hx | hx
          · exact ha x hx hxm
          · obtain rfl := List.mem_singleton.1 hx
            exact Nat.not_lt.1 hp

/-- The best match of a table stands at an index that no match of its priority precedes (R13). -/
theorem bestOf_toList {q : RequesterId} {b : RequestBody} {t : Table ClassifierEntry 64} {w : ClassifierEntry}
    (h : BestOf q b t.toList w) :
    ∃ i, t.get i = w ∧ entryMatches q b w = true ∧ ∀ j, entryMatches q b (t.get j) = true →
      (t.get j).priority.toNat < w.priority.toNat ∨ ((t.get j).priority = w.priority ∧ i ≤ j) := by
  obtain ⟨before, after, hl, hm, hb, ha⟩ := h
  have hlen : before.length < 64 := by
    have hsize := t.size
    rw [hl, List.length_append, List.length_cons] at hsize
    omega
  have hget : ∀ j : Fin 64, t.get j = (before ++ w :: after)[j.val]'(by rw [← hl, t.size]; exact j.isLt) := by
    intro j
    rw [Table.get_def]
    simp only [hl]
  refine ⟨⟨before.length, hlen⟩, by simp [hget], hm, fun j hj => ?_⟩
  rcases Nat.lt_trichotomy j.val before.length with hlt | heq | hgt
  · have hmem : t.get j ∈ before := by
      rw [hget, List.getElem_append_left hlt]
      exact List.getElem_mem hlt
    exact .inl (hb _ hmem hj)
  · refine .inr ⟨?_, by simp [Fin.le_def, heq]⟩
    have : t.get j = w := by simp [hget, heq]
    rw [this]
  · have hmem : t.get j ∈ after := by
      rw [hget, List.getElem_append_right hgt.le, List.getElem_cons, dif_neg (by omega)]
      exact List.getElem_mem _
    rcases Nat.lt_or_eq_of_le (ha _ hmem hj) with hlt | heq
    · exact .inl hlt
    · exact .inr ⟨BitVec.eq_of_toNat_eq heq, Fin.le_def.2 hgt.le⟩

/-- Settles O18: the search's fold keeps the best match of the entries seen. -/
theorem classifierChoosesHighestPriority : Obligations.ClassifierChoosesHighestPriority := by
  unfold Obligations.ClassifierChoosesHighestPriority
  intro c q b
  rcases foldl_betterMatch q b c.entries.toList with ⟨hn, hnone⟩ | ⟨w, hw, hbest⟩
  · refine ⟨fun ⟨i, hi⟩ => ?_, fun _ => by rw [classify, winningEntry, hn]⟩
    rw [hnone _ (Table.mem_toList.2 ⟨i, rfl⟩)] at hi
    cases hi
  · obtain ⟨i, rfl, hm, hbehind⟩ := bestOf_toList hbest
    refine ⟨fun _ => ⟨i, hm, by rw [classify, winningEntry, hw], hbehind⟩, fun hnone => ?_⟩
    rw [hnone i] at hm
    cases hm

/-! ### Arrivals -/

/-- The length test of ARRIVAL is the range of R4. -/
theorem lengthFits_eq_bodyFits (b : RequestBody) : lengthFits b = bodyFits b := by
  cases b <;> rfl

/-- A tenant's occupancy is what its two queues hold (R22). -/
theorem occupancy_eq_held (s : State) : occupancy s = held s := by
  funext t
  simp [occupancy, queuedOf, held]

/-- The descriptor test is that of R25. -/
theorem descriptorTest_iff (s : State) (t : TenantId) : descriptorTest s t = true ↔ PassesDescriptorTest s t := by
  have hfree : 0 < sharedFree s ↔
      sumTenants (held s) + sumTenants (fun x => (recordAt s x).qres - held s x) < 1024 := by
    rw [sharedFree, descriptorsInUse, occupancy_eq_held]
    simp only [Config.descriptors]
    omega
  simp only [descriptorTest, PassesDescriptorTest, Bool.or_eq_true, Bool.and_eq_true, decide_eq_true_eq, hfree,
    descriptorsInUse, occupancy_eq_held, Config.descriptors]

/-- The payload test is that of R26, for a request that a link frame carries. -/
theorem freeBlockCount_lt_iff (s : State) {b : RequestBody} (fits : bodyFits b = true) :
    freeBlockCount s < blocksNeeded b ↔ FailsPayloadTest s b := by
  cases b with
  | write a p =>
    simp only [bodyFits, Bool.and_eq_true, decide_eq_true_eq] at fits
    simp only [freeBlockCount, blocksNeeded, FailsPayloadTest, blocksTouched, ceilDiv, Config.storeBlocks,
      Config.blockBytes]
    omega
  | read a n => simp [blocksNeeded, FailsPayloadTest]
  | flush => simp [blocksNeeded, FailsPayloadTest]

/-- While the Switch Port link is UP an arrival is answered at once (R6). -/
theorem answerArrival_of_up {s : State} (up : s.links.switchUp = true) (q : RequesterId) (tag : Byte) (b : RequestBody)
    (status : ResponseStatus) : answerArrival q tag b status s =
      { s with wires.upstream := s.wires.upstream ++ [⟨bodyKind b, q, tag, status, []⟩] } := by
  rw [answerArrival, sendUp, if_pos up]

/-- A well-formed arrival is handed to admission, or is none while the Switch Port link is DOWN (R1, R5). -/
theorem exec_arrival_of_wf {s : State} (running : Running s) {q : RequesterId} {tag : Byte} {b : RequestBody}
    (wf : (Instr.arrival q tag b).wf = true) : exec (.arrival q tag b) s = .next (takeArrival q tag b s) := by
  have fits : lengthFits b = true := (lengthFits_eq_bodyFits b).trans wf
  rw [exec_arrival, if_pos fits, whileRunning_of_running running]

/-- Settles O19: admission's tests, read as R15, R25 and R26 word them. -/
theorem arrivalsAnsweredAtOnce : Obligations.ArrivalsAnsweredAtOnce := by
  unfold Obligations.ArrivalsAnsweredAtOnce
  intro s q tag b running wf x unmapped
  rw [exec_arrival_of_wf running wf]
  refine ⟨fun up closed => ?_, fun up notOff notFenced fails => ?_, fun down => ?_⟩
  · rw [takeArrival, if_pos up, admission, if_pos closed, refuseArrival, answerArrival_of_up up]
    by_cases hu : unmapped = true ∧ (recordAt s s.classifier.defaultTenant).state = .off
    · rw [if_pos hu, if_pos hu]
      rfl
    · rw [if_neg hu, if_neg hu]
      rfl
  · have noRoom : descriptorTest s x = false ∨ freeBlockCount s < blocksNeeded b := by
      rwa [← Bool.not_eq_true, descriptorTest_iff, freeBlockCount_lt_iff s wf]
    have retried : takeArrival q tag b s = retryArrival x q tag b s := by
      rw [takeArrival, if_pos up]
      rcases admission_cases x unmapped q tag b s with ⟨closed, -⟩ | ⟨-, -, -, e⟩ | ⟨-, -, room, blocks, -⟩
      · exact absurd closed (not_or.2 ⟨notOff, notFenced⟩)
      · exact e
      · rcases noRoom with h | h
        · rw [h] at room; cases room
        · exact absurd h (Nat.not_lt.2 blocks)
    rw [retried, retryArrival, answerArrival_of_up up]
    rfl
  · rw [takeArrival, if_neg (by simp [down])]

/-! ### The Switch Port link -/

/-- The blocks that queued descriptors hold. -/
theorem mem_queuedBlocks (s : State) (b : Nat) :
    b ∈ queuedBlocks s ↔ ∃ x, ∃ d ∈ queuedOf (queuesAt s x), b ∈ d.blocks := by
  simp only [queuedBlocks, List.mem_flatMap, Table.mem_toList]
  constructor
  · rintro ⟨_, ⟨x, rfl⟩, d, hd, hb⟩
    exact ⟨x, d, hd, hb⟩
  · rintro ⟨x, d, hd, hb⟩
    exact ⟨_, ⟨x, rfl⟩, d, hd, hb⟩

/-- What a Switch Port link reset makes of the state before the drains are tested (R2, R98). -/
theorem orphanAll_emptyQueues (s : State) : orphanAll (emptyQueues s) = { s with
    admission.queues := s.admission.queues.map fun u => ⟨[], [], u.retryMark⟩
    admission.store := s.admission.store.filter fun c => !decide (∃ x, ∃ d ∈ queuedOf (queuesAt s x), c.1 ∈ d.blocks)
    paths.entries := s.paths.entries.map fun o => o.map fun e => { e with orphan := true }
    paths.orderLists := Table.fill 64 [] } := by
  have hstore : (s.admission.store.filter fun c => !(queuedBlocks s).contains c.1) =
      s.admission.store.filter fun c => !decide (∃ x, ∃ d ∈ queuedOf (queuesAt s x), c.1 ∈ d.blocks) := by
    refine List.filter_congr fun c _ => ?_
    rw [List.contains_eq_mem]
    simp only [mem_queuedBlocks]
  rw [← hstore]
  rfl

/-- Settles O41. -/
theorem switchPortLinkEvents : Obligations.SwitchPortLinkEvents := by
  unfold Obligations.SwitchPortLinkEvents
  intro s running
  rw [exec_switchPortLinkReset, exec_switchPortLinkUp, whileRunning_of_running running, whileRunning_of_running running]
  refine ⟨fun down => ?_, fun up => ?_, rfl⟩
  · rw [switchLinkReset, if_neg (by simp [down])]
  · rw [switchLinkReset, if_pos up, orphanAll_emptyQueues]
    rfl

/-! ### Global settings -/

/-- Settles O51: each write of a global setting by the cases of its operation. -/
theorem globalSettingWrites : Obligations.GlobalSettingWrites := by
  unfold Obligations.GlobalSettingWrites
  intro s v b running divisor fp cap
  simp only [exec_fpWrite, exec_capWrite, exec_lpWrite, exec_wfWrite, exec_ctoWrite, exec_defaultTenantWrite,
    whileRunning_of_running running, dataByteTaken_eq]
  refine ⟨fun exceeds => ?_, fun fits => ?_, fun exceeds => ?_, fun fits => ?_, rfl, rfl, rfl, fun big => ?_, fun x hx => ?_⟩
  · rcases writeFp_cases v.toNat (written 0x0E s) with ⟨-, e⟩ | ⟨fits, -⟩
    · exact congrArg _ e
    · exact absurd exceeds (Nat.not_lt.2 fits)
  · rcases writeFp_cases v.toNat (written 0x0E s) with ⟨exceeds, -⟩ | ⟨-, e⟩
    · exact absurd exceeds (Nat.not_lt.2 fits)
    · exact congrArg _ e
  · rcases writeCap_cases v.toNat (written 0x10 s) with ⟨-, e⟩ | ⟨fits, -⟩
    · exact congrArg _ e
    · exact absurd exceeds (Nat.not_lt.2 fits)
  · rcases writeCap_cases v.toNat (written 0x10 s) with ⟨exceeds, -⟩ | ⟨-, e⟩
    · exact absurd exceeds (Nat.not_lt.2 fits)
    · exact congrArg _ e
  · rw [writeDefaultTenant, tenantOf_of_ge big]
    rfl
  · rw [writeDefaultTenant, tenantOf_of_val hx]
    rfl

/-! ### Structural settings -/

/-- A classifier write in range has the result that R17 gives it. -/
theorem writeClassifier_result {i : EntryId} {w : ClassifierWrite} {s : State} {e : ClassifierEntry} (pointer : Nat)
    (after : entryAfter w (s.classifier.entries.get i) = some e) :
    ClassifierWriteResult i e pointer s (writeClassifier i w (written pointer s)) := by
  have quiet_iff : ∀ x, entryQuiet (written pointer s) x = true ↔ (x.valid = true → IsQuiet s x.tenant) :=
    entryQuiet_iff (written pointer s)
  rcases writeClassifier_cases i w (written pointer s) with ⟨none, -⟩ | ⟨e', some, cases⟩
  · exact absurd (after.symm.trans none) nofun
  · obtain rfl : e = e' := Option.some.inj (after.symm.trans some)
    simp only [quiet_iff] at cases
    rcases cases with ⟨before, later, result⟩ | ⟨loud, result⟩
    · exact ⟨fun _ => result, fun no => absurd ⟨before, later⟩ no⟩
    · exact ⟨fun allowed => absurd allowed loud, fun _ => result⟩

/-- A classifier write runs with the port's byte taken. -/
theorem exec_classifierEntryWrite_of_running {s : State} (running : Running s) (i : EntryId) (w : ClassifierWrite) :
    exec (.classifierEntryWrite i w) s = .next (writeClassifier i w
      (written ((fieldPlace (.classifier i (classifierFieldOf w))).1 +
        (fieldPlace (.classifier i (classifierFieldOf w))).2) s)) := by
  rw [exec_classifierEntryWrite, whileRunning_of_running running, dataByteTaken_eq]

/-- The kind filter that the flags byte writes, by its two bits (R18). -/
theorem filterOf_eq (v : Byte) : filterOf v =
    if v.getLsbD 1 = true ∧ v.getLsbD 2 = false then .reads
    else if v.getLsbD 1 = false ∧ v.getLsbD 2 = true then .writes else .all := by
  rw [filterOf]
  cases v.getLsbD 1 <;> cases v.getLsbD 2 <;> rfl

/-- The clash of R135: a valid entry whose members are one tenant, or are named by another valid entry. -/
theorem membersClash_iff (s : State) (p : PairId) (e : PairEntry) : membersClash s p e = true ↔
    e.valid = true ∧ (e.primary = e.secondary ∨ NamedElsewhere s p e.primary ∨ NamedElsewhere s p e.secondary) := by
  simp only [membersClash, Bool.and_eq_true, Bool.or_eq_true, beq_iff_eq, pairedElsewhere_iff, or_assoc]

/-- A pair write in range has the result that R135 gives it. -/
theorem writePair_result {p : PairId} {w : PairWrite} {s : State} {e : PairEntry} (pointer : Nat)
    (after : pairAfter w (s.pairHalt.pairs.get p) = some e) :
    PairWriteResult p e pointer s (writePair p w (written pointer s)) := by
  have quiet_iff : (pairQuiet (written pointer s) (s.pairHalt.pairs.get p) && pairQuiet (written pointer s) e) = true ↔
      ((s.pairHalt.pairs.get p).valid = true →
        IsQuiet s (s.pairHalt.pairs.get p).primary ∧ IsQuiet s (s.pairHalt.pairs.get p).secondary) ∧
      (e.valid = true → IsQuiet s e.primary ∧ IsQuiet s e.secondary) := by
    rw [Bool.and_eq_true, pairQuiet_iff, pairQuiet_iff]
    rfl
  have clash_iff : membersClash (written pointer s) p e = true ↔ _ := membersClash_iff (written pointer s) p e
  rcases writePair_cases p w (written pointer s) with ⟨none, -⟩ | ⟨e', some, cases⟩
  · exact absurd (after.symm.trans none) nofun
  · obtain rfl : e = e' := Option.some.inj (after.symm.trans some)
    rcases cases with ⟨guard, result⟩ | ⟨settled, loud, result⟩ | ⟨settled, quiet, clash, result⟩ |
      ⟨settled, quiet, fits, result⟩
    · have notSettled : ¬(s.pairHalt.pairs.get p).inGuard = false := fun h => absurd (h.symm.trans guard) nofun
      exact ⟨fun _ => result, fun h => absurd h notSettled, fun h => absurd h notSettled, fun h => absurd h notSettled⟩
    all_goals have notGuard : ¬(s.pairHalt.pairs.get p).inGuard = true := fun h => absurd (settled.symm.trans h) nofun
    · have notQuiet := mt quiet_iff.2 (Bool.eq_false_iff.1 loud)
      exact ⟨fun h => absurd h notGuard, fun _ _ => result, fun _ h1 h2 => absurd ⟨h1, h2⟩ notQuiet,
        fun _ h1 h2 => absurd ⟨h1, h2⟩ notQuiet⟩
    · have isQuiet := quiet_iff.1 quiet
      exact ⟨fun h => absurd h notGuard, fun _ h => absurd isQuiet h, fun _ _ _ _ => result,
        fun _ _ _ h => absurd (clash_iff.1 clash) h⟩
    · have isQuiet := quiet_iff.1 quiet
      have noClash := mt clash_iff.2 (Bool.eq_false_iff.1 fits)
      exact ⟨fun h => absurd h notGuard, fun _ h => absurd isQuiet h, fun _ _ _ h => absurd h noClash,
        fun _ _ _ _ => result⟩

/-- A pair write runs with the port's byte taken. -/
theorem exec_pairEntryWrite_of_running {s : State} (running : Running s) (p : PairId) (w : PairWrite) :
    exec (.pairEntryWrite p w) s = .next (writePair p w
      (written ((fieldPlace (.pair p (pairFieldOf w))).1 + (fieldPlace (.pair p (pairFieldOf w))).2) s)) := by
  rw [exec_pairEntryWrite, whileRunning_of_running running, dataByteTaken_eq]

/-- Settles O53: every write in range by the result of its entry, every other refused with RANGE. -/
theorem structuralEntryWrites : Obligations.StructuralEntryWrites := by
  unfold Obligations.StructuralEntryWrites
  constructor
  · intro s i v a running e filter
    have stored : ∀ {w e'}, entryAfter w e = some e' →
        ∃ t, exec (.classifierEntryWrite i w) s = .next t ∧ ClassifierWriteResult i e' _ s t := fun after =>
      ⟨_, exec_classifierEntryWrite_of_running running i _, writeClassifier_result _ after⟩
    refine ⟨?_, stored rfl, stored rfl, stored rfl, fun big => ?_, fun x hx => ?_, stored rfl, stored rfl⟩
    · exact stored (by rw [entryAfter, filterOf_eq])
    · rw [exec_classifierEntryWrite_of_running running, writeClassifier]
      simp only [entryAfter, tenantOf_of_ge big, Option.map_none]
      rfl
    · exact stored (by rw [entryAfter, tenantOf_of_val hx, Option.map_some])
  · intro s p v running e
    have stored : ∀ {w e'}, pairAfter w e = some e' →
        ∃ t, exec (.pairEntryWrite p w) s = .next t ∧ PairWriteResult p e' _ s t := fun after =>
      ⟨_, exec_pairEntryWrite_of_running running p _, writePair_result _ after⟩
    refine ⟨stored rfl, fun big => ⟨?_, ?_⟩, fun x hx => ⟨?_, ?_⟩, stored rfl⟩
    · rw [exec_pairEntryWrite_of_running running, writePair]
      simp only [pairAfter, tenantOf_of_ge big, Option.map_none]
      rfl
    · rw [exec_pairEntryWrite_of_running running, writePair]
      simp only [pairAfter, tenantOf_of_ge big, Option.map_none]
      rfl
    · exact stored (by rw [pairAfter, tenantOf_of_val hx, Option.map_some])
    · exact stored (by rw [pairAfter, tenantOf_of_val hx, Option.map_some])

end Sys2Proof.Machine
end

