-- ==== Sys2Proof/Proofs/StepRelation.lean ====
section
/-! PROOFS. What every command makes of the work in the part, said once: most operations leave the queued and outstanding work alone, the rest are a few operations with an effect of their own. A relation between states that these few keep is kept by every command. -/

namespace Sys2Proof.Machine

/-! ### Work left alone -/

/-- The key under which a queued request is known (R8). -/
def keyOf (d : Descriptor) : RequestKey := ⟨d.kind, d.requester, d.tag⟩

/-- What an outstanding entry owes: a key, and whether it is silenced (R8, R98). -/
def debtOf (e : OutstandingEntry) : RequestKey × Bool := (⟨e.kind, e.requester, e.tag⟩, e.orphan)

/-- Nothing is queued, answered, released or ended between two states, and the links, the waiting commands and the Pair Table stand. -/
structure SameWork (s t : State) : Prop where
  pending : t.pending = s.pending
  switchUp : t.links.switchUp = s.links.switchUp
  poolUp : t.links.poolUp = s.links.poolUp
  queues : ∀ x, (queuedOf (queuesAt t x)).map keyOf = (queuedOf (queuesAt s x)).map keyOf
  entries : ∀ k, (t.paths.entries.get k).map debtOf = (s.paths.entries.get k).map debtOf
  lists : t.paths.orderLists = s.paths.orderLists
  slot : s.arbiter.slot = none → t.arbiter.slot = none
  upstream : t.wires.upstream = s.wires.upstream
  pairs : t.pairHalt.pairs = s.pairHalt.pairs

/-- A state with the same tables of work has the same work. -/
theorem SameWork.of_eq {s t : State} (pending : t.pending = s.pending) (switchUp : t.links.switchUp = s.links.switchUp)
    (poolUp : t.links.poolUp = s.links.poolUp) (queues : t.admission.queues = s.admission.queues)
    (entries : t.paths.entries = s.paths.entries) (lists : t.paths.orderLists = s.paths.orderLists)
    (slot : t.arbiter.slot = s.arbiter.slot) (upstream : t.wires.upstream = s.wires.upstream)
    (pairs : t.pairHalt.pairs = s.pairHalt.pairs) : SameWork s t where
  pending := pending
  switchUp := switchUp
  poolUp := poolUp
  queues x := by rw [queuesAt, queuesAt, queues]
  entries k := by rw [entries]
  lists := lists
  slot := slot.trans
  upstream := upstream
  pairs := pairs

theorem SameWork.refl (s : State) : SameWork s s := .of_eq rfl rfl rfl rfl rfl rfl rfl rfl rfl

/-! #### The operations of a frame -/

theorem sameWork_changeRecord (x : TenantId) (f : TenantRecord → TenantRecord) (s : State) :
    SameWork s (changeRecord x f s) := by apply SameWork.of_eq <;> simp
theorem sameWork_changeCredit (x : TenantId) (f : CreditEntry → CreditEntry) (s : State) :
    SameWork s (changeCredit x f s) := by apply SameWork.of_eq <;> simp
theorem sameWork_countTenant (x : TenantId) (f : TenantCounters → TenantCounters) (s : State) :
    SameWork s (countTenant x f s) := by apply SameWork.of_eq <;> simp
theorem sameWork_raiseAlert (f : AlertFlag) (s : State) : SameWork s (raiseAlert f s) := by
  apply SameWork.of_eq <;> simp
theorem sameWork_takeStray (s : State) : SameWork s (takeStray s) := by apply SameWork.of_eq <;> simp
theorem sameWork_pressureFall (s : State) : SameWork s (pressureFall s) := by apply SameWork.of_eq <;> simp
theorem sameWork_openFrame (s : State) : SameWork s (openFrame s) := by apply SameWork.of_eq <;> simp
theorem sameWork_takeSnapshot (s : State) : SameWork s (takeSnapshot s) := by apply SameWork.of_eq <;> simp
theorem sameWork_modeBoundary (s : State) : SameWork s (modeBoundary s) := by apply SameWork.of_eq <;> simp
theorem sameWork_loadBoundary (k : LoadKind) (s : State) : SameWork s (loadBoundary k s) := by
  apply SameWork.of_eq <;> simp
theorem sameWork_renewPauseMarks (s : State) : SameWork s (renewPauseMarks s) := by apply SameWork.of_eq <;> simp
theorem sameWork_lendPoint (s : State) : SameWork s (lendPoint s) := by apply SameWork.of_eq <;> simp
theorem sameWork_completeSolve (s : State) : SameWork s (completeSolve s) := by apply SameWork.of_eq <;> simp
theorem sameWork_assertHalt (s : State) : SameWork s (assertHalt s) := .of_eq rfl rfl rfl rfl rfl rfl rfl rfl rfl
theorem sameWork_pauseAll (s : State) : SameWork s (pauseAll s) := .of_eq rfl rfl rfl rfl rfl rfl rfl rfl rfl
theorem sameWork_enterHold (s : State) : SameWork s (enterHold s) := by apply SameWork.of_eq <;> simp

theorem sameWork_riseHalt (s : State) : SameWork s (riseHalt s) := by
  rw [riseHalt]
  split
  · exact .refl s
  · split <;> exact .of_eq rfl rfl rfl rfl rfl rfl rfl rfl rfl

/-- Queues changed without a request gained or lost. -/
theorem sameWork_changeQueues (x : TenantId) {f : TenantQueues → TenantQueues}
    (same : ∀ u, (queuedOf (f u)).map keyOf = (queuedOf u).map keyOf) (s : State) : SameWork s (changeQueues x f s) :=
  { SameWork.refl s with
    queues := fun y => by
      rw [queuesAt_changeQueues]
      split
      · exact same _
      · rfl }

theorem keys_ageQueues (u : TenantQueues) : (queuedOf (ageQueues u)).map keyOf = (queuedOf u).map keyOf := by
  have hkey : keyOf ∘ ageDescriptor = keyOf := rfl
  simp [queuedOf, ageQueues, hkey]

theorem sameWork_ageBoundary (s : State) : SameWork s (ageBoundary s) :=
  { SameWork.refl s with
    queues := fun x => by
      have aged : queuesAt (ageBoundary s) x = ageQueues (queuesAt s x) := Table.get_map _ _ _
      rw [aged, keys_ageQueues] }

theorem strikeBoundary_queuesAt (s : State) (x : TenantId) :
    queuesAt (strikeBoundary s) x = { queuesAt s x with retryMark := false } := by
  rw [strikeBoundary]
  split <;> exact Table.get_map _ _ _

theorem sameWork_strikeBoundary (s : State) : SameWork s (strikeBoundary s) :=
  { SameWork.refl s with
    pending := strikeBoundary_pending s
    switchUp := by rw [strikeBoundary_links]
    poolUp := by rw [strikeBoundary_links]
    queues := fun x => by rw [strikeBoundary_queuesAt]; rfl
    entries := fun k => by rw [strikeBoundary_paths]
    lists := by rw [strikeBoundary_paths]
    slot := by rw [strikeBoundary_arbiter]; exact id
    upstream := by rw [strikeBoundary_wires]
    pairs := by rw [strikeBoundary_pairHalt] }

/-- A boundary's state with its outstanding entries one boundary older (R100). -/
def ageEntries (s : State) : State :=
  { s with
    paths.ctoInForce := s.paths.cto
    paths.entries := s.paths.entries.map (Option.map fun e => { e with age := e.age + 1 }) }

theorem sameWork_ageEntries (s : State) : SameWork s (ageEntries s) :=
  { SameWork.refl s with
    entries := fun k => by
      have aged : (ageEntries s).paths.entries.get k = (s.paths.entries.get k).map _ := Table.get_map _ _ _
      rw [aged, Option.map_map]
      rfl }

theorem sameWork_runtimeReset (s : State) : SameWork s (runtimeReset s) :=
  { SameWork.refl s with
    queues := fun x => by rw [runtimeReset_queuesAt]; rfl }

theorem sameWork_endSend (s : State) : SameWork s (endSend s) := by
  rcases endSend_cases s with ⟨-, e⟩ | ⟨x, -, e⟩
  · rw [e]; exact .refl s
  · rw [e]; exact { SameWork.refl s with slot := fun _ => rfl }

/-! #### The management writes -/

theorem sameWork_dataByteTaken (f : Field) (s : State) : SameWork s (dataByteTaken f s) :=
  .of_eq rfl rfl rfl rfl rfl rfl rfl rfl rfl
theorem sameWork_writeTenantField (x : TenantId) (f : TenantField) (v : Nat) (s : State) :
    SameWork s (writeTenantField x f v s) := by apply SameWork.of_eq <;> simp
theorem sameWork_writeClassifier (i : EntryId) (w : ClassifierWrite) (s : State) :
    SameWork s (writeClassifier i w s) := by apply SameWork.of_eq <;> simp

/-- A write to a direct register but CMD leaves the work alone. -/
theorem sameWork_writeDirect {f : DirectField} (notCmd : f ≠ .cmd) (v : Nat) (s : State) :
    SameWork s (writeDirect f v s) := by
  cases f with
  | cmd => exact absurd rfl notCmd
  | switchResets => exact .of_eq rfl rfl rfl rfl rfl rfl rfl rfl rfl
  | poolLosses => exact .of_eq rfl rfl rfl rfl rfl rfl rfl rfl rfl
  | wf => exact .of_eq rfl rfl rfl rfl rfl rfl rfl rfl rfl
  | cto => exact .of_eq rfl rfl rfl rfl rfl rfl rfl rfl rfl
  | _ => apply SameWork.of_eq <;> simp [writeDirect]

theorem sameWork_clearOnRead (f : Option Field) (s : State) : SameWork s (clearOnRead f s) := by
  apply SameWork.of_eq <;> simp
theorem sameWork_dataByteSent (a : Bool) (s : State) : SameWork s (dataByteSent a s) := by
  apply SameWork.of_eq <;> simp [dataByteSent, driveBus, advancePointer]
theorem sameWork_startTransfer (target : BitVec 7) (d : Direction) (s : State) :
    SameWork s (startTransfer target d s) := by
  rw [startTransfer]
  split <;> exact .of_eq rfl rfl rfl rfl rfl rfl rfl rfl rfl
theorem sameWork_takePointer (b : Byte) (s : State) : SameWork s (takePointer b s) := by
  rw [takePointer]
  split
  · exact .of_eq rfl rfl rfl rfl rfl rfl rfl rfl rfl
  · exact .refl s

/-! ### Relations that the few other operations keep -/

/-- The Pool Port link leaves UP: every entry is ended and the slot freed (R82, R107). -/
def losePool (s : State) : State :=
  freeSlot (loseEntries { s with
    links.poolUp := false
    links.poolLosses := min Config.max16 (s.links.poolLosses + 1) })

theorem poolLinkLoss_of_up {s : State} (up : s.links.poolUp = true) :
    poolLinkLoss s = afterFreeing (pauseAll (raiseAlert .plink (losePool s))) := by
  rw [poolLinkLoss, if_pos up, losePool]

/-- A swap's change of the pair's own entry: GUARD, with the other member active (R137). -/
def flipPair (p : PairId) (s : State) : State :=
  { s with pairHalt.pairs := s.pairHalt.pairs.modify p fun e =>
    { e with inGuard := true, counter := e.guard, active := otherMember e.active } }

theorem swapPair_eq (p : PairId) (s : State) :
    swapPair p s = testSettle p (sweepWrites (activeTenant (s.pairHalt.pairs.get p)) (flipPair p s)) := rfl

/-- The state in which the release of a reset raises the start boundary, HALT_REQ not yet sampled (R146, R151). -/
def awake (s : State) : State :=
  { s with
    control.held := .no, control.mode := startMode s.control.straps, control.pendingMode := .none
    timer.startDue := true }

theorem restart_eq (s : State) :
    restart s = frameBoundary (if s.pairHalt.haltReq then assertHalt (awake s) else awake s) := rfl

theorem sameWork_awake (s : State) : SameWork s (awake s) := .of_eq rfl rfl rfl rfl rfl rfl rfl rfl rfl

/-- A relation between a state and a later one that holds wherever the work is left alone, can be composed, and is kept by each operation that has an effect of its own on the work, the links or the Pair Table. -/
structure StepRelation (R : State → State → Prop) : Prop where
  sameWork : ∀ {s t}, SameWork s t → R s t
  trans : ∀ {s t u}, R s t → R t u → R s u
  grant : ∀ s, R s (takeGrant s)
  expire : ∀ tag s, R s (expireEntry tag s)
  forward : ∀ {tag e s} status data, s.paths.entries.get tag.toFin = some e → R s (forwardResponse tag e status data s)
  lost : ∀ s, R s (losePool s)
  switchUp : ∀ s, R s { s with links.switchUp := true }
  poolUp : ∀ s, R s { s with links.poolUp := true }
  discard : ∀ x s, R s (discardAll x s)
  discardWq : ∀ x s, R s (discardWrites x s)
  settle : ∀ p s, R s (testSettle p s)
  guards : ∀ s, R s { s with pairHalt.pairs := s.pairHalt.pairs.map tickGuard }
  flip : ∀ {p s}, (s.pairHalt.pairs.get p).valid = true → R s (flipPair p s)
  writePair : ∀ p w s, R s (writePair p w s)

namespace StepRelation

variable {R : State → State → Prop} (hR : StepRelation R)

include hR

theorem refl (s : State) : R s s := hR.sameWork (.refl s)

theorem foldl {α : Type} {f : State → α → State} (h : ∀ s a, R s (f s a)) (l : List α) (s : State) :
    R s (l.foldl f s) := by
  induction l generalizing s with
  | nil => exact hR.refl s
  | cons a l ih => exact hR.trans (h s a) (ih (f s a))

theorem completeDrain (x : TenantId) (s : State) : R s (completeDrain x s) := by
  rw [Machine.completeDrain]
  split
  · exact hR.trans (hR.discard x s) (hR.sameWork (sameWork_changeRecord ..))
  · exact hR.sameWork (sameWork_changeRecord ..)
  · exact hR.refl s

theorem testDrain (x : TenantId) (s : State) : R s (testDrain x s) := by
  rw [Machine.testDrain]
  split
  · exact hR.completeDrain x s
  · exact hR.refl s

theorem testDrains (s : State) : R s (testDrains s) := hR.foldl (fun s x => hR.testDrain x s) _ s

theorem testSettles (s : State) : R s (testSettles s) := hR.foldl (fun s p => hR.settle p s) _ s

theorem afterFreeing (s : State) : R s (afterFreeing s) := hR.trans (hR.testDrains s) (hR.testSettles _)

theorem beginDrain (x : TenantId) (target : DrainTarget) (s : State) : R s (beginDrain x target s) :=
  hR.trans (hR.sameWork (sameWork_changeRecord ..)) (hR.testDrain x _)

theorem fence (x : TenantId) (s : State) : R s (fence x s) :=
  hR.trans (hR.sameWork (sameWork_changeRecord ..))
    (hR.trans (hR.discard x _) (hR.sameWork (sameWork_raiseAlert ..)))

theorem fenceIfDue (x : TenantId) (s : State) : R s (fenceIfDue x s) := by
  rw [Machine.fenceIfDue]
  split
  · exact hR.fence x s
  · exact hR.refl s

theorem drainAtBoundary (s : State) (x : TenantId) : R s (drainAtBoundary s x) := by
  rw [Machine.drainAtBoundary]
  split
  · exact hR.completeDrain x s
  · exact hR.trans (hR.sameWork (sameWork_changeRecord ..)) (hR.fenceIfDue x _)

theorem expireAtBoundary (s : State) : R s (expireAtBoundary s) :=
  hR.trans (hR.sameWork (sameWork_ageEntries s)) (hR.foldl (fun s _ => hR.expire _ s) _ _)

theorem guardsBoundary (s : State) : R s (guardsBoundary s) := hR.trans (hR.guards s) (hR.testSettles _)

theorem beforeSnapshot (s : State) : R s (beforeSnapshot s) := by
  have opened := hR.trans (hR.sameWork (sameWork_openFrame s)) (hR.sameWork (sameWork_ageBoundary _))
  have struck := hR.trans opened (hR.sameWork (sameWork_strikeBoundary _))
  have expired := hR.trans struck (hR.expireAtBoundary _)
  have drained := hR.trans expired (hR.foldl hR.drainAtBoundary (List.finRange 24) _)
  exact hR.trans (hR.trans drained (hR.guardsBoundary _)) (hR.sameWork (sameWork_modeBoundary _))

theorem frameBoundary (s : State) : R s (frameBoundary s) := by
  have ready := hR.trans (hR.beforeSnapshot s) (hR.sameWork (sameWork_takeSnapshot _))
  have loaded := fun k => hR.trans ready (hR.sameWork (sameWork_loadBoundary k _))
  have renewed := fun k => hR.trans (loaded k) (hR.sameWork (sameWork_renewPauseMarks _))
  exact hR.trans (renewed _) (hR.sameWork (.of_eq rfl rfl rfl rfl rfl rfl rfl rfl rfl))

theorem expiryEvent (tag : Byte) (s : State) : R s (expiryEvent tag s) := by
  rw [Machine.expiryEvent]
  split
  · exact hR.trans (hR.expire tag s) (hR.afterFreeing _)
  · exact hR.refl s

theorem tick (s : State) : R s (tick s) := by
  rw [Machine.tick]
  split
  · exact hR.refl s
  · split
    · exact hR.frameBoundary s
    · exact hR.sameWork (by apply SameWork.of_eq <;> simp)

theorem takeResponse (tag : Byte) (kind : ResponseKind) (status : PoolStatus) (data : List Byte) (s : State) :
    R s (takeResponse tag kind status data s) := by
  rcases takeResponse_cases tag kind status data s with ⟨-, e⟩ | ⟨-, -, e⟩ | ⟨entry, -, he, -, e⟩
  · rw [e]; exact hR.refl s
  · rw [e]; exact hR.sameWork (sameWork_takeStray s)
  · rw [e]; exact hR.trans (hR.forward status data he) (hR.afterFreeing _)

theorem poolLinkLoss (s : State) : R s (poolLinkLoss s) := by
  cases up : s.links.poolUp with
  | false => rw [Machine.poolLinkLoss, if_neg (by simp [up])]; exact hR.refl s
  | true =>
    rw [poolLinkLoss_of_up up]
    have alerted := hR.trans (hR.lost s) (hR.sameWork (sameWork_raiseAlert .plink _))
    exact hR.trans (hR.trans alerted (hR.sameWork (sameWork_pauseAll _))) (hR.afterFreeing _)

theorem restart (s : State) : R s (restart s) := by
  rw [restart_eq]
  refine hR.trans (hR.sameWork (sameWork_awake s)) (hR.trans ?_ (hR.frameBoundary _))
  split
  · exact hR.sameWork (sameWork_assertHalt _)
  · exact hR.refl _

/-! #### The commands given through CMD -/

theorem onTenant {f : TenantId → State → State × CmdResult} (h : ∀ x s, R s (f x s).1) (arg : Byte) (s : State) :
    R s (onTenant arg f s).1 := by
  rw [Machine.onTenant]
  split
  · exact hR.refl s
  · exact h _ s

theorem startTenant (x : TenantId) (s : State) : R s (startTenant x s).1 := by
  rw [Machine.startTenant]
  split
  · split
    · exact hR.sameWork (sameWork_changeRecord ..)
    · exact hR.refl s
  · exact hR.refl s

theorem quiesceTenant (x : TenantId) (s : State) : R s (quiesceTenant x s).1 := by
  rw [Machine.quiesceTenant]
  split
  · exact hR.beginDrain ..
  · exact hR.refl s

theorem stopTenant (x : TenantId) (s : State) : R s (stopTenant x s).1 := by
  rw [Machine.stopTenant]
  split
  · exact hR.beginDrain ..
  · exact hR.trans (hR.discard x s) (hR.sameWork (sameWork_changeRecord ..))
  · exact hR.refl s

theorem resumeTenant (x : TenantId) (s : State) : R s (resumeTenant x s).1 := by
  rw [Machine.resumeTenant]
  split
  · have hkey : keyOf ∘ unpark = keyOf := rfl
    exact hR.trans (hR.sameWork (sameWork_changeRecord ..))
      (hR.sameWork (sameWork_changeQueues x (fun u => by simp [queuedOf, hkey]) _))
  · exact hR.refl s

theorem clearTenant (x : TenantId) (s : State) : R s (clearTenant x s).1 := by
  rw [Machine.clearTenant]
  split
  · exact hR.sameWork (sameWork_changeRecord ..)
  · exact hR.refl s

theorem resetTenant (x : TenantId) (s : State) : R s (resetTenant x s).1 := by
  refine hR.trans ?_ (hR.testDrain x _)
  refine hR.trans ?_ (hR.sameWork (sameWork_countTenant x _ _))
  refine hR.trans ?_ (hR.sameWork (sameWork_changeRecord x _ _))
  refine hR.trans ?_ (hR.sameWork (sameWork_changeQueues x (f := fun u => { u with retryMark := false }) (fun _ => rfl) _))
  exact hR.trans (hR.discard x s) (hR.sameWork (sameWork_changeCredit x _ _))

theorem sweepWrites (x : TenantId) (s : State) : R s (sweepWrites x s) := by
  rcases sweepWrites_cases x s with ⟨-, -, e⟩ | ⟨-, e⟩
  · rw [e]; exact hR.completeDrain x s
  · rw [e]; exact hR.trans (hR.discardWq x s) (hR.testDrain x _)

theorem pairSwap (arg : Byte) (s : State) : R s (pairSwap arg s).1 := by
  rw [Machine.pairSwap]
  split
  · exact hR.refl s
  · split
    · exact hR.refl s
    · rename_i valid
      split
      · exact hR.refl s
      · rw [swapPair_eq]
        exact hR.trans (hR.flip (by simpa using valid)) (hR.trans (hR.sweepWrites _ _) (hR.settle _ _))

theorem modeSet (arg : Byte) (s : State) : R s (modeSet arg s).1 := by
  rw [Machine.modeSet]
  split
  · exact hR.sameWork (.of_eq rfl rfl rfl rfl rfl rfl rfl rfl rfl)
  · exact hR.sameWork (.of_eq rfl rfl rfl rfl rfl rfl rfl rfl rfl)
  · exact hR.sameWork (sameWork_enterHold s)
  · exact hR.refl s

theorem runCommand (code arg : Byte) (s : State) : R s (runCommand code arg s).1 := by
  rw [Machine.runCommand]
  split
  · exact hR.onTenant hR.startTenant arg s
  · exact hR.onTenant hR.quiesceTenant arg s
  · exact hR.onTenant hR.stopTenant arg s
  · exact hR.onTenant hR.resumeTenant arg s
  · exact hR.onTenant hR.clearTenant arg s
  · exact hR.onTenant hR.resetTenant arg s
  · exact hR.pairSwap arg s
  · exact hR.modeSet arg s
  · exact hR.sameWork (sameWork_runtimeReset s)
  · exact hR.refl s

theorem commandEvent (code : Byte) (s : State) : R s (commandEvent code s) :=
  hR.trans (hR.runCommand code s.port.cmdArg s) (hR.sameWork (.of_eq rfl rfl rfl rfl rfl rfl rfl rfl rfl))

theorem issueCommand (code arg : Byte) (s : State) : R s (issueCommand code arg s) :=
  hR.trans (t := commandTaken arg s) (hR.sameWork (.of_eq rfl rfl rfl rfl rfl rfl rfl rfl rfl)) (hR.commandEvent code _)

/-! #### The management writes -/

theorem writeField (f : Field) (v : Nat) (s : State) : R s (writeField f v s) := by
  cases f with
  | direct d =>
    by_cases hd : d = .cmd
    · subst hd; exact hR.commandEvent _ s
    · exact hR.sameWork (sameWork_writeDirect hd v s)
  | tenant x d => exact hR.sameWork (sameWork_writeTenantField x d v s)
  | classifier i d => exact hR.sameWork (sameWork_writeClassifier i _ s)
  | pair p d =>
    cases d with
    | flags => exact hR.writePair p (.flags _) s
    | primary => exact hR.writePair p (.primary _) s
    | secondary => exact hR.writePair p (.secondary _) s
    | guard => exact hR.writePair p (.guard _) s
    | state => exact hR.refl s
    | counter => exact hR.refl s
  | counters x d => exact hR.refl s
  | frames k d => exact hR.refl s

theorem writeByteAt (b : Byte) (s : State) : R s (writeByteAt b s) := by
  rw [Machine.writeByteAt]
  split
  · exact hR.sameWork (.of_eq rfl rfl rfl rfl rfl rfl rfl rfl rfl)
  · dsimp only
    split
    · exact hR.sameWork (.of_eq rfl rfl rfl rfl rfl rfl rfl rfl rfl)
    · exact hR.trans (t := { s with port.writeLatch := none })
        (hR.sameWork (.of_eq rfl rfl rfl rfl rfl rfl rfl rfl rfl)) (hR.writeField _ _ _)

theorem dataByteWritten (b : Byte) (s : State) : R s (dataByteWritten b s) := by
  have acked : R s (driveBus .ack { s with port.readLatch := none }) :=
    hR.sameWork (.of_eq rfl rfl rfl rfl rfl rfl rfl rfl rfl)
  exact hR.trans (hR.trans acked (hR.writeByteAt b _)) (hR.sameWork (.of_eq rfl rfl rfl rfl rfl rfl rfl rfl rfl))

/-! #### Every command -/

theorem whileRunning {f : State → State} {s t : State} (h : whileRunning f s = .next t) (hf : R s (f s)) : R s t := by
  rcases whileRunning_cases h with ⟨-, rfl⟩ | ⟨-, rfl⟩
  · exact hf
  · exact hR.refl t

/-- A whole write whose effect on its field leaves the work alone. -/
theorem write {field : Field} {f : State → State} {s t : State} (hf : ∀ s, SameWork s (f s))
    (h : Machine.whileRunning (fun s => f (dataByteTaken field s)) s = .next t) : R s t :=
  hR.whileRunning h (hR.trans (hR.sameWork (sameWork_dataByteTaken field s)) (hR.sameWork (hf _)))

/-- The relation holds over every command but an arrival and the three that silence what is owed. -/
theorem exec {c : Instr} {s t : State} (loud : silences c = false) (noArrival : ∀ q tag b, c ≠ .arrival q tag b)
    (h : exec c s = .next t) : R s t := by
  cases c with
  | arrival q tag b => exact absurd rfl (noArrival q tag b)
  | switchPortLinkReset => cases loud
  | powerOnReset => cases loud
  | pinReset => cases loud
  | grant => exact hR.whileRunning h (hR.grant s)
  | endOfSend => exact hR.whileRunning h (hR.sameWork (sameWork_endSend s))
  | poolResponse tag kind status data => exact hR.whileRunning h (hR.takeResponse tag kind status data s)
  | frameBoundary => exact hR.whileRunning h (hR.frameBoundary s)
  | expiry tag => exact hR.whileRunning h (hR.expiryEvent tag s)
  | fence x => exact hR.whileRunning h (hR.fenceIfDue x s)
  | drainCompletion x => exact hR.whileRunning h (hR.testDrain x s)
  | settling p => exact hR.whileRunning h (hR.settle p s)
  | pressureFall => exact hR.whileRunning h (hR.sameWork (sameWork_pressureFall s))
  | lendPoint => exact hR.whileRunning h (hR.sameWork (sameWork_lendPoint s))
  | solveCompletion => exact hR.whileRunning h (hR.sameWork (sameWork_completeSolve s))
  | switchPortLinkUp => exact hR.whileRunning (f := fun s => { s with links.switchUp := true }) h (hR.switchUp s)
  | poolPortLinkLoss => exact hR.whileRunning h (hR.poolLinkLoss s)
  | poolPortLinkUp => exact hR.whileRunning (f := fun s => { s with links.poolUp := true }) h (hR.poolUp s)
  | powerOnRelease straps =>
    obtain rfl := Host.Outcome.next.inj h
    rw [powerOnRelease]
    split
    · refine hR.trans (hR.sameWork ?_) (hR.restart _)
      exact .of_eq rfl rfl rfl rfl rfl rfl rfl rfl rfl
    · exact hR.refl s
  | pinResetRelease =>
    obtain rfl := Host.Outcome.next.inj h
    rw [pinResetRelease]
    split
    · refine hR.trans (hR.sameWork ?_) (hR.restart _)
      exact .of_eq rfl rfl rfl rfl rfl rfl rfl rfl rfl
    · exact hR.refl s
  | haltReqRising =>
    obtain rfl := Host.Outcome.next.inj h
    exact hR.sameWork (sameWork_riseHalt s)
  | haltReqFalling =>
    obtain rfl := Host.Outcome.next.inj h
    exact hR.sameWork (.of_eq rfl rfl rfl rfl rfl rfl rfl rfl rfl)
  | start | quiesce | stop | resume | clear | tenantReset | pairSwap | modeSet | runtimeReset | unknownCommand =>
    exact hR.whileRunning h (hR.issueCommand _ _ s)
  | managementWrite b =>
    refine hR.whileRunning h ?_
    split
    · exact hR.dataByteWritten b s
    · exact hR.refl s
  | readSnapshot a | dataByteRead a =>
    refine hR.whileRunning h ?_
    split
    · exact hR.sameWork (sameWork_dataByteSent a s)
    · exact hR.refl s
  | pointerByte b => exact hR.whileRunning h (hR.sameWork (sameWork_takePointer b s))
  | i2cStartCondition target d => exact hR.whileRunning h (hR.sameWork (sameWork_startTransfer target d s))
  | i2cStopCondition => exact hR.whileRunning h (hR.sameWork (.of_eq rfl rfl rfl rfl rfl rfl rfl rfl rfl))
  | maximumHeadAgeRead x =>
    rw [exec_maximumHeadAgeRead] at h
    refine hR.whileRunning h (hR.trans (hR.sameWork ?_) (hR.sameWork (sameWork_clearOnRead _ _)))
    exact .of_eq rfl rfl rfl rfl rfl rfl rfl rfl rfl
  | linkResetCountClear p v =>
    refine hR.write (field := linkCountField p) (f := clearLinkCount p) (fun s => ?_) h
    cases p <;> exact .of_eq rfl rfl rfl rfl rfl rfl rfl rfl rfl
  | pairEntryWrite p w =>
    rw [exec_pairEntryWrite] at h
    refine hR.whileRunning h ?_
    exact hR.trans (hR.sameWork (sameWork_dataByteTaken _ s)) (hR.writePair p w _)
  | wfWrite v =>
    exact hR.write (f := writeWf v.toNat) (fun s => .of_eq rfl rfl rfl rfl rfl rfl rfl rfl rfl) h
  | ctoWrite v =>
    exact hR.write (f := writeCto v.toNat) (fun s => .of_eq rfl rfl rfl rfl rfl rfl rfl rfl rfl) h
  | haltableWrite x v =>
    rw [exec_haltableWrite] at h
    refine hR.whileRunning h (hR.trans (hR.sameWork (sameWork_dataByteTaken (.tenant x .attrs) s)) (hR.sameWork ?_))
    apply SameWork.of_eq <;> simp
  | pageWrite | indexWrite | statusClear | alertFlagClear | alertEnablesWrite | globalCounterClear | fpWrite | capWrite
  | lpWrite | defaultTenantWrite | floorWrite | qlimWrite | qresWrite | classifierEntryWrite =>
    refine hR.write (fun s => ?_) h
    apply SameWork.of_eq <;> simp

end StepRelation

end Sys2Proof.Machine
end

