-- ==== Sys2Proof/Proofs/Steps.lean ====
section
/-! PROOFS. What every step keeps: the queue of waiting commands, the Pair Table's law, and the balance of answers sent and owed with the laws of a DOWN link. -/

namespace Sys2Proof.Machine

/-! ### The waiting commands -/

theorem exec_next_of_wf {c : Instr} (wf : c.wf = true) (s : State) : ∃ t, exec c s = .next t := by
  cases c with
  | arrival q tag b =>
    rw [exec_arrival, if_pos ((lengthFits_eq_bodyFits b).trans wf)]
    by_cases running : s.control.held = .no
    · exact ⟨_, if_pos running⟩
    · exact ⟨_, if_neg running⟩
  | powerOnReset | powerOnRelease | pinReset | pinResetRelease | haltReqRising | haltReqFalling => exact ⟨_, rfl⟩
  | _ =>
    by_cases running : s.control.held = .no
    · exact ⟨_, if_pos running⟩
    · exact ⟨_, if_neg running⟩

theorem stepRelation_pending : StepRelation fun s t => t.pending = s.pending where
  sameWork h := h.pending
  trans h1 h2 := h2.trans h1
  grant s := by simp
  expire tag s := by simp
  forward status data _ := by simp
  lost s := by simp [losePool]
  switchUp _ := rfl
  poolUp _ := rfl
  discard x s := by simp
  discardWq x s := by simp
  settle p s := by simp
  guards _ := rfl
  flip _ := rfl
  writePair p w s := by simp

/-- Settles O3: only a step takes a command from the queue. -/
theorem wellFormedCommandsComplete : Obligations.WellFormedCommandsComplete := by
  unfold Obligations.WellFormedCommandsComplete
  refine ⟨fun c s wf => ?_, fun q tag b s notWf => ?_⟩
  · obtain ⟨t, ht⟩ := exec_next_of_wf wf s
    refine ⟨t, ht, ?_⟩
    by_cases hc : silences c = false ∧ ∀ q tag b, c ≠ .arrival q tag b
    · exact stepRelation_pending.exec hc.1 hc.2 ht
    · cases c with
      | arrival q tag b =>
        rw [exec_arrival, if_pos ((lengthFits_eq_bodyFits b).trans wf)] at ht
        exact stepRelation_pending.whileRunning ht (by simp)
      | switchPortLinkReset => exact stepRelation_pending.whileRunning ht (by simp)
      | powerOnReset => obtain rfl := Host.Outcome.next.inj ht; rfl
      | pinReset =>
        obtain rfl := Host.Outcome.next.inj ht
        rw [pinReset]
        split <;> rfl
      | _ => exact absurd ⟨rfl, nofun⟩ hc
  · rw [exec_arrival, if_neg]
    rw [lengthFits_eq_bodyFits]
    exact Bool.eq_false_iff.1 notWf

/-! ### The Pair Table -/

theorem pairLaw_congr {s t : State} (h : t.pairHalt.pairs = s.pairHalt.pairs) (law : PairLaw s) : PairLaw t := by
  unfold PairLaw
  rw [h]
  exact law

/-- A Pair Table law survives where each pair keeps its membership, and its state and counter keep their own law. -/
theorem pairLaw_of_members {s t : State}
    (members : ∀ p, (t.pairHalt.pairs.get p).valid = (s.pairHalt.pairs.get p).valid ∧
      (t.pairHalt.pairs.get p).primary = (s.pairHalt.pairs.get p).primary ∧
      (t.pairHalt.pairs.get p).secondary = (s.pairHalt.pairs.get p).secondary)
    (settled : ∀ p, (t.pairHalt.pairs.get p).inGuard = false → (t.pairHalt.pairs.get p).counter = 0)
    (guarded : ∀ p, (t.pairHalt.pairs.get p).inGuard = true → (t.pairHalt.pairs.get p).valid = true)
    (law : PairLaw s) : PairLaw t := by
  intro p
  obtain ⟨-, -, distinct, apart⟩ := law p
  obtain ⟨hv, hp, hs⟩ := members p
  refine ⟨settled p, guarded p, ?_, fun o ho => ?_⟩
  · rw [hv, hp, hs]; exact distinct
  · obtain ⟨ov, op, os⟩ := members o
    have names : ∀ x, pairNames (t.pairHalt.pairs.get o) x = pairNames (s.pairHalt.pairs.get o) x := fun x => by
      rw [pairNames, pairNames, op, os]
    rw [names, names, ov, hv, hp, hs]
    exact apart o ho

/-- A Pair Table law survives a change of one pair's state that keeps its members. -/
theorem pairLaw_set {p : PairId} {e : PairEntry} {s t : State} (set : t.pairHalt.pairs = s.pairHalt.pairs.set p e)
    (members : e.valid = (s.pairHalt.pairs.get p).valid ∧ e.primary = (s.pairHalt.pairs.get p).primary ∧
      e.secondary = (s.pairHalt.pairs.get p).secondary)
    (settled : e.inGuard = false → e.counter = 0) (guarded : e.inGuard = true → e.valid = true)
    (law : PairLaw s) : PairLaw t := by
  have entry : ∀ o, t.pairHalt.pairs.get o = if p = o then e else s.pairHalt.pairs.get o := fun o => by
    rw [set, Table.get_set]
  refine pairLaw_of_members (fun o => ?_) (fun o => ?_) (fun o => ?_) law
  all_goals
    rw [entry]
    split
    next h => subst h; assumption
  · exact ⟨rfl, rfl, rfl⟩
  · exact (law o).1
  · exact (law o).2.1

theorem pairLaw_settle (p : PairId) {s : State} (law : PairLaw s) : PairLaw (testSettle p s) := by
  rcases testSettle_cases p s with ⟨passes, e⟩ | ⟨-, e⟩
  · obtain ⟨-, -, zero, -⟩ := (settlePasses_iff s p).1 passes
    rw [e]
    exact pairLaw_set rfl ⟨rfl, rfl, rfl⟩ (fun _ => zero) nofun law
  · rw [e]; exact law

theorem pairLaw_guards {s : State} (law : PairLaw s) :
    PairLaw { s with pairHalt.pairs := s.pairHalt.pairs.map tickGuard } := by
  refine pairLaw_of_members (s := s) ?_ ?_ ?_ law
  all_goals
    intro p
    rw [Table.get_map]
    obtain ⟨settled, guarded, -⟩ := law p
    rw [tickGuard]
  · split <;> exact ⟨rfl, rfl, rfl⟩
  · split
    · rename_i h; intro h'; exact absurd (h.2.symm.trans h') nofun
    · exact settled
  · split
    · exact guarded
    · exact guarded

theorem pairLaw_flip {p : PairId} {s : State} (valid : (s.pairHalt.pairs.get p).valid = true) (law : PairLaw s) :
    PairLaw (flipPair p s) :=
  pairLaw_set rfl ⟨rfl, rfl, rfl⟩ nofun (fun _ => valid) law

/-- A pair write in range is stored only where no other valid pair names a member (R135). -/
theorem pairLaw_writePair (p : PairId) (w : PairWrite) {s : State} (law : PairLaw s) : PairLaw (writePair p w s) := by
  have refused : ∀ r, PairLaw (refuseWrite r s) := fun r => pairLaw_congr rfl law
  rcases writePair_cases p w s with ⟨-, e⟩ | ⟨x, -, ⟨-, e⟩ | ⟨-, -, e⟩ | ⟨-, -, -, e⟩ | ⟨-, -, fits, e⟩⟩
  · rw [e]; exact refused _
  · rw [e]; exact refused _
  · rw [e]; exact refused _
  · rw [e]; exact refused _
  rw [e]
  have noClash := mt (membersClash_iff s p x).2 (Bool.eq_false_iff.1 fits)
  have alone : x.valid = true → x.primary ≠ x.secondary ∧ ¬NamedElsewhere s p x.primary ∧
      ¬NamedElsewhere s p x.secondary := fun hv =>
    ⟨fun h => noClash ⟨hv, .inl h⟩, fun h => noClash ⟨hv, .inr (.inl h)⟩, fun h => noClash ⟨hv, .inr (.inr h)⟩⟩
  have unnamed : ∀ {o y}, o ≠ p → (s.pairHalt.pairs.get o).valid = true → ¬NamedElsewhere s p y →
      (s.pairHalt.pairs.get o).primary ≠ y ∧ (s.pairHalt.pairs.get o).secondary ≠ y := fun {o y} ho hv hn =>
    ⟨fun h => hn ⟨o, ho, hv, .inl h⟩, fun h => hn ⟨o, ho, hv, .inr h⟩⟩
  intro o
  by_cases h : p = o
  · subst h
    simp only [Table.get_set_self]
    refine ⟨fun _ => trivial, nofun, fun hv => (alone hv).1, fun o' ho' hv' hv => ?_⟩
    rw [Table.get_set_of_ne _ (Ne.symm ho')] at hv' ⊢
    obtain ⟨-, hp, hs⟩ := alone hv
    simp [pairNames, unnamed ho' hv' hp, unnamed ho' hv' hs]
  · simp only [Table.get_set_of_ne _ h]
    obtain ⟨settled, guarded, distinct, apart⟩ := law o
    refine ⟨settled, guarded, distinct, fun o' ho' hv' hv => ?_⟩
    by_cases h' : p = o'
    · subst h'
      simp only [Table.get_set_self] at hv' ⊢
      obtain ⟨-, hp, hs⟩ := alone hv'
      simp [pairNames, (unnamed (Ne.symm h) hv hp).1.symm, (unnamed (Ne.symm h) hv hp).2.symm,
        (unnamed (Ne.symm h) hv hs).1.symm, (unnamed (Ne.symm h) hv hs).2.symm]
    · rw [Table.get_set_of_ne _ h'] at hv' ⊢
      exact apart o' ho' hv' hv

theorem stepRelation_pairLaw : StepRelation fun s t => PairLaw s → PairLaw t where
  sameWork h := pairLaw_congr h.pairs
  trans h1 h2 law := h2 (h1 law)
  grant s := pairLaw_congr (by simp)
  expire tag s := pairLaw_congr (by simp)
  forward status data _ := pairLaw_congr (by simp)
  lost s := pairLaw_congr (by simp [losePool])
  switchUp _ := pairLaw_congr rfl
  poolUp _ := pairLaw_congr rfl
  discard x s := pairLaw_congr (by simp)
  discardWq x s := pairLaw_congr (by simp)
  settle p _ := pairLaw_settle p
  guards _ := pairLaw_guards
  flip := pairLaw_flip
  writePair p w _ := pairLaw_writePair p w

theorem pairLaw_holdReset (held : Held) (s : State) : PairLaw (holdReset held s) := by
  have cleared : ∀ p, (holdReset held s).pairHalt.pairs.get p = PairEntry.reset := fun p => Table.get_fill ..
  intro p
  simp [cleared, PairEntry.reset]

theorem pairLaw_pinReset {s : State} (law : PairLaw s) : PairLaw (pinReset s) := by
  rw [pinReset]
  split
  · exact law
  · exact pairLaw_congr rfl (pairLaw_holdReset .pin s)

theorem exec_keeps_pairLaw {c : Instr} {s t : State} (h : exec c s = .next t) (law : PairLaw s) : PairLaw t := by
  by_cases hc : silences c = false ∧ ∀ q tag b, c ≠ .arrival q tag b
  · exact stepRelation_pairLaw.exec hc.1 hc.2 h law
  · cases c with
    | arrival q tag b =>
      rw [exec_arrival] at h
      split at h
      · exact stepRelation_pairLaw.whileRunning h (pairLaw_congr (by simp)) law
      · cases h
    | switchPortLinkReset => exact stepRelation_pairLaw.whileRunning h (pairLaw_congr (by simp)) law
    | powerOnReset =>
      obtain rfl := Host.Outcome.next.inj h
      exact pairLaw_holdReset .powerOn s
    | pinReset =>
      obtain rfl := Host.Outcome.next.inj h
      exact pairLaw_pinReset law
    | _ => exact absurd ⟨rfl, nofun⟩ hc

end Sys2Proof.Machine
end

