-- ==== Sys2Proof/Proofs/Balance.lean ====
section
/-! PROOFS. The balance of answers: every operation but an arrival keeps the answers sent and owed to each key together, and keeps the laws of a DOWN link (R2, R8, R98, R107). -/

namespace Sys2Proof.Machine

/-! ### Counting answers -/

/-- The key under which a response is known (R6). -/
def answerKey (r : Response) : RequestKey := ⟨r.kind, r.requester, r.tag⟩

/-- A debt is owed to a key: it is that key's and not silenced (R8). -/
def debtIs (k : RequestKey) : Option (RequestKey × Bool) → Bool
  | some d => !d.2 && decide (d.1 = k)
  | none => false

/-- The answers sent and owed to a key. -/
def balance (k : RequestKey) (s : State) : Nat := answersSent k s + answersOwed k s

theorem owedBy_eq (k : RequestKey) (o : Option OutstandingEntry) : owedBy k o = debtIs k (o.map debtOf) := by
  cases o <;> rfl

theorem answersSent_eq (k : RequestKey) (s : State) : answersSent k s = (s.wires.upstream.map answerKey).count k := by
  rw [answersSent, List.count, List.countP_map]
  refine List.countP_congr fun r _ => ?_
  simp [answerKey]

theorem queuedUnder_eq (k : RequestKey) (s : State) :
    queuedUnder k s = sumTenants fun x => ((queuedOf (queuesAt s x)).map keyOf).count k := by
  rw [queuedUnder, sumTenants, sumTenants]
  refine sumOver_congr fun x _ => ?_
  rw [List.count, List.countP_map]
  refine List.countP_congr fun d _ => ?_
  simp [keyOf]

/-- How many outstanding entries owe an answer to a key. -/
def outstandingUnder (k : RequestKey) (s : State) : Nat := s.paths.entries.toList.countP (owedBy k)

theorem answersOwed_eq (k : RequestKey) (s : State) : answersOwed k s = queuedUnder k s + outstandingUnder k s := rfl

theorem answersSent_congr {s t : State} (h : t.wires.upstream = s.wires.upstream) (k : RequestKey) :
    answersSent k t = answersSent k s := by rw [answersSent, answersSent, h]

theorem queuedUnder_congr {s t : State}
    (h : ∀ x, (queuedOf (queuesAt t x)).map keyOf = (queuedOf (queuesAt s x)).map keyOf) (k : RequestKey) :
    queuedUnder k t = queuedUnder k s := by
  simp only [queuedUnder_eq, h]

theorem outstandingUnder_congr {s t : State}
    (h : ∀ i, (t.paths.entries.get i).map debtOf = (s.paths.entries.get i).map debtOf) (k : RequestKey) :
    outstandingUnder k t = outstandingUnder k s := by
  simp only [outstandingUnder, Table.toList_eq_map_get, List.countP_map]
  refine List.countP_congr fun i _ => ?_
  simp only [Function.comp_apply, owedBy_eq, h]

/-- Answers sent are counted as they join what has left. -/
theorem answersSent_append {s t : State} {l : List Response} (h : t.wires.upstream = s.wires.upstream ++ l)
    (k : RequestKey) : answersSent k t = answersSent k s + (l.map answerKey).count k := by
  rw [answersSent_eq, answersSent_eq, h, List.map_append, List.count_append]

/-- Where the work stands, the balance grows by what has been answered beside it. -/
theorem balance_of_sent {s t : State} {l : List Response} (upstream : t.wires.upstream = s.wires.upstream ++ l)
    (queues : ∀ x, (queuedOf (queuesAt t x)).map keyOf = (queuedOf (queuesAt s x)).map keyOf)
    (entries : ∀ i, (t.paths.entries.get i).map debtOf = (s.paths.entries.get i).map debtOf) (k : RequestKey) :
    balance k t = balance k s + (l.map answerKey).count k := by
  rw [balance, balance, answersOwed_eq, answersOwed_eq, answersSent_append upstream, queuedUnder_congr queues,
    outstandingUnder_congr entries]
  omega

/-- A change of one tenant's queues changes the queued count by that tenant's part. -/
theorem queuedUnder_set {s t : State} {x : TenantId} {u : TenantQueues}
    (h : t.admission.queues = s.admission.queues.set x u) (k : RequestKey) :
    queuedUnder k t + ((queuedOf (queuesAt s x)).map keyOf).count k =
      queuedUnder k s + ((queuedOf u).map keyOf).count k := by
  have at_x : queuesAt t x = u := by rw [queuesAt, h, Table.get_set_self]
  have elsewhere : ∀ y, y ≠ x → queuesAt t y = queuesAt s y := fun y hy => by
    rw [queuesAt, h, Table.get_set_of_ne _ (Ne.symm hy)]; rfl
  rw [queuedUnder_eq, queuedUnder_eq, ← at_x]
  exact sumOver_update (f := fun x => ((queuedOf (queuesAt s x)).map keyOf).count k)
    (g := fun x => ((queuedOf (queuesAt t x)).map keyOf).count k) fun y hy => by rw [elsewhere y hy]

theorem countP_eq_sumOver {α : Type} (p : α → Bool) (l : List α) :
    l.countP p = sumOver l fun a => if p a then 1 else 0 := by
  induction l with
  | nil => rfl
  | cons a l ih => rw [List.countP_cons, sumOver_cons, ih, Nat.add_comm]

/-- A change of one place of the Outstanding Table changes the outstanding count by that place. -/
theorem outstandingUnder_set {s t : State} {i : Fin 256} {o : Option OutstandingEntry}
    (h : t.paths.entries = s.paths.entries.set i o) (k : RequestKey) :
    outstandingUnder k t + (if owedBy k (s.paths.entries.get i) then 1 else 0) =
      outstandingUnder k s + if owedBy k o then 1 else 0 := by
  have at_i : t.paths.entries.get i = o := by rw [h, Table.get_set_self]
  have elsewhere : ∀ j, j ≠ i → t.paths.entries.get j = s.paths.entries.get j := fun j hj => by
    rw [h, Table.get_set_of_ne _ (Ne.symm hj)]
  rw [outstandingUnder, outstandingUnder, countP_eq_sumOver, countP_eq_sumOver, sumOver_toList, sumOver_toList, ← at_i]
  exact sumOver_update (f := fun i => if owedBy k (s.paths.entries.get i) then 1 else 0)
    (g := fun i => if owedBy k (t.paths.entries.get i) then 1 else 0) fun j hj => by rw [elsewhere j hj]

/-- Under a DOWN Switch Port nothing is owed (R8, R98). -/
theorem answersOwed_of_down {s : State} (law : SwitchDownLaw s) (down : s.links.switchUp = false) (k : RequestKey) :
    answersOwed k s = 0 := by
  obtain ⟨queues, entries, -⟩ := law down
  have queued : queuedUnder k s = 0 := by
    rw [queuedUnder_eq]
    simp only [queues, List.map_nil, List.count_nil]
    rfl
  have outstanding : outstandingUnder k s = 0 := by
    rw [outstandingUnder, List.countP_eq_zero]
    intro o ho
    obtain ⟨i, rfl⟩ := Table.mem_toList.1 ho
    cases he : s.paths.entries.get i with
    | none => simp [owedBy]
    | some e => simp [owedBy, entries i e he]
  rw [answersOwed_eq, queued, outstanding]

/-! ### The relation -/

/-- From one state to another the laws of a DOWN link are kept, and while they hold every key's balance is. -/
structure KeepsBalance (s t : State) : Prop where
  switchDown : SwitchDownLaw s → SwitchDownLaw t
  poolDown : PoolDownLaw s → PoolDownLaw t
  balance : SwitchDownLaw s → ∀ k, balance k t = balance k s

theorem KeepsBalance.trans {s t u : State} (h1 : KeepsBalance s t) (h2 : KeepsBalance t u) : KeepsBalance s u where
  switchDown law := h2.switchDown (h1.switchDown law)
  poolDown law := h2.poolDown (h1.poolDown law)
  balance law k := (h2.balance (h1.switchDown law) k).trans (h1.balance law k)

theorem keepsBalance_of_sameWork {s t : State} (h : SameWork s t) : KeepsBalance s t where
  switchDown law down := by
    obtain ⟨queues, entries, lists⟩ := law (h.switchUp.symm.trans down)
    refine ⟨fun x => ?_, fun i e he => ?_, fun q => by rw [h.lists]; exact lists q⟩
    · have := h.queues x
      rwa [queues x, List.map_nil, List.map_eq_nil_iff] at this
    · have debt := h.entries i
      rw [he] at debt
      obtain ⟨e', he', debt'⟩ := Option.map_eq_some_iff.1 debt.symm
      have orphan : e'.orphan = e.orphan := congrArg Prod.snd debt'
      rw [← orphan]
      exact entries i e' he'
  poolDown law down := by
    obtain ⟨entries, slot⟩ := law (h.poolUp.symm.trans down)
    refine ⟨fun i => ?_, h.slot slot⟩
    have := h.entries i
    rwa [entries i, Option.map_none, Option.map_eq_none_iff] at this
  balance _ k := balance_of_sent (l := []) (by rw [h.upstream, List.append_nil]) h.queues h.entries k

/-! ### Discards -/

theorem map_answerKey_refusal (l : List Descriptor) : (l.map refusal).map answerKey = l.map keyOf := by
  rw [List.map_map]; rfl

/-- A tenant's queue split into what is refused and what stays keeps the balance. -/
theorem keepsBalance_of_refused {x : TenantId} {ds l : List Descriptor} {u : TenantQueues} {s t : State}
    (order : l.Perm ds) (refused : Refused x l s t) (queues : t.admission.queues = s.admission.queues.set x u)
    (split : (queuedOf (queuesAt s x)).Perm (ds ++ queuedOf u)) (kept : OtherBlocksKept s t) : KeepsBalance s t := by
  obtain ⟨wires, -, -, -, entries, -, -, lists, -⟩ := refused
  obtain ⟨links, -, -, -, arbiter, -⟩ := kept
  refine ⟨fun law down => ?_, fun law down => ?_, fun law k => ?_⟩
  · obtain ⟨empty, orphans, noLists⟩ := law (by rwa [← links])
    refine ⟨fun y => ?_, by rwa [entries], fun q => by rw [lists, noLists]; rfl⟩
    rw [queuesAt, queues, Table.get_set]
    by_cases hy : x = y
    · rw [if_pos hy]
      rw [empty x] at split
      exact (List.append_eq_nil_iff.1 (List.nil_perm.1 split)).2
    · rw [if_neg hy]
      exact empty y
  · rw [entries, arbiter]
    exact law (by rwa [← links])
  · have sent : answersSent k t = answersSent k s + if s.links.switchUp then (ds.map keyOf).count k else 0 := by
      have upstream : t.wires.upstream = s.wires.upstream ++ if s.links.switchUp then l.map refusal else [] := by
        rw [wires]
      rw [answersSent_append upstream]
      cases s.links.switchUp with
      | false => rfl
      | true => rw [if_pos rfl, if_pos rfl, map_answerKey_refusal, (order.map keyOf).count_eq]
    have owed := queuedUnder_set queues k
    have outstanding : outstandingUnder k t = outstandingUnder k s := outstandingUnder_congr (fun i => by rw [entries]) k
    have parts := (split.map keyOf).count_eq k
    rw [List.map_append, List.count_append] at parts
    have silent : s.links.switchUp = false → (ds.map keyOf).count k = 0 := fun down => by
      rw [(law down).1 x] at parts
      simp only [List.map_nil, List.count_nil] at parts
      omega
    rw [balance, balance, answersOwed_eq, answersOwed_eq, sent, outstanding]
    cases hu : s.links.switchUp with
    | false =>
      have := silent hu
      simp only [Bool.false_eq_true, if_false]
      omega
    | true =>
      simp only [if_true]
      omega

theorem keepsBalance_discardAll (x : TenantId) (s : State) : KeepsBalance s (discardAll x s) := by
  obtain ⟨⟨l, order, refused⟩, queues, kept⟩ := queueRefused_discardAll x s
  exact keepsBalance_of_refused order.1 refused queues (by simp [queuedOf]) kept

theorem keepsBalance_discardWrites (x : TenantId) (s : State) : KeepsBalance s (discardWrites x s) := by
  obtain ⟨⟨l, order, refused⟩, queues, kept⟩ := writesRefused_discardWrites x s
  refine keepsBalance_of_refused order.1 refused queues ?_ kept
  simpa [queuedOf] using List.perm_append_comm

/-! ### Entries ended -/

theorem endWrite_lists_nil {kind : Kind} {q : RequesterId} {x : Stamp} {s : State} {i : Fin 64}
    (h : s.paths.orderLists.get i = []) : (endWrite kind q x s).paths.orderLists.get i = [] := by
  rcases endWrite_cases kind q x s with ⟨-, e⟩ | ⟨-, e⟩
  · rw [e, leaveOrder_paths, Table.get_modify]
    split <;> simp [h]
  · rw [e]; exact h

theorem answerEntry_lists_nil {e : OutstandingEntry} {status : ResponseStatus} {data : List Byte} {s : State} {i : Fin 64}
    (h : s.paths.orderLists.get i = []) : (answerEntry e status data s).paths.orderLists.get i = [] :=
  endWrite_lists_nil (by rw [sendUp_paths]; exact h)

theorem endWrite_entries (kind : Kind) (q : RequesterId) (x : Stamp) (s : State) :
    (endWrite kind q x s).paths.entries = s.paths.entries := by
  rcases endWrite_cases kind q x s with ⟨-, e⟩ | ⟨-, e⟩ <;> rw [e]
  rfl

theorem answerEntry_entries (e : OutstandingEntry) (status : ResponseStatus) (data : List Byte) (s : State) :
    (answerEntry e status data s).paths.entries = s.paths.entries := by
  rw [answerEntry, endWrite_entries, sendUp_paths]

theorem answerEntry_upstream (e : OutstandingEntry) (status : ResponseStatus) (data : List Byte) (s : State) :
    (answerEntry e status data s).wires.upstream =
      s.wires.upstream ++ if s.links.switchUp then [⟨e.kind, e.requester, e.tag, status, data⟩] else [] := by
  rw [answerEntry, endWrite_wires, sendUp_wires]
  cases s.links.switchUp <;> simp

/-- An entry's end, answered but for an orphan, keeps the balance. -/
theorem keepsBalance_of_ended {i : Fin 256} {e : OutstandingEntry} {s t : State} {sent : List Response}
    (entry : s.paths.entries.get i = some e) (links : t.links = s.links)
    (queues : t.admission.queues = s.admission.queues) (slot : t.arbiter.slot = s.arbiter.slot)
    (entries : t.paths.entries = s.paths.entries.set i none)
    (lists : ∀ q, s.paths.orderLists.get q = [] → t.paths.orderLists.get q = [])
    (upstream : t.wires.upstream = s.wires.upstream ++ sent)
    (answered : sent.map answerKey = if e.orphan = false ∧ s.links.switchUp = true then [(debtOf e).1] else []) :
    KeepsBalance s t := by
  have freed : ∀ j, t.paths.entries.get j = if i = j then none else s.paths.entries.get j := fun j => by
    rw [entries, Table.get_set]
  refine ⟨fun law down => ?_, fun law down => ?_, fun law k => ?_⟩
  · rw [links] at down
    obtain ⟨empty, orphans, noLists⟩ := law down
    refine ⟨fun x => by rw [queuesAt, queues]; exact empty x, fun j e' he' => ?_, fun q => lists q (noLists q)⟩
    rw [freed] at he'
    split at he'
    · cases he'
    · exact orphans j e' he'
  · obtain ⟨none, free⟩ := law (by rwa [← links])
    refine ⟨fun j => ?_, slot.trans free⟩
    rw [freed, none j, ite_self]
  · have silent : s.links.switchUp = false → e.orphan = true := fun down => (law down).2.1 i e entry
    have owed := outstandingUnder_set entries k
    have queued : queuedUnder k t = queuedUnder k s := queuedUnder_congr (fun x => by rw [queuesAt, queuesAt, queues]) k
    rw [balance, balance, answersOwed_eq, answersOwed_eq, answersSent_append upstream, queued, answered]
    rw [entry] at owed
    cases ho : e.orphan with
    | true =>
      simp [owedBy, ho] at owed ⊢
      omega
    | false =>
      have up : s.links.switchUp = true := by
        cases hu : s.links.switchUp with
        | true => rfl
        | false => exact absurd (silent hu) (by simp [ho])
      simp only [owedBy, ho, Bool.not_false, Bool.true_and, decide_eq_true_eq] at owed
      simp only [up, and_self, if_true, debtOf, List.count_singleton, beq_iff_eq]
      simp only [Bool.false_eq_true, if_false] at owed
      omega

/-- An entry answered, counted by any counter and freed. -/
theorem keepsBalance_answer {tag : Byte} {e : OutstandingEntry} {s : State} (status : ResponseStatus)
    (data : List Byte) (entry : s.paths.entries.get tag.toFin = some e) (live : e.orphan = false)
    {t : State} (links : t.links = s.links) (admission : t.admission = s.admission) (arbiter : t.arbiter = s.arbiter)
    (paths : t.paths = (answerEntry e status data s).paths) (wires : t.wires = (answerEntry e status data s).wires) :
    KeepsBalance s (freeEntry tag t) := by
  refine keepsBalance_of_ended entry links ?_ (congrArg Arbiter.slot arbiter) ?_ (fun q hq => ?_) ?_ ?_
    (sent := if s.links.switchUp then [⟨e.kind, e.requester, e.tag, status, data⟩] else [])
  · rw [freeEntry_admission, admission]
  · rw [freeEntry_paths, paths, answerEntry_entries]
  · rw [freeEntry_paths, paths]
    exact answerEntry_lists_nil hq
  · rw [freeEntry_wires, wires, answerEntry_upstream]
  · cases s.links.switchUp <;> simp [live, answerKey, debtOf]

/-- An orphan freed silently. -/
theorem keepsBalance_orphan {tag : Byte} {e : OutstandingEntry} {s : State}
    (entry : s.paths.entries.get tag.toFin = some e) (orphan : e.orphan = true) : KeepsBalance s (freeEntry tag s) :=
  keepsBalance_of_ended (sent := []) entry rfl rfl rfl rfl (fun _ h => h) (by simp) (by simp [orphan])

theorem keepsBalance_expireEntry (tag : Byte) (s : State) : KeepsBalance s (expireEntry tag s) := by
  rcases expireEntry_cases tag s with ⟨-, r⟩ | ⟨e, entry, orphan, r⟩ | ⟨e, entry, live, r⟩
  · rw [r]; exact keepsBalance_of_sameWork (.refl s)
  · rw [r]
    exact (keepsBalance_orphan entry orphan).trans (keepsBalance_of_sameWork (sameWork_raiseAlert ..))
  · rw [r]
    refine KeepsBalance.trans ?_ (keepsBalance_of_sameWork (sameWork_raiseAlert ..))
    exact keepsBalance_answer .expired [] entry live (by simp) (by simp) (by simp) (by simp) (by simp)

theorem keepsBalance_forwardResponse {tag : Byte} {e : OutstandingEntry} {s : State} (status : PoolStatus)
    (data : List Byte) (entry : s.paths.entries.get tag.toFin = some e) :
    KeepsBalance s (forwardResponse tag e status data s) := by
  rcases forwardResponse_cases tag e status data s with ⟨orphan, r⟩ | ⟨live, -, r⟩ | ⟨live, -, r⟩
  · rw [r]; exact keepsBalance_orphan entry orphan
  · rw [r]; exact keepsBalance_answer .good _ entry live (by simp) (by simp) (by simp) rfl rfl
  · rw [r]; exact keepsBalance_answer .mediaFault [] entry live (by simp) (by simp) (by simp) (by simp) (by simp)

end Sys2Proof.Machine
end

