-- ==== Sys2Proof/Proofs/EndedEntries.lean ====
section
/-! PROOFS. Entries ended together: what answering a list of entries sends and takes from the order lists, and the loss of the Pool Port link in closed form (R3, R95, R101, R107). -/

namespace Sys2Proof.Machine

/-! ### Entries answered in order -/

/-- An entry is a WRITE of a requester with a stamp and no orphan. -/
def isLiveWrite (q : Fin 64) (x : Stamp) (e : OutstandingEntry) : Bool :=
  e.kind == .write && !e.orphan && e.requester.toFin == q && e.stamp == x

/-- The entries have been answered with a status, in order: the responses of those that are no orphans have left, and the stamps of their WRITEs are gone from the order lists (R101, R107). -/
structure Answered (status : ResponseStatus) (es : List OutstandingEntry) (s u : State) : Prop where
  wires : u.wires = { s.wires with upstream := s.wires.upstream ++
    if s.links.switchUp then es.filterMap (endResponse status) else [] }
  lists : ∀ q, u.paths.orderLists.get q = (s.paths.orderLists.get q).filter fun x => !es.any (isLiveWrite q x)

theorem Answered.nil {status : ResponseStatus} {s u : State} (wires : u.wires = s.wires)
    (lists : u.paths.orderLists = s.paths.orderLists) : Answered status [] s u where
  wires := by simp [wires]
  lists q := by simp [lists]

theorem Answered.append {status : ResponseStatus} {es es' : List OutstandingEntry} {s u v : State}
    (h : Answered status es s u) (links : u.links = s.links) (h' : Answered status es' u v) :
    Answered status (es ++ es') s v where
  wires := by
    rw [h'.wires, h.wires, links]
    cases s.links.switchUp <;> simp
  lists q := by
    rw [h'.lists, h.lists, List.filter_filter]
    refine List.filter_congr fun x _ => ?_
    simp [Bool.and_comm]

theorem answered_orphan {status : ResponseStatus} {e : OutstandingEntry} {s u : State} (orphan : e.orphan = true)
    (wires : u.wires = s.wires) (lists : u.paths.orderLists = s.paths.orderLists) : Answered status [e] s u where
  wires := by simp [wires, endResponse, orphan]
  lists q := by simp [lists, isLiveWrite, orphan]

theorem endWrite_lists (kind : Kind) (q : RequesterId) (y : Stamp) (s : State) (i : Fin 64) :
    (endWrite kind q y s).paths.orderLists.get i =
      (s.paths.orderLists.get i).filter fun x => !(kind == .write && q.toFin == i && y == x) := by
  rcases endWrite_cases kind q y s with ⟨write, e⟩ | ⟨other, e⟩
  · rw [e, leaveOrder_paths, Table.get_modify]
    by_cases hq : q.toFin = i
    · simp [hq, write, bne, BEq.comm]
    · have apart : (q.toFin == i) = false := by simpa using hq
      simp [hq, apart]
  · have apart : (kind == .write) = false := by simpa using other
    simp [e, apart]

theorem answered_live {status : ResponseStatus} {e : OutstandingEntry} {s u : State} (live : e.orphan = false)
    (wires : u.wires = (answerEntry e status [] s).wires) (paths : u.paths.orderLists =
      (answerEntry e status [] s).paths.orderLists) : Answered status [e] s u where
  wires := by
    rw [wires, answerEntry, endWrite_wires, sendUp_wires]
    cases s.links.switchUp <;> simp [endResponse, live]
  lists q := by
    rw [paths, answerEntry, endWrite_lists, sendUp_paths]
    simp [isLiveWrite, live]

/-! ### The loss of the Pool Port link -/

/-- The entries in use, in ascending order of tag. -/
theorem entriesFrom_snd (n : Nat) (l : List (Option OutstandingEntry)) :
    (entriesFrom n l).map (·.2) = l.filterMap id := by
  induction l generalizing n with
  | nil => rfl
  | cons o l ih => cases o <;> simp [entriesFrom, ih]

/-- Entries ended with PATH_LOST, in order, each counted for its tenant (R107). -/
structure Lost (es : List OutstandingEntry) (s u : State) : Prop where
  answered : Answered .pathLost es s u
  cto : u.paths.cto = s.paths.cto
  ctoInForce : u.paths.ctoInForce = s.paths.ctoInForce
  observe : u.observe = { s.observe with counters := u.observe.counters }
  counters : ∀ x, u.observe.counters.get x = { s.observe.counters.get x with
    pathLost := (s.observe.counters.get x).pathLost + BitVec.ofNat 32 (es.countP fun e => e.tenant == x && !e.orphan) }

theorem lost_nil (s : State) : Lost [] s s where
  answered := .nil rfl rfl
  cto := rfl
  ctoInForce := rfl
  observe := rfl
  counters x := by simp

theorem answerEntry_cto (e : OutstandingEntry) (status : ResponseStatus) (data : List Byte) (s : State) :
    (answerEntry e status data s).paths.cto = s.paths.cto ∧
      (answerEntry e status data s).paths.ctoInForce = s.paths.ctoInForce := by
  rw [answerEntry]
  rcases endWrite_cases e.kind e.requester e.stamp (sendUp ⟨e.kind, e.requester, e.tag, status, data⟩ s) with
    ⟨-, r⟩ | ⟨-, r⟩
  · simp [r]
  · simp [r]

theorem lost_loseEntry (s : State) (e : OutstandingEntry) : Lost [e] s (loseEntry s e) := by
  rcases loseEntry_cases s e with ⟨orphan, r⟩ | ⟨live, r⟩
  · rw [r]
    exact ⟨answered_orphan orphan rfl rfl, rfl, rfl, rfl, fun x => by simp [orphan]⟩
  · rw [r]
    obtain ⟨cto, inForce⟩ := answerEntry_cto e .pathLost [] s
    refine ⟨answered_live live (by simp) (by simp), by simp [cto], by simp [inForce], by simp, fun x => ?_⟩
    by_cases hx : e.tenant = x
    · simp [hx, live]
    · simp [hx]

theorem Lost.append {es es' : List OutstandingEntry} {s u v : State} (h : Lost es s u) (links : u.links = s.links)
    (h' : Lost es' u v) : Lost (es ++ es') s v where
  answered := h.answered.append links h'.answered
  cto := h'.cto.trans h.cto
  ctoInForce := h'.ctoInForce.trans h.ctoInForce
  observe := by rw [h'.observe, h.observe]
  counters x := by
    rw [h'.counters, h.counters, List.countP_append, BitVec.ofNat_add, BitVec.add_assoc]

theorem lost_foldl (es : List OutstandingEntry) (s : State) : Lost es s (es.foldl loseEntry s) := by
  induction es generalizing s with
  | nil => exact lost_nil s
  | cons e es ih => exact (lost_loseEntry s e).append (loseEntry_links s e) (ih (loseEntry s e))

/-- The entries that a loss ends (R107). -/
def entriesEnded (s : State) : List OutstandingEntry := s.paths.entries.toList.filterMap id

theorem lost_loseEntries (s : State) : Lost (entriesEnded s) s (loseEntries s) := by
  have folded : loseEntries s =
      { (entriesEnded s).foldl loseEntry s with paths.entries := Table.fill 256 none } := by
    rw [loseEntries, entriesInUse, entriesFrom_snd]; rfl
  obtain ⟨answered, cto, ctoInForce, observe, counters⟩ := lost_foldl (entriesEnded s) s
  rw [folded]
  exact ⟨⟨answered.wires, answered.lists⟩, cto, ctoInForce, observe, counters⟩

/-- The state that a loss of the Pool Port link begins with: the link DOWN and counted (R3, R155). -/
def poolDowned (s : State) : State :=
  { s with links.poolUp := false, links.poolLosses := min Config.max16 (s.links.poolLosses + 1) }

theorem losePool_eq (s : State) : losePool s = freeSlot (loseEntries (poolDowned s)) := rfl

theorem freeSlot_slot (s : State) : (freeSlot s).arbiter = { s.arbiter with slot := none } := by
  rcases freeSlot_cases s with ⟨free, e⟩ | ⟨x, -, e⟩
  · rw [e, ← free]
  · rw [e]; rfl

theorem freeSlot_store (s : State) : (freeSlot s).admission = { s.admission with
    store := s.admission.store.filter fun c =>
      !(match s.arbiter.slot with
        | some x => x.blocks.contains c.1
        | none => false) } := by
  rcases freeSlot_cases s with ⟨free, e⟩ | ⟨x, busy, e⟩
  · rw [e, free]; simp
  · rw [e, busy]; rfl

/-- Settles O42: a loss ends every entry, then frees the slot. -/
theorem poolPortLinkEvents : Obligations.PoolPortLinkEvents := by
  unfold Obligations.PoolPortLinkEvents
  intro s running
  refine ⟨fun down => ?_, fun up => ⟨pauseAll (raiseAlert .plink (losePool s)), ?_, ?_⟩, ?_, fun tag kind status data down => ?_⟩
  · rw [exec_poolPortLinkLoss, whileRunning_of_running running, poolLinkLoss, if_neg (by simp [down])]
  · rw [exec_poolPortLinkLoss, whileRunning_of_running running, poolLinkLoss_of_up up]
    rfl
  · have lost := lost_loseEntries (poolDowned s)
    have liveWrite : ∀ q x, isLiveWrite q x = fun e =>
        !e.orphan && e.kind == .write && e.requester.toFin == q && e.stamp == x := fun q x => by
      funext e; rw [isLiveWrite, Bool.and_comm (e.kind == .write)]
    simp only [pauseAll, losePool_eq, raiseAlert_links, raiseAlert_wires, raiseAlert_paths, raiseAlert_arbiter,
      raiseAlert_admission, raiseAlert_observe, raiseAlert_classifier, raiseAlert_timer, raiseAlert_solver,
      raiseAlert_credit, raiseAlert_pairHalt, raiseAlert_control, raiseAlert_port, raiseAlert_pending,
      freeSlot_links, freeSlot_wires, freeSlot_paths, freeSlot_observe, freeSlot_slot, freeSlot_store,
      freeSlot_classifier, freeSlot_timer, freeSlot_solver, freeSlot_credit, freeSlot_pairHalt, freeSlot_control,
      freeSlot_port, freeSlot_pending, loseEntries_links, loseEntries_arbiter, loseEntries_admission,
      loseEntries_classifier, loseEntries_timer, loseEntries_solver, loseEntries_credit, loseEntries_pairHalt,
      loseEntries_control, loseEntries_port, loseEntries_pending]
    refine ⟨rfl, lost.answered.wires, fun k => Table.get_fill .., lost.cto, lost.ctoInForce, fun q => ?_, rfl, rfl,
      lost.counters, ?_, fun x => ?_, rfl, rfl, rfl, rfl, rfl, rfl, rfl, rfl⟩
    · rw [lost.answered.lists]
      simp only [liveWrite]
      rfl
    · rw [lost.observe]
      rfl
    · rw [recordAt, Table.get_map, raiseAlert_records, freeSlot_records, loseEntries_records]
      rfl
  · rw [exec_poolPortLinkUp, whileRunning_of_running running]
  · rw [exec_poolResponse, whileRunning_of_running running, takeResponse, if_neg (by simp [down])]

end Sys2Proof.Machine
end

