-- ==== Sys2Proof/Proofs/AnswersAndLinks.lean ====
section
/-! PROOFS. The loss of the Pool Port link and a grant keep the balance of answers, so every command but an arrival does; an arrival adds one. -/

namespace Sys2Proof.Machine

/-! ### The loss of the Pool Port link -/

theorem map_answerKey_endResponse (status : ResponseStatus) (k : RequestKey) (l : List (Option OutstandingEntry)) :
    (((l.filterMap id).filterMap (endResponse status)).map answerKey).count k = l.countP (owedBy k) := by
  induction l with
  | nil => rfl
  | cons o l ih =>
    cases o with
    | none => simpa [owedBy] using ih
    | some e =>
      have used : (some e :: l).filterMap id = e :: l.filterMap id := rfl
      rw [used, List.countP_cons]
      cases ho : e.orphan
      · simp [endResponse, owedBy, ho, answerKey, List.count_cons]
        exact ih
      · simp [endResponse, owedBy, ho]
        exact ih

theorem keepsBalance_losePool (s : State) : KeepsBalance s (losePool s) := by
  have lost := lost_loseEntries (poolDowned s)
  have links : (losePool s).links.switchUp = s.links.switchUp := by simp [losePool]
  have queues : ∀ x, queuesAt (losePool s) x = queuesAt s x := fun x => by
    rw [losePool_eq, queuesAt, freeSlot_store, loseEntries_admission]; rfl
  have none : ∀ i, (losePool s).paths.entries.get i = none := fun i => by
    rw [losePool_eq, freeSlot_paths]; exact Table.get_fill ..
  have lists : ∀ q, (losePool s).paths.orderLists.get q =
      (s.paths.orderLists.get q).filter fun x => !(entriesEnded s).any (isLiveWrite q x) := fun q => by
    rw [losePool_eq, freeSlot_paths]; exact lost.answered.lists q
  have upstream : (losePool s).wires.upstream = s.wires.upstream ++
      if s.links.switchUp then (entriesEnded s).filterMap (endResponse .pathLost) else [] := by
    rw [losePool_eq, freeSlot_wires, lost.answered.wires]; rfl
  refine ⟨fun law down => ?_, fun _ _ => ?_, fun law k => ?_⟩
  · obtain ⟨empty, -, noLists⟩ := law (links.symm.trans down)
    refine ⟨fun x => by rw [queues]; exact empty x, fun i e he => ?_, fun q => by rw [lists, noLists]; rfl⟩
    rw [none] at he
    cases he
  · exact ⟨none, by rw [losePool_eq, freeSlot_slot]⟩
  · have cleared : outstandingUnder k (losePool s) = 0 := by
      rw [outstandingUnder, List.countP_eq_zero]
      intro o ho
      obtain ⟨i, rfl⟩ := Table.mem_toList.1 ho
      simp [none, owedBy]
    have queued : queuedUnder k (losePool s) = queuedUnder k s := queuedUnder_congr (fun x => by rw [queues]) k
    rw [balance, balance, answersSent_append upstream, answersOwed_eq, answersOwed_eq, cleared, queued]
    cases up : s.links.switchUp with
    | true =>
      have ended : _ = outstandingUnder k s := map_answerKey_endResponse .pathLost k s.paths.entries.toList
      rw [if_pos rfl, ← ended, entriesEnded]
      omega
    | false =>
      have owed := answersOwed_of_down law up k
      rw [answersOwed_eq] at owed
      simp only [Bool.false_eq_true, if_false, List.map_nil, List.count_nil]
      omega

/-! ### A grant -/

/-- The lowest free tag is a free place of the table. -/
theorem firstFree_spec {n tag : Nat} {l : List (Option OutstandingEntry)} (h : firstFree n l = some tag) :
    n ≤ tag ∧ l[tag - n]? = some none := by
  induction l generalizing n with
  | nil => cases h
  | cons o l ih =>
    cases o with
    | none =>
      obtain rfl : n = tag := Option.some.inj h
      simp
    | some e =>
      obtain ⟨hle, hget⟩ := ih h
      refine ⟨by omega, ?_⟩
      obtain ⟨m, hm⟩ : ∃ m, tag - n = m + 1 := ⟨tag - n - 1, by omega⟩
      rw [hm, List.getElem?_cons_succ, ← hget]
      congr 1
      omega

theorem lowestFreeTag_spec {s : State} {tag : Nat} (h : lowestFreeTag s = some tag) :
    s.paths.entries.get (BitVec.ofNat 8 tag).toFin = none := by
  obtain ⟨-, hget⟩ := firstFree_spec h
  obtain ⟨hlt, hget⟩ := List.getElem?_eq_some_iff.1 hget
  rw [Nat.sub_zero, s.paths.entries.size] at hlt
  have index : (BitVec.ofNat 8 tag).toFin = (⟨tag, hlt⟩ : Fin 256) := Fin.ext (by
    rw [BitVec.val_toFin, BitVec.toNat_ofNat]
    exact Nat.mod_eq_of_lt hlt)
  rw [index, Table.get_def]
  exact hget

theorem olderCandidate_cases (a b : Option Candidate) : olderCandidate a b = a ∨ olderCandidate a b = b := by
  cases a with
  | none => exact .inr rfl
  | some x =>
    cases b with
    | none => exact .inl rfl
    | some y =>
      rw [olderCandidate]
      split
      · exact .inr rfl
      · exact .inl rfl

/-- A candidate is a head of its tenant's queues. -/
theorem candidateOf_head {s : State} {x : TenantId} {c : Candidate} (h : candidateOf s x = some c) :
    headOf s c.tenant c.fromWq = some c.desc := by
  have head : ∀ fromWq, presented s x fromWq (if fromWq then (queuesAt s x).wq else (queuesAt s x).rq) = some c →
      headOf s c.tenant c.fromWq = some c.desc := fun fromWq hp => by
    obtain ⟨d, ⟨hd, -⟩, rfl⟩ := (presented_iff s x fromWq c).1 hp
    exact hd
  rw [candidateOf] at h
  rcases olderCandidate_cases (presented s x false (queuesAt s x).rq) (presented s x true (queuesAt s x).wq) with e | e
  · exact head false (e ▸ h)
  · exact head true (e ▸ h)

theorem oldest_mem {cs : List Candidate} {c : Candidate} (h : oldest cs = some c) : c ∈ cs := by
  have kept : ∀ best : Option Candidate, (∀ b, best = some b → b ∈ cs) →
      cs.foldl (fun best c => olderCandidate best (some c)) best = some c → c ∈ cs := fun best hbest hc => by
    have inv := foldl_preserves (fun best c => olderCandidate best (some c)) (fun b => ∀ x, b = some x → x ∈ cs) cs
      (fun b a ha hb => ?_) best hbest
    · exact inv c hc
    · rcases olderCandidate_cases b (some a) with e | e
      · rw [e]; exact hb
      · rw [e]; intro x hx; cases hx; exact ha
  exact kept none nofun h

theorem mem_candidates_head {s : State} {c : Candidate} (h : c ∈ candidates s) :
    headOf s c.tenant c.fromWq = some c.desc := by
  obtain ⟨x, -, hx⟩ := List.mem_filterMap.1 h
  exact candidateOf_head hx

theorem firstInTurn_head {s : State} {p : TenantId} {inClass : Candidate → Bool} {c : Candidate}
    (h : firstInTurn s p inClass = some c) : headOf s c.tenant c.fromWq = some c.desc := by
  obtain ⟨x, -, hx⟩ := List.exists_of_findSome?_eq_some h
  cases hc : candidateOf s x with
  | none => simp [hc] at hx
  | some c' =>
    simp only [hc, Option.ite_none_right_eq_some, Option.some.injEq] at hx
    obtain ⟨-, rfl⟩ := hx
    exact candidateOf_head hc

/-- What a grant chooses is a head (R80). -/
theorem chooseRelease_head {s : State} {c : Candidate} {k : ReleaseClass} (h : chooseRelease s = some (c, k)) :
    headOf s c.tenant c.fromWq = some c.desc := by
  have byAge : ∀ {k'}, (oldest (candidates s)).map (fun c => (c, k')) = some (c, k) →
      headOf s c.tenant c.fromWq = some c.desc := fun hc => by
    obtain ⟨c', hc', e⟩ := Option.map_eq_some_iff.1 hc
    cases e
    exact mem_candidates_head (oldest_mem hc')
  rw [chooseRelease] at h
  split at h
  · rw [chooseGovern] at h
    split at h
    · rename_i c' hc'
      cases h
      exact mem_candidates_head (List.mem_of_mem_filter (oldest_mem hc'))
    · split at h
      · rename_i c' hc'
        cases h
        exact firstInTurn_head hc'
      · obtain ⟨c', hc', e⟩ := Option.map_eq_some_iff.1 h
        cases e
        exact firstInTurn_head hc'
  · exact byAge h

/-- A queue with a head is that head with the queue popped. -/
theorem perm_popHead {s : State} {x : TenantId} {fromWq : Bool} {d : Descriptor} (h : headOf s x fromWq = some d) :
    (queuedOf (queuesAt s x)).Perm (d :: queuedOf (popHead fromWq (queuesAt s x))) := by
  cases fromWq with
  | false =>
    have hq : (queuesAt s x).rq = d :: (queuesAt s x).rq.tail := List.eq_cons_of_mem_head? h
    rw [queuedOf, hq]
    simp [popHead, queuedOf]
  | true =>
    have hq : (queuesAt s x).wq = d :: (queuesAt s x).wq.tail := List.eq_cons_of_mem_head? h
    rw [queuedOf, hq]
    simp [popHead, queuedOf]

/-- The entry that a release records (R93). -/
def entryFor (c : Candidate) : OutstandingEntry :=
  ⟨c.tenant, c.desc.requester, c.desc.tag, c.desc.kind, c.desc.stamp, 0, false⟩

theorem release_queues (c : Candidate) (k : ReleaseClass) (tag : Nat) (s : State) :
    (release c k tag s).admission.queues =
      s.admission.queues.set c.tenant (popHead c.fromWq (queuesAt s c.tenant)) := by
  simp only [release, countTenant_admission, beginSend_admission, recordRelease, changeQueues_admission,
    movePointer_admission, payRelease_admission]
  rfl

theorem release_entries (c : Candidate) (k : ReleaseClass) (tag : Nat) (s : State) :
    (release c k tag s).paths.entries = s.paths.entries.set (BitVec.ofNat 8 tag).toFin (some (entryFor c)) := by
  simp only [release, countTenant_paths, beginSend_paths, recordRelease, changeQueues_paths, movePointer_paths,
    payRelease_paths]
  rfl

theorem keepsBalance_takeGrant (s : State) : KeepsBalance s (takeGrant s) := by
  rcases takeGrant_cases s with e | ⟨tag, c, k, -, up, free, chosen, e⟩
  · rw [e]; exact keepsBalance_of_sameWork (.refl s)
  rw [e]
  have head := perm_popHead (chooseRelease_head chosen)
  refine ⟨fun law down => ?_, fun _ down => ?_, fun _ key => ?_⟩
  · rw [release_links] at down
    have empty := (law down).1 c.tenant
    rw [empty] at head
    exact absurd (List.nil_perm.1 head) nofun
  · rw [release_links, up] at down
    cases down
  · have queued := queuedUnder_set (release_queues c k tag s) key
    have entries := outstandingUnder_set (release_entries c k tag s) key
    have sent : answersSent key (release c k tag s) = answersSent key s := answersSent_congr (by simp) key
    have count := (head.map keyOf).count_eq key
    have owes : owedBy key (some (entryFor c)) = decide (keyOf c.desc = key) := Bool.true_and _
    rw [lowestFreeTag_spec free, owes] at entries
    rw [List.map_cons, List.count_cons] at count
    rw [balance, balance, answersOwed_eq, answersOwed_eq, sent]
    by_cases hk : keyOf c.desc = key
    · simp [hk, owedBy] at count entries
      omega
    · simp [hk, owedBy] at count entries
      omega

/-! ### Every command but an arrival -/

theorem keepsBalance_of_same_tables {s t : State} (switchDown : SwitchDownLaw s → SwitchDownLaw t)
    (poolDown : PoolDownLaw s → PoolDownLaw t) (queues : t.admission = s.admission) (entries : t.paths = s.paths)
    (upstream : t.wires = s.wires) : KeepsBalance s t where
  switchDown := switchDown
  poolDown := poolDown
  balance _ k := balance_of_sent (l := []) (by rw [upstream, List.append_nil])
    (fun x => by rw [queuesAt_congr queues]) (fun i => by rw [entries]) k

theorem stepRelation_keepsBalance : StepRelation KeepsBalance where
  sameWork := keepsBalance_of_sameWork
  trans := KeepsBalance.trans
  grant := keepsBalance_takeGrant
  expire := keepsBalance_expireEntry
  forward status data entry := keepsBalance_forwardResponse status data entry
  lost := keepsBalance_losePool
  switchUp _ := keepsBalance_of_same_tables (fun _ down => nomatch down) (fun law down => law down) rfl rfl rfl
  poolUp _ := keepsBalance_of_same_tables (fun law down => law down) (fun _ down => nomatch down) rfl rfl rfl
  discard := keepsBalance_discardAll
  discardWq := keepsBalance_discardWrites
  settle p s := keepsBalance_of_same_tables (fun law => by simpa [SwitchDownLaw, queuesAt] using law)
    (fun law => by simpa [PoolDownLaw] using law) (by simp) (by simp) (by simp)
  guards _ := keepsBalance_of_same_tables id id rfl rfl rfl
  flip _ := keepsBalance_of_same_tables id id rfl rfl rfl
  writePair p w s := keepsBalance_of_same_tables (fun law => by simpa [SwitchDownLaw, queuesAt] using law)
    (fun law => by simpa [PoolDownLaw] using law) (by simp) (by simp) (by simp)

/-! ### An arrival -/

theorem newDescriptor_key (x : TenantId) (q : RequesterId) (tag : Byte) (b : RequestBody) (s : State) :
    keyOf (newDescriptor x q tag b s) = ⟨bodyKind b, q, tag⟩ := rfl

theorem perm_enqueue (d : Descriptor) (u : TenantQueues) : (queuedOf (enqueue d u)).Perm (d :: queuedOf u) := by
  rw [enqueue]
  split
  · simp [queuedOf]
  · simpa [queuedOf] using List.perm_append_singleton d (u.rq ++ u.wq)

theorem admitArrival_queues (x : TenantId) (q : RequesterId) (tag : Byte) (b : RequestBody) (s : State) :
    (admitArrival x q tag b s).admission.queues =
      s.admission.queues.set x (enqueue (newDescriptor x q tag b s) (queuesAt s x)) := by
  simp only [admitArrival, countTenant_admission]
  split <;> rfl

theorem admitArrival_entries (x : TenantId) (q : RequesterId) (tag : Byte) (b : RequestBody) (s : State) :
    (admitArrival x q tag b s).paths.entries = s.paths.entries := by
  simp only [admitArrival, countTenant_paths]
  split <;> simp

/-- An arrival answered RETRY queues nothing (R27). -/
theorem queuedOf_retryArrival (x : TenantId) (q : RequesterId) (tag : Byte) (b : RequestBody) (s : State) (y : TenantId) :
    queuedOf (queuesAt (retryArrival x q tag b s) y) = queuedOf (queuesAt s y) := by
  have answered : queuesAt (countTenant x (fun c => { c with retry := c.retry + 1 }) (answerArrival q tag b .retry s)) y =
      queuesAt s y := queuesAt_congr (by simp) y
  rw [retryArrival, queuesAt_changeQueues, answered]
  split <;> rfl

/-- What an arrival does to the work: nothing while it is answered at once, one descriptor more where it is admitted. -/
theorem admission_balance (x : TenantId) (unmapped : Bool) (q : RequesterId) (tag : Byte) (b : RequestBody) {s : State}
    (up : s.links.switchUp = true) (k : RequestKey) :
    balance k (admission x unmapped q tag b s) =
      balance k s + if (⟨bodyKind b, q, tag⟩ : RequestKey) = k then 1 else 0 := by
  have answered : ∀ status t, t.wires = (answerArrival q tag b status s).wires →
      (∀ y, queuedOf (queuesAt t y) = queuedOf (queuesAt s y)) → t.paths.entries = s.paths.entries →
      balance k t = balance k s + if (⟨bodyKind b, q, tag⟩ : RequestKey) = k then 1 else 0 :=
    fun status t wires queues entries => by
      have upstream : t.wires.upstream = s.wires.upstream ++ [⟨bodyKind b, q, tag, status, []⟩] := by
        rw [wires, answerArrival_of_up up]
      rw [balance_of_sent upstream (fun y => by rw [queues]) (fun i => by rw [entries])]
      simp only [List.map_cons, List.map_nil, List.count_singleton, answerKey, beq_iff_eq]
  rcases admission_cases x unmapped q tag b s with ⟨-, e⟩ | ⟨-, -, -, e⟩ | ⟨-, -, -, -, e⟩
  · rw [e]
    refine answered .refused _ ?_ (fun y => by rw [queuesAt_congr (refuseArrival_admission ..)]) (by rw [refuseArrival_paths])
    rw [refuseArrival]
    split <;> simp
  · rw [e]
    exact answered .retry _ (by simp [retryArrival]) (fun y => queuedOf_retryArrival x q tag b s y)
      (by rw [retryArrival_paths])
  · rw [e]
    have queued := queuedUnder_set (admitArrival_queues x q tag b s) k
    have count := ((perm_enqueue (newDescriptor x q tag b s) (queuesAt s x)).map keyOf).count_eq k
    have sent : answersSent k (admitArrival x q tag b s) = answersSent k s := answersSent_congr (by simp) k
    have outstanding : outstandingUnder k (admitArrival x q tag b s) = outstandingUnder k s :=
      outstandingUnder_congr (fun i => by rw [admitArrival_entries]) k
    simp only [List.map_cons, List.count_cons, beq_iff_eq, newDescriptor_key] at count
    rw [balance, balance, answersOwed_eq, answersOwed_eq, sent, outstanding]
    omega

/-! ### The three events that silence -/

/-- A state in which nothing is queued and every entry is an orphan owes nothing. -/
theorem answersOwed_of_silent {s : State} (empty : ∀ x, queuedOf (queuesAt s x) = [])
    (orphans : ∀ i e, s.paths.entries.get i = some e → e.orphan = true) (k : RequestKey) : answersOwed k s = 0 := by
  have law : SwitchDownLaw { s with links.switchUp := false, paths.orderLists := Table.fill 64 [] } := fun _ =>
    ⟨empty, orphans, fun q => Table.get_fill ..⟩
  exact answersOwed_of_down law rfl k

theorem holdReset_empty (held : Held) (s : State) :
    (∀ x, queuedOf (queuesAt (holdReset held s) x) = []) ∧ ∀ i, (holdReset held s).paths.entries.get i = none := by
  refine ⟨fun x => ?_, fun i => Table.get_fill ..⟩
  have empty : queuesAt (holdReset held s) x = TenantQueues.empty := Table.get_fill ..
  rw [empty]; rfl

/-- The state in which a Switch Port link reset tests the drains (R2, R98). -/
def switchReset (s : State) : State :=
  orphanAll (emptyQueues { s with
    links.switchUp := false
    links.switchResets := min Config.max16 (s.links.switchResets + 1) })

theorem switchLinkReset_cases (s : State) : (s.links.switchUp = false ∧ switchLinkReset s = s) ∨
    (s.links.switchUp = true ∧ switchLinkReset s = testDrains (switchReset s)) := by
  rw [switchLinkReset]
  cases s.links.switchUp <;> simp [switchReset]

theorem switchReset_silent (s : State) : SwitchDownLaw (switchReset s) := by
  rw [switchReset, orphanAll_emptyQueues]
  refine fun _ => ⟨fun x => ?_, fun i e he => ?_, fun q => Table.get_fill ..⟩
  · rw [queuesAt, Table.get_map]; rfl
  · rw [Table.get_map] at he
    obtain ⟨e', -, rfl⟩ := Option.map_eq_some_iff.1 he
    rfl

theorem switchReset_poolDown {s : State} (law : PoolDownLaw s) : PoolDownLaw (switchReset s) := by
  rw [switchReset, orphanAll_emptyQueues]
  intro down
  obtain ⟨none, free⟩ := law down
  exact ⟨fun i => by rw [Table.get_map, none]; rfl, free⟩

theorem takeArrival_switchDown (q : RequesterId) (tag : Byte) (b : RequestBody) {s : State} (law : SwitchDownLaw s) :
    SwitchDownLaw (takeArrival q tag b s) := by
  intro down
  rw [takeArrival_links] at down
  have same : takeArrival q tag b s = s := by rw [takeArrival, if_neg (by simp [down])]
  rw [same]
  exact law down

theorem takeArrival_poolDown (q : RequesterId) (tag : Byte) (b : RequestBody) {s : State} (law : PoolDownLaw s) :
    PoolDownLaw (takeArrival q tag b s) := by
  have entries : (takeArrival q tag b s).paths.entries = s.paths.entries := by
    rw [takeArrival]
    split
    · rcases admission_cases (classify s.classifier q b).1 (classify s.classifier q b).2 q tag b s with
        ⟨-, e⟩ | ⟨-, -, -, e⟩ | ⟨-, -, -, -, e⟩
      · rw [e, refuseArrival_paths]
      · rw [e, retryArrival_paths]
      · rw [e, admitArrival_entries]
    · rfl
  intro down
  rw [takeArrival_links] at down
  rw [entries, takeArrival_arbiter]
  exact law down

/-! ### The obligations -/

/-- Over a command the laws of a DOWN link are kept. -/
theorem exec_keeps_linkLaws {c : Instr} {s t : State} (h : exec c s = .next t) (switchDown : SwitchDownLaw s)
    (poolDown : PoolDownLaw s) : SwitchDownLaw t ∧ PoolDownLaw t := by
  by_cases hc : silences c = false ∧ ∀ q tag b, c ≠ .arrival q tag b
  · have kept := stepRelation_keepsBalance.exec hc.1 hc.2 h
    exact ⟨kept.switchDown switchDown, kept.poolDown poolDown⟩
  have reset : ∀ held, SwitchDownLaw (holdReset held s) ∧ PoolDownLaw (holdReset held s) := fun held => by
    obtain ⟨empty, none⟩ := holdReset_empty held s
    exact ⟨fun _ => ⟨empty, fun i e he => absurd ((none i).symm.trans he) nofun, fun q => Table.get_fill ..⟩,
      fun _ => ⟨none, rfl⟩⟩
  cases c with
  | arrival q tag b =>
    rw [exec_arrival] at h
    split at h
    · rcases whileRunning_cases h with ⟨-, rfl⟩ | ⟨-, rfl⟩
      · exact ⟨takeArrival_switchDown q tag b switchDown, takeArrival_poolDown q tag b poolDown⟩
      · exact ⟨switchDown, poolDown⟩
    · cases h
  | switchPortLinkReset =>
    rcases whileRunning_cases h with ⟨-, rfl⟩ | ⟨-, rfl⟩
    · rcases switchLinkReset_cases s with ⟨-, e⟩ | ⟨-, e⟩
      · rw [e]; exact ⟨switchDown, poolDown⟩
      · rw [e]
        have kept := stepRelation_keepsBalance.testDrains (switchReset s)
        exact ⟨kept.switchDown (switchReset_silent s), kept.poolDown (switchReset_poolDown poolDown)⟩
    · exact ⟨switchDown, poolDown⟩
  | powerOnReset =>
    obtain rfl := Host.Outcome.next.inj h
    exact reset .powerOn
  | pinReset =>
    obtain rfl := Host.Outcome.next.inj h
    rw [pinReset]
    split
    · exact ⟨switchDown, poolDown⟩
    · exact reset .pin
  | _ => exact absurd ⟨rfl, nofun⟩ hc

/-- Settles O12: every command keeps the three laws, and so does the passing of time. -/
theorem stepKeepsPairAndLinkLaws : Obligations.StepKeepsPairAndLinkLaws := by
  unfold Obligations.StepKeepsPairAndLinkLaws
  intro s t h
  rw [step] at h
  split at h
  · obtain rfl := Host.Outcome.next.inj h
    have kept := stepRelation_keepsBalance.tick s
    exact ⟨stepRelation_pairLaw.tick s, fun h1 h2 => ⟨kept.switchDown h1, kept.poolDown h2⟩⟩
  · exact ⟨fun law => exec_keeps_pairLaw h (pairLaw_congr rfl law), fun h1 h2 => exec_keeps_linkLaws h h1 h2⟩

/-- An arrival is owed one answer more, while running and with the Switch Port link UP (R1, R5, R8). -/
theorem balance_arrival {q : RequesterId} {tag : Byte} {b : RequestBody} {s t : State} (k : RequestKey)
    (h : exec (.arrival q tag b) s = .next t) : balance k t = balance k s +
      if s.control.held = .no ∧ s.links.switchUp then requestsBrought k (.arrival q tag b) else 0 := by
  rw [exec_arrival] at h
  split at h
  · rcases whileRunning_cases h with ⟨running, rfl⟩ | ⟨held, rfl⟩
    · cases up : s.links.switchUp with
      | true =>
        rw [takeArrival, if_pos up, admission_balance _ _ _ _ _ up]
        simp [running, requestsBrought]
      | false => simp [takeArrival, up]
    · simp [held]
  · cases h

/-- A Switch Port link reset sends nothing, and leaves nothing owed. -/
theorem switchLinkReset_silences {s : State} (law : SwitchDownLaw s) (k : RequestKey) :
    answersSent k (switchLinkReset s) = answersSent k s ∧ answersOwed k (switchLinkReset s) = 0 := by
  rcases switchLinkReset_cases s with ⟨down, e⟩ | ⟨-, e⟩
  · rw [e]
    exact ⟨rfl, answersOwed_of_down law down k⟩
  · have silent := switchReset_silent s
    have kept := stepRelation_keepsBalance.testDrains (switchReset s)
    have down : (switchReset s).links.switchUp = false := rfl
    have owedBefore := answersOwed_of_down silent down k
    have owedAfter := answersOwed_of_down (kept.switchDown silent) (by rw [testDrains_links]; exact down) k
    have sent := kept.balance silent k
    rw [balance, balance, owedBefore, owedAfter, Nat.add_zero, Nat.add_zero] at sent
    have unsent : answersSent k (switchReset s) = answersSent k s := answersSent_congr rfl k
    rw [e]
    exact ⟨sent.trans unsent, owedAfter⟩

/-- Settles O14: the balance of each key over every command that does not silence it. -/
theorem everyRequestIsAnsweredOnce : Obligations.EveryRequestIsAnsweredOnce := by
  unfold Obligations.EveryRequestIsAnsweredOnce
  intro c s t k law h
  cases hc : silences c with
  | false =>
    refine ⟨fun _ => ?_, nofun, nofun⟩
    by_cases noArrival : ∀ q tag b, c ≠ .arrival q tag b
    · have brought : requestsBrought k c = 0 := by
        cases c with
        | arrival q tag b => exact absurd rfl (noArrival q tag b)
        | _ => rfl
      rw [brought, ite_self]
      exact (stepRelation_keepsBalance.exec hc noArrival h).balance law k
    · push Not at noArrival
      obtain ⟨q, tag, b, rfl⟩ := noArrival
      exact balance_arrival k h
  | true =>
    have reset : ∀ held, answersOwed k (holdReset held s) = 0 := fun held =>
      answersOwed_of_silent (holdReset_empty held s).1
        (fun i e he => absurd (((holdReset_empty held s).2 i).symm.trans he) nofun) k
    refine ⟨nofun, fun _ => ?_, fun _ running => ?_⟩
    · cases c with
      | switchPortLinkReset =>
        rcases whileRunning_cases h with ⟨-, rfl⟩ | ⟨-, rfl⟩
        · exact (switchLinkReset_silences law k).1
        · rfl
      | powerOnReset =>
        obtain rfl := Host.Outcome.next.inj h
        rfl
      | pinReset =>
        obtain rfl := Host.Outcome.next.inj h
        rw [pinReset]
        split <;> rfl
      | _ => cases hc
    · cases c with
      | switchPortLinkReset =>
        rw [exec_switchPortLinkReset, whileRunning_of_running running] at h
        obtain rfl := Host.Outcome.next.inj h
        exact (switchLinkReset_silences law k).2
      | powerOnReset =>
        obtain rfl := Host.Outcome.next.inj h
        exact reset .powerOn
      | pinReset =>
        obtain rfl := Host.Outcome.next.inj h
        rw [pinReset, if_neg (by simp [show s.control.held = .no from running])]
        exact reset .pin
      | _ => cases hc

end Sys2Proof.Machine
end

