-- ==== Sys2Proof/Proofs/Drains.lean ====
section
/-! PROOFS. What an event does tenant by tenant: a fold over the tenants whose every step concerns one tenant alone, what it refuses, and the drains and settlings that freed entries bring about (R6, R33, R124, R125, R138). -/

namespace Sys2Proof.Machine

/-! ### Folds whose steps are independent -/

section Folds

variable {σ ι β : Type} {f : σ → ι → σ}

/-- Steps that each change their own place, by what the places were before, change each place once. -/
theorem foldl_pointwise [DecidableEq ι] {place result : σ → ι → β} (own : ∀ s x, place (f s x) x = result s x)
    (others : ∀ s x y, x ≠ y → place (f s x) y = place s y)
    (stable : ∀ s x y, x ≠ y → result (f s x) y = result s y) {l : List ι} (nodup : l.Nodup) (s : σ) (y : ι) :
    place (l.foldl f s) y = if y ∈ l then result s y else place s y := by
  induction l generalizing s with
  | nil => simp
  | cons x l ih =>
    obtain ⟨hx, hl⟩ := List.nodup_cons.1 nodup
    rw [List.foldl_cons, ih hl]
    by_cases hy : y = x
    · subst hy; simp [hx, own]
    · have hxy := Ne.symm hy
      simp [hy, others s x y hxy, stable s x y hxy]

theorem any_congr_of_mem {α : Type} {l : List α} {p q : α → Bool} (h : ∀ a ∈ l, p a = q a) : l.any p = l.any q := by
  rw [Bool.eq_iff_iff, List.any_eq_true, List.any_eq_true]
  exact exists_congr fun a => and_congr_right fun ha => by rw [h a ha]

/-- A mark that each step may set, by what its place was before, is set in the end if it was or if any step sets it. -/
theorem foldl_or {p : σ → Bool} {sets : σ → ι → Bool} (own : ∀ s x, p (f s x) = (p s || sets s x))
    (stable : ∀ s x y, x ≠ y → sets (f s x) y = sets s y) {l : List ι} (nodup : l.Nodup) (s : σ) :
    p (l.foldl f s) = (p s || l.any (sets s)) := by
  induction l generalizing s with
  | nil => simp
  | cons x l ih =>
    obtain ⟨hx, hl⟩ := List.nodup_cons.1 nodup
    have later : l.any (sets (f s x)) = l.any (sets s) := by
      refine any_congr_of_mem fun y hy => stable s x y ?_
      rintro rfl
      exact hx hy
    rw [List.foldl_cons, ih hl, own, later, List.any_cons, Bool.or_assoc]

end Folds

/-- Two states with the same blocks are one. -/
theorem state_ext {s t : State} (pending : t.pending = s.pending) (links : t.links = s.links)
    (classifier : t.classifier = s.classifier) (admission : t.admission = s.admission) (timer : t.timer = s.timer)
    (solver : t.solver = s.solver) (credit : t.credit = s.credit) (arbiter : t.arbiter = s.arbiter)
    (paths : t.paths = s.paths) (records : t.records = s.records) (pairHalt : t.pairHalt = s.pairHalt)
    (control : t.control = s.control) (observe : t.observe = s.observe) (port : t.port = s.port)
    (wires : t.wires = s.wires) : t = s := by
  cases s
  cases t
  simp_all

/-! ### Refusals tenant by tenant -/

/-- Tenant by tenant, the descriptors `l x` of each tenant `x` of a list have been refused in that order: their responses leave, their blocks are freed, their WRITEs' stamps leave the lists, and the REFUSED counters advance (R33). Of the rest of those blocks only the alert flags may differ. -/
structure Refusals (xs : List TenantId) (l : TenantId → List Descriptor) (s u : State) : Prop where
  wires : u.wires = { s.wires with upstream := s.wires.upstream ++
    if s.links.switchUp then xs.flatMap fun x => (l x).map refusal else [] }
  store : u.admission.store = s.admission.store.filter fun c =>
    !xs.any fun x => (l x).any fun d => d.blocks.contains c.1
  lists : ∀ q, u.paths.orderLists.get q = (s.paths.orderLists.get q).filter fun y =>
    !xs.any fun x => holdsWrite (l x) q y
  counters : ∀ x, u.observe.counters.get x = { s.observe.counters.get x with
    refused := (s.observe.counters.get x).refused + BitVec.ofNat 32 (if x ∈ xs then (l x).length else 0) }
  links : u.links = s.links
  admission : u.admission = { s.admission with queues := u.admission.queues, store := u.admission.store }
  paths : u.paths = { s.paths with orderLists := u.paths.orderLists }
  observe : u.observe = { s.observe with counters := u.observe.counters, flags := u.observe.flags }

/-- Nothing refused. -/
theorem Refusals.none {xs : List TenantId} {l : TenantId → List Descriptor} (empty : ∀ x ∈ xs, l x = []) {s u : State}
    (wires : u.wires = s.wires) (links : u.links = s.links)
    (admission : u.admission = { s.admission with queues := u.admission.queues }) (paths : u.paths = s.paths)
    (observe : u.observe = { s.observe with flags := u.observe.flags }) : Refusals xs l s u where
  wires := by
    have sent : (xs.flatMap fun x => (l x).map refusal) = [] := by
      rw [List.flatMap_eq_nil_iff]; intro x hx; rw [empty x hx]; rfl
    rw [wires, sent, ite_self, List.append_nil]
  store := by
    have kept : ∀ c : Nat × List Byte, (xs.any fun x => (l x).any fun d => d.blocks.contains c.1) = false := fun c => by
      rw [List.any_eq_false]; intro x hx; simp [empty x hx]
    rw [admission]; simp only [kept, Bool.not_false, List.filter_true]
  lists q := by
    have kept : ∀ y, (xs.any fun x => holdsWrite (l x) q y) = false := fun y => by
      rw [List.any_eq_false]; intro x hx; simp [empty x hx, holdsWrite]
    rw [paths]; simp only [kept, Bool.not_false, List.filter_true]
  counters x := by
    have zero : (if x ∈ xs then (l x).length else 0) = 0 := by
      split
      · rename_i hx; rw [empty x hx]; rfl
      · rfl
    rw [observe, zero]; simp
  links := links
  admission := by rw [admission]
  paths := by rw [paths]
  observe := by rw [observe]

/-- A tenant's descriptors refused, with no more than its queues, the records, the Pair Table and the alert flags changed beside. -/
theorem Refused.refusals {x : TenantId} {l : TenantId → List Descriptor} {s u : State} (refused : Refused x (l x) s u)
    (links : u.links = s.links) : Refusals [x] l s u where
  wires := by simp [refused.1]
  store := by simp [refused.2.1]
  lists q := by
    obtain ⟨-, -, -, -, -, -, -, lists, -⟩ := refused
    simp [lists]
  counters y := by
    obtain ⟨-, -, -, -, -, -, -, -, observe⟩ := refused
    rw [observe]
    by_cases hy : x = y
    · simp [hy]
    · simp [hy, Ne.symm hy]
  links := links
  admission := by
    obtain ⟨-, -, factor, stamp, -⟩ := refused
    cases h : u.admission
    simp only [h] at factor stamp
    rw [factor, stamp]
  paths := by
    obtain ⟨-, -, -, -, entries, cto, inForce, -⟩ := refused
    cases h : u.paths
    simp only [h] at entries cto inForce
    rw [entries, cto, inForce]
  observe := by
    obtain ⟨-, -, -, -, -, -, -, -, observe⟩ := refused
    rw [observe]

/-- A state that differs in records and alert flags alone has the same refusals behind it. -/
theorem Refusals.congr {xs : List TenantId} {l : TenantId → List Descriptor} {s u v : State} (h : Refusals xs l s u)
    (wires : v.wires = u.wires) (links : v.links = u.links) (admission : v.admission = u.admission)
    (paths : v.paths = u.paths) (observe : v.observe = { u.observe with flags := v.observe.flags }) :
    Refusals xs l s v where
  wires := wires.trans h.wires
  store := by rw [admission]; exact h.store
  lists := by rw [paths]; exact h.lists
  counters := by rw [observe]; exact h.counters
  links := links.trans h.links
  admission := by rw [admission]; exact h.admission
  paths := by rw [paths]; exact h.paths
  observe := by rw [observe, h.observe]

theorem Refusals.cons {x : TenantId} {xs : List TenantId} {l l' : TenantId → List Descriptor} {s u v : State}
    (h : Refusals [x] l s u) (same : ∀ y ∈ xs, l' y = l y) (fresh : x ∉ xs) (h' : Refusals xs l' u v) :
    Refusals (x :: xs) l s v where
  wires := by
    have sent : (xs.flatMap fun y => (l' y).map refusal) = xs.flatMap fun y => (l y).map refusal :=
      List.flatMap_congr fun y hy => by rw [same y hy]
    rw [h'.wires, h.wires, h.links, sent]
    cases s.links.switchUp <;> simp
  store := by
    rw [h'.store, h.store, List.filter_filter]
    refine List.filter_congr fun c _ => ?_
    have later : (xs.any fun y => (l' y).any fun d => d.blocks.contains c.1) =
        xs.any fun y => (l y).any fun d => d.blocks.contains c.1 :=
      any_congr_of_mem fun y hy => by rw [same y hy]
    rw [later]
    simp [Bool.and_comm]
  lists q := by
    rw [h'.lists, h.lists, List.filter_filter]
    refine List.filter_congr fun c _ => ?_
    have later : (xs.any fun y => holdsWrite (l' y) q c) = xs.any fun y => holdsWrite (l y) q c :=
      any_congr_of_mem fun y hy => by rw [same y hy]
    rw [later]
    simp [Bool.and_comm]
  counters y := by
    rw [h'.counters, h.counters]
    by_cases hy : y = x
    · subst hy; simp [fresh]
    · by_cases hm : y ∈ xs
      · simp [hy, hm, same y hm]
      · simp [hy, hm]
  links := h'.links.trans h.links
  admission := by rw [h'.admission, h.admission]
  paths := by rw [h'.paths, h.paths]
  observe := by rw [h'.observe, h.observe]

/-- An operation made tenant by tenant that refuses of each tenant a list which no other tenant's step changes. -/
theorem refusals_foldl {f : State → TenantId → State} {l : State → TenantId → List Descriptor}
    (own : ∀ s x, Refusals [x] (l s) s (f s x)) (stable : ∀ s x y, x ≠ y → l (f s x) y = l s y)
    {xs : List TenantId} (nodup : xs.Nodup) (s : State) : Refusals xs (l s) s (xs.foldl f s) := by
  induction xs generalizing s with
  | nil => exact .none (by simp) rfl rfl rfl rfl rfl
  | cons x xs ih =>
    obtain ⟨fresh, nodup⟩ := List.nodup_cons.1 nodup
    refine (own s x).cons (fun y hy => stable s x y ?_) fresh (ih nodup (f s x))
    rintro rfl
    exact fresh hy

/-! ### The end of a drain -/

/-- An operation on one tenant leaves every other tenant's record and queues, and the Outstanding Table. -/
structure Local (x : TenantId) (s u : State) : Prop where
  records : ∀ y, x ≠ y → recordAt u y = recordAt s y
  queues : ∀ y, x ≠ y → queuesAt u y = queuesAt s y
  entries : u.paths.entries = s.paths.entries

theorem Local.refl (x : TenantId) (s : State) : Local x s s := ⟨fun _ _ => rfl, fun _ _ => rfl, rfl⟩

theorem Local.trans {x : TenantId} {s u v : State} (h : Local x s u) (h' : Local x u v) : Local x s v where
  records y hy := (h'.records y hy).trans (h.records y hy)
  queues y hy := (h'.queues y hy).trans (h.queues y hy)
  entries := h'.entries.trans h.entries

theorem local_changeRecord (x : TenantId) (f : TenantRecord → TenantRecord) (s : State) :
    Local x s (changeRecord x f s) :=
  ⟨fun y hy => by rw [recordAt_changeRecord, if_neg hy], fun _ _ => rfl, rfl⟩

theorem discardAll_queuesAt (x y : TenantId) (s : State) : queuesAt (discardAll x s) y =
    if x = y then { queuesAt s x with rq := [], wq := [] } else queuesAt s y := by
  obtain ⟨-, queues, -⟩ := queueRefused_discardAll x s
  rw [queuesAt, queues, Table.get_set]
  rfl

theorem local_discardAll (x : TenantId) (s : State) : Local x s (discardAll x s) where
  records y _ := recordAt_congr (discardAll_records x s) y
  queues y hy := by rw [discardAll_queuesAt, if_neg hy]
  entries := by
    obtain ⟨⟨l, -, -, -, -, -, entries, -⟩, -⟩ := queueRefused_discardAll x s
    exact entries

theorem refusals_discardAll (x : TenantId) {l : TenantId → List Descriptor} {s : State}
    (h : l x = byStamp (queuedOf (queuesAt s x))) : Refusals [x] l s (discardAll x s) := by
  refine Refused.refusals ?_ (discardAll_links x s)
  rw [h]
  exact refused_foldl x (byStamp (queuedOf (queuesAt s x))) (changeQueues x (fun q => { q with rq := [], wq := [] }) s)

/-- The test of a drain reads its tenant's part and the Outstanding Table alone. -/
theorem drainDone_congr {s u : State} {x : TenantId} (records : recordAt u x = recordAt s x)
    (queues : queuesAt u x = queuesAt s x) (entries : u.paths.entries = s.paths.entries) :
    drainDone u x = drainDone s x := by
  rw [drainDone, drainDone, records, queues, outstandingCount, outstandingCount, entries]

theorem Local.drainDone {x y : TenantId} {s u : State} (h : Local x s u) (hy : x ≠ y) :
    Machine.drainDone u y = Machine.drainDone s y :=
  drainDone_congr (h.records y hy) (h.queues y hy) h.entries

/-- A tenant's record once its drain has ended in its target (R125). -/
def endedRecord (r : TenantRecord) : TenantRecord :=
  match r.target with
  | .off => { r with state := .off, target := .none, fenceDue := false }
  | .quiesced => { r with state := .quiesced, target := .none, fenceDue := false }
  | .none => r

/-- What completing a drain changes: its tenant's record, and in OFF its queues, which are refused (R125). -/
theorem completeDrain_spec (x : TenantId) (s : State) :
    Local x s (completeDrain x s) ∧ recordAt (completeDrain x s) x = endedRecord (recordAt s x) ∧
      queuesAt (completeDrain x s) x =
        (if (recordAt s x).target = .off then { queuesAt s x with rq := [], wq := [] } else queuesAt s x) ∧
      (completeDrain x s).observe.flags = s.observe.flags ∧
      ∀ l : TenantId → List Descriptor,
        l x = (if (recordAt s x).target = .off then byStamp (queuedOf (queuesAt s x)) else []) →
        Refusals [x] l s (completeDrain x s) := by
  have none : ∀ {l : TenantId → List Descriptor} {u : State}, l x = [] → u.wires = s.wires → u.links = s.links →
      u.admission = s.admission → u.paths = s.paths → u.observe = s.observe → Refusals [x] l s u :=
    fun hl wires links admission paths observe =>
      .none (by simpa using hl) wires links (by rw [admission]) paths (by rw [observe])
  cases target : (recordAt s x).target with
  | off =>
    have ended : completeDrain x s =
        changeRecord x (fun r => { r with state := .off, target := .none, fenceDue := false }) (discardAll x s) := by
      simp only [completeDrain, target]
    rw [ended]
    refine ⟨(local_discardAll x s).trans (local_changeRecord ..), ?_, ?_, ?_, fun l hl => ?_⟩
    · rw [recordAt_changeRecord, if_pos rfl, recordAt_congr (discardAll_records x s)]
      simp only [endedRecord, target]
    · rw [if_pos rfl, queuesAt_congr (changeRecord_admission ..), discardAll_queuesAt, if_pos rfl]
    · obtain ⟨⟨l, -, -, -, -, -, -, -, -, -, observe⟩, -⟩ := queueRefused_discardAll x s
      rw [changeRecord_observe, observe]
    · exact (refusals_discardAll x hl).congr (by simp) (by simp) (by simp) (by simp) (by simp)
  | quiesced =>
    have ended : completeDrain x s =
        changeRecord x (fun r => { r with state := .quiesced, target := .none, fenceDue := false }) s := by
      simp only [completeDrain, target]
    rw [ended]
    refine ⟨local_changeRecord .., ?_, rfl, rfl, fun l hl => none hl rfl rfl rfl rfl rfl⟩
    rw [recordAt_changeRecord, if_pos rfl]
    simp only [endedRecord, target]
  | none =>
    have ended : completeDrain x s = s := by simp only [completeDrain, target]
    rw [ended]
    refine ⟨.refl x s, ?_, rfl, rfl, fun l hl => none hl rfl rfl rfl rfl rfl⟩
    simp only [endedRecord, target]

/-! ### The test of every drain -/

/-- A drain that its test ends in OFF, so that the queue is refused (R125). -/
def stopsNow (s : State) (x : TenantId) : Bool := drainDone s x && (recordAt s x).target == .off

theorem stopsNow_iff (s : State) (x : TenantId) :
    stopsNow s x = true ↔ DrainFinished s x ∧ (recordAt s x).target = .off := by
  simp [stopsNow, drainDone_iff]

/-- What the test of a drain refuses: its tenant's whole queue in stamp order where the drain ends in OFF (R33, R125). -/
def refusedByTest (s : State) (x : TenantId) : List Descriptor :=
  if stopsNow s x then byStamp (queuedOf (queuesAt s x)) else []

theorem testDrain_spec (x : TenantId) (s : State) :
    Local x s (testDrain x s) ∧
      recordAt (testDrain x s) x = (if drainDone s x then endedRecord (recordAt s x) else recordAt s x) ∧
      queuesAt (testDrain x s) x =
        (if stopsNow s x then { queuesAt s x with rq := [], wq := [] } else queuesAt s x) ∧
      (testDrain x s).observe.flags = s.observe.flags ∧ Refusals [x] (refusedByTest s) s (testDrain x s) := by
  rw [testDrain, stopsNow]
  cases done : drainDone s x with
  | true =>
    obtain ⟨near, record, queues, flags, refused⟩ := completeDrain_spec x s
    refine ⟨near, record, ?_, flags, refused _ ?_⟩
    · simpa using queues
    · simp [refusedByTest, stopsNow, done]
  | false =>
    refine ⟨.refl x s, rfl, rfl, rfl, .none (fun y hy => ?_) rfl rfl rfl rfl rfl⟩
    obtain rfl := List.mem_singleton.1 hy
    simp [refusedByTest, stopsNow, done]

theorem Local.stopsNow {x y : TenantId} {s u : State} (h : Local x s u) (hy : x ≠ y) :
    Machine.stopsNow u y = Machine.stopsNow s y := by
  rw [Machine.stopsNow, Machine.stopsNow, h.drainDone hy, h.records y hy]

/-- Every drain tested, tenant by tenant: each test finds what it would have found at first (R6, R124). -/
theorem testDrains_spec (s : State) :
    (∀ x, recordAt (testDrains s) x = if drainDone s x then endedRecord (recordAt s x) else recordAt s x) ∧
      (∀ x, queuesAt (testDrains s) x =
        if stopsNow s x then { queuesAt s x with rq := [], wq := [] } else queuesAt s x) ∧
      (testDrains s).observe.flags = s.observe.flags ∧
      Refusals (List.finRange 24) (refusedByTest s) s (testDrains s) := by
  have nodup := List.nodup_finRange 24
  have near := fun s x => (testDrain_spec x s).1
  refine ⟨fun x => ?_, fun x => ?_, ?_, ?_⟩
  · rw [testDrains, foldl_pointwise (place := recordAt) (fun s x => (testDrain_spec x s).2.1)
      (fun s x y hy => (near s x).records y hy)
      (fun s x y hy => by rw [(near s x).drainDone hy, (near s x).records y hy]) nodup, if_pos (List.mem_finRange x)]
  · rw [testDrains, foldl_pointwise (place := queuesAt) (fun s x => (testDrain_spec x s).2.2.1)
      (fun s x y hy => (near s x).queues y hy)
      (fun s x y hy => by rw [(near s x).stopsNow hy, (near s x).queues y hy]) nodup, if_pos (List.mem_finRange x)]
  · exact foldl_keeps _ (fun u => u.observe.flags) (fun s x => (testDrain_spec x s).2.2.2.1) _ s
  · refine refusals_foldl (fun s x => (testDrain_spec x s).2.2.2.2) (fun s x y hy => ?_) nodup s
    rw [refusedByTest, refusedByTest, (near s x).stopsNow hy, (near s x).queues y hy]

/-! ### The settlings -/

/-- Every pair tested: each settles where its test passes (R138). -/
theorem testSettles_spec (s : State) :
    (∀ p, (testSettles s).pairHalt.pairs.get p = if settlePasses s p then
      { s.pairHalt.pairs.get p with inGuard := false } else s.pairHalt.pairs.get p) ∧
      (testSettles s).pairHalt = { s.pairHalt with pairs := (testSettles s).pairHalt.pairs } := by
  have own : ∀ s p, (testSettle p s).pairHalt.pairs.get p = if settlePasses s p then
      { s.pairHalt.pairs.get p with inGuard := false } else s.pairHalt.pairs.get p := fun s p => by
    rcases testSettle_cases p s with ⟨passes, e⟩ | ⟨fails, e⟩
    · rw [e, passes, if_pos rfl]; exact Table.get_set_self ..
    · rw [e, fails]; rfl
  constructor
  · intro p
    rw [testSettles, foldl_pointwise (place := fun s p => s.pairHalt.pairs.get p) own
      (fun s p q hq => (testSettle_other hq s).1)
      (fun s p q hq => by rw [(testSettle_other hq s).1, (testSettle_other hq s).2]) (List.nodup_finRange 8),
      if_pos (List.mem_finRange p)]
  · have rest : ∀ s p, ((testSettle p s).pairHalt.haltReq, (testSettle p s).pairHalt.haltCondition) =
        (s.pairHalt.haltReq, s.pairHalt.haltCondition) := fun s p => by
      rcases testSettle_cases p s with ⟨-, e⟩ | ⟨-, e⟩ <;> rw [e]
    have kept := foldl_keeps _ (fun u : State => (u.pairHalt.haltReq, u.pairHalt.haltCondition)) rest (List.finRange 8) s
    obtain ⟨req, condition⟩ := Prod.mk.inj kept
    rw [← testSettles] at req condition
    cases h : (testSettles s).pairHalt
    simp only [h] at req condition
    rw [req, condition]

/-- The old active member, which a settling waits for (R134). -/
theorem inactiveTenant_eq (e : PairEntry) :
    inactiveTenant e = if e.active = .primary then e.secondary else e.primary := by
  cases h : e.active <;> simp [inactiveTenant, h]

theorem settle_iff (s : State) (p : PairId) (e : PairEntry) (h : s.pairHalt.pairs.get p = e) :
    settlePasses s p = true ↔ e.valid = true ∧ e.inGuard = true ∧ e.counter = 0 ∧
      outstandingWrites s (if e.active = .primary then e.secondary else e.primary) = 0 := by
  rw [settlePasses_iff, h, inactiveTenant_eq]

/-- Under R115 a finished drain has a target, in which it ends. -/
theorem endedRecord_of_target {s : State} (law : TargetLaw s) {x : TenantId} (finished : DrainFinished s x) :
    endedRecord (recordAt s x) = { recordAt s x with
      state := if (recordAt s x).target = .off then .off else .quiesced, target := .none, fenceDue := false } := by
  have target : (recordAt s x).target ≠ .none := fun h => (law x).1 h finished.1
  rw [endedRecord]
  split
  · rename_i h; rw [if_pos h]
  · rename_i h; rw [if_neg (by rw [h]; nofun)]
  · rename_i h; exact absurd h target

/-- What the drains and settlings of an event leave alone. -/
theorem testSettles_testDrains_frame (s : State) : testSettles (testDrains s) = { s with
    admission := { s.admission with
      queues := (testSettles (testDrains s)).admission.queues, store := (testSettles (testDrains s)).admission.store }
    paths := { s.paths with orderLists := (testSettles (testDrains s)).paths.orderLists }
    records := (testSettles (testDrains s)).records
    pairHalt := { s.pairHalt with pairs := (testSettles (testDrains s)).pairHalt.pairs }
    observe := { s.observe with counters := (testSettles (testDrains s)).observe.counters }
    wires := (testSettles (testDrains s)).wires } := by
  obtain ⟨-, -, flags, refused⟩ := testDrains_spec s
  have pairHalt := (testSettles_spec (testDrains s)).2
  rw [testDrains_pairHalt] at pairHalt
  have observe := refused.observe
  rw [flags] at observe
  apply state_ext
  case admission => rw [testSettles_admission]; exact refused.admission
  case paths => rw [testSettles_paths]; exact refused.paths
  case observe => rw [testSettles_observe]; exact observe
  case pairHalt => exact pairHalt
  all_goals simp

/-- Settles O27: every drain and every pair is tested on its own. -/
theorem freeingEndsDrainsAndSettlesPairs : Obligations.FreeingEndsDrainsAndSettlesPairs := by
  unfold Obligations.FreeingEndsDrainsAndSettlesPairs
  intro s law t stops
  obtain ⟨records, queues, -, refused⟩ := testDrains_spec s
  obtain ⟨pairs, -⟩ := testSettles_spec (testDrains s)
  have recordAt_t : ∀ x, recordAt t x = recordAt (testDrains s) x := recordAt_congr (testSettles_records _)
  have queuesAt_t : ∀ x, queuesAt t x = queuesAt (testDrains s) x := queuesAt_congr (testSettles_admission _)
  have wires_t : t.wires = (testDrains s).wires := testSettles_wires _
  have admission_t : t.admission = (testDrains s).admission := testSettles_admission _
  have paths_t : t.paths = (testDrains s).paths := testSettles_paths _
  have observe_t : t.observe = (testDrains s).observe := testSettles_observe _
  have stops_iff : ∀ x, stopsNow s x = true ↔ stops x := stopsNow_iff s
  refine ⟨fun x finished => ?_, fun x unfinished => ?_, fun x hx => ?_, fun x hx => ?_, ?_, fun p => ?_, ?_⟩
  · rw [recordAt_t, records, if_pos ((drainDone_iff s x).2 finished), endedRecord_of_target law finished]
  · rw [recordAt_t, records, if_neg (mt (drainDone_iff s x).1 unfinished)]
  · rw [queuesAt_t, queues, if_pos ((stops_iff x).2 hx)]
  · rw [queuesAt_t, queues, if_neg (mt (stops_iff x).1 hx)]
  · refine ⟨refusedByTest s, fun x hx => ?_, fun x hx => ?_, ?_, ?_, fun q => ?_, fun x => ?_⟩
    · rw [refusedByTest, if_pos ((stops_iff x).2 hx)]
      exact byStamp_inStampOrder _
    · rw [refusedByTest, if_neg (mt (stops_iff x).1 hx)]
    · rw [wires_t, refused.wires]
    · rw [admission_t, refused.store]
    · rw [paths_t, refused.lists]
    · rw [observe_t, refused.counters, if_pos (List.mem_finRange x)]
  · have entry : (testDrains s).pairHalt.pairs.get p = s.pairHalt.pairs.get p := by rw [testDrains_pairHalt]
    have writes : ∀ x, outstandingWrites (testDrains s) x = outstandingWrites s x := fun x => by
      rw [outstandingWrites, outstandingWrites, refused.paths]
    have passes := settle_iff (testDrains s) p _ entry
    simp only [writes] at passes
    intro e old
    rw [pairs, entry]
    by_cases h : settlePasses (testDrains s) p = true
    · rw [if_pos h, if_pos (passes.1 h)]
    · rw [if_neg h, if_neg (mt passes.2 h)]
  · have frame := testSettles_testDrains_frame s
    have named : testSettles (testDrains s) = t := rfl
    rw [named] at frame
    exact frame

end Sys2Proof.Machine
end

