-- ==== Sys2Proof/Proofs/Boundary.lean ====
section
/-! PROOFS. The drains, fences and guards of a frame boundary (R100, R101, R125 to R128, R138): what each step of the boundary changes of them, then the boundary as a whole. -/

namespace Sys2Proof.Machine

/-! ### The FENCE flag -/

theorem alertSet_fence (s : State) : alertSet .fence s = s.observe.flags.getLsbD 1 := by
  have bit : ∀ flags : BitVec 7, (flags &&& 2 != 0) = flags.getLsbD 1 := by decide
  exact bit s.observe.flags

theorem alertSet_fence_raiseAlert (f : AlertFlag) (s : State) :
    alertSet .fence (raiseAlert f s) = (alertSet .fence s || f == .fence) := by
  rw [alertSet_fence, alertSet_fence, raiseAlert_observe, BitVec.getLsbD_or]
  cases f <;> rfl

theorem alertSet_fence_raiseAlert_of_ne {f : AlertFlag} (h : f ≠ .fence) (s : State) :
    alertSet .fence (raiseAlert f s) = alertSet .fence s := by
  rw [alertSet_fence_raiseAlert, beq_eq_false_iff_ne.2 h, Bool.or_false]

theorem alertSet_congr {s u : State} (h : u.observe.flags = s.observe.flags) (f : AlertFlag) :
    alertSet f u = alertSet f s := by rw [alertSet, alertSet, h]

/-! ### Ages and strikes -/

/-- The boundary's state once ages have advanced and strikes are counted (R37, R129, R130). -/
def struckState (s : State) : State := strikeBoundary (ageBoundary (openFrame s))

/-- The strike update changes a record's strikes and demoted flag alone. -/
theorem struckState_record (s : State) (x : TenantId) :
    ∃ n d, recordAt (struckState s) x = { recordAt s x with strikes := n, demoted := d } := by
  have struck : recordAt (struckState s) x =
      strikeRecord (queuesAt (ageBoundary (openFrame s)) x) (recordAt s x) := by
    rw [struckState, strikeBoundary]
    split <;> exact Table.get_build ..
  exact ⟨_, _, struck⟩

theorem struckState_queues (s : State) (x : TenantId) :
    queuesAt (struckState s) x = { ageQueues (queuesAt s x) with retryMark := false } := by
  have aged : queuesAt (ageBoundary (openFrame s)) x = ageQueues (queuesAt s x) := Table.get_map ..
  rw [struckState, strikeBoundary_queuesAt, aged]

theorem struckState_queued (s : State) (x : TenantId) :
    queuedOf (queuesAt (struckState s) x) = (queuedOf (queuesAt s x)).map ageDescriptor := by
  rw [struckState_queues]
  simp [queuedOf, ageQueues]

theorem struckState_store (s : State) : (struckState s).admission.store = s.admission.store := by
  rw [struckState, strikeBoundary]
  split <;> rfl

theorem struckState_refused (s : State) (x : TenantId) :
    ((struckState s).observe.counters.get x).refused = (s.observe.counters.get x).refused := by
  have aged : ((ageBoundary (openFrame s)).observe.counters.get x).refused = (s.observe.counters.get x).refused := by
    rw [ageBoundary, Table.get_build]; rfl
  rw [struckState, strikeBoundary]
  split <;> exact aged

theorem struckState_fence (s : State) : alertSet .fence (struckState s) = alertSet .fence s := by
  rw [struckState, strikeBoundary]
  split
  · rw [alertSet_fence_raiseAlert_of_ne (f := .demote) nofun]; rfl
  · rfl

/-! ### Expiries -/

/-- Entries expired in order: answered, with no REFUSED counter and not the FENCE flag changed (R101). -/
structure Expired (es : List OutstandingEntry) (s u : State) : Prop where
  answered : Answered .expired es s u
  refused : ∀ x, (u.observe.counters.get x).refused = (s.observe.counters.get x).refused
  fence : alertSet .fence u = alertSet .fence s

theorem Expired.append {es es' : List OutstandingEntry} {s u v : State} (h : Expired es s u) (links : u.links = s.links)
    (h' : Expired es' u v) : Expired (es ++ es') s v where
  answered := h.answered.append links h'.answered
  refused x := (h'.refused x).trans (h.refused x)
  fence := h'.fence.trans h.fence

theorem expired_expireEntry {tag : Byte} {e : OutstandingEntry} {s : State}
    (entry : s.paths.entries.get tag.toFin = some e) : Expired [e] s (expireEntry tag s) := by
  have fence : ∀ u : State, u.observe.flags = s.observe.flags →
      alertSet .fence (raiseAlert .expire (freeEntry tag u)) = alertSet .fence s := fun u h => by
    rw [alertSet_fence_raiseAlert_of_ne (f := .expire) nofun]
    exact alertSet_congr h .fence
  rcases expireEntry_cases tag s with ⟨none, -⟩ | ⟨e', entry', orphan, r⟩ | ⟨e', entry', live, r⟩
  · exact absurd (entry.symm.trans none) nofun
  · obtain rfl : e = e' := Option.some.inj (entry.symm.trans entry')
    rw [r]
    exact ⟨answered_orphan orphan (by simp) (by simp), fun x => by simp, fence _ rfl⟩
  · obtain rfl : e = e' := Option.some.inj (entry.symm.trans entry')
    rw [r]
    refine ⟨answered_live live (by simp) (by simp), fun x => ?_, fence _ (by simp)⟩
    by_cases hx : e.tenant = x
    · simp [hx]
    · simp [hx]

theorem expireEntry_get_of_ne {tag : Byte} {i : Fin 256} (h : tag.toFin ≠ i) (s : State) :
    (expireEntry tag s).paths.entries.get i = s.paths.entries.get i := by
  rcases expireEntry_cases tag s with ⟨-, r⟩ | ⟨e, -, -, r⟩ | ⟨e, -, -, r⟩
  · rw [r]
  · rw [r, raiseAlert_paths, freeEntry_paths, Table.get_set_of_ne _ h]
  · rw [r, raiseAlert_paths, freeEntry_paths, Table.get_set_of_ne _ h, countTenant_paths, answerEntry_entries]

/-- The place of a tag in the Outstanding Table. -/
def placeOf (tag : Nat) : Fin 256 := (BitVec.ofNat 8 tag).toFin

/-- Entries under different tags expire one after another. -/
theorem expired_foldl {l : List (Nat × OutstandingEntry)} {s : State}
    (entries : ∀ c ∈ l, s.paths.entries.get (placeOf c.1) = some c.2)
    (apart : l.Pairwise fun c d => placeOf c.1 ≠ placeOf d.1) :
    Expired (l.map (·.2)) s (l.foldl (fun s c => expireEntry (BitVec.ofNat 8 c.1) s) s) := by
  induction l generalizing s with
  | nil => exact ⟨.nil rfl rfl, fun _ => rfl, rfl⟩
  | cons c l ih =>
    obtain ⟨hc, hl⟩ := List.pairwise_cons.1 apart
    have first := expired_expireEntry (entries c (by simp))
    refine first.append (expireEntry_links ..) (ih (fun d hd => ?_) hl)
    rw [expireEntry_get_of_ne (hc d hd)]
    exact entries d (by simp [hd])

theorem mem_entriesFrom {n tag : Nat} {e : OutstandingEntry} {l : List (Option OutstandingEntry)}
    (h : (tag, e) ∈ entriesFrom n l) : n ≤ tag ∧ l[tag - n]? = some (some e) := by
  induction l generalizing n with
  | nil => cases h
  | cons o l ih =>
    have later : (tag, e) ∈ entriesFrom (n + 1) l → n ≤ tag ∧ (o :: l)[tag - n]? = some (some e) := fun h => by
      obtain ⟨hle, hget⟩ := ih h
      have split : tag - n = (tag - (n + 1)) + 1 := by omega
      exact ⟨by omega, by rw [split, List.getElem?_cons_succ]; exact hget⟩
    cases o with
    | none => exact later h
    | some e' =>
      rcases List.mem_cons.1 h with same | h
      · cases same; simp
      · exact later h

theorem pairwise_entriesFrom (n : Nat) (l : List (Option OutstandingEntry)) :
    (entriesFrom n l).Pairwise fun c d => c.1 < d.1 := by
  induction l generalizing n with
  | nil => exact .nil
  | cons o l ih =>
    cases o with
    | none => exact ih (n + 1)
    | some e => exact List.pairwise_cons.2 ⟨fun d hd => (mem_entriesFrom hd).1, ih (n + 1)⟩

theorem mem_entriesInUse {s : State} {c : Nat × OutstandingEntry} (h : c ∈ entriesInUse s) :
    c.1 < 256 ∧ s.paths.entries.get (placeOf c.1) = some c.2 := by
  obtain ⟨hlt, hget⟩ := List.getElem?_eq_some_iff.1 (mem_entriesFrom h).2
  rw [Nat.sub_zero, s.paths.entries.size] at hlt
  have index : placeOf c.1 = ⟨c.1, hlt⟩ := Fin.ext (by
    rw [placeOf, BitVec.val_toFin, BitVec.toNat_ofNat]
    exact Nat.mod_eq_of_lt hlt)
  refine ⟨hlt, ?_⟩
  rw [index, Table.get_def]
  exact hget

/-- An entry one boundary older (R100). -/
def ageEntry (e : OutstandingEntry) : OutstandingEntry := { e with age := e.age + 1 }

/-- The entries that a boundary finds due, in ascending order of tag, each one boundary older (R100). -/
theorem dueEntries_eq (s : State) :
    (((entriesInUse (ageEntries s)).filter fun c => s.paths.cto ≤ c.2.age).map (·.2)) =
      (expiringEntries s).map ageEntry := by
  have filtered : ((entriesInUse (ageEntries s)).filter fun c => s.paths.cto ≤ c.2.age).map (·.2) =
      (((entriesInUse (ageEntries s)).map (·.2)).filter fun e => s.paths.cto ≤ e.age) := by
    rw [List.filter_map]; rfl
  have aged : (ageEntries s).paths.entries.toList = s.paths.entries.toList.map (Option.map ageEntry) := rfl
  rw [filtered, entriesInUse, entriesFrom_snd, aged, expiringEntries]
  induction s.paths.entries.toList with
  | nil => rfl
  | cons o l ih =>
    cases o with
    | none => exact ih
    | some e =>
      have used : ((some e :: l).map (Option.map ageEntry)).filterMap id =
          ageEntry e :: (l.map (Option.map ageEntry)).filterMap id := rfl
      rw [used, List.filter_cons, List.filterMap_cons]
      by_cases due : s.paths.cto ≤ e.age + 1
      · simp only [due, if_true, List.map_cons, ← ih]
        simp [ageEntry, due]
      · simp only [due, if_false, ← ih]
        simp [ageEntry, due]

/-- The age of an entry is no part of its answer. -/
theorem Answered.of_aged {status : ResponseStatus} {es : List OutstandingEntry} {s u : State}
    (h : Answered status (es.map ageEntry) s u) : Answered status es s u where
  wires := by
    rw [h.wires, List.filterMap_map]
    rfl
  lists q := by
    rw [h.lists]
    simp only [List.any_map]
    rfl

theorem expired_expireAtBoundary (s : State) : Expired (expiringEntries s) s (expireAtBoundary s) := by
  have folded := expired_foldl (s := ageEntries s)
    (l := (entriesInUse (ageEntries s)).filter fun c => s.paths.cto ≤ c.2.age)
    (fun c hc => (mem_entriesInUse (List.mem_of_mem_filter hc)).2)
    (((pairwise_entriesFrom 0 _).filter _).imp_of_mem fun {c d} hc hd hlt heq => by
      have hc := (mem_entriesInUse (List.mem_of_mem_filter hc)).1
      have hd := (mem_entriesInUse (List.mem_of_mem_filter hd)).1
      have := congrArg Fin.val heq
      rw [placeOf, placeOf, BitVec.val_toFin, BitVec.val_toFin, BitVec.toNat_ofNat, BitVec.toNat_ofNat] at this
      omega)
  rw [dueEntries_eq] at folded
  obtain ⟨wires, lists⟩ := folded.answered.of_aged
  exact ⟨⟨wires, lists⟩, folded.refused, folded.fence⟩

/-! ### Drain clocks and fences -/

/-- A drain's clock that has just found its fence due (R127). -/
def fencesNow (s : State) (x : TenantId) : Bool :=
  !drainDone s x && (tickDrainClock (recordAt s x)).state == .draining && (tickDrainClock (recordAt s x)).fenceDue

/-- A tenant whose queue a boundary refuses: its drain ends in OFF, or is fenced (R125, R128). -/
def endsNow (s : State) (x : TenantId) : Bool := stopsNow s x || fencesNow s x

/-- What a boundary refuses of a tenant (R33). -/
def refusedAtBoundary (s : State) (x : TenantId) : List Descriptor :=
  if endsNow s x then byStamp (queuedOf (queuesAt s x)) else []

/-- A tenant's record after its drain has been handled at a boundary (R125, R127, R128). -/
def drainedRecord (s : State) (x : TenantId) : TenantRecord :=
  if drainDone s x then endedRecord (recordAt s x)
  else if fencesNow s x then { tickDrainClock (recordAt s x) with state := .fenced, target := .none, fenceDue := false }
  else tickDrainClock (recordAt s x)

theorem fence_spec (x : TenantId) (s : State) :
    Local x s (fence x s) ∧
      recordAt (fence x s) x = { recordAt s x with state := .fenced, target := .none, fenceDue := false } ∧
      queuesAt (fence x s) x = { queuesAt s x with rq := [], wq := [] } ∧ alertSet .fence (fence x s) = true ∧
      ∀ l : TenantId → List Descriptor, l x = byStamp (queuedOf (queuesAt s x)) → Refusals [x] l s (fence x s) := by
  have changed := local_changeRecord x (fun r => { r with state := .fenced, target := .none, fenceDue := false }) s
  have discarded := local_discardAll x
    (changeRecord x (fun r => { r with state := .fenced, target := .none, fenceDue := false }) s)
  refine ⟨changed.trans (discarded.trans ⟨fun _ _ => rfl, fun _ _ => rfl, rfl⟩), ?_, ?_, ?_, fun l hl => ?_⟩
  · rw [fence, recordAt_congr (raiseAlert_records ..), recordAt_congr (discardAll_records ..), recordAt_changeRecord,
      if_pos rfl]
  · rw [fence, queuesAt_congr (raiseAlert_admission ..), discardAll_queuesAt, if_pos rfl]
    rfl
  · rw [fence, alertSet_fence_raiseAlert]
    exact Bool.or_true _
  · have refused := refusals_discardAll x (l := l)
      (s := changeRecord x (fun r => { r with state := .fenced, target := .none, fenceDue := false }) s) hl
    have behind : Refusals [x] l s
        (discardAll x (changeRecord x (fun r => { r with state := .fenced, target := .none, fenceDue := false }) s)) :=
      ⟨refused.wires, refused.store, refused.lists, refused.counters, refused.links, refused.admission, refused.paths,
        refused.observe⟩
    exact behind.congr rfl rfl rfl rfl rfl

theorem drainAtBoundary_spec (s : State) (x : TenantId) :
    Local x s (drainAtBoundary s x) ∧ recordAt (drainAtBoundary s x) x = drainedRecord s x ∧
      queuesAt (drainAtBoundary s x) x =
        (if endsNow s x then { queuesAt s x with rq := [], wq := [] } else queuesAt s x) ∧
      alertSet .fence (drainAtBoundary s x) = (alertSet .fence s || fencesNow s x) ∧
      Refusals [x] (refusedAtBoundary s) s (drainAtBoundary s x) := by
  have ticked : recordAt (changeRecord x tickDrainClock s) x = tickDrainClock (recordAt s x) := by
    rw [recordAt_changeRecord, if_pos rfl]
  rcases drainAtBoundary_cases s x with ⟨finished, e⟩ | ⟨unfinished, draining, due, e⟩ | ⟨unfinished, notDue, e⟩
  · have done := (drainDone_iff s x).2 finished
    have noFence : fencesNow s x = false := by simp [fencesNow, done]
    obtain ⟨near, record, queues, flags, refused⟩ := completeDrain_spec x s
    rw [e, drainedRecord, if_pos done, noFence, Bool.or_false]
    refine ⟨near, record, ?_, alertSet_congr flags .fence, refused _ ?_⟩
    · simpa [endsNow, stopsNow, done, noFence] using queues
    · simp [refusedAtBoundary, endsNow, stopsNow, done, noFence]
  · have done : drainDone s x = false := Bool.eq_false_iff.2 (mt (drainDone_iff s x).1 unfinished)
    rw [ticked] at draining due
    have fences : fencesNow s x = true := by simp [fencesNow, done, draining, due]
    obtain ⟨near, record, queues, flag, refused⟩ := fence_spec x (changeRecord x tickDrainClock s)
    have behind := refused (refusedAtBoundary s) (by simp [refusedAtBoundary, endsNow, fences]; rfl)
    rw [e, drainedRecord, if_neg (by simp [done]), if_pos fences, fences, Bool.or_true]
    refine ⟨(local_changeRecord ..).trans near, ?_, ?_, flag, ?_⟩
    · rw [record, ticked]
    · rw [queues, endsNow, fences, Bool.or_true, if_pos rfl]
      rfl
    · exact ⟨behind.wires, behind.store, behind.lists, behind.counters, behind.links, behind.admission, behind.paths,
        behind.observe⟩
  · have done : drainDone s x = false := Bool.eq_false_iff.2 (mt (drainDone_iff s x).1 unfinished)
    rw [ticked] at notDue
    have noFence : fencesNow s x = false := by
      rw [fencesNow, done]
      simpa using notDue
    have stays : endsNow s x = false := by simp [endsNow, stopsNow, done, noFence]
    rw [e, drainedRecord, if_neg (by simp [done]), if_neg (by simp [noFence]), stays, noFence, Bool.or_false]
    refine ⟨local_changeRecord .., ticked, rfl, rfl, .none (fun y hy => ?_) rfl rfl rfl rfl rfl⟩
    obtain rfl := List.mem_singleton.1 hy
    simp [refusedAtBoundary, stays]

theorem Local.fencesNow {x y : TenantId} {s u : State} (h : Local x s u) (hy : x ≠ y) :
    Machine.fencesNow u y = Machine.fencesNow s y := by
  rw [Machine.fencesNow, Machine.fencesNow, h.drainDone hy, h.records y hy]

theorem Local.endsNow {x y : TenantId} {s u : State} (h : Local x s u) (hy : x ≠ y) :
    Machine.endsNow u y = Machine.endsNow s y := by
  rw [Machine.endsNow, Machine.endsNow, h.stopsNow hy, h.fencesNow hy]

/-- Every drain handled at a boundary, tenant by tenant, as each stood at first. -/
theorem drainsBoundary_spec (s : State) :
    (∀ x, recordAt (drainsBoundary s) x = drainedRecord s x) ∧
      (∀ x, queuesAt (drainsBoundary s) x =
        if endsNow s x then { queuesAt s x with rq := [], wq := [] } else queuesAt s x) ∧
      (alertSet .fence (drainsBoundary s) = true ↔ alertSet .fence s = true ∨ ∃ x, fencesNow s x = true) ∧
      Refusals (List.finRange 24) (refusedAtBoundary s) s (drainsBoundary s) := by
  have nodup := List.nodup_finRange 24
  have near := fun s x => (drainAtBoundary_spec s x).1
  refine ⟨fun x => ?_, fun x => ?_, ?_, ?_⟩
  · rw [drainsBoundary, foldl_pointwise (place := recordAt) (fun s x => (drainAtBoundary_spec s x).2.1)
      (fun s x y hy => (near s x).records y hy)
      (fun s x y hy => by
        rw [drainedRecord, drainedRecord, (near s x).drainDone hy, (near s x).fencesNow hy, (near s x).records y hy])
      nodup, if_pos (List.mem_finRange x)]
  · rw [drainsBoundary, foldl_pointwise (place := queuesAt) (fun s x => (drainAtBoundary_spec s x).2.2.1)
      (fun s x y hy => (near s x).queues y hy)
      (fun s x y hy => by rw [(near s x).endsNow hy, (near s x).queues y hy]) nodup, if_pos (List.mem_finRange x)]
  · have raised := foldl_or (p := alertSet .fence) (fun s x => (drainAtBoundary_spec s x).2.2.2.1)
      (fun s x y hy => (near s x).fencesNow hy) nodup s
    rw [drainsBoundary, raised, Bool.or_eq_true, List.any_eq_true]
    simp [List.mem_finRange]
  · refine refusals_foldl (fun s x => (drainAtBoundary_spec s x).2.2.2.2) (fun s x y hy => ?_) nodup s
    rw [refusedAtBoundary, refusedAtBoundary, (near s x).endsNow hy, (near s x).queues y hy]

end Sys2Proof.Machine
end

