-- ==== Sys2Proof/Proofs/BoundaryDrains.lean ====
section
/-! PROOFS. The frame boundary as a whole (R100, R125 to R128, R138): what it does to each drain, what it refuses, and the pairs it settles. -/

namespace Sys2Proof.Machine

/-! ### The boundary as a whole -/

/-- The boundary's state once its expiries are made (R100, R101). -/
def expiredState (s : State) : State := expireAtBoundary (struckState s)

/-- The boundary's state once every drain has been handled (R124 to R128). -/
def drainedState (s : State) : State := drainsBoundary (expiredState s)

/-- The boundary's state as its snapshot is taken, the drains, guards and modes handled (R48, R138, R148). -/
def readyState (s : State) : State := takeSnapshot (modeBoundary (guardsBoundary (drainedState s)))

/-- The boundary's state once the Credit Table is loaded (R59, R71). -/
def loadedState (s : State) : State := loadBoundary (loadKind s.timer.startDue (readyState s)) (readyState s)

theorem frameBoundary_eq (s : State) :
    frameBoundary s = { renewPauseMarks (loadedState s) with solver.solving := true } := rfl

theorem takeLevel_counters (c : Nat) (s : State) :
    (takeLevel c s).observe.counters = s.observe.counters ∧ (takeLevel c s).observe.flags = s.observe.flags := by
  rcases takeLevel_cases c s with ⟨-, e⟩ | ⟨-, e⟩ | ⟨-, -, e⟩ | ⟨-, -, e⟩ <;> rw [e] <;> exact ⟨rfl, rfl⟩

theorem loadBoundary_counters (k : LoadKind) (s : State) :
    (loadBoundary k s).observe.counters = s.observe.counters ∧
      alertSet .fence (loadBoundary k s) = alertSet .fence s := by
  rcases loadBoundary_cases k s with ⟨-, e⟩ | ⟨-, e⟩
  · rw [e, noteStale]
    obtain ⟨counters, flags⟩ := takeLevel_counters 3 (raiseAlert .stale
      (handRecord (recordOf (loadCredit k s).solver.result ((loadCredit k s).timer.number - 1) .stale)
        { loadCredit k s with observe.staleFrames := (loadCredit k s).observe.staleFrames + 1 }))
    rw [counters, alertSet_congr flags, alertSet_fence_raiseAlert_of_ne (f := .stale) nofun]
    exact ⟨rfl, rfl⟩
  · rw [e]; exact ⟨rfl, rfl⟩

theorem loadBoundary_settings (k : LoadKind) (s : State) (x : TenantId) :
    (creditAt (loadBoundary k s) x).settings.exempt = (recordAt s x).attrs.exempt := by
  have loaded : creditAt (loadCredit k s) x = loadEntry k s x := Table.get_build ..
  rcases loadBoundary_cases k s with ⟨-, e⟩ | ⟨-, e⟩
  · rw [e, creditAt_congr (noteStale_credit _), loaded]; rfl
  · rw [e, loaded]; rfl

/-- What the boundary leaves as its drains left it. -/
structure AsDrained (u t : State) : Prop where
  admission : t.admission = u.admission
  paths : t.paths = u.paths
  wires : t.wires = u.wires
  links : t.links = u.links
  counters : t.observe.counters = u.observe.counters
  fence : alertSet .fence t = alertSet .fence u

theorem readyState_records (s : State) : (readyState s).records = (drainedState s).records := by simp [readyState]

theorem loadedState_records (s : State) : (loadedState s).records = (drainedState s).records := by
  rw [loadedState, loadBoundary_records, readyState_records]

theorem asDrained_frameBoundary (s : State) : AsDrained (drainedState s) (frameBoundary s) := by
  obtain ⟨counters, flag⟩ := loadBoundary_counters (loadKind s.timer.startDue (readyState s)) (readyState s)
  have observe : (readyState s).observe = (drainedState s).observe := by simp [readyState]
  rw [frameBoundary_eq]
  refine ⟨?_, ?_, ?_, ?_, ?_, ?_⟩
  · simp [loadedState, readyState]
  · simp [loadedState, readyState]
  · simp [loadedState, readyState]
  · simp [loadedState, readyState]
  · exact counters.trans (congrArg _ observe)
  · exact flag.trans (alertSet_congr (by rw [observe]) .fence)

/-- A record after a boundary: as its drain left it, its pause mark renewed (R126). -/
theorem frameBoundary_record (s : State) (x : TenantId) : recordAt (frameBoundary s) x =
    { recordAt (drainedState s) x with pauseMark := !releasePermitted (loadedState s) x } := by
  rw [frameBoundary_eq]
  have renewed : recordAt { renewPauseMarks (loadedState s) with solver.solving := true } x =
      { recordAt (loadedState s) x with pauseMark := !releasePermitted (loadedState s) x } := Table.get_build ..
  rw [renewed, recordAt_congr (loadedState_records s)]

theorem expiredState_record (s : State) (x : TenantId) : recordAt (expiredState s) x = recordAt (struckState s) x :=
  recordAt_congr (expireAtBoundary_records _) x

theorem expiredState_queues (s : State) (x : TenantId) : queuesAt (expiredState s) x = queuesAt (struckState s) x :=
  queuesAt_congr (expireAtBoundary_admission _) x

/-- The attributes of a record through a boundary's drains. -/
theorem drainedRecord_attrs (s : State) (x : TenantId) : (drainedRecord s x).attrs = (recordAt s x).attrs := by
  have ticked : (tickDrainClock (recordAt s x)).attrs = (recordAt s x).attrs := by
    rw [tickDrainClock]; split <;> rfl
  rw [drainedRecord]
  split
  · rw [endedRecord]; split <;> rfl
  · split <;> exact ticked

theorem drainedState_record (s : State) (x : TenantId) :
    recordAt (drainedState s) x = drainedRecord (expiredState s) x := (drainsBoundary_spec (expiredState s)).1 x

theorem drainedState_attrs (s : State) (x : TenantId) :
    (recordAt (drainedState s) x).attrs = (recordAt s x).attrs := by
  obtain ⟨n, d, struck⟩ := struckState_record s x
  rw [drainedState_record, drainedRecord_attrs, expiredState_record, struck]

/-- What is not release-permitted as the new frame starts (R126). -/
theorem frameBoundary_pauseMark (s : State) (x : TenantId) :
    (recordAt (frameBoundary s) x).pauseMark = true ↔
      ((frameBoundary s).control.mode = .hold ∧ (recordAt s x).attrs.exempt = false) ∨
        (s.pairHalt.haltCondition = true ∧ (recordAt s x).attrs.haltable = true) ∨ s.links.poolUp = false := by
  have exempt : (creditAt (loadedState s) x).settings.exempt = (recordAt s x).attrs.exempt := by
    rw [loadedState, loadBoundary_settings, recordAt_congr (readyState_records s), drainedState_attrs]
  have halt : heldByHalt (loadedState s) x = (s.pairHalt.haltCondition && (recordAt s x).attrs.haltable) := by
    have condition : (loadedState s).pairHalt.haltCondition = s.pairHalt.haltCondition := by
      have kept : (guardsBoundary (drainedState s)).pairHalt.haltCondition =
          (drainedState s).pairHalt.haltCondition := by
        rw [guardsBoundary, (testSettles_spec _).2]
      have before : (drainedState s).pairHalt = s.pairHalt := by
        simp [drainedState, expiredState, struckState]
      rw [loadedState, loadBoundary_pairHalt, readyState, takeSnapshot_pairHalt, modeBoundary_pairHalt, kept, before]
    rw [heldByHalt, condition, recordAt_congr (loadedState_records s), drainedState_attrs]
  have pool : (loadedState s).links.poolUp = s.links.poolUp := by
    simp [loadedState, readyState, drainedState, expiredState, struckState]
  have mode : (frameBoundary s).control.mode = (loadedState s).control.mode := rfl
  rw [frameBoundary_record, mode]
  simp only [releasePermitted, exempt, halt, pool, Bool.not_eq_true', Bool.and_eq_false_iff, Bool.or_eq_false_iff,
    Bool.not_eq_false', Bool.and_eq_true, bne_eq_false_iff_eq, or_assoc]

/-! ### What a boundary refuses -/

theorem insertByStamp_age (d : Descriptor) (l : List Descriptor) :
    insertByStamp (ageDescriptor d) (l.map ageDescriptor) = (insertByStamp d l).map ageDescriptor := by
  induction l with
  | nil => rfl
  | cons e l ih =>
    have same : older (ageDescriptor e).stamp (ageDescriptor d).stamp = older e.stamp d.stamp := rfl
    rw [List.map_cons, insertByStamp, insertByStamp, same]
    split
    · rw [ih]; rfl
    · rfl

/-- The age of a descriptor is no part of its stamp order. -/
theorem byStamp_age (l : List Descriptor) : byStamp (l.map ageDescriptor) = (byStamp l).map ageDescriptor := by
  induction l with
  | nil => rfl
  | cons d l ih =>
    rw [List.map_cons]
    exact (congrArg (insertByStamp (ageDescriptor d)) ih).trans (insertByStamp_age d _)

/-- What a boundary refuses of a tenant, as its queue stood before (R33). -/
def boundaryRefusals (s : State) (x : TenantId) : List Descriptor :=
  if endsNow (expiredState s) x then byStamp (queuedOf (queuesAt s x)) else []

theorem refusedAtBoundary_eq (s : State) (x : TenantId) :
    refusedAtBoundary (expiredState s) x = (boundaryRefusals s x).map ageDescriptor := by
  rw [refusedAtBoundary, boundaryRefusals, expiredState_queues, struckState_queued, byStamp_age]
  split <;> rfl

/-- The age of a descriptor is no part of its refusal. -/
theorem Refusals.of_aged {xs : List TenantId} {l : TenantId → List Descriptor} {s u : State}
    (h : Refusals xs (fun x => (l x).map ageDescriptor) s u) : Refusals xs l s u where
  wires := by
    have sent : ∀ x, ((l x).map ageDescriptor).map refusal = (l x).map refusal := fun x => by
      rw [List.map_map]; rfl
    simpa only [sent] using h.wires
  store := by
    have blocks : ∀ x (c : Nat × List Byte), (((l x).map ageDescriptor).any fun d => d.blocks.contains c.1) =
        (l x).any fun d => d.blocks.contains c.1 := fun x c => by rw [List.any_map]; rfl
    simpa only [blocks] using h.store
  lists q := by
    have writes : ∀ x y, holdsWrite ((l x).map ageDescriptor) q y = holdsWrite (l x) q y := fun x y => by
      rw [holdsWrite, List.any_map]; rfl
    simpa only [writes] using h.lists q
  counters x := by simpa only [List.length_map] using h.counters x
  links := h.links
  admission := h.admission
  paths := h.paths
  observe := h.observe

theorem refusals_drainedState (s : State) :
    Refusals (List.finRange 24) (boundaryRefusals s) (expiredState s) (drainedState s) := by
  have refused := (drainsBoundary_spec (expiredState s)).2.2.2
  rw [funext (refusedAtBoundary_eq s)] at refused
  exact refused.of_aged

/-! ### The verdict on each drain -/

/-- A tenant that is not DRAINING has no drain to handle. -/
theorem drainedRecord_of_idle {s : State} {x : TenantId} (idle : (recordAt s x).state ≠ .draining) :
    drainedRecord s x = { recordAt s x with fenceDue := false } ∧ stopsNow s x = false ∧ fencesNow s x = false := by
  have done : drainDone s x = false := Bool.eq_false_iff.2 fun h => idle ((drainDone_iff s x).1 h).1
  have ticked : tickDrainClock (recordAt s x) = { recordAt s x with fenceDue := false } := by
    rw [tickDrainClock, if_neg (fun h => idle h.1)]
  have noFence : fencesNow s x = false := by simp [fencesNow, ticked]
  exact ⟨by simp [drainedRecord, done, noFence, ticked], by simp [stopsNow, done], noFence⟩

/-- A finished drain ends in its target (R125). -/
theorem drainedRecord_of_finished {s : State} {x : TenantId} (finished : DrainFinished s x) :
    drainedRecord s x = endedRecord (recordAt s x) ∧ (stopsNow s x = true ↔ (recordAt s x).target = .off) ∧
      fencesNow s x = false := by
  have done := (drainDone_iff s x).2 finished
  exact ⟨by rw [drainedRecord, if_pos done], by rw [stopsNow_iff, and_iff_right finished], by simp [fencesNow, done]⟩

theorem endedRecord_of_off {r : TenantRecord} (off : r.target = .off) :
    endedRecord r = { r with state := .off, target := .none, fenceDue := false } := by
  simp only [endedRecord, off]

theorem endedRecord_of_quiesced {r : TenantRecord} (quiesced : r.target = .quiesced) :
    endedRecord r = { r with state := .quiesced, target := .none, fenceDue := false } := by
  simp only [endedRecord, quiesced]

/-- The clock of a drain whose frame was paused stands (R126). -/
theorem drainedRecord_of_paused {s : State} {x : TenantId} (unfinished : ¬DrainFinished s x)
    (paused : (recordAt s x).pauseMark = true) :
    drainedRecord s x = { recordAt s x with fenceDue := false } ∧ stopsNow s x = false ∧ fencesNow s x = false := by
  have done : drainDone s x = false := Bool.eq_false_iff.2 (mt (drainDone_iff s x).1 unfinished)
  have ticked : tickDrainClock (recordAt s x) = { recordAt s x with fenceDue := false } := by
    rw [tickDrainClock, if_neg (by simp [paused])]
  have noFence : fencesNow s x = false := by simp [fencesNow, ticked]
  exact ⟨by simp [drainedRecord, done, noFence, ticked], by simp [stopsNow, done], noFence⟩

/-- The clock of any other drain advances, and the drain is fenced where that reaches DRAINB (R127, R128). -/
theorem drainedRecord_of_counted {s : State} {x : TenantId} (draining : (recordAt s x).state = .draining)
    (unfinished : ¬DrainFinished s x) (counted : (recordAt s x).pauseMark = false) :
    stopsNow s x = false ∧
      (fencesNow s x = true ↔
        (recordAt s x).drainb ≠ 0 ∧ (recordAt s x).drainb ≤ min 65535 ((recordAt s x).drainClock + 1)) ∧
      (drainedRecord s x).drainClock = min 65535 ((recordAt s x).drainClock + 1) ∧
      (drainedRecord s x).state = (if fencesNow s x then .fenced else .draining) ∧
      (drainedRecord s x).target = (if fencesNow s x then .none else (recordAt s x).target) := by
  have done : drainDone s x = false := Bool.eq_false_iff.2 (mt (drainDone_iff s x).1 unfinished)
  have ticked : tickDrainClock (recordAt s x) = { recordAt s x with
      drainClock := min 65535 ((recordAt s x).drainClock + 1)
      fenceDue := (recordAt s x).drainb != 0 && (recordAt s x).drainb ≤ min 65535 ((recordAt s x).drainClock + 1) } := by
    rcases tickDrainClock_cases (recordAt s x) with ⟨-, -, e⟩ | ⟨not, -⟩
    · exact e
    · exact absurd ⟨draining, counted⟩ not
  refine ⟨by simp [stopsNow, done], ?_, ?_⟩
  · simp only [fencesNow, done, ticked, draining]
    simp
  · simp only [drainedRecord, done, Bool.false_eq_true, if_false]
    cases fencesNow s x <;> simp [ticked, draining]

/-- A drain is fenced exactly where its tenant then is FENCED. -/
theorem fencesNow_iff (s : State) (x : TenantId) : fencesNow s x = true ↔
    (recordAt s x).state = .draining ∧ (drainedRecord s x).state = .fenced := by
  by_cases draining : (recordAt s x).state = .draining
  · by_cases finished : DrainFinished s x
    · obtain ⟨record, -, noFence⟩ := drainedRecord_of_finished finished
      rw [record, noFence, endedRecord]
      split <;> simp [draining]
    · cases paused : (recordAt s x).pauseMark with
      | true =>
        obtain ⟨record, -, noFence⟩ := drainedRecord_of_paused finished paused
        simp [record, noFence, draining]
      | false =>
        obtain ⟨-, -, -, state, -⟩ := drainedRecord_of_counted draining finished paused
        rw [state]
        cases fencesNow s x <;> simp [draining]
  · simp [drainedRecord_of_idle draining, draining]

/-- A drain ends in OFF exactly where its tenant then is OFF. -/
theorem stopsNow_iff_off (s : State) (x : TenantId) : stopsNow s x = true ↔
    (recordAt s x).state = .draining ∧ (drainedRecord s x).state = .off := by
  by_cases draining : (recordAt s x).state = .draining
  · by_cases finished : DrainFinished s x
    · obtain ⟨record, stops, -⟩ := drainedRecord_of_finished finished
      rw [stops, record, endedRecord]
      cases (recordAt s x).target <;> simp [draining]
    · cases paused : (recordAt s x).pauseMark with
      | true =>
        obtain ⟨record, stays, -⟩ := drainedRecord_of_paused finished paused
        simp [record, stays, draining]
      | false =>
        obtain ⟨stays, -, -, state, -⟩ := drainedRecord_of_counted draining finished paused
        rw [state, stays]
        cases fencesNow s x <;> simp
  · simp [drainedRecord_of_idle draining, draining]

theorem endsNow_iff (s : State) (x : TenantId) : endsNow s x = true ↔ (recordAt s x).state = .draining ∧
    ((drainedRecord s x).state = .off ∨ (drainedRecord s x).state = .fenced) := by
  rw [endsNow, Bool.or_eq_true, stopsNow_iff_off, fencesNow_iff, and_or_left]

/-! ### Each tenant over a boundary -/

/-- The record that a boundary's drains find: the tenant's own, but for its strikes (R129, R130). -/
theorem expiredState_record_eq (s : State) (x : TenantId) :
    ∃ n d, recordAt (expiredState s) x = { recordAt s x with strikes := n, demoted := d } := by
  rw [expiredState_record]
  exact struckState_record s x

/-- What a boundary's drains find finished, said of the states before and after the boundary. -/
theorem drainFinished_expiredState (s : State) (x : TenantId) : DrainFinished (expiredState s) x ↔
    (recordAt s x).state = .draining ∧ (∀ d ∈ queuedOf (queuesAt s x), d.parked = true) ∧
      ∀ k e, (frameBoundary s).paths.entries.get k = some e → e.tenant ≠ x := by
  obtain ⟨n, d, record⟩ := expiredState_record_eq s x
  have entries : (expiredState s).paths.entries = (frameBoundary s).paths.entries := by
    rw [(asDrained_frameBoundary s).paths, (refusals_drainedState s).paths]
  have parked : ∀ d, (ageDescriptor d).parked = d.parked := fun _ => rfl
  rw [DrainFinished, record, entries, expiredState_queues, struckState_queued]
  simp [parked]

/-- The state, target and clock of a drain after a boundary. -/
theorem frameBoundary_drain (s : State) (x : TenantId) :
    (recordAt (frameBoundary s) x).state = (drainedRecord (expiredState s) x).state ∧
      (recordAt (frameBoundary s) x).target = (drainedRecord (expiredState s) x).target ∧
      (recordAt (frameBoundary s) x).drainClock = (drainedRecord (expiredState s) x).drainClock := by
  rw [frameBoundary_record, drainedState_record]
  exact ⟨rfl, rfl, rfl⟩

/-- The REFUSED counter after a boundary. -/
theorem frameBoundary_refused (s : State) (x : TenantId) :
    ((frameBoundary s).observe.counters.get x).refused =
      (s.observe.counters.get x).refused + BitVec.ofNat 32 (boundaryRefusals s x).length := by
  have before : ((expiredState s).observe.counters.get x).refused = (s.observe.counters.get x).refused :=
    ((expired_expireAtBoundary (struckState s)).refused x).trans (struckState_refused s x)
  rw [(asDrained_frameBoundary s).counters, (refusals_drainedState s).counters, if_pos (List.mem_finRange x), before]

/-- A drain that ends in OFF or is fenced leaves an empty queue, each of its descriptors counted as refused (R33). -/
theorem frameBoundary_emptied {s : State} {x : TenantId} (ends : endsNow (expiredState s) x = true) :
    queuedOf (queuesAt (frameBoundary s) x) = [] ∧ ((frameBoundary s).observe.counters.get x).refused =
      (s.observe.counters.get x).refused + BitVec.ofNat 32 (queuedOf (queuesAt s x)).length := by
  constructor
  · rw [queuesAt_congr (asDrained_frameBoundary s).admission, drainedState, (drainsBoundary_spec _).2.1, if_pos ends]
    rfl
  · rw [frameBoundary_refused, boundaryRefusals, if_pos ends, (byStamp_perm _).length_eq]

/-- A drain that neither ends in OFF nor is fenced has nothing refused. -/
theorem frameBoundary_refused_of_stays {s : State} {x : TenantId} (stays : endsNow (expiredState s) x = false) :
    ((frameBoundary s).observe.counters.get x).refused = (s.observe.counters.get x).refused := by
  rw [frameBoundary_refused, boundaryRefusals, if_neg (by simp [stays])]
  simp

theorem endsNow_expiredState (s : State) (x : TenantId) : endsNow (expiredState s) x = true ↔
    (recordAt s x).state = .draining ∧
      ((recordAt (frameBoundary s) x).state = .off ∨ (recordAt (frameBoundary s) x).state = .fenced) := by
  obtain ⟨n, d, record⟩ := expiredState_record_eq s x
  rw [endsNow_iff, (frameBoundary_drain s x).1, record]

/-! #### The cases of a drain, of the state before the boundary -/

section

variable {s : State} {x : TenantId}

theorem frameBoundary_of_idle (idle : (recordAt s x).state ≠ .draining) :
    (recordAt (frameBoundary s) x).state = (recordAt s x).state ∧
      (recordAt (frameBoundary s) x).target = (recordAt s x).target ∧
      (recordAt (frameBoundary s) x).drainClock = (recordAt s x).drainClock := by
  obtain ⟨n, d, record⟩ := expiredState_record_eq s x
  obtain ⟨verdict, -, -⟩ := drainedRecord_of_idle (s := expiredState s) (x := x) (by rw [record]; exact idle)
  obtain ⟨state, target, clock⟩ := frameBoundary_drain s x
  rw [verdict, record] at state target clock
  exact ⟨state, target, clock⟩

theorem frameBoundary_of_off (finished : DrainFinished (expiredState s) x) (off : (recordAt s x).target = .off) :
    (recordAt (frameBoundary s) x).state = .off ∧ (recordAt (frameBoundary s) x).target = .none ∧
      (recordAt (frameBoundary s) x).drainClock = (recordAt s x).drainClock ∧
      queuedOf (queuesAt (frameBoundary s) x) = [] ∧ ((frameBoundary s).observe.counters.get x).refused =
        (s.observe.counters.get x).refused + BitVec.ofNat 32 (queuedOf (queuesAt s x)).length := by
  obtain ⟨n, d, record⟩ := expiredState_record_eq s x
  obtain ⟨verdict, stops, -⟩ := drainedRecord_of_finished finished
  have target_off : (recordAt (expiredState s) x).target = .off := by rw [record]; exact off
  obtain ⟨state, target, clock⟩ := frameBoundary_drain s x
  rw [verdict, endedRecord_of_off target_off, record] at state target clock
  exact ⟨state, target, clock, frameBoundary_emptied (by rw [endsNow, stops.2 target_off, Bool.true_or])⟩

theorem frameBoundary_of_quiesced (finished : DrainFinished (expiredState s) x)
    (quiesced : (recordAt s x).target = .quiesced) :
    (recordAt (frameBoundary s) x).state = .quiesced ∧ (recordAt (frameBoundary s) x).target = .none ∧
      (recordAt (frameBoundary s) x).drainClock = (recordAt s x).drainClock := by
  obtain ⟨n, d, record⟩ := expiredState_record_eq s x
  obtain ⟨verdict, -, -⟩ := drainedRecord_of_finished finished
  have target_quiesced : (recordAt (expiredState s) x).target = .quiesced := by rw [record]; exact quiesced
  obtain ⟨state, target, clock⟩ := frameBoundary_drain s x
  rw [verdict, endedRecord_of_quiesced target_quiesced, record] at state target clock
  exact ⟨state, target, clock⟩

theorem frameBoundary_of_paused (draining : (recordAt s x).state = .draining)
    (unfinished : ¬DrainFinished (expiredState s) x) (paused : (recordAt s x).pauseMark = true) :
    (recordAt (frameBoundary s) x).state = .draining ∧
      (recordAt (frameBoundary s) x).target = (recordAt s x).target ∧
      (recordAt (frameBoundary s) x).drainClock = (recordAt s x).drainClock := by
  obtain ⟨n, d, record⟩ := expiredState_record_eq s x
  obtain ⟨verdict, -, -⟩ := drainedRecord_of_paused unfinished (by rw [record]; exact paused)
  obtain ⟨state, target, clock⟩ := frameBoundary_drain s x
  rw [verdict, record] at state target clock
  exact ⟨state.trans draining, target, clock⟩

/-- A drain whose frame was not paused: its clock advances, and it is fenced where that reaches DRAINB (R127, R128). -/
theorem frameBoundary_of_counted (draining : (recordAt s x).state = .draining)
    (unfinished : ¬DrainFinished (expiredState s) x) (counted : (recordAt s x).pauseMark = false) :
    (fencesNow (expiredState s) x = true ↔
      (recordAt s x).drainb ≠ 0 ∧ (recordAt s x).drainb ≤ min 65535 ((recordAt s x).drainClock + 1)) ∧
      (recordAt (frameBoundary s) x).drainClock = min 65535 ((recordAt s x).drainClock + 1) ∧
      (recordAt (frameBoundary s) x).state = (if fencesNow (expiredState s) x then .fenced else .draining) ∧
      (recordAt (frameBoundary s) x).target =
        (if fencesNow (expiredState s) x then .none else (recordAt s x).target) := by
  obtain ⟨n, d, record⟩ := expiredState_record_eq s x
  obtain ⟨-, verdict⟩ := drainedRecord_of_counted (s := expiredState s) (x := x) (by rw [record]; exact draining)
    unfinished (by rw [record]; exact counted)
  obtain ⟨state, target, clock⟩ := frameBoundary_drain s x
  rw [record] at verdict
  rw [state, target, clock]
  exact verdict

theorem frameBoundary_of_due (draining : (recordAt s x).state = .draining)
    (unfinished : ¬DrainFinished (expiredState s) x) (counted : (recordAt s x).pauseMark = false)
    (set : (recordAt s x).drainb ≠ 0) (due : (recordAt s x).drainb ≤ min 65535 ((recordAt s x).drainClock + 1)) :
    (recordAt (frameBoundary s) x).state = .fenced ∧ (recordAt (frameBoundary s) x).target = .none ∧
      (recordAt (frameBoundary s) x).drainClock = min 65535 ((recordAt s x).drainClock + 1) ∧
      queuedOf (queuesAt (frameBoundary s) x) = [] ∧ ((frameBoundary s).observe.counters.get x).refused =
        (s.observe.counters.get x).refused + BitVec.ofNat 32 (queuedOf (queuesAt s x)).length := by
  obtain ⟨fences, clock, state, target⟩ := frameBoundary_of_counted draining unfinished counted
  have fenced := fences.2 ⟨set, due⟩
  rw [if_pos fenced] at state target
  exact ⟨state, target, clock, frameBoundary_emptied (by rw [endsNow, fenced, Bool.or_true])⟩

theorem frameBoundary_of_notDue (draining : (recordAt s x).state = .draining)
    (unfinished : ¬DrainFinished (expiredState s) x) (counted : (recordAt s x).pauseMark = false)
    (notDue : (recordAt s x).drainb = 0 ∨ min 65535 ((recordAt s x).drainClock + 1) < (recordAt s x).drainb) :
    (recordAt (frameBoundary s) x).state = .draining ∧
      (recordAt (frameBoundary s) x).target = (recordAt s x).target ∧
      (recordAt (frameBoundary s) x).drainClock = min 65535 ((recordAt s x).drainClock + 1) := by
  obtain ⟨fences, clock, state, target⟩ := frameBoundary_of_counted draining unfinished counted
  have unfenced : ¬fencesNow (expiredState s) x = true := fun h =>
    notDue.elim (fences.1 h).1 (Nat.not_lt.2 (fences.1 h).2)
  rw [if_neg unfenced] at state target
  exact ⟨state, target, clock⟩

/-- Nothing is refused of a tenant that neither enters OFF nor is fenced. -/
theorem frameBoundary_of_kept (kept : (recordAt s x).state ≠ .draining ∨
      ((recordAt (frameBoundary s) x).state ≠ .off ∧ (recordAt (frameBoundary s) x).state ≠ .fenced)) :
    ((frameBoundary s).observe.counters.get x).refused = (s.observe.counters.get x).refused := by
  refine frameBoundary_refused_of_stays (Bool.eq_false_iff.2 fun h => ?_)
  obtain ⟨draining, ended⟩ := (endsNow_expiredState s x).1 h
  exact kept.elim (· draining) fun ⟨on, unfenced⟩ => ended.elim on unfenced

end

/-! ### FENCE, the answers, the store and the order lists -/

theorem alertSet_fence_frameBoundary (s : State) : alertSet .fence (frameBoundary s) = true ↔
    alertSet .fence s = true ∨
      ∃ x, (recordAt s x).state = .draining ∧ (recordAt (frameBoundary s) x).state = .fenced := by
  have before : alertSet .fence (expiredState s) = alertSet .fence s :=
    (expired_expireAtBoundary (struckState s)).fence.trans (struckState_fence s)
  have fenced : ∀ x, fencesNow (expiredState s) x = true ↔
      (recordAt s x).state = .draining ∧ (recordAt (frameBoundary s) x).state = .fenced := fun x => by
    obtain ⟨n, d, record⟩ := expiredState_record_eq s x
    rw [fencesNow_iff, (frameBoundary_drain s x).1, record]
  rw [(asDrained_frameBoundary s).fence, drainedState, (drainsBoundary_spec _).2.2.1, before]
  simp only [fenced]

/-- The boundary's expiries, said of the state before it. -/
theorem answered_expiredState (s : State) : Answered .expired (expiringEntries s) s (expiredState s) := by
  have paths : (struckState s).paths = s.paths := by simp [struckState]
  have wires : (struckState s).wires = s.wires := by simp [struckState]
  have links : (struckState s).links = s.links := by simp [struckState]
  have same : expiringEntries (struckState s) = expiringEntries s := by rw [expiringEntries, expiringEntries, paths]
  have answered := (expired_expireAtBoundary (struckState s)).answered
  rw [same] at answered
  exact ⟨by rw [expiredState, answered.wires, wires, links], fun q => by rw [expiredState, answered.lists, paths]⟩

theorem frameBoundary_wires (s : State) : (frameBoundary s).wires = { s.wires with
    upstream := s.wires.upstream ++
      if s.links.switchUp then (expiringEntries s).filterMap (endResponse .expired) ++
        (List.finRange 24).flatMap fun x => (boundaryRefusals s x).map refusal else [] } := by
  have links : (expiredState s).links = s.links := by simp [expiredState, struckState]
  rw [(asDrained_frameBoundary s).wires, (refusals_drainedState s).wires, (answered_expiredState s).wires, links]
  cases s.links.switchUp <;> simp

theorem frameBoundary_store (s : State) : (frameBoundary s).admission.store = s.admission.store.filter fun c =>
    !(List.finRange 24).any fun x => (boundaryRefusals s x).any fun d => d.blocks.contains c.1 := by
  have before : (expiredState s).admission.store = s.admission.store := by
    rw [expiredState, expireAtBoundary_admission, struckState_store]
  rw [(asDrained_frameBoundary s).admission, (refusals_drainedState s).store, before]

theorem frameBoundary_lists (s : State) (q : Fin 64) : (frameBoundary s).paths.orderLists.get q =
    (s.paths.orderLists.get q).filter fun y => !(expiringEntries s).any (isLiveWrite q y) &&
      !(List.finRange 24).any fun x => holdsWrite (boundaryRefusals s x) q y := by
  rw [(asDrained_frameBoundary s).paths, (refusals_drainedState s).lists, (answered_expiredState s).lists,
    List.filter_filter]
  exact List.filter_congr fun y _ => Bool.and_comm ..

/-! ### The pairs -/

/-- Each pair over a boundary: its guard counter falls, and it settles where that leaves nothing to wait for (R138). -/
theorem frameBoundary_pair (s : State) (p : PairId) (e : PairEntry) (h : s.pairHalt.pairs.get p = e) :
    (frameBoundary s).pairHalt.pairs.get p =
      if e.valid = true ∧ e.inGuard = true then
        { e with
          counter := e.counter - 1
          inGuard := !decide (e.counter - 1 = 0 ∧
            outstandingWrites (frameBoundary s) (if e.active = .primary then e.secondary else e.primary) = 0) }
      else e := by
  have after : (frameBoundary s).pairHalt = (guardsBoundary (drainedState s)).pairHalt := by
    rw [frameBoundary_eq]
    simp [loadedState, readyState]
  have before : (drainedState s).pairHalt = s.pairHalt := by simp [drainedState, expiredState, struckState]
  have ticked : ({ drainedState s with pairHalt.pairs := (drainedState s).pairHalt.pairs.map tickGuard } :
      State).pairHalt.pairs.get p = tickGuard e := by
    rw [← h, ← before]
    exact Table.get_map ..
  have writes : ∀ x, outstandingWrites { drainedState s with
      pairHalt.pairs := (drainedState s).pairHalt.pairs.map tickGuard } x = outstandingWrites (frameBoundary s) x :=
    fun x => by rw [outstandingWrites, outstandingWrites, (asDrained_frameBoundary s).paths]
  have passes := settle_iff _ p _ ticked
  rw [after, guardsBoundary, (testSettles_spec _).1, ticked]
  simp only [writes] at passes
  by_cases waits : e.valid = true ∧ e.inGuard = true
  · have counted : tickGuard e = { e with counter := e.counter - 1 } := if_pos waits
    rw [counted] at passes ⊢
    rw [if_pos waits]
    by_cases settles : e.counter - 1 = 0 ∧
        outstandingWrites (frameBoundary s) (if e.active = .primary then e.secondary else e.primary) = 0
    · rw [if_pos (passes.2 ⟨waits.1, waits.2, settles⟩), decide_eq_true settles]
      rfl
    · rw [if_neg fun h => settles (passes.1 h).2.2, decide_eq_false settles, waits.2]
      rfl
  · have kept : tickGuard e = e := if_neg waits
    rw [kept] at passes ⊢
    rw [if_neg waits, if_neg (fun h => waits ⟨(passes.1 h).1, (passes.1 h).2.1⟩)]

/-- Settles O33: the boundary's drains are handled each on its own, on what its expiries left. -/
theorem boundaryCountsDrainsAndGuards : Obligations.BoundaryCountsDrainsAndGuards := by
  unfold Obligations.BoundaryCountsDrainsAndGuards
  have boundary : ∀ s, Running s → exec .frameBoundary s = .next (frameBoundary s) := fun s running => by
    rw [exec_frameBoundary, whileRunning_of_running running]
  refine ⟨fun s running _ => ⟨frameBoundary s, boundary s running, fun x => ?_, alertSet_fence_frameBoundary s,
    boundaryRefusals s, fun x => ⟨fun ends => ?_, fun stays => ?_⟩, frameBoundary_wires s, frameBoundary_store s,
    frameBoundary_lists s⟩,
    fun s running => ⟨frameBoundary s, boundary s running, fun p => frameBoundary_pair s p _ rfl⟩⟩
  · have finished := drainFinished_expiredState s x
    exact ⟨frameBoundary_of_idle, fun done off => frameBoundary_of_off (finished.2 done) off,
      fun done quiesced => frameBoundary_of_quiesced (finished.2 done) quiesced,
      fun draining unfinished paused => frameBoundary_of_paused draining (mt finished.1 unfinished) paused,
      fun draining unfinished counted set due =>
        frameBoundary_of_due draining (mt finished.1 unfinished) counted set due,
      fun draining unfinished counted notDue =>
        frameBoundary_of_notDue draining (mt finished.1 unfinished) counted notDue,
      frameBoundary_of_kept, frameBoundary_pauseMark s x⟩
  · rw [boundaryRefusals, if_pos ((endsNow_expiredState s x).2 ends)]
    exact byStamp_inStampOrder _
  · rw [boundaryRefusals, if_neg (mt (endsNow_expiredState s x).1 stays)]

end Sys2Proof.Machine
end

