-- ==== Sys2Proof/Proofs/Moves.lean ====
section
/-! PROOFS. Every step as a chain of moves. A move is one elementary change of the state, with what holds where it is made; a law that the resets, the moves and an admission keep is kept by every step. -/

namespace Sys2Proof.Machine

/-! ### The moves -/

/-- An elementary change of the state. The conditions are those under which the commands make it. -/
inductive Move : State → State → Prop where
  /-- The port or the bus, but for PAGE and INDEX. -/
  | port (s : State) (p : ManagementPort) (bus : List BusOutput) (page : p.page = s.port.page)
      (index : p.index = s.port.index) : Move s { s with port := p, wires.bus := bus }
  | writePage (v : Byte) (s : State) : Move s (writePage v s)
  | writeIndex (v : Byte) (s : State) : Move s (writeIndex v s)
  | answer (r : Response) (s : State) : Move s (sendUp r s)
  /-- The alert registers and the global counters. -/
  | notice (s : State) (flags enables : BitVec 7) (strays staleFrames : BitVec 32) : Move s { s with
      observe := { s.observe with flags := flags, enables := enables, strays := strays, staleFrames := staleFrames } }
  | count (x : TenantId) (f : TenantCounters → TenantCounters) (s : State)
      (bounded : ∀ c, c.maxHeadAge ≤ 255 → (f c).maxHeadAge ≤ 255) : Move s (countTenant x f s)
  | handRecord (r : FrameRecord) (s : State) : Move s (handRecord r s)
  | takeLevel (c : Nat) (s : State) (level : c ≤ 3) : Move s (takeLevel c s)
  | pressureFall (s : State) : Move s (pressureFall s)
  | openFrame (s : State) : Move s (openFrame s)
  | ageBoundary (s : State) : Move s (ageBoundary s)
  | strikeBoundary (s : State) : Move s (strikeBoundary s)
  | expireAtBoundary (s : State) : Move s (expireAtBoundary s)
  | expireEntry (tag : Byte) (s : State) : Move s (expireEntry tag s)
  | tickDrainClock (x : TenantId) (s : State) : Move s (changeRecord x tickDrainClock s)
  | tickGuards (s : State) : Move s { s with pairHalt.pairs := s.pairHalt.pairs.map tickGuard }
  | settle (p : PairId) (s : State) : Move s (testSettle p s)
  | mode (s : State) (m : PortMode) (pending : PendingMode) :
      Move s { s with control.mode := m, control.pendingMode := pending }
  /-- The snapshot of a boundary and the load that follows it. -/
  | load (k : LoadKind) (s : State) : Move s (loadCredit k (takeSnapshot s))
  | pauseMarks (s : State) (marked : TenantId → Bool) :
      Move s { s with records := Table.build fun x => { recordAt s x with pauseMark := marked x } }
  | solving (s : State) (b : Bool) : Move s { s with solver.solving := b }
  | solved (s : State) : Move s { s with
      solver.solving := false, solver.result := solve s.solver.snapshot s.timer.number, solver.newResult := true }
  | passTime (s : State) (inside : s.timer.phase + 1 < 16 * s.timer.frameLength) :
      Move s { s with timer.phase := s.timer.phase + 1 }
  | reachLendPhase (s : State) (ahead : s.timer.phase < lendPhase s.timer) :
      Move s { s with timer.phase := lendPhase s.timer }
  | lendOne (s : State) (x : TenantId) : Move s (lendOne s x)
  | switchReset (s : State) : Move s (switchReset s)
  | switchUp (s : State) : Move s { s with links.switchUp := true }
  | losePool (s : State) : Move s (losePool s)
  | poolUp (s : State) : Move s { s with links.poolUp := true }
  | clearLinkCount (p : FabricPort) (s : State) : Move s (clearLinkCount p s)
  | haltLine (s : State) (req condition : Bool) :
      Move s { s with pairHalt.haltReq := req, pairHalt.haltCondition := condition }
  | started (x : TenantId) (s : State) (off : (recordAt s x).state = .off)
      (fits : floorSum s + (recordAt s x).floor ≤ effectiveCap s) :
      Move s (changeRecord x (fun r => { r with state := .active, target := .none }) s)
  | drainBegun (x : TenantId) (target : DrainTarget) (s : State) (active : (recordAt s x).state = .active)
      (named : target ≠ .none) : Move s (changeRecord x (fun r => { r with
        state := .draining, target := target, drainMark := s.admission.nextStamp, drainClock := 0, pauseMark := true }) s)
  | quiesced (x : TenantId) (s : State) (finished : DrainFinished s x) : Move s
      (changeRecord x (fun r => { r with state := .quiesced, target := .none, fenceDue := false }) s)
  /-- A drain's tenant with its queue refused comes to rest in OFF or FENCED. -/
  | closed (x : TenantId) (state : TenantState) (s : State) (draining : (recordAt s x).state = .draining)
      (resting : state = .off ∨ state = .fenced) (empty : queuedOf (queuesAt s x) = []) :
      Move s (changeRecord x (fun r => { r with state := state, target := .none, fenceDue := false }) s)
  | stopped (x : TenantId) (s : State) (quiesced : (recordAt s x).state = .quiesced)
      (empty : queuedOf (queuesAt s x) = []) : Move s (changeRecord x (fun r => { r with state := .off }) s)
  | resumed (x : TenantId) (s : State)
      (paused : (recordAt s x).state = .draining ∨ (recordAt s x).state = .quiesced) :
      Move s (changeQueues x (fun u => { u with rq := u.rq.map unpark, wq := u.wq.map unpark })
        (changeRecord x (fun r => { r with state := .active, target := .none }) s))
  | cleared (x : TenantId) (s : State) (fenced : (recordAt s x).state = .fenced) :
      Move s (changeRecord x (fun r => { r with state := .off }) s)
  | discardAll (x : TenantId) (s : State) : Move s (discardAll x s)
  | discardWrites (x : TenantId) (s : State) : Move s (discardWrites x s)
  | retryMark (x : TenantId) (b : Bool) (s : State) : Move s (changeQueues x (fun u => { u with retryMark := b }) s)
  | clearCredit (x : TenantId) (s : State) : Move s (changeCredit x (fun e => { e with credit := 0, spent := 0 }) s)
  | clearStrikes (x : TenantId) (s : State) :
      Move s (changeRecord x (fun r => { r with strikes := 0, demoted := false }) s)
  | flipPair (p : PairId) (s : State) (valid : (s.pairHalt.pairs.get p).valid = true) :
      Move s { s with pairHalt.pairs := s.pairHalt.pairs.modify p fun e =>
        { e with inGuard := true, counter := e.guard, active := otherMember e.active } }
  | runtimeReset (s : State) : Move s (runtimeReset s)
  | release (c : Candidate) (k : ReleaseClass) (tag : Nat) (s : State) (free : s.arbiter.slot = none)
      (up : s.links.poolUp = true) (lowest : lowestFreeTag s = some tag) (chosen : chooseRelease s = some (c, k)) :
      Move s (release c k tag s)
  | endSend (s : State) : Move s (endSend s)
  | forward (tag : Byte) (e : OutstandingEntry) (status : PoolStatus) (data : List Byte) (s : State)
      (entry : s.paths.entries.get tag.toFin = some e) : Move s (forwardResponse tag e status data s)
  | writeFp (v : Nat) (s : State) : Move s (writeFp v s)
  | writeCap (v : Nat) (s : State) : Move s (writeCap v s)
  | writeWf (v : Nat) (s : State) : Move s (writeWf v s)
  | writeLp (v : Nat) (s : State) : Move s (writeLp v s)
  | writeCto (v : Nat) (s : State) : Move s (writeCto v s)
  | classifier (s : State) (c : Classifier) : Move s { s with classifier := c }
  | writeTenantField (x : TenantId) (f : TenantField) (v : Nat) (s : State) (fits : v < 256 ^ (tenantPlace f).2) :
      Move s (writeTenantField x f v s)
  | writeAttrs (x : TenantId) (a : Attributes) (s : State) : Move s (writeAttrs x a s)
  | writePair (p : PairId) (w : PairWrite) (s : State) : Move s (writePair p w s)

/-- A chain of moves. -/
abbrev Moves : State → State → Prop := Relation.ReflTransGen Move

theorem Move.moves {s t : State} (h : Move s t) : Moves s t := .single h

/-- What every move keeps, a chain keeps. -/
theorem Moves.keeps {P : State → Prop} (move : ∀ {s t}, Move s t → P s → P t) {s t : State} (h : Moves s t) (hs : P s) :
    P t := by
  induction h with
  | refl => exact hs
  | tail _ last ih => exact move last ih

/-- The state in which the release of a reset opens its frame (R44, R141, R151). -/
def openedFrame (s : State) : State := openFrame (if s.pairHalt.haltReq then assertHalt (awake s) else awake s)

/-- What the resets and their releases make of the state, before any move. -/
inductive Opening : State → State → Prop where
  | none (s : State) : Opening s s
  | powerOnReset (s : State) : Opening s (holdReset .powerOn s)
  | pinReset (s : State) (apart : s.control.held ≠ .powerOn) :
      Opening s { holdReset .pin s with control.straps := s.control.straps, control.cause := s.control.cause }
  | powerOnRelease (straps : Straps) (s : State) (held : s.control.held = .powerOn) :
      Opening s (openedFrame { s with control.straps := straps, control.cause := .powerOn })
  | pinResetRelease (s : State) (held : s.control.held = .pin) :
      Opening s (openedFrame { s with control.cause := .pin })

@[simp] theorem openedFrame_links (s : State) : (openedFrame s).links = s.links := by unfold openedFrame; split <;> rfl
@[simp] theorem openedFrame_admission (s : State) : (openedFrame s).admission = s.admission := by
  unfold openedFrame; split <;> rfl
@[simp] theorem openedFrame_credit (s : State) : (openedFrame s).credit = s.credit := by
  unfold openedFrame; split <;> rfl
@[simp] theorem openedFrame_arbiter (s : State) : (openedFrame s).arbiter = s.arbiter := by
  unfold openedFrame; split <;> rfl
@[simp] theorem openedFrame_paths (s : State) : (openedFrame s).paths = s.paths := by unfold openedFrame; split <;> rfl
@[simp] theorem openedFrame_observe (s : State) : (openedFrame s).observe = s.observe := by
  unfold openedFrame; split <;> rfl
@[simp] theorem openedFrame_port (s : State) : (openedFrame s).port = s.port := by unfold openedFrame; split <;> rfl
@[simp] theorem openedFrame_pairs (s : State) : (openedFrame s).pairHalt.pairs = s.pairHalt.pairs := by
  unfold openedFrame; split <;> rfl
@[simp] theorem openedFrame_timer (s : State) : (openedFrame s).timer = { s.timer with
    number := s.timer.number + 1, frameLength := s.timer.fp, frameLend := s.timer.lp, phase := 0, startDue := false } := by
  unfold openedFrame; split <;> rfl
@[simp] theorem openedFrame_straps (s : State) : (openedFrame s).control.straps = s.control.straps := by
  unfold openedFrame; split <;> rfl
@[simp] theorem openedFrame_solver (s : State) : (openedFrame s).solver = { s.solver with solving := false } := by
  unfold openedFrame; split <;> rfl

/-- The release of a reset changes at most the pause mark of a Tenant Record (R141). -/
theorem openedFrame_recordAt (s : State) (x : TenantId) :
    ∃ marked, recordAt (openedFrame s) x = { recordAt s x with pauseMark := marked } := by
  rw [openedFrame]
  split
  · exact ⟨_, Table.get_map ..⟩
  · exact ⟨_, rfl⟩

/-- A block that no release of a reset changes stands after an opening, or holds its power-on value. -/
theorem Opening.block {α : Type} {block : State → α} {s t : State} (h : Opening s t)
    (reset : ∀ held s, block (holdReset held s) = block State.powerOn)
    (control : ∀ s c, block { s with control := c } = block s) (opened : ∀ s, block (openedFrame s) = block s) :
    block t = block s ∨ block t = block State.powerOn := by
  cases h with
  | none => exact .inl rfl
  | powerOnReset => exact .inr (reset _ _)
  | pinReset => exact .inr ((control _ _).trans (reset .pin s))
  | powerOnRelease => exact .inl ((opened _).trans (control _ _))
  | pinResetRelease => exact .inl ((opened _).trans (control _ _))

/-- An arrival that passes the tests of R25 to R27 is admitted. -/
inductive Admits : State → State → Prop where
  | mk (x : TenantId) (q : RequesterId) (tag : Byte) (b : RequestBody) (s : State) (fits : lengthFits b = true)
      (notOff : (recordAt s x).state ≠ .off) (notFenced : (recordAt s x).state ≠ .fenced)
      (room : descriptorTest s x = true) (blocks : blocksNeeded b ≤ freeBlockCount s) :
      Admits s (admitArrival x q tag b s)

/-! #### The blocks that the link losses leave -/

@[simp] theorem switchReset_timer (s : State) : (switchReset s).timer = s.timer := by simp [switchReset]
@[simp] theorem switchReset_solver (s : State) : (switchReset s).solver = s.solver := by simp [switchReset]
@[simp] theorem switchReset_credit (s : State) : (switchReset s).credit = s.credit := by simp [switchReset]
@[simp] theorem switchReset_arbiter (s : State) : (switchReset s).arbiter = s.arbiter := by simp [switchReset]
@[simp] theorem switchReset_records (s : State) : (switchReset s).records = s.records := by simp [switchReset]
@[simp] theorem switchReset_pairHalt (s : State) : (switchReset s).pairHalt = s.pairHalt := by simp [switchReset]
@[simp] theorem switchReset_control (s : State) : (switchReset s).control = s.control := by simp [switchReset]
@[simp] theorem switchReset_observe (s : State) : (switchReset s).observe = s.observe := by simp [switchReset]
@[simp] theorem switchReset_port (s : State) : (switchReset s).port = s.port := by simp [switchReset]
@[simp] theorem losePool_timer (s : State) : (losePool s).timer = s.timer := by simp [losePool]
@[simp] theorem losePool_solver (s : State) : (losePool s).solver = s.solver := by simp [losePool]
@[simp] theorem losePool_credit (s : State) : (losePool s).credit = s.credit := by simp [losePool]
@[simp] theorem losePool_records (s : State) : (losePool s).records = s.records := by simp [losePool]
@[simp] theorem losePool_pairHalt (s : State) : (losePool s).pairHalt = s.pairHalt := by simp [losePool]
@[simp] theorem losePool_control (s : State) : (losePool s).control = s.control := by simp [losePool]
@[simp] theorem losePool_port (s : State) : (losePool s).port = s.port := by simp [losePool]

/-! ### Moves in a row -/

theorem moves_foldl {α : Type} {f : State → α → State} (h : ∀ s a, Moves s (f s a)) (l : List α) (s : State) :
    Moves s (l.foldl f s) := by
  induction l generalizing s with
  | nil => exact .refl
  | cons a l ih => exact (h s a).trans (ih (f s a))

theorem moves_raiseAlert (f : AlertFlag) (s : State) : Moves s (raiseAlert f s) :=
  (Move.notice s _ s.observe.enables s.observe.strays s.observe.staleFrames).moves

theorem moves_takeStray (s : State) : Moves s (takeStray s) :=
  (Move.notice s _ s.observe.enables _ s.observe.staleFrames).moves

/-- The port and the bus changed, but for PAGE and INDEX. -/
theorem moves_port {s t : State} (rest : t = { s with port := t.port, wires.bus := t.wires.bus })
    (page : t.port.page = s.port.page) (index : t.port.index = s.port.index) : Moves s t := by
  rw [rest]
  exact (Move.port s t.port t.wires.bus page index).moves

theorem moves_refuseWrite (r : RefuseReason) (s : State) : Moves s (refuseWrite r s) :=
  moves_port rfl rfl rfl

theorem moves_abortSolve (s : State) : Moves s (abortSolve s) := (Move.solving s false).moves

/-! #### Drains and settlings -/

/-- Refusing a tenant's descriptors reads no record. -/
theorem discardAll_changeRecord (x y : TenantId) (f : TenantRecord → TenantRecord) (s : State) :
    discardAll x (changeRecord y f s) = changeRecord y f (discardAll x s) := by
  have one : ∀ u d, refuseDescriptor x (changeRecord y f u) d = changeRecord y f (refuseDescriptor x u d) := fun u d => by
    simp only [refuseDescriptor, endWrite, sendUp]
    by_cases write : d.kind = .write <;> cases up : u.links.switchUp <;> simp [write, up] <;> rfl
  have all : ∀ (l : List Descriptor) u,
      l.foldl (refuseDescriptor x) (changeRecord y f u) = changeRecord y f (l.foldl (refuseDescriptor x) u) := fun l => by
    induction l with
    | nil => exact fun _ => rfl
    | cons d l ih => intro u; rw [List.foldl_cons, List.foldl_cons, one, ih]
  exact all _ (changeQueues x (fun q => { q with rq := [], wq := [] }) s)

theorem discardAll_empty (x : TenantId) (s : State) : queuedOf (queuesAt (discardAll x s) x) = [] := by
  rw [discardAll_queuesAt, if_pos rfl]; rfl

/-- A drain's queue refused and its tenant brought to rest. -/
theorem moves_closed {x : TenantId} {state : TenantState} {s : State} (draining : (recordAt s x).state = .draining)
    (resting : state = .off ∨ state = .fenced) : Moves s
      (changeRecord x (fun r => { r with state := state, target := .none, fenceDue := false }) (discardAll x s)) := by
  refine (Move.discardAll x s).moves.tail (.closed x state _ ?_ resting (discardAll_empty x s))
  rw [recordAt_congr (discardAll_records x s)]
  exact draining

/-- A drain ends in its target; one that waits has to be finished. -/
theorem moves_completeDrain {x : TenantId} {s : State} (draining : (recordAt s x).state = .draining)
    (waits : (recordAt s x).target = .quiesced → DrainFinished s x) : Moves s (completeDrain x s) := by
  rw [completeDrain]
  split
  · exact moves_closed draining (.inl rfl)
  · exact (Move.quiesced x s (waits ‹_›)).moves
  · exact .refl

theorem moves_completeDrain_of_finished {x : TenantId} {s : State} (finished : DrainFinished s x) :
    Moves s (completeDrain x s) := moves_completeDrain finished.1 fun _ => finished

theorem moves_testDrain (x : TenantId) (s : State) : Moves s (testDrain x s) := by
  rw [testDrain]
  split
  · exact moves_completeDrain_of_finished ((drainDone_iff s x).1 ‹_›)
  · exact .refl

theorem moves_testDrains (s : State) : Moves s (testDrains s) := moves_foldl (fun s x => moves_testDrain x s) _ s

theorem moves_testSettles (s : State) : Moves s (testSettles s) := moves_foldl (fun s p => (Move.settle p s).moves) _ s

theorem moves_afterFreeing (s : State) : Moves s (afterFreeing s) := (moves_testDrains s).trans (moves_testSettles _)

theorem moves_beginDrain {x : TenantId} {target : DrainTarget} {s : State} (active : (recordAt s x).state = .active)
    (named : target ≠ .none) : Moves s (beginDrain x target s) :=
  (Move.drainBegun x target s active named).moves.trans (moves_testDrain x _)

theorem moves_fenceIfDue (x : TenantId) (s : State) : Moves s (fenceIfDue x s) := by
  rcases fenceIfDue_cases x s with ⟨draining, -, e⟩ | ⟨-, e⟩
  · rw [e, fence, discardAll_changeRecord]
    exact (moves_closed draining (.inr rfl)).trans (moves_raiseAlert .fence _)
  · rw [e]

theorem moves_drainAtBoundary (s : State) (x : TenantId) : Moves s (drainAtBoundary s x) := by
  rw [drainAtBoundary]
  split
  · exact moves_completeDrain_of_finished ((drainDone_iff s x).1 ‹_›)
  · exact (Move.tickDrainClock x s).moves.trans (moves_fenceIfDue x _)

/-! #### The frame -/

theorem moves_modeBoundary (s : State) : Moves s (modeBoundary s) := by
  rw [modeBoundary]
  split
  · exact .refl
  · exact (Move.mode s .transparent .none).moves
  · exact (Move.mode s .govern .none).moves

theorem moves_noteStale (s : State) : Moves s (noteStale s) := by
  have counted : Moves s { s with observe.staleFrames := s.observe.staleFrames + 1 } :=
    (Move.notice s s.observe.flags s.observe.enables s.observe.strays (s.observe.staleFrames + 1)).moves
  have handed := counted.tail (.handRecord (recordOf s.solver.result (s.timer.number - 1) .stale) _)
  have raised := handed.trans (moves_raiseAlert .stale _)
  exact raised.tail (.takeLevel 3 _ (Nat.le_refl 3))

theorem moves_loadBoundary (k : LoadKind) (s : State) : Moves s (loadBoundary k (takeSnapshot s)) := by
  have loaded := (Move.load k s).moves
  rcases loadBoundary_cases k (takeSnapshot s) with ⟨-, e⟩ | ⟨-, e⟩
  · rw [e]; exact loaded.trans (moves_noteStale _)
  · rw [e]; exact loaded

theorem moves_renewPauseMarks (s : State) : Moves s (renewPauseMarks s) :=
  (Move.pauseMarks s fun x => !releasePermitted s x).moves

theorem moves_drainsBoundary (s : State) : Moves s (drainsBoundary s) := moves_foldl moves_drainAtBoundary _ s

theorem moves_guardsBoundary (s : State) : Moves s (guardsBoundary s) :=
  (Move.tickGuards s).moves.trans (moves_testSettles _)

/-- A boundary from the opening of its frame on. -/
def frameFrom (startDue : Bool) (s : State) : State :=
  let ready := takeSnapshot (modeBoundary (guardsBoundary (drainsBoundary (expireAtBoundary
    (strikeBoundary (ageBoundary s))))))
  { renewPauseMarks (loadBoundary (loadKind startDue ready) ready) with solver.solving := true }

theorem frameBoundary_eq_frameFrom (s : State) : frameBoundary s = frameFrom s.timer.startDue (openFrame s) := rfl

theorem moves_frameFrom (startDue : Bool) (s : State) : Moves s (frameFrom startDue s) := by
  have expired := ((Move.ageBoundary s).moves.tail (.strikeBoundary _)).tail (.expireAtBoundary _)
  have settled := (expired.trans (moves_drainsBoundary _)).trans (moves_guardsBoundary _)
  have loaded := fun k => (settled.trans (moves_modeBoundary _)).trans (moves_loadBoundary k _)
  exact ((loaded _).trans (moves_renewPauseMarks _)).tail (.solving _ true)

theorem moves_frameBoundary (s : State) : Moves s (frameBoundary s) := by
  rw [frameBoundary_eq_frameFrom]
  exact (Move.openFrame s).moves.trans (moves_frameFrom _ _)

theorem moves_expiryEvent (tag : Byte) (s : State) : Moves s (expiryEvent tag s) := by
  rw [expiryEvent]
  split
  · exact (Move.expireEntry tag s).moves.trans (moves_afterFreeing _)
  · exact .refl

theorem solvedLevel_le (r : SolveResult) : solvedLevel r ≤ 3 := by
  rw [solvedLevel]
  split <;> [skip; split <;> [skip; split]] <;> omega

theorem moves_completeSolve (s : State) : Moves s (completeSolve s) := by
  rcases completeSolve_cases s with ⟨-, e⟩ | ⟨-, e⟩
  · rw [e]
  · rw [e]
    exact ((Move.solved s).moves.tail (.handRecord _ _)).tail (.takeLevel _ _ (solvedLevel_le _))

theorem moves_lendAll (s : State) : Moves s (lendAll s) := moves_foldl (fun s x => (Move.lendOne s x).moves) _ s

theorem moves_lendPoint (s : State) : Moves s (lendPoint s) := by
  rw [lendPoint]
  split
  · rename_i h
    exact (Move.reachLendPhase s h.2).moves.trans (moves_lendAll _)
  · exact .refl

theorem moves_tick (s : State) : Moves s (tick s) := by
  rw [tick]
  split
  · exact .refl
  · split
    · exact moves_frameBoundary s
    · have passed := (Move.passTime s (by omega)).moves
      refine passed.trans (Relation.ReflTransGen.trans (b := solveDue { s with timer.phase := s.timer.phase + 1 }) ?_ ?_)
      · rw [solveDue]
        split
        · exact moves_completeSolve _
        · exact .refl
      · rw [lendDue]
        split
        · exact moves_lendAll _
        · exact .refl

/-! #### Links and lines -/

theorem moves_switchLinkReset (s : State) : Moves s (switchLinkReset s) := by
  rcases switchLinkReset_cases s with ⟨-, e⟩ | ⟨-, e⟩
  · rw [e]
  · rw [e]; exact (Move.switchReset s).moves.trans (moves_testDrains _)

theorem moves_pauseAll (s : State) : Moves s (pauseAll s) := by
  have marked : pauseAll s = { s with records := Table.build fun x => { recordAt s x with pauseMark := true } } := by
    have records : (s.records.map fun r => { r with pauseMark := true }) =
        Table.build fun x => { recordAt s x with pauseMark := true } :=
      Table.ext_get fun x => by rw [Table.get_map, Table.get_build]; rfl
    rw [pauseAll, records]
  rw [marked]
  exact (Move.pauseMarks s _).moves

theorem moves_poolLinkLoss (s : State) : Moves s (poolLinkLoss s) := by
  cases up : s.links.poolUp with
  | false => rw [poolLinkLoss, if_neg (by simp [up])]
  | true =>
    rw [poolLinkLoss_of_up up]
    exact (Move.losePool s).moves.trans ((moves_raiseAlert _ _).trans ((moves_pauseAll _).trans (moves_afterFreeing _)))

theorem moves_assertHalt (s : State) : Moves s (assertHalt s) := by
  have records : (s.records.map fun r => { r with pauseMark := r.pauseMark || r.attrs.haltable }) =
      Table.build fun x => { recordAt s x with pauseMark := (recordAt s x).pauseMark || (recordAt s x).attrs.haltable } :=
    Table.ext_get fun x => by rw [Table.get_map, Table.get_build]; rfl
  rw [assertHalt, records]
  exact (Move.haltLine s s.pairHalt.haltReq true).moves.tail (.pauseMarks _ _)

theorem moves_riseHalt (s : State) : Moves s (riseHalt s) := by
  have risen := (Move.haltLine s true s.pairHalt.haltCondition).moves
  rw [riseHalt]
  split
  · exact .refl
  · split
    · exact risen.trans (moves_assertHalt _)
    · exact risen

/-! #### The commands given through CMD -/

theorem moves_onTenant {f : TenantId → State → State × CmdResult} (h : ∀ x s, Moves s (f x s).1) (arg : Byte)
    (s : State) : Moves s (onTenant arg f s).1 := by
  rw [onTenant]
  split
  · exact .refl
  · exact h _ s

theorem moves_startTenant (x : TenantId) (s : State) : Moves s (startTenant x s).1 := by
  rw [startTenant]
  split
  · split
    · exact (Move.started x s ‹_› ‹_›).moves
    · exact .refl
  · exact .refl

theorem moves_quiesceTenant (x : TenantId) (s : State) : Moves s (quiesceTenant x s).1 := by
  rw [quiesceTenant]
  split
  · exact moves_beginDrain ‹_› nofun
  · exact .refl

theorem moves_stopTenant (x : TenantId) (s : State) : Moves s (stopTenant x s).1 := by
  rw [stopTenant]
  split
  · exact moves_beginDrain ‹_› nofun
  · refine (Move.discardAll x s).moves.tail (.stopped x _ ?_ (discardAll_empty x s))
    rw [recordAt_congr (discardAll_records x s)]
    assumption
  · exact .refl

theorem moves_resumeTenant (x : TenantId) (s : State) : Moves s (resumeTenant x s).1 := by
  rw [resumeTenant]
  split
  · exact (Move.resumed x s ‹_›).moves
  · exact .refl

theorem moves_clearTenant (x : TenantId) (s : State) : Moves s (clearTenant x s).1 := by
  rw [clearTenant]
  split
  · exact (Move.cleared x s ‹_›).moves
  · exact .refl

theorem moves_resetTenant (x : TenantId) (s : State) : Moves s (resetTenant x s).1 := by
  have emptied := (Move.discardAll x s).moves.tail (.clearCredit x _)
  have unmarked := (emptied.tail (.retryMark x false _)).tail (.clearStrikes x _)
  exact (unmarked.tail (.count x _ _ fun _ _ => Nat.zero_le _)).trans (moves_testDrain x _)

theorem moves_sweepWrites (x : TenantId) (s : State) : Moves s (sweepWrites x s) := by
  rcases sweepWrites_cases x s with ⟨finished, off, e⟩ | ⟨-, e⟩
  · rw [e]
    refine moves_completeDrain ?_ fun quiesced => absurd (off.symm.trans quiesced) nofun
    rw [← recordAt_congr (discardWrites_records x s)]
    exact finished.1
  · rw [e]; exact (Move.discardWrites x s).moves.trans (moves_testDrain x _)

theorem moves_pairSwap (arg : Byte) (s : State) : Moves s (pairSwap arg s).1 := by
  rw [pairSwap]
  split
  · exact .refl
  · split
    · exact .refl
    · rename_i valid
      split
      · exact .refl
      · rw [swapPair_eq]
        exact (Move.flipPair _ s (by simpa using valid)).moves.trans ((moves_sweepWrites _ _).tail (.settle _ _))

theorem moves_enterHold (s : State) : Moves s (enterHold s) := by
  rw [enterHold]
  split
  · exact (Move.mode s .hold .none).moves
  · exact (Move.pauseMarks s _).moves.tail (.mode _ .hold .none)

theorem moves_modeSet (arg : Byte) (s : State) : Moves s (modeSet arg s).1 := by
  rw [modeSet]
  split
  · exact (Move.mode s s.control.mode .transparent).moves
  · exact (Move.mode s s.control.mode .govern).moves
  · exact moves_enterHold s
  · exact .refl

theorem moves_runCommand (code arg : Byte) (s : State) : Moves s (runCommand code arg s).1 := by
  rw [runCommand]
  split
  · exact moves_onTenant moves_startTenant arg s
  · exact moves_onTenant moves_quiesceTenant arg s
  · exact moves_onTenant moves_stopTenant arg s
  · exact moves_onTenant moves_resumeTenant arg s
  · exact moves_onTenant moves_clearTenant arg s
  · exact moves_onTenant moves_resetTenant arg s
  · exact moves_pairSwap arg s
  · exact moves_modeSet arg s
  · exact (Move.runtimeReset s).moves
  · exact .refl

theorem moves_commandEvent (code : Byte) (s : State) : Moves s (commandEvent code s) :=
  (moves_runCommand code s.port.cmdArg s).trans (moves_port rfl rfl rfl)

theorem moves_issueCommand (code arg : Byte) (s : State) : Moves s (issueCommand code arg s) := by
  have taken : Moves s (commandTaken arg s) := moves_port rfl rfl rfl
  exact taken.trans (moves_commandEvent code _)

/-! #### The management writes -/

theorem moves_writeDirect (f : DirectField) (v : Nat) (s : State) : Moves s (writeDirect f v s) := by
  cases f with
  | status =>
    rw [writeDirect, writeStatus]
    split
    · exact moves_port rfl rfl rfl
    · exact .refl
  | cmd => exact moves_commandEvent _ s
  | cmdArg => exact moves_port rfl rfl rfl
  | page => exact (Move.writePage _ s).moves
  | index => exact (Move.writeIndex _ s).moves
  | fp => exact (Move.writeFp v s).moves
  | cap => exact (Move.writeCap v s).moves
  | lp => exact (Move.writeLp v s).moves
  | wf => exact (Move.writeWf v s).moves
  | cto => exact (Move.writeCto v s).moves
  | defaultTenant =>
    rcases writeDefaultTenant_cases (BitVec.ofNat 8 v) s with ⟨-, e⟩ | ⟨x, -, e⟩
    · rw [writeDirect, e]; exact moves_refuseWrite _ s
    · rw [writeDirect, e]; exact (Move.classifier s _).moves.trans (moves_abortSolve _)
  | alertFlags => exact (Move.notice s _ s.observe.enables s.observe.strays s.observe.staleFrames).moves
  | alertEnables => exact (Move.notice s s.observe.flags _ s.observe.strays s.observe.staleFrames).moves
  | switchResets => exact (Move.clearLinkCount .switch s).moves
  | poolLosses => exact (Move.clearLinkCount .pool s).moves
  | strays => exact (Move.notice s s.observe.flags s.observe.enables 0 s.observe.staleFrames).moves
  | staleFrames => exact (Move.notice s s.observe.flags s.observe.enables s.observe.strays 0).moves
  | id | mode | cmdResult | effCap | alertCode | halt | resetCause | straps | links => exact .refl

theorem moves_writeClassifier (i : EntryId) (w : ClassifierWrite) (s : State) : Moves s (writeClassifier i w s) := by
  rcases writeClassifier_cases i w s with ⟨-, e⟩ | ⟨x, -, ⟨-, -, e⟩ | ⟨-, e⟩⟩
  · rw [e]; exact moves_refuseWrite _ s
  · rw [e]; exact (Move.classifier s _).moves
  · rw [e]; exact moves_refuseWrite _ s

theorem moves_writePairField (p : PairId) (f : PairField) (v : Nat) (s : State) : Moves s (writePairField p f v s) := by
  cases f with
  | flags => exact (Move.writePair p (.flags _) s).moves
  | primary => exact (Move.writePair p (.primary _) s).moves
  | secondary => exact (Move.writePair p (.secondary _) s).moves
  | guard => exact (Move.writePair p (.guard _) s).moves
  | state => exact .refl
  | counter => exact .refl

theorem moves_writeField {f : Field} {v : Nat} (fits : v < 256 ^ (fieldPlace f).2) (s : State) :
    Moves s (writeField f v s) := by
  cases f with
  | direct d => exact moves_writeDirect d v s
  | tenant x d => exact (Move.writeTenantField x d v s fits).moves
  | classifier i d => exact moves_writeClassifier i _ s
  | pair p d => exact moves_writePairField p d v s
  | counters x d => exact .refl
  | frames k d => exact .refl

theorem ofBytes_lt (l : List Byte) : ofBytes l < 256 ^ l.length := by
  induction l with
  | nil => simp [ofBytes]
  | cons b l ih =>
    have low := b.isLt
    rw [ofBytes, List.length_cons, Nat.pow_succ]
    omega

theorem fieldPlace_width_pos (f : Field) : 0 < (fieldPlace f).2 := by
  rcases f with f | ⟨x, f⟩ | ⟨i, f⟩ | ⟨p, f⟩ | ⟨x, f⟩ | ⟨k, f⟩ <;> cases f <;> exact Nat.succ_pos _

theorem assemble_lt (f : Field) (bytes : List (Nat × Byte)) (stored : Nat) (top : Byte) :
    assemble bytes stored (fieldPlace f).2 top < 256 ^ (fieldPlace f).2 := by
  have bound := ofBytes_lt ((List.range ((fieldPlace f).2 - 1)).map (heldByte bytes stored) ++ [top])
  have width := fieldPlace_width_pos f
  rw [List.length_append, List.length_map, List.length_range, List.length_singleton, Nat.sub_add_cancel width] at bound
  exact bound

theorem moves_writeByteAt (b : Byte) (s : State) : Moves s (writeByteAt b s) := by
  have latched : ∀ l, Moves s { s with port.writeLatch := l } := fun l => moves_port rfl rfl rfl
  rw [writeByteAt]
  split
  · exact latched none
  · dsimp only
    split
    · exact latched _
    · exact (latched none).trans (moves_writeField (assemble_lt _ _ _ _) _)

theorem moves_dataByteWritten (b : Byte) (s : State) : Moves s (dataByteWritten b s) := by
  have acked : Moves s (driveBus .ack { s with port.readLatch := none }) := moves_port rfl rfl rfl
  exact (acked.trans (moves_writeByteAt b _)).trans (moves_port rfl rfl rfl)

theorem moves_clearOnRead (f : Option Field) (s : State) : Moves s (clearOnRead f s) := by
  unfold clearOnRead
  split
  · exact (Move.count _ _ s fun _ _ => Nat.zero_le _).moves
  · rfl

theorem moves_dataByteSent (a : Bool) (s : State) : Moves s (dataByteSent a s) := by
  have driven : Moves s (driveBus (.byte (byteAtPointer s)) s) := moves_port rfl rfl rfl
  exact (driven.trans (moves_clearOnRead (fieldAt s) _)).trans (moves_port rfl rfl rfl)

theorem moves_startTransfer (target : BitVec 7) (d : Direction) (s : State) : Moves s (startTransfer target d s) := by
  rw [startTransfer]
  split <;> exact moves_port rfl rfl rfl

theorem moves_takePointer (b : Byte) (s : State) : Moves s (takePointer b s) := by
  rw [takePointer]
  split
  · exact moves_port rfl rfl rfl
  · exact .refl

/-! ### Every step -/

/-- What a command that acts while no reset is held makes of the state, as moves. -/
theorem moves_whileRunning {f : State → State} {s t : State} (h : whileRunning f s = .next t) (hf : Moves s (f s)) :
    Moves s t := by
  rcases whileRunning_cases h with ⟨-, rfl⟩ | ⟨-, rfl⟩
  · exact hf
  · exact .refl

/-- A whole write by moves of its field. -/
theorem moves_write {field : Field} {f : State → State} {s t : State} (hf : ∀ s, Moves s (f s))
    (h : whileRunning (fun s => f (dataByteTaken field s)) s = .next t) : Moves s t := by
  have taken : Moves s (dataByteTaken field s) := moves_port rfl rfl rfl
  exact moves_whileRunning h (taken.trans (hf _))

/-- An arrival is answered at once, or admitted (R5, R27). -/
theorem takeArrival_moves {q : RequesterId} {tag : Byte} {b : RequestBody} (fits : lengthFits b = true) (s : State) :
    Moves s (takeArrival q tag b s) ∨ Admits s (takeArrival q tag b s) := by
  have answered : ∀ status f, (∀ c : TenantCounters, (f c).maxHeadAge = c.maxHeadAge) → ∀ x,
      Moves s (countTenant x f (answerArrival q tag b status s)) := fun status f kept x =>
    (Move.answer _ s).moves.tail (.count x f _ fun c hc => (kept c).trans_le hc)
  rw [takeArrival]
  split
  · rcases admission_cases (classify s.classifier q b).1 (classify s.classifier q b).2 q tag b s with
      ⟨-, e⟩ | ⟨-, -, -, e⟩ | ⟨notOff, notFenced, room, blocks, e⟩
    · rw [e, refuseArrival]
      left
      split
      · exact (answered .refused (fun c => { c with refused := c.refused + 1 }) (fun _ => rfl) _).trans
          (moves_raiseAlert .unmapped _)
      · exact answered .refused (fun c => { c with refused := c.refused + 1 }) (fun _ => rfl) _
    · rw [e, retryArrival]
      have counted := answered .retry (fun c => { c with retry := c.retry + 1 }) (fun _ => rfl) (classify s.classifier q b).1
      exact .inl (counted.tail (.retryMark _ true _))
    · rw [e]
      exact .inr (.mk _ q tag b s fits notOff notFenced room blocks)
  · exact .inl .refl

theorem moves_restart (s : State) : Moves (openedFrame s) (restart s) := by
  rw [restart_eq, frameBoundary_eq_frameFrom]
  exact moves_frameFrom _ _

/-- A command is an opening and then moves, or then an admission. -/
theorem exec_moves {c : Instr} {s t : State} (h : exec c s = .next t) :
    ∃ u, Opening s u ∧ (Moves u t ∨ Admits u t) := by
  have moved : Moves s t → ∃ u, Opening s u ∧ (Moves u t ∨ Admits u t) := fun m => ⟨s, .none s, .inl m⟩
  cases c with
  | arrival q tag b =>
    rw [exec_arrival] at h
    split at h
    · rcases whileRunning_cases h with ⟨-, rfl⟩ | ⟨-, rfl⟩
      · exact ⟨s, .none s, takeArrival_moves ‹_› s⟩
      · exact moved .refl
    · cases h
  | powerOnReset =>
    obtain rfl := Host.Outcome.next.inj h
    exact ⟨_, .powerOnReset s, .inl .refl⟩
  | powerOnRelease straps =>
    obtain rfl := Host.Outcome.next.inj h
    rw [powerOnRelease]
    split
    · exact ⟨_, .powerOnRelease straps s ‹_›, .inl (moves_restart _)⟩
    · exact ⟨s, .none s, .inl .refl⟩
  | pinReset =>
    obtain rfl := Host.Outcome.next.inj h
    rw [pinReset]
    split
    · exact ⟨s, .none s, .inl .refl⟩
    · exact ⟨_, .pinReset s ‹_›, .inl .refl⟩
  | pinResetRelease =>
    obtain rfl := Host.Outcome.next.inj h
    rw [pinResetRelease]
    split
    · exact ⟨_, .pinResetRelease s ‹_›, .inl (moves_restart _)⟩
    · exact ⟨s, .none s, .inl .refl⟩
  | haltReqRising =>
    obtain rfl := Host.Outcome.next.inj h
    exact moved (moves_riseHalt s)
  | haltReqFalling =>
    obtain rfl := Host.Outcome.next.inj h
    exact moved (Move.haltLine s false false).moves
  | grant =>
    refine moved (moves_whileRunning h ?_)
    rcases takeGrant_cases s with e | ⟨tag, c, k, free, up, lowest, chosen, e⟩
    · rw [e]
    · rw [e]; exact (Move.release c k tag s free up lowest chosen).moves
  | endOfSend => exact moved (moves_whileRunning h (Move.endSend s).moves)
  | poolResponse tag kind status data =>
    refine moved (moves_whileRunning h ?_)
    rcases takeResponse_cases tag kind status data s with ⟨-, e⟩ | ⟨-, -, e⟩ | ⟨entry, -, he, -, e⟩
    · rw [e]
    · rw [e]; exact moves_takeStray s
    · rw [e]; exact (Move.forward tag entry status data s he).moves.trans (moves_afterFreeing _)
  | frameBoundary => exact moved (moves_whileRunning h (moves_frameBoundary s))
  | expiry tag => exact moved (moves_whileRunning h (moves_expiryEvent tag s))
  | fence x => exact moved (moves_whileRunning h (moves_fenceIfDue x s))
  | drainCompletion x => exact moved (moves_whileRunning h (moves_testDrain x s))
  | settling p => exact moved (moves_whileRunning h (Move.settle p s).moves)
  | pressureFall => exact moved (moves_whileRunning h (Move.pressureFall s).moves)
  | lendPoint => exact moved (moves_whileRunning h (moves_lendPoint s))
  | solveCompletion => exact moved (moves_whileRunning h (moves_completeSolve s))
  | switchPortLinkReset => exact moved (moves_whileRunning h (moves_switchLinkReset s))
  | switchPortLinkUp =>
    exact moved (moves_whileRunning (f := fun s => { s with links.switchUp := true }) h (Move.switchUp s).moves)
  | poolPortLinkLoss => exact moved (moves_whileRunning h (moves_poolLinkLoss s))
  | poolPortLinkUp =>
    exact moved (moves_whileRunning (f := fun s => { s with links.poolUp := true }) h (Move.poolUp s).moves)
  | start | quiesce | stop | resume | clear | tenantReset | pairSwap | modeSet | runtimeReset | unknownCommand =>
    exact moved (moves_whileRunning h (moves_issueCommand _ _ s))
  | pointerByte b => exact moved (moves_whileRunning h (moves_takePointer b s))
  | managementWrite b =>
    refine moved (moves_whileRunning h ?_)
    split
    · exact moves_dataByteWritten b s
    · exact .refl
  | readSnapshot a | dataByteRead a =>
    refine moved (moves_whileRunning h ?_)
    split
    · exact moves_dataByteSent a s
    · exact .refl
  | i2cStartCondition target d => exact moved (moves_whileRunning h (moves_startTransfer target d s))
  | i2cStopCondition => exact moved (moves_whileRunning h (moves_port rfl rfl rfl))
  | maximumHeadAgeRead x =>
    rw [exec_maximumHeadAgeRead] at h
    refine moved (moves_whileRunning h ?_)
    refine Relation.ReflTransGen.trans ?_ (moves_clearOnRead (some (.counters x .maxHeadAge)) _)
    exact moves_port rfl rfl rfl
  | pageWrite v => exact moved (moves_write (f := writePage v) (fun s => (Move.writePage v s).moves) h)
  | indexWrite v => exact moved (moves_write (f := writeIndex v) (fun s => (Move.writeIndex v s).moves) h)
  | statusClear v =>
    refine moved (moves_write (f := writeStatus v) (fun s => ?_) h)
    rw [writeStatus]
    split
    · exact moves_port rfl rfl rfl
    · exact .refl
  | alertFlagClear v =>
    exact moved (moves_write (f := writeAlertFlags v)
      (fun s => (Move.notice s _ s.observe.enables s.observe.strays s.observe.staleFrames).moves) h)
  | alertEnablesWrite v =>
    exact moved (moves_write (f := writeAlertEnables v)
      (fun s => (Move.notice s s.observe.flags _ s.observe.strays s.observe.staleFrames).moves) h)
  | linkResetCountClear p v =>
    exact moved (moves_write (f := clearLinkCount p) (fun s => (Move.clearLinkCount p s).moves) h)
  | globalCounterClear c v =>
    refine moved (moves_write (f := clearGlobalCounter c) (fun s => ?_) h)
    cases c with
    | stray => exact (Move.notice s s.observe.flags s.observe.enables 0 s.observe.staleFrames).moves
    | staleFrames => exact (Move.notice s s.observe.flags s.observe.enables s.observe.strays 0).moves
  | fpWrite v => exact moved (moves_write (f := writeFp v.toNat) (fun s => (Move.writeFp _ s).moves) h)
  | capWrite v => exact moved (moves_write (f := writeCap v.toNat) (fun s => (Move.writeCap _ s).moves) h)
  | wfWrite v => exact moved (moves_write (f := writeWf v.toNat) (fun s => (Move.writeWf _ s).moves) h)
  | lpWrite v => exact moved (moves_write (f := writeLp v.toNat) (fun s => (Move.writeLp _ s).moves) h)
  | ctoWrite v => exact moved (moves_write (f := writeCto v.toNat) (fun s => (Move.writeCto _ s).moves) h)
  | defaultTenantWrite v =>
    refine moved (moves_write (f := writeDefaultTenant v) (fun s => ?_) h)
    have written := moves_writeDirect .defaultTenant v.toNat s
    rwa [writeDirect, BitVec.ofNat_toNat, BitVec.setWidth_eq] at written
  | floorWrite x v =>
    exact moved (moves_write (f := writeFloor x v.toNat) (fun s => (Move.writeTenantField x .floor _ s v.isLt).moves) h)
  | qlimWrite x v =>
    exact moved (moves_write (f := writeQlim x v.toNat) (fun s => (Move.writeTenantField x .qlim _ s v.isLt).moves) h)
  | qresWrite x v =>
    exact moved (moves_write (f := writeQres x v.toNat) (fun s => (Move.writeTenantField x .qres _ s v.isLt).moves) h)
  | haltableWrite x v =>
    rw [exec_haltableWrite] at h
    refine moved (moves_whileRunning h ?_)
    refine Relation.ReflTransGen.tail ?_ (.writeAttrs x _ (dataByteTaken (.tenant x .attrs) s))
    exact moves_port rfl rfl rfl
  | classifierEntryWrite i w =>
    exact moved (moves_write (f := writeClassifier i w) (fun s => moves_writeClassifier i w s) h)
  | pairEntryWrite p w => exact moved (moves_write (f := writePair p w) (fun s => (Move.writePair p w s).moves) h)

/-- A step takes the command at the front off the queue, and is then an opening with moves or with an admission. -/
theorem step_moves {s t : State} (h : step s = .next t) :
    ∃ rest u, Opening { s with pending := rest } u ∧ (Moves u t ∨ Admits u t) := by
  rw [step] at h
  split at h
  · obtain rfl := Host.Outcome.next.inj h
    exact ⟨s.pending, s, .none s, .inl (moves_tick s)⟩
  · obtain ⟨u, opening, moves⟩ := exec_moves h
    exact ⟨_, u, opening, moves⟩

/-- A law that openings, moves and an admission keep is kept by every step. -/
theorem step_keeps {P Q : State → Prop} {s t : State}
    (opening : ∀ {rest u}, Opening { s with pending := rest } u → P u) (move : ∀ {s t}, Move s t → P s → P t)
    (weaken : ∀ {s}, P s → Q s) (admitted : ∀ {s t}, Admits s t → P s → Q t) (h : step s = .next t) : Q t := by
  obtain ⟨rest, u, opened, moves | admits⟩ := step_moves h
  · exact weaken (moves.keeps move (opening opened))
  · exact admitted admits (opening opened)

end Sys2Proof.Machine
end

