-- ==== Sys2Proof/Proofs/Timeouts.lean ====
section
/-! PROOFS. What the moves do to the Outstanding Table and its timeout, and the laws of the timeout, of the flags and counters, of the port and of the Frame Timer (R41 to R46, R99, R100, R158, R161, R166, R171). -/

namespace Sys2Proof.Machine

/-! ### The Outstanding Table -/

theorem discardAll_paths (x : TenantId) (s : State) :
    (discardAll x s).paths = { s.paths with orderLists := (discardAll x s).paths.orderLists } := by
  obtain ⟨⟨l, -, refused⟩, -⟩ := queueRefused_discardAll x s
  exact (refused.refusals (l := fun _ => l) (discardAll_links x s)).paths

theorem discardWrites_paths (x : TenantId) (s : State) :
    (discardWrites x s).paths = { s.paths with orderLists := (discardWrites x s).paths.orderLists } := by
  obtain ⟨⟨l, -, refused⟩, -⟩ := writesRefused_discardWrites x s
  exact (refused.refusals (l := fun _ => l) (discardWrites_links x s)).paths

theorem answerEntry_paths (e : OutstandingEntry) (status : ResponseStatus) (data : List Byte) (s : State) :
    (answerEntry e status data s).paths =
      { s.paths with orderLists := (answerEntry e status data s).paths.orderLists } := by
  have cto := answerEntry_cto e status data s
  have entries := answerEntry_entries e status data s
  cases h : (answerEntry e status data s).paths
  simp only [h] at cto entries
  rw [cto.1, cto.2, entries]

/-- An entry that ends leaves its place free, and of the Return Path nothing else changes but the order lists. -/
theorem expireEntry_paths (tag : Byte) (s : State) : (expireEntry tag s).paths = { s.paths with
    entries := s.paths.entries.set tag.toFin none, orderLists := (expireEntry tag s).paths.orderLists } := by
  rcases expireEntry_cases tag s with ⟨free, r⟩ | ⟨e, -, -, r⟩ | ⟨e, -, -, r⟩
  · have same : s.paths.entries.set tag.toFin none = s.paths.entries := Table.ext_get fun k => by
      rw [Table.get_set]
      split
      · rename_i h; rw [← h, free]
      · rfl
    rw [r, same]
  · rw [r]; rfl
  · rw [r, raiseAlert_paths, freeEntry_paths, countTenant_paths, answerEntry_paths]

theorem forwardResponse_paths (tag : Byte) (e : OutstandingEntry) (status : PoolStatus) (data : List Byte) (s : State) :
    (forwardResponse tag e status data s).paths = { s.paths with
      entries := s.paths.entries.set tag.toFin none
      orderLists := (forwardResponse tag e status data s).paths.orderLists } := by
  rcases forwardResponse_cases tag e status data s with ⟨-, r⟩ | ⟨-, -, r⟩ | ⟨-, -, r⟩
  · rw [r]; rfl
  · rw [r, freeEntry_paths, answerEntry_paths]
  · rw [r, freeEntry_paths, countTenant_paths, answerEntry_paths]

/-- Expiries one after another free the places of their tags. -/
theorem foldl_expireEntry_paths (l : List (Nat × OutstandingEntry)) (s : State) :
    let u := l.foldl (fun s c => expireEntry (BitVec.ofNat 8 c.1) s) s
    u.paths.cto = s.paths.cto ∧ u.paths.ctoInForce = s.paths.ctoInForce ∧
      ∀ k e, u.paths.entries.get k = some e → s.paths.entries.get k = some e ∧ ∀ c ∈ l, placeOf c.1 ≠ k := by
  induction l generalizing s with
  | nil => exact ⟨rfl, rfl, fun k e h => ⟨h, by simp⟩⟩
  | cons c l ih =>
    obtain ⟨cto, inForce, entries⟩ := ih (expireEntry (BitVec.ofNat 8 c.1) s)
    have first := expireEntry_paths (BitVec.ofNat 8 c.1) s
    refine ⟨cto.trans (by rw [first]), inForce.trans (by rw [first]), fun k e h => ?_⟩
    obtain ⟨before, later⟩ := entries k e h
    rw [first, Table.get_set] at before
    split at before
    · cases before
    · rename_i apart
      exact ⟨before, List.forall_mem_cons.2 ⟨apart, later⟩⟩

theorem mem_entriesFrom_of_get {n k : Nat} {e : OutstandingEntry} {l : List (Option OutstandingEntry)}
    (h : l[k]? = some (some e)) : (n + k, e) ∈ entriesFrom n l := by
  induction l generalizing n k with
  | nil => cases h
  | cons o l ih =>
    cases k with
    | zero =>
      obtain rfl : o = some e := Option.some.inj h
      exact List.mem_cons_self
    | succ k =>
      have later : (n + (k + 1), e) ∈ entriesFrom (n + 1) l := by
        have := ih (n := n + 1) (k := k) h
        rwa [Nat.add_right_comm, Nat.add_assoc] at this
      cases o with
      | none => exact later
      | some e' => exact List.mem_cons_of_mem _ later

theorem mem_entriesInUse_of_get {s : State} {k : Fin 256} {e : OutstandingEntry} (h : s.paths.entries.get k = some e) :
    (k.val, e) ∈ entriesInUse s := by
  have used : s.paths.entries.toList[k.val]? = some (some e) := by
    rw [List.getElem?_eq_getElem (by rw [s.paths.entries.size]; exact k.isLt)]
    exact congrArg some h
  have mem := mem_entriesFrom_of_get (n := 0) used
  rwa [Nat.zero_add] at mem

theorem placeOf_val (k : Fin 256) : placeOf k.val = k := Fin.ext (by
  rw [placeOf, BitVec.val_toFin, BitVec.toNat_ofNat]
  exact Nat.mod_eq_of_lt k.isLt)

/-- The entries that a boundary leaves are those one boundary older that have not reached the stored CTO (R100, R101). -/
theorem expireAtBoundary_entries (s : State) :
    (expireAtBoundary s).paths.cto = s.paths.cto ∧ (expireAtBoundary s).paths.ctoInForce = s.paths.cto ∧
      ∀ k e, (expireAtBoundary s).paths.entries.get k = some e →
        (s.paths.entries.get k).map ageEntry = some e ∧ e.age < s.paths.cto := by
  obtain ⟨cto, inForce, entries⟩ := foldl_expireEntry_paths
    ((entriesInUse (ageEntries s)).filter fun c => s.paths.cto ≤ c.2.age) (ageEntries s)
  refine ⟨cto, inForce, fun k e h => ?_⟩
  obtain ⟨aged, spared⟩ := entries k e h
  refine ⟨(Table.get_map _ _ _).symm.trans aged, Nat.not_le.1 fun due => ?_⟩
  exact spared (k.val, e) (List.mem_filter.2 ⟨mem_entriesInUse_of_get aged, by simpa using due⟩) (placeOf_val k)

theorem losePool_paths (s : State) : (losePool s).paths.cto = s.paths.cto ∧
    (losePool s).paths.ctoInForce = s.paths.ctoInForce ∧ ∀ k, (losePool s).paths.entries.get k = none := by
  have lost := lost_loseEntries (poolDowned s)
  rw [losePool_eq, freeSlot_paths]
  exact ⟨lost.cto, lost.ctoInForce, fun k => Table.get_fill ..⟩

/-! ### The timeout -/

theorem timeoutLaw_congr {s t : State} (h : t.paths = s.paths) (law : TimeoutLaw s) : TimeoutLaw t := by
  unfold TimeoutLaw
  rw [h]
  exact law

/-- The timeout law survives where each entry is an old one of the same age. -/
theorem timeoutLaw_of_entries {s t : State} (cto : t.paths.cto = s.paths.cto)
    (inForce : t.paths.ctoInForce = s.paths.ctoInForce)
    (entries : ∀ k e, t.paths.entries.get k = some e → ∃ e', s.paths.entries.get k = some e' ∧ e.age = e'.age)
    (law : TimeoutLaw s) : TimeoutLaw t := by
  obtain ⟨low, high, lowForce, highForce, young⟩ := law
  rw [TimeoutLaw, cto, inForce]
  refine ⟨low, high, lowForce, highForce, fun k e he => ?_⟩
  obtain ⟨e', he', age⟩ := entries k e he
  rw [age]
  exact young k e' he'

theorem timeoutLaw_of_freed {i : Fin 256} {l : Table (List Stamp) 64} {s t : State}
    (paths : t.paths = { s.paths with entries := s.paths.entries.set i none, orderLists := l }) (law : TimeoutLaw s) :
    TimeoutLaw t := by
  refine timeoutLaw_of_entries (by rw [paths]) (by rw [paths]) (fun k e he => ?_) law
  rw [paths, Table.get_set] at he
  split at he
  · cases he
  · exact ⟨e, he, rfl⟩

theorem timeoutLaw_of_lists {l : Table (List Stamp) 64} {s t : State}
    (paths : t.paths = { s.paths with orderLists := l }) (law : TimeoutLaw s) : TimeoutLaw t :=
  timeoutLaw_of_entries (by rw [paths]) (by rw [paths]) (fun k e he => ⟨e, by rwa [paths] at he, rfl⟩) law

theorem timeoutLaw_move {s t : State} (h : Move s t) (law : TimeoutLaw s) : TimeoutLaw t := by
  cases h with
  | discardAll x => exact timeoutLaw_of_lists (discardAll_paths x s) law
  | discardWrites x => exact timeoutLaw_of_lists (discardWrites_paths x s) law
  | expireEntry tag => exact timeoutLaw_of_freed (expireEntry_paths tag s) law
  | forward tag e status data => exact timeoutLaw_of_freed (forwardResponse_paths tag e status data s) law
  | expireAtBoundary =>
    obtain ⟨cto, inForce, entries⟩ := expireAtBoundary_entries s
    obtain ⟨low, high, -⟩ := law
    rw [TimeoutLaw, cto, inForce]
    exact ⟨low, high, low, high, fun k e he => (entries k e he).2⟩
  | switchReset =>
    refine timeoutLaw_of_entries (s := s) rfl rfl (fun k e he => ?_) law
    rw [switchReset, orphanAll_emptyQueues, Table.get_map] at he
    obtain ⟨e', he', rfl⟩ := Option.map_eq_some_iff.1 he
    exact ⟨e', he', rfl⟩
  | losePool =>
    obtain ⟨cto, inForce, none⟩ := losePool_paths s
    exact timeoutLaw_of_entries cto inForce (fun k e he => absurd ((none k).symm.trans he) nofun) law
  | release c k tag =>
    obtain ⟨low, high, lowForce, highForce, young⟩ := law
    have paths : (release c k tag s).paths =
        { s.paths with entries := s.paths.entries.set (BitVec.ofNat 8 tag).toFin (some (entryFor c)) } := by
      simp only [release, countTenant_paths, beginSend_paths, recordRelease, changeQueues_paths, movePointer_paths,
        payRelease_paths]
      rfl
    rw [TimeoutLaw, paths]
    refine ⟨low, high, lowForce, highForce, fun i e he => ?_⟩
    rw [Table.get_set] at he
    split at he
    · obtain rfl := Option.some.inj he
      exact lowForce
    · exact young i e he
  | writeCto v =>
    obtain ⟨-, -, lowForce, highForce, young⟩ := law
    refine ⟨?_, ?_, lowForce, highForce, young⟩
    all_goals
      have stored : (writeCto v s).paths.cto = max 1 (min 4095 v) := rfl
      omega
  | _ => exact timeoutLaw_congr (by simp) law

theorem timeoutLaw_admits {s t : State} (h : Admits s t) (law : TimeoutLaw s) : TimeoutLaw t := by
  obtain ⟨x, q, tag, b⟩ := h
  have paths : (admitArrival x q tag b s).paths =
      { s.paths with orderLists := (admitArrival x q tag b s).paths.orderLists } := by
    simp only [admitArrival, countTenant_paths]
    split <;> simp
  exact timeoutLaw_of_lists paths law

theorem timeoutLaw_powerOn : TimeoutLaw State.powerOn :=
  ⟨by decide, by decide, by decide, by decide, fun _ _ he => absurd ((Table.get_fill ..).symm.trans he) nofun⟩

theorem timeoutLaw_opening {s t : State} (h : Opening s t) (law : TimeoutLaw s) : TimeoutLaw t := by
  rcases h.block (block := State.paths) (fun _ _ => rfl) (fun _ _ => rfl) openedFrame_paths with e | e
  · exact timeoutLaw_congr e law
  · exact timeoutLaw_congr e timeoutLaw_powerOn

/-! ### The Observation block -/

theorem observationLaw_congr {s t : State} (h : t.observe = s.observe) (law : ObservationLaw s) : ObservationLaw t := by
  unfold ObservationLaw
  rw [h]
  exact law

/-- The ring, the pressure figures and the maximum head ages stand. -/
structure SameFigures (s t : State) : Prop where
  ring : t.observe.ring = s.observe.ring
  level : t.observe.level = s.observe.level
  fallCount : t.observe.fallCount = s.observe.fallCount
  fallMax : t.observe.fallMax = s.observe.fallMax
  ages : ∀ x, (t.observe.counters.get x).maxHeadAge = (s.observe.counters.get x).maxHeadAge

theorem SameFigures.refl (s : State) : SameFigures s s := ⟨rfl, rfl, rfl, rfl, fun _ => rfl⟩

theorem SameFigures.trans {s t u : State} (h : SameFigures s t) (h' : SameFigures t u) : SameFigures s u :=
  ⟨h'.ring.trans h.ring, h'.level.trans h.level, h'.fallCount.trans h.fallCount, h'.fallMax.trans h.fallMax,
    fun x => (h'.ages x).trans (h.ages x)⟩

theorem SameFigures.law {s t : State} (h : SameFigures s t) (law : ObservationLaw s) : ObservationLaw t := by
  obtain ⟨ring, level, fallCount, fallMax, ages⟩ := law
  exact ⟨h.ring ▸ ring, h.level ▸ level, h.fallCount ▸ fallCount, h.fallMax ▸ fallMax, fun x => h.ages x ▸ ages x⟩

/-- A tenant's counter advanced that is no maximum head age. -/
theorem sameFigures_of_counted {x : TenantId} {f : TenantCounters → TenantCounters} {flags : BitVec 7} {s t : State}
    (observe : t.observe = { s.observe with counters := s.observe.counters.modify x f, flags := flags })
    (kept : ∀ c, (f c).maxHeadAge = c.maxHeadAge) : SameFigures s t := by
  refine ⟨by rw [observe], by rw [observe], by rw [observe], by rw [observe], fun y => ?_⟩
  rw [observe, Table.get_modify]
  split
  · exact kept _
  · rfl

theorem sameFigures_of_flags {flags : BitVec 7} {s t : State} (observe : t.observe = { s.observe with flags := flags }) :
    SameFigures s t :=
  ⟨by rw [observe], by rw [observe], by rw [observe], by rw [observe], fun y => by rw [observe]⟩

theorem sameFigures_discardAll (x : TenantId) (s : State) : SameFigures s (discardAll x s) := by
  obtain ⟨⟨l, -, -, -, -, -, -, -, -, -, observe⟩, -⟩ := queueRefused_discardAll x s
  exact sameFigures_of_counted (flags := s.observe.flags) observe fun _ => rfl

theorem sameFigures_discardWrites (x : TenantId) (s : State) : SameFigures s (discardWrites x s) := by
  obtain ⟨⟨l, -, -, -, -, -, -, -, -, -, observe⟩, -⟩ := writesRefused_discardWrites x s
  exact sameFigures_of_counted (flags := s.observe.flags) observe fun _ => rfl

theorem sameFigures_expireEntry (tag : Byte) (s : State) : SameFigures s (expireEntry tag s) := by
  rcases expireEntry_cases tag s with ⟨-, r⟩ | ⟨e, -, -, r⟩ | ⟨e, -, -, r⟩
  · rw [r]; exact .refl s
  · rw [r]; exact ⟨rfl, rfl, rfl, rfl, fun _ => rfl⟩
  · rw [r]
    exact sameFigures_of_counted (x := e.tenant) (f := fun c => { c with expired := c.expired + 1 })
      (flags := s.observe.flags ||| alertBit .expire) (by simp) fun _ => rfl

theorem sameFigures_expireAtBoundary (s : State) : SameFigures s (expireAtBoundary s) :=
  foldl_preserves _ (SameFigures s) _ (fun _ c _ h => h.trans (sameFigures_expireEntry (BitVec.ofNat 8 c.1) _))
    (ageEntries s) ⟨rfl, rfl, rfl, rfl, fun _ => rfl⟩

theorem sameFigures_forwardResponse (tag : Byte) (e : OutstandingEntry) (status : PoolStatus) (data : List Byte)
    (s : State) : SameFigures s (forwardResponse tag e status data s) := by
  rcases forwardResponse_cases tag e status data s with ⟨-, r⟩ | ⟨-, -, r⟩ | ⟨-, -, r⟩
  · rw [r]; exact ⟨rfl, rfl, rfl, rfl, fun _ => rfl⟩
  · rw [r]; exact sameFigures_of_flags (flags := s.observe.flags) (by simp)
  · rw [r]
    exact sameFigures_of_counted (x := e.tenant) (f := fun c => { c with mediaFault := c.mediaFault + 1 })
      (flags := s.observe.flags) (by simp) fun _ => rfl

theorem sameFigures_losePool (s : State) : SameFigures s (losePool s) := by
  have lost := lost_loseEntries (poolDowned s)
  have observe : (losePool s).observe = (loseEntries (poolDowned s)).observe := by rw [losePool_eq, freeSlot_observe]
  refine ⟨?_, ?_, ?_, ?_, fun x => ?_⟩
  · rw [observe, lost.observe]; rfl
  · rw [observe, lost.observe]; rfl
  · rw [observe, lost.observe]; rfl
  · rw [observe, lost.observe]; rfl
  · rw [observe, lost.counters]; rfl

theorem observationLaw_pressureFall {s : State} (law : ObservationLaw s) : ObservationLaw (pressureFall s) := by
  obtain ⟨ring, level, fallCount, fallMax, ages⟩ := law
  rcases pressureFall_cases s with ⟨-, e⟩ | ⟨-, e⟩
  · rw [e]; exact ⟨ring, fallMax, Nat.zero_le _, Nat.zero_le _, ages⟩
  · rw [e]; exact ⟨ring, level, fallCount, fallMax, ages⟩

theorem observationLaw_takeLevel {c : Nat} (bound : c ≤ 3) {s : State} (law : ObservationLaw s) :
    ObservationLaw (takeLevel c s) := by
  obtain ⟨ring, level, fallCount, fallMax, ages⟩ := law
  rcases takeLevel_cases c s with ⟨-, e⟩ | ⟨-, e⟩ | ⟨-, few, e⟩ | ⟨-, -, e⟩
  · rw [e]; exact ⟨ring, bound, Nat.zero_le _, Nat.zero_le _, ages⟩
  · rw [e]; exact ⟨ring, level, Nat.zero_le _, Nat.zero_le _, ages⟩
  · rw [e]; exact ⟨ring, level, few, max_le fallMax bound, ages⟩
  · rw [e]; exact ⟨ring, max_le fallMax bound, Nat.zero_le _, Nat.zero_le _, ages⟩

theorem noteHeadAge_le (age : Nat) (c : TenantCounters) : (noteHeadAge age c).maxHeadAge ≤ 255 := min_le_left _ _

theorem observationLaw_move {s t : State} (h : Move s t) (law : ObservationLaw s) : ObservationLaw t := by
  cases h with
  | notice => exact law
  | count x f _ bounded =>
    obtain ⟨ring, level, fallCount, fallMax, ages⟩ := law
    refine ⟨ring, level, fallCount, fallMax, fun y => ?_⟩
    rw [countTenant_observe, Table.get_modify]
    split
    · exact bounded _ (ages y)
    · exact ages y
  | handRecord r =>
    obtain ⟨-, rest⟩ := law
    exact ⟨List.length_take_le _ _, rest⟩
  | takeLevel c _ bound => exact observationLaw_takeLevel bound law
  | pressureFall => exact observationLaw_pressureFall law
  | ageBoundary =>
    obtain ⟨ring, level, fallCount, fallMax, -⟩ := law
    refine ⟨ring, level, fallCount, fallMax, fun y => ?_⟩
    rw [ageBoundary, Table.get_build]
    exact noteHeadAge_le _ _
  | strikeBoundary =>
    rw [strikeBoundary]
    split
    · exact law
    · exact law
  | expireAtBoundary => exact (sameFigures_expireAtBoundary s).law law
  | expireEntry tag => exact (sameFigures_expireEntry tag s).law law
  | discardAll x => exact (sameFigures_discardAll x s).law law
  | discardWrites x => exact (sameFigures_discardWrites x s).law law
  | forward tag e status data => exact (sameFigures_forwardResponse tag e status data s).law law
  | losePool => exact (sameFigures_losePool s).law law
  | runtimeReset =>
    obtain ⟨-, rest⟩ := law
    exact ⟨Nat.zero_le _, rest⟩
  | release c k tag =>
    obtain ⟨ring, level, fallCount, fallMax, ages⟩ := law
    have observe : (release c k tag s).observe =
        { s.observe with counters := s.observe.counters.modify c.tenant (countRelease c.desc) } := by
      simp [release]
    rw [ObservationLaw, observe]
    refine ⟨ring, level, fallCount, fallMax, fun y => ?_⟩
    rw [Table.get_modify]
    split
    · exact noteHeadAge_le _ _
    · exact ages y
  | _ => exact observationLaw_congr (by simp) law

theorem observationLaw_admits {s t : State} (h : Admits s t) (law : ObservationLaw s) : ObservationLaw t := by
  obtain ⟨x, q, tag, b⟩ := h
  refine (sameFigures_of_counted (x := x) (f := fun c => { c with accepted := c.accepted + 1 })
    (flags := s.observe.flags) ?_ fun _ => rfl).law law
  simp only [admitArrival, countTenant_observe]
  split <;> simp

theorem observationLaw_powerOn : ObservationLaw State.powerOn :=
  ⟨by decide, by decide, by decide, by decide,
    fun _ => (congrArg TenantCounters.maxHeadAge (Table.get_fill ..)).trans_le (Nat.zero_le _)⟩

theorem observationLaw_opening {s t : State} (h : Opening s t) (law : ObservationLaw s) : ObservationLaw t := by
  rcases h.block (block := State.observe) (fun _ _ => rfl) (fun _ _ => rfl) openedFrame_observe with e | e
  · exact observationLaw_congr e law
  · exact observationLaw_congr e observationLaw_powerOn

/-! ### PAGE and INDEX -/

theorem portLaw_congr {s t : State} (page : t.port.page = s.port.page) (index : t.port.index = s.port.index)
    (law : PortLaw s) : PortLaw t := by
  rw [PortLaw, page, index]
  exact law

theorem pageRange_pos (p : Page) : 0 < pageRange p := by cases p <;> exact Nat.succ_pos _

theorem portLaw_writePage {s : State} (v : Byte) (law : PortLaw s) : PortLaw (writePage v s) := by
  rw [writePage]
  split
  · exact law
  · rename_i p _
    rw [PortLaw]
    dsimp only
    split
    · assumption
    · exact pageRange_pos p

theorem portLaw_writeIndex {s : State} (v : Byte) (law : PortLaw s) : PortLaw (writeIndex v s) := by
  rw [writeIndex]
  split
  · split
    · assumption
    · exact law
  · exact law

theorem writeTenantField_port (x : TenantId) (f : TenantField) (v : Nat) (s : State) :
    (writeTenantField x f v s).port = { s.port with status := (writeTenantField x f v s).port.status } := by
  cases f with
  | floor => rcases writeFloor_cases x v s with ⟨-, -, e⟩ | ⟨-, e⟩ <;> (rw [writeTenantField, e]; rfl)
  | qlim => rcases writeQlim_cases x v s with ⟨-, e⟩ | ⟨-, e⟩ <;> (rw [writeTenantField, e]; rfl)
  | qres => rcases writeQres_cases x v s with ⟨-, e⟩ | ⟨-, -, e⟩ | ⟨-, -, e⟩ <;> (rw [writeTenantField, e]; rfl)
  | _ => rfl

theorem writePair_port (p : PairId) (w : PairWrite) (s : State) :
    (writePair p w s).port = { s.port with status := (writePair p w s).port.status } := by
  rcases writePair_cases p w s with ⟨-, e⟩ | ⟨_, -, ⟨-, e⟩ | ⟨-, -, e⟩ | ⟨-, -, -, e⟩ | ⟨-, -, -, e⟩⟩
  all_goals rw [e]
  all_goals rfl

theorem portLaw_move {s t : State} (h : Move s t) (law : PortLaw s) : PortLaw t := by
  cases h with
  | port _ _ _ page index => exact portLaw_congr page index law
  | writePage v => exact portLaw_writePage v law
  | writeIndex v => exact portLaw_writeIndex v law
  | writeFp v => rcases writeFp_cases v s with ⟨-, e⟩ | ⟨-, e⟩ <;> (rw [e]; exact law)
  | writeCap v => rcases writeCap_cases v s with ⟨-, e⟩ | ⟨-, e⟩ <;> (rw [e]; exact law)
  | writeTenantField x f v => exact portLaw_congr (by rw [writeTenantField_port]) (by rw [writeTenantField_port]) law
  | writePair p w => exact portLaw_congr (by rw [writePair_port]) (by rw [writePair_port]) law
  | _ => exact portLaw_congr (by simp) (by simp) law

theorem portLaw_admits {s t : State} (h : Admits s t) (law : PortLaw s) : PortLaw t := by
  obtain ⟨x, q, tag, b⟩ := h
  exact portLaw_congr (by simp) (by simp) law

theorem portLaw_opening {s t : State} (h : Opening s t) (law : PortLaw s) : PortLaw t := by
  rcases h.block (block := State.port) (fun _ _ => rfl) (fun _ _ => rfl) openedFrame_port with e | e
  · exact portLaw_congr (by rw [e]) (by rw [e]) law
  · exact portLaw_congr (s := State.powerOn) (by rw [e]) (by rw [e]) (show 0 < 24 by decide)

/-! ### The Frame Timer -/

theorem effCapOf_pos {fp cap : Nat} {straps : Straps} (long : 8 ≤ fp) (some : 1 ≤ cap) : 1 ≤ effCapOf fp cap straps := by
  have slots : straps.div.toNat + 1 ≤ fp * 16 := by
    have := straps.div.isLt
    omega
  refine le_min some (le_min (by decide) ?_)
  exact (Nat.one_le_div_iff (Nat.succ_pos _)).2 slots

theorem timerLaw_congr {s t : State} (timer : t.timer = s.timer) (straps : t.control.straps = s.control.straps)
    (law : TimerLaw s) : TimerLaw t := by
  rw [TimerLaw, effectiveCap, timer, straps]
  exact law

/-- The settings in their ranges and a phase inside the frame, with no start boundary due. -/
theorem timerLaw_of_phase {s : State} (fp : 8 ≤ s.timer.fp ∧ s.timer.fp ≤ 1024) (lp : s.timer.lp ≤ 15)
    (cap : 1 ≤ s.timer.cap ∧ s.timer.cap ≤ 16383) (length : 8 ≤ s.timer.frameLength ∧ s.timer.frameLength ≤ 1024)
    (lend : s.timer.frameLend ≤ 15) (inside : s.timer.phase < 16 * s.timer.frameLength)
    (due : s.timer.startDue = true → s.timer.phase + 1 = 16 * s.timer.frameLength) : TimerLaw s :=
  ⟨fp, lp, cap, length, lend, inside, effCapOf_pos fp.1 cap.1, due⟩

theorem clamp_mem {low high : Nat} (h : low ≤ high) (v : Nat) : low ≤ clamp low high v ∧ clamp low high v ≤ high :=
  ⟨le_max_left _ _, max_le h (min_le_left _ _)⟩

theorem timerLaw_move {s t : State} (h : Move s t) (law : TimerLaw s) : TimerLaw t := by
  have ⟨fp, lp, cap, length, lend, inside, _, due⟩ := law
  cases h with
  | openFrame => exact timerLaw_of_phase fp lp cap fp lp (by rw [openFrame_timer]; dsimp only; omega) nofun
  | passTime _ later =>
    refine timerLaw_of_phase fp lp cap length lend later fun h => ?_
    have := due h
    omega
  | reachLendPhase _ ahead =>
    have bound : lendPhase s.timer ≤ 15 * s.timer.frameLength := Nat.mul_le_mul_right _ lend
    refine timerLaw_of_phase fp lp cap length lend (by dsimp only; omega) fun h => ?_
    have := due h
    omega
  | writeFp v =>
    rcases writeFp_cases v s with ⟨-, e⟩ | ⟨-, e⟩
    · rw [e]; exact law
    · rw [e]; exact timerLaw_of_phase (clamp_mem (by decide) v) lp cap length lend inside due
  | writeCap v =>
    rcases writeCap_cases v s with ⟨-, e⟩ | ⟨-, e⟩
    · rw [e]; exact law
    · rw [e]; exact timerLaw_of_phase fp lp (clamp_mem (by decide) v) length lend inside due
  | writeLp v => exact timerLaw_of_phase fp (min_le_left _ _) cap length lend inside due
  | runtimeReset =>
    refine timerLaw_of_phase fp lp cap length lend ?_ fun _ => ?_ <;> rw [runtimeReset_timer] <;> dsimp only <;> omega
  | _ => exact timerLaw_congr (by simp) (by simp) law

theorem timerLaw_admits {s t : State} (h : Admits s t) (law : TimerLaw s) : TimerLaw t := by
  obtain ⟨x, q, tag, b⟩ := h
  exact timerLaw_congr (by simp) (by simp) law

theorem timerLaw_openedFrame {s : State} (law : TimerLaw s) : TimerLaw (openedFrame s) := by
  obtain ⟨fp, lp, cap, -⟩ := law
  refine timerLaw_of_phase ?_ ?_ ?_ ?_ ?_ ?_ ?_ <;> rw [openedFrame_timer]
  · exact fp
  · exact lp
  · exact cap
  · exact fp
  · exact lp
  · dsimp only; omega
  · exact nofun

theorem timerLaw_powerOn : TimerLaw State.powerOn :=
  timerLaw_of_phase (by decide) (by decide) (by decide) (by decide) (by decide) (by decide) nofun

theorem timerLaw_opening {s t : State} (h : Opening s t) (law : TimerLaw s) : TimerLaw t := by
  have ⟨fp, lp, cap, length, lend, inside, _, due⟩ := law
  have reset : ∀ held, TimerLaw (holdReset held s) := fun held => timerLaw_congr rfl rfl timerLaw_powerOn
  have strapped : ∀ c, TimerLaw { s with control := c } := fun c => timerLaw_of_phase fp lp cap length lend inside due
  cases h with
  | none => exact law
  | powerOnReset => exact reset _
  | pinReset =>
    obtain ⟨fp, lp, cap, length, lend, inside, -, due⟩ := reset .pin
    exact timerLaw_of_phase fp lp cap length lend inside due
  | powerOnRelease => exact timerLaw_openedFrame (strapped _)
  | pinResetRelease => exact timerLaw_openedFrame (strapped _)

end Sys2Proof.Machine
end

