-- ==== Sys2Proof/Proofs/Queues.lean ====
section
/-! PROOFS. What the moves do to the tenant queues (R32 to R40). -/

namespace Sys2Proof.Machine

/-! ### One descriptor and one queue after a move -/

/-- A descriptor that stays queued: it may age and may no longer be parked. -/
structure Alike (d e : Descriptor) : Prop where
  kind : e.kind = d.kind
  requester : e.requester = d.requester
  stamp : e.stamp = d.stamp
  charge : e.charge = d.charge
  blocks : e.blocks = d.blocks
  age : e.age ≤ max d.age 255
  parked : e.parked = true → d.parked = true

/-- A tenant's queues after a move: descriptors leave, and those that stay change as `f` says. -/
structure Follows (f : Descriptor → Descriptor) (u v : TenantQueues) : Prop where
  alike : ∀ d, Alike d (f d)
  rq : v.rq.Sublist (u.rq.map f)
  wq : v.wq.Sublist (u.wq.map f)

theorem alike_self (d : Descriptor) : Alike d d := ⟨rfl, rfl, rfl, rfl, rfl, le_max_left _ _, id⟩

theorem follows_of_sublists {u v : TenantQueues} (rq : v.rq.Sublist u.rq) (wq : v.wq.Sublist u.wq) : Follows id u v :=
  ⟨alike_self, by rwa [List.map_id], by rwa [List.map_id]⟩

theorem follows_of_eq {u v : TenantQueues} (rq : v.rq = u.rq) (wq : v.wq = u.wq) : Follows id u v :=
  follows_of_sublists (rq ▸ .refl _) (wq ▸ .refl _)

theorem follows_age (u : TenantQueues) : Follows ageDescriptor u (ageQueues u) :=
  ⟨fun _ => ⟨rfl, rfl, rfl, rfl, rfl, (min_le_left _ _).trans (le_max_right _ _), id⟩, .refl _, .refl _⟩

theorem follows_unpark {u v : TenantQueues} (rq : v.rq = u.rq.map unpark) (wq : v.wq = u.wq.map unpark) :
    Follows unpark u v :=
  ⟨fun _ => ⟨rfl, rfl, rfl, rfl, rfl, le_max_left _ _, nofun⟩, rq ▸ .refl _, wq ▸ .refl _⟩

namespace Follows

variable {f : Descriptor → Descriptor} {u v : TenantQueues}

theorem queued (h : Follows f u v) : (queuedOf v).Sublist ((queuedOf u).map f) := by
  rw [queuedOf, queuedOf, List.map_append]
  exact h.rq.append h.wq

/-- Each descriptor that stays is one that was queued. -/
theorem descriptor (h : Follows f u v) {e : Descriptor} (he : e ∈ queuedOf v) : ∃ d ∈ queuedOf u, f d = e :=
  List.mem_map.1 (h.queued.subset he)

theorem length_le (h : Follows f u v) : (queuedOf v).length ≤ (queuedOf u).length :=
  h.queued.length_le.trans_eq (List.length_map f)

theorem eq_nil (h : Follows f u v) (empty : queuedOf u = []) : queuedOf v = [] := by
  have none := h.queued
  rw [empty] at none
  exact List.sublist_nil.1 none

end Follows

/-! ### Every move -/

theorem discardWrites_queuesAt (x y : TenantId) (s : State) : queuesAt (discardWrites x s) y =
    if x = y then { queuesAt s x with wq := [] } else queuesAt s y := by
  obtain ⟨-, queues, -⟩ := writesRefused_discardWrites x s
  rw [queuesAt, queues, Table.get_set]
  rfl

theorem switchReset_queuesAt (s : State) (x : TenantId) :
    queuesAt (switchReset s) x = { queuesAt s x with rq := [], wq := [] } := by
  rw [switchReset, orphanAll_emptyQueues]
  exact Table.get_map ..

theorem popHead_queues (fromWq : Bool) (u : TenantQueues) :
    (popHead fromWq u).rq.Sublist u.rq ∧ (popHead fromWq u).wq.Sublist u.wq := by
  cases fromWq
  · exact ⟨List.tail_sublist _, .refl _⟩
  · exact ⟨.refl _, List.tail_sublist _⟩

theorem release_queuesAt (c : Candidate) (k : ReleaseClass) (tag : Nat) (s : State) (x : TenantId) :
    queuesAt (release c k tag s) x =
      if c.tenant = x then popHead c.fromWq (queuesAt s c.tenant) else queuesAt s x := by
  rw [queuesAt, release_queues, Table.get_set]
  rfl

theorem freeSlot_queuesAt (s : State) (x : TenantId) : queuesAt (freeSlot s) x = queuesAt s x := by
  rw [freeSlot]
  split <;> rfl

theorem endSend_queuesAt (s : State) (x : TenantId) : queuesAt (endSend s) x = queuesAt s x := by
  rw [endSend]
  split
  · rfl
  · exact freeSlot_queuesAt _ x

theorem losePool_queuesAt (s : State) (x : TenantId) : queuesAt (losePool s) x = queuesAt s x := by
  rw [losePool_eq, freeSlot_queuesAt, queuesAt, loseEntries_admission]
  rfl

/-- What a move may do to a tenant's queues: descriptors leave, age, or are unparked where the tenant becomes ACTIVE. -/
def QueueFollows (s t : State) (x : TenantId) : Prop :=
  ∃ f, Follows f (queuesAt s x) (queuesAt t x) ∧ ((recordAt t x).state = .active ∨ ∀ d, (f d).parked = d.parked)

theorem queueFollows_of_sublists {s t : State} {x : TenantId} (rq : (queuesAt t x).rq.Sublist (queuesAt s x).rq)
    (wq : (queuesAt t x).wq.Sublist (queuesAt s x).wq) : QueueFollows s t x :=
  ⟨id, follows_of_sublists rq wq, .inr fun _ => rfl⟩

theorem queueFollows_of_eq {s t : State} {x : TenantId} (rq : (queuesAt t x).rq = (queuesAt s x).rq)
    (wq : (queuesAt t x).wq = (queuesAt s x).wq) : QueueFollows s t x :=
  queueFollows_of_sublists (rq ▸ .refl _) (wq ▸ .refl _)

theorem queueFollows_of_admission {s t : State} {x : TenantId} (h : t.admission = s.admission) : QueueFollows s t x :=
  queueFollows_of_eq (by rw [queuesAt_congr h]) (by rw [queuesAt_congr h])

theorem queueFollows_of_empty {s t : State} {x : TenantId} (rq : (queuesAt t x).rq = []) (wq : (queuesAt t x).wq = []) :
    QueueFollows s t x :=
  queueFollows_of_sublists (rq ▸ List.nil_sublist _) (wq ▸ List.nil_sublist _)

theorem move_queueFollows {s t : State} (h : Move s t) (x : TenantId) : QueueFollows s t x := by
  cases h with
  | ageBoundary =>
    have aged : queuesAt (ageBoundary s) x = ageQueues (queuesAt s x) := Table.get_map ..
    exact ⟨ageDescriptor, aged ▸ follows_age _, .inr fun _ => rfl⟩
  | strikeBoundary => exact queueFollows_of_eq (by rw [strikeBoundary_queuesAt]) (by rw [strikeBoundary_queuesAt])
  | runtimeReset => exact queueFollows_of_eq (by rw [runtimeReset_queuesAt]) (by rw [runtimeReset_queuesAt])
  | switchReset => exact queueFollows_of_empty (by rw [switchReset_queuesAt]) (by rw [switchReset_queuesAt])
  | resumed y =>
    by_cases same : y = x
    · subst same
      refine ⟨unpark, follows_unpark ?_ ?_, .inl ?_⟩
      · rw [queuesAt_changeQueues, if_pos rfl]; rfl
      · rw [queuesAt_changeQueues, if_pos rfl]; rfl
      · exact congrArg TenantRecord.state ((recordAt_changeRecord y y _ s).trans (if_pos rfl))
    · have kept := (queuesAt_changeQueues y x (fun u => { u with rq := u.rq.map unpark, wq := u.wq.map unpark })
        (changeRecord y (fun r => { r with state := .active, target := .none }) s)).trans (if_neg same)
      exact queueFollows_of_eq (congrArg TenantQueues.rq kept) (congrArg TenantQueues.wq kept)
  | discardAll y =>
    by_cases same : y = x
    · exact queueFollows_of_empty (by rw [discardAll_queuesAt, if_pos same]) (by rw [discardAll_queuesAt, if_pos same])
    · exact queueFollows_of_eq (by rw [discardAll_queuesAt, if_neg same]) (by rw [discardAll_queuesAt, if_neg same])
  | discardWrites y =>
    by_cases same : y = x
    · subst same
      refine queueFollows_of_sublists ?_ ?_ <;> rw [discardWrites_queuesAt, if_pos rfl]
      exact List.nil_sublist _
    · exact queueFollows_of_eq (by rw [discardWrites_queuesAt, if_neg same])
        (by rw [discardWrites_queuesAt, if_neg same])
  | retryMark y b =>
    refine queueFollows_of_eq ?_ ?_ <;> rw [queuesAt_changeQueues] <;> split <;> rfl
  | release c k tag =>
    by_cases same : c.tenant = x
    · subst same
      obtain ⟨rq, wq⟩ := popHead_queues c.fromWq (queuesAt s c.tenant)
      refine queueFollows_of_sublists ?_ ?_ <;> rw [release_queuesAt, if_pos rfl]
      · exact rq
      · exact wq
    · exact queueFollows_of_eq (by rw [release_queuesAt, if_neg same]) (by rw [release_queuesAt, if_neg same])
  | endSend => exact queueFollows_of_eq (by rw [endSend_queuesAt]) (by rw [endSend_queuesAt])
  | losePool => exact queueFollows_of_eq (by rw [losePool_queuesAt]) (by rw [losePool_queuesAt])
  | writeWf v => exact queueFollows_of_eq rfl rfl
  | _ => exact queueFollows_of_admission (by simp)

/-! ### Admissions and openings -/

theorem admitArrival_queuesAt (x : TenantId) (q : RequesterId) (tag : Byte) (b : RequestBody) (s : State) (y : TenantId) :
    queuesAt (admitArrival x q tag b s) y =
      if x = y then enqueue (newDescriptor x q tag b s) (queuesAt s x) else queuesAt s y := by
  rw [queuesAt, admitArrival_queues, Table.get_set]
  rfl

theorem mem_queuedOf_enqueue {d e : Descriptor} {u : TenantQueues} :
    e ∈ queuedOf (enqueue d u) ↔ e = d ∨ e ∈ queuedOf u :=
  ((perm_enqueue d u).mem_iff).trans List.mem_cons

theorem length_queuedOf_enqueue (d : Descriptor) (u : TenantQueues) :
    (queuedOf (enqueue d u)).length = (queuedOf u).length + 1 := (perm_enqueue d u).length_eq

/-- A law of the queued descriptors that a new descriptor satisfies is kept by its admission. -/
theorem forall_queued_admitArrival {P : Descriptor → Prop} {x : TenantId} {q : RequesterId} {tag : Byte}
    {b : RequestBody} {s : State} (new : P (newDescriptor x q tag b s))
    (old : ∀ y, ∀ d ∈ queuedOf (queuesAt s y), P d) (y : TenantId) :
    ∀ d ∈ queuedOf (queuesAt (admitArrival x q tag b s) y), P d := by
  intro d hd
  rw [admitArrival_queuesAt] at hd
  split at hd
  · rcases mem_queuedOf_enqueue.1 hd with rfl | hd
    · exact new
    · exact old x d hd
  · exact old y d hd

/-- An opening leaves every queue or empties every queue. -/
theorem opening_queuesAt {s t : State} (h : Opening s t) :
    (∀ x, queuesAt t x = queuesAt s x) ∨ ∀ x, queuedOf (queuesAt t x) = [] := by
  rcases h.block (block := State.admission) (fun _ _ => rfl) (fun _ _ => rfl) openedFrame_admission with e | e
  · exact .inl fun x => queuesAt_congr e x
  · refine .inr fun x => ?_
    rw [queuesAt_congr e]
    exact congrArg queuedOf (Table.get_fill ..)

/-- A law of the queued descriptors is kept by every opening. -/
theorem forall_queued_opening {P : Descriptor → Prop} {s t : State} (h : Opening s t)
    (old : ∀ y, ∀ d ∈ queuedOf (queuesAt s y), P d) (y : TenantId) : ∀ d ∈ queuedOf (queuesAt t y), P d := by
  rcases opening_queuesAt h with same | empty
  · rw [same]; exact old y
  · rw [empty]; exact nofun

end Sys2Proof.Machine
end

