-- ==== Sys2Proof/Proofs/Ranges.lean ====
section
/-! PROOFS. Every step keeps ages, settings, guards, clocks, figures and selectors in their ranges (R21, R23, R37, R66, R70, R112, R115, R134, R155). -/

namespace Sys2Proof.Machine

/-! ### The range law in its parts -/

/-- A Tenant Record's settings and figures lie in their ranges. -/
def RecordInRange (r : TenantRecord) : Prop :=
  (1 ≤ r.weight ∧ r.weight ≤ 255) ∧ r.floor ≤ 4095 ∧ r.ceil ≤ 16383 ∧ r.ageb ≤ 255 ∧ r.drainb ≤ 65535 ∧
    r.strikeTh ≤ 255 ∧ r.strikes ≤ 255 ∧ r.drainClock ≤ 65535 ∧ r.qres ≤ r.qlim ∧ r.qlim ≤ 1024

/-- A Credit Table entry's figures and latched settings lie in their ranges. -/
def CreditInRange (e : CreditEntry) : Prop :=
  e.spent ≤ 1048575 ∧ e.releasedNow ≤ 1048575 ∧ e.releasedPrevious ≤ 1048575 ∧
    e.settings.ageb ≤ 255 ∧ e.settings.drawCeiling ≤ 16383

/-- A pair's guard and guard counter lie in their ranges. -/
def PairInRange (e : PairEntry) : Prop := e.guard ≤ 255 ∧ e.counter ≤ 255

/-- The range law, part by part. -/
structure InRange (s : State) : Prop where
  records : ∀ x, RecordInRange (recordAt s x)
  credit : ∀ x, CreditInRange (creditAt s x)
  ages : ∀ x, ∀ d ∈ queuedOf (queuesAt s x), d.age ≤ 255
  pairs : ∀ p, PairInRange (s.pairHalt.pairs.get p)
  switchResets : s.links.switchResets ≤ 65535
  poolLosses : s.links.poolLosses ≤ 65535

theorem tenantRangeLaw_iff (r : TenantRecord) (e : CreditEntry) :
    TenantRangeLaw r e ↔ RecordInRange r ∧ CreditInRange e := by
  simp only [TenantRangeLaw, RecordInRange, CreditInRange, and_assoc]

theorem rangeLaw_iff (s : State) : RangeLaw s ↔ InRange s := by
  constructor
  · rintro ⟨tenants, pairs, switchResets, poolLosses⟩
    have parts := fun x => (tenantRangeLaw_iff _ _).1 (tenants x).1
    exact ⟨fun x => (parts x).1, fun x => (parts x).2, fun x => (tenants x).2, pairs, switchResets, poolLosses⟩
  · rintro ⟨records, credit, ages, pairs, switchResets, poolLosses⟩
    exact ⟨fun x => ⟨(tenantRangeLaw_iff _ _).2 ⟨records x, credit x⟩, ages x⟩, pairs, switchResets, poolLosses⟩

/-! ### Tenant Records -/

theorem recordsInRange_congr {s t : State} (h : t.records = s.records) (law : ∀ x, RecordInRange (recordAt s x)) :
    ∀ x, RecordInRange (recordAt t x) := fun x => by
  rw [recordAt_congr h]
  exact law x

/-- One record changed within its ranges. -/
theorem recordsInRange_changeRecord {y : TenantId} {f : TenantRecord → TenantRecord} {s : State}
    (kept : ∀ r, RecordInRange r → RecordInRange (f r)) (law : ∀ x, RecordInRange (recordAt s x)) :
    ∀ x, RecordInRange (recordAt (changeRecord y f s) x) := fun x => by
  rw [recordAt_changeRecord]
  split
  · exact kept _ (law x)
  · exact law x

/-- A changed record with the settings and figures of the old one. -/
theorem recordInRange_tickDrainClock {r : TenantRecord} (law : RecordInRange r) : RecordInRange (tickDrainClock r) := by
  have ⟨weight, floor, ceil, ageb, drainb, strikeTh, strikes, _, qres, qlim⟩ := law
  rcases tickDrainClock_cases r with ⟨-, -, e⟩ | ⟨-, e⟩
  · rw [e]; exact ⟨weight, floor, ceil, ageb, drainb, strikeTh, strikes, min_le_left _ _, qres, qlim⟩
  · rw [e]; exact law

theorem strikesAfter_le {u : TenantQueues} {n : Nat} (h : n ≤ 255) : strikesAfter u n ≤ 255 := by
  rw [strikesAfter]
  split
  · exact min_le_left _ _
  · split
    · exact (Nat.sub_le _ _).trans h
    · exact h

theorem recordInRange_strikeRecord {u : TenantQueues} {r : TenantRecord} (law : RecordInRange r) :
    RecordInRange (strikeRecord u r) := by
  obtain ⟨weight, floor, ceil, ageb, drainb, strikeTh, strikes, clock, qres, qlim⟩ := law
  exact ⟨weight, floor, ceil, ageb, drainb, strikeTh, strikesAfter_le strikes, clock, qres, qlim⟩

theorem strikeBoundary_recordAt (s : State) (x : TenantId) :
    recordAt (strikeBoundary s) x = strikeRecord (queuesAt s x) (recordAt s x) := by
  rw [strikeBoundary]
  split <;> exact Table.get_build ..

/-- A TENANT field write stores within the ranges (R23, R112). -/
theorem recordsInRange_writeTenantField {y : TenantId} {f : TenantField} {v : Nat} {s : State}
    (fits : v < 256 ^ (tenantPlace f).2) (law : ∀ x, RecordInRange (recordAt s x)) :
    ∀ x, RecordInRange (recordAt (writeTenantField y f v s) x) := by
  have written : ∀ g : TenantRecord → TenantRecord, (∀ r, RecordInRange r → RecordInRange (g r)) →
      ∀ x, RecordInRange (recordAt (changeRecord y g s) x) := fun g kept => recordsInRange_changeRecord kept law
  cases f with
  | weight =>
    exact written _ fun r ⟨_, rest⟩ => ⟨⟨le_max_left _ _, max_le (by decide) (Nat.le_of_lt_succ fits)⟩, rest⟩
  | floor =>
    rcases writeFloor_cases y v s with ⟨-, -, e⟩ | ⟨-, e⟩
    · rw [writeTenantField, e]; exact law
    · rw [writeTenantField, e]; exact written _ fun r ⟨weight, _, rest⟩ => ⟨weight, min_le_left _ _, rest⟩
  | ceil => exact written _ fun r ⟨weight, floor, _, rest⟩ => ⟨weight, floor, min_le_left _ _, rest⟩
  | ageb => exact written _ fun r ⟨weight, floor, ceil, _, rest⟩ => ⟨weight, floor, ceil, Nat.le_of_lt_succ fits, rest⟩
  | strikeTh =>
    exact written _ fun r ⟨weight, floor, ceil, ageb, drainb, _, rest⟩ =>
      ⟨weight, floor, ceil, ageb, drainb, Nat.le_of_lt_succ fits, rest⟩
  | drainb =>
    exact written _ fun r ⟨weight, floor, ceil, ageb, _, rest⟩ =>
      ⟨weight, floor, ceil, ageb, Nat.le_of_lt_succ fits, rest⟩
  | attrs => exact written _ fun r h => h
  | qlim =>
    rcases writeQlim_cases y v s with ⟨-, e⟩ | ⟨-, e⟩
    · rw [writeTenantField, e]; exact law
    · rw [writeTenantField, e]
      exact written _ fun r ⟨weight, floor, ceil, ageb, drainb, strikeTh, strikes, clock, _⟩ =>
        ⟨weight, floor, ceil, ageb, drainb, strikeTh, strikes, clock, min_le_right _ _, min_le_left _ _⟩
  | qres =>
    rcases writeQres_cases y v s with ⟨-, e⟩ | ⟨-, -, e⟩ | ⟨-, -, e⟩
    · rw [writeTenantField, e]; exact law
    · rw [writeTenantField, e]; exact law
    · rw [writeTenantField, e]
      exact written _ fun r ⟨weight, floor, ceil, ageb, drainb, strikeTh, strikes, clock, _, qlim⟩ =>
        ⟨weight, floor, ceil, ageb, drainb, strikeTh, strikes, clock, min_le_left _ _, qlim⟩
  | _ => exact law

theorem recordsInRange_move {s t : State} (h : Move s t) (law : ∀ x, RecordInRange (recordAt s x)) :
    ∀ x, RecordInRange (recordAt t x) := by
  cases h with
  | strikeBoundary => exact fun x => strikeBoundary_recordAt s x ▸ recordInRange_strikeRecord (law x)
  | tickDrainClock => exact recordsInRange_changeRecord (fun _ => recordInRange_tickDrainClock) law
  | pauseMarks =>
    intro x
    rw [recordAt, Table.get_build]
    exact law x
  | drainBegun =>
    exact recordsInRange_changeRecord (fun r ⟨weight, floor, ceil, ageb, drainb, strikeTh, strikes, _, rest⟩ =>
      ⟨weight, floor, ceil, ageb, drainb, strikeTh, strikes, Nat.zero_le _, rest⟩) law
  | clearStrikes =>
    exact recordsInRange_changeRecord (fun r ⟨weight, floor, ceil, ageb, drainb, strikeTh, _, rest⟩ =>
      ⟨weight, floor, ceil, ageb, drainb, strikeTh, Nat.zero_le _, rest⟩) law
  | runtimeReset =>
    intro x
    rw [runtimeReset_recordAt]
    obtain ⟨weight, floor, ceil, ageb, drainb, strikeTh, -, rest⟩ := law x
    exact ⟨weight, floor, ceil, ageb, drainb, strikeTh, Nat.zero_le _, rest⟩
  | writeTenantField y f v _ fits => exact recordsInRange_writeTenantField fits law
  | started | quiesced | closed | stopped | resumed | cleared | writeAttrs =>
    exact recordsInRange_changeRecord (fun _ h => h) law
  | _ => exact recordsInRange_congr (by simp) law

theorem powerOn_recordAt (x : TenantId) : recordAt State.powerOn x =
    if 23 = x then { TenantRecord.reset with state := .active, qlim := 1024 } else TenantRecord.reset := by
  rw [recordAt, State.powerOn, TenantRecord.resetTable, Table.get_set, Table.get_fill]

theorem recordInRange_powerOn (x : TenantId) : RecordInRange (recordAt State.powerOn x) := by
  rw [powerOn_recordAt]
  unfold RecordInRange
  split <;> decide

/-- An opening leaves a record, but for its pause mark, or sets it to its power-on value. -/
theorem opening_recordAt {s t : State} (h : Opening s t) :
    (∀ x, ∃ marked, recordAt t x = { recordAt s x with pauseMark := marked }) ∨
      ∀ x, recordAt t x = recordAt State.powerOn x := by
  cases h with
  | none => exact .inl fun x => ⟨_, rfl⟩
  | powerOnReset => exact .inr fun _ => rfl
  | pinReset => exact .inr fun _ => rfl
  | powerOnRelease => exact .inl fun x => openedFrame_recordAt _ x
  | pinResetRelease => exact .inl fun x => openedFrame_recordAt _ x

theorem recordsInRange_opening {s t : State} (h : Opening s t) (law : ∀ x, RecordInRange (recordAt s x)) (x : TenantId) :
    RecordInRange (recordAt t x) := by
  rcases opening_recordAt h with marked | reset
  · obtain ⟨_, e⟩ := marked x
    rw [e]
    exact law x
  · rw [reset]
    exact recordInRange_powerOn x

/-! ### Credit Table entries -/

theorem creditInRange_congr {s t : State} (h : t.credit = s.credit) (law : ∀ x, CreditInRange (creditAt s x)) :
    ∀ x, CreditInRange (creditAt t x) := fun x => by
  rw [creditAt_congr h]
  exact law x

theorem effectiveCeil_le {demoted : Bool} {floor ceil : Nat} (hf : floor ≤ 16383) (hc : ceil ≤ 16383) :
    effectiveCeil demoted floor ceil ≤ 16383 := by
  refine max_le hc ?_
  rw [effectiveFloor]
  split
  · exact Nat.zero_le _
  · exact hf

theorem loadCredit_creditAt (k : LoadKind) (s : State) (x : TenantId) :
    creditAt (loadCredit k s) x = loadEntry k s x := Table.get_build ..

theorem takeSnapshot_snapshotOf (s : State) (x : TenantId) :
    (takeSnapshot s).solver.snapshot.tenants.get x = snapshotTenant s x := Table.get_build ..

/-- A load latches AGEB and the draw ceiling from records in range (R69, R70). -/
theorem creditInRange_load {k : LoadKind} {s : State} {x : TenantId} (record : RecordInRange (recordAt s x))
    (law : CreditInRange (creditAt s x)) : CreditInRange (creditAt (loadCredit k (takeSnapshot s)) x) := by
  obtain ⟨-, floor, ceil, ageb, -⟩ := record
  obtain ⟨-, now, -⟩ := law
  rw [loadCredit_creditAt]
  refine ⟨Nat.zero_le _, Nat.zero_le _, now, ageb, ?_⟩
  rw [loadEntry, latchSettings, takeSnapshot_snapshotOf]
  exact effectiveCeil_le (floor.trans (by decide)) ceil

/-- A payment changes credit alone in a tenant's entry. -/
theorem payCharge_creditAt (y : TenantId) (n : Nat) (s : State) (x : TenantId) :
    ∃ credit, creditAt (payCharge y n s) x = { creditAt s x with credit := credit } := by
  rcases payCharge_cases y n s with ⟨-, e⟩ | ⟨-, e⟩
  · rw [e, creditAt, paidFromCredit, Table.get_modify]
    split
    · exact ⟨_, rfl⟩
    · exact ⟨_, rfl⟩
  · rw [e]
    exact ⟨_, rfl⟩

theorem release_credit (c : Candidate) (k : ReleaseClass) (tag : Nat) (s : State) :
    (release c k tag s).credit = (payRelease c s).credit := by
  simp [release, recordRelease, beginSend]

theorem creditInRange_release {c : Candidate} {k : ReleaseClass} {tag : Nat} {s : State} {x : TenantId}
    (law : CreditInRange (creditAt s x)) : CreditInRange (creditAt (release c k tag s) x) := by
  have paid : CreditInRange
      (creditAt (if s.control.mode = .govern then payCharge c.tenant c.desc.charge s else s) x) := by
    split
    · obtain ⟨_, e⟩ := payCharge_creditAt c.tenant c.desc.charge s x
      rw [e]
      exact law
    · exact law
  rw [creditAt_congr (release_credit c k tag s), payRelease, creditAt_changeCredit]
  split
  · obtain ⟨-, -, rest⟩ := paid
    exact ⟨min_le_left _ _, min_le_left _ _, rest⟩
  · exact paid

theorem creditInRange_move {s t : State} (h : Move s t) (records : ∀ x, RecordInRange (recordAt s x))
    (law : ∀ x, CreditInRange (creditAt s x)) : ∀ x, CreditInRange (creditAt t x) := by
  cases h with
  | load k => exact fun x => creditInRange_load (records x) (law x)
  | lendOne _ y =>
    rcases lendOne_cases s y with ⟨-, e⟩ | ⟨-, e⟩
    · intro x
      rw [e, creditAt, Table.get_modify]
      split
      · exact law x
      · exact law x
    · rw [e]; exact law
  | clearCredit y =>
    intro x
    rw [creditAt_changeCredit]
    split
    · obtain ⟨-, rest⟩ := law x
      exact ⟨Nat.zero_le _, rest⟩
    · exact law x
  | runtimeReset =>
    intro x
    rw [runtimeReset_creditAt]
    obtain ⟨-, -, -, settings⟩ := law x
    exact ⟨Nat.zero_le _, Nat.zero_le _, Nat.zero_le _, settings⟩
  | release c k tag => exact fun x => creditInRange_release (law x)
  | _ => exact creditInRange_congr (by simp) law

theorem creditInRange_opening {s t : State} (h : Opening s t) (law : ∀ x, CreditInRange (creditAt s x)) (x : TenantId) :
    CreditInRange (creditAt t x) := by
  rcases h.block (block := State.credit) (fun _ _ => rfl) (fun _ _ => rfl) openedFrame_credit with e | e
  · exact creditInRange_congr e law x
  · have reset : creditAt t x = CreditEntry.reset := (creditAt_congr e x).trans (Table.get_fill ..)
    rw [reset]
    unfold CreditInRange
    decide

/-! ### Ages of queued descriptors -/

theorem ages_move {s t : State} (h : Move s t) (law : ∀ x, ∀ d ∈ queuedOf (queuesAt s x), d.age ≤ 255) (x : TenantId) :
    ∀ d ∈ queuedOf (queuesAt t x), d.age ≤ 255 := by
  obtain ⟨f, follows, -⟩ := move_queueFollows h x
  intro e he
  obtain ⟨d, hd, rfl⟩ := follows.descriptor he
  exact (follows.alike d).age.trans (max_le (law x d hd) le_rfl)

/-! ### Pair entries -/

theorem pairsInRange_congr {s t : State} (h : t.pairHalt.pairs = s.pairHalt.pairs)
    (law : ∀ p, PairInRange (s.pairHalt.pairs.get p)) : ∀ p, PairInRange (t.pairHalt.pairs.get p) := fun p => by
  rw [h]
  exact law p

theorem pairAfter_guard_le {w : PairWrite} {e e' : PairEntry} (h : pairAfter w e = some e') (old : e.guard ≤ 255) :
    e'.guard ≤ 255 := by
  cases w with
  | flags v =>
    obtain rfl := Option.some.inj h
    exact old
  | primary v =>
    obtain ⟨x, -, rfl⟩ := Option.map_eq_some_iff.1 h
    exact old
  | secondary v =>
    obtain ⟨x, -, rfl⟩ := Option.map_eq_some_iff.1 h
    exact old
  | guard v =>
    obtain rfl := Option.some.inj h
    exact Nat.le_of_lt_succ v.isLt

theorem pairsInRange_set {p : PairId} {e : PairEntry} {s : State} (new : PairInRange e)
    (law : ∀ p, PairInRange (s.pairHalt.pairs.get p)) : ∀ q, PairInRange ((s.pairHalt.pairs.set p e).get q) := fun q => by
  rw [Table.get_set]
  split
  · exact new
  · exact law q

theorem pairsInRange_move {s t : State} (h : Move s t) (law : ∀ p, PairInRange (s.pairHalt.pairs.get p)) :
    ∀ p, PairInRange (t.pairHalt.pairs.get p) := by
  cases h with
  | tickGuards =>
    intro p
    rw [Table.get_map, tickGuard]
    obtain ⟨guard, counter⟩ := law p
    split
    · exact ⟨guard, (Nat.sub_le _ _).trans counter⟩
    · exact ⟨guard, counter⟩
  | settle p =>
    rcases testSettle_cases p s with ⟨-, e⟩ | ⟨-, e⟩
    · rw [e]; exact pairsInRange_set (law p) law
    · rw [e]; exact law
  | flipPair p =>
    intro q
    rw [Table.get_modify]
    obtain ⟨guard, counter⟩ := law q
    split
    · exact ⟨guard, guard⟩
    · exact ⟨guard, counter⟩
  | writePair p w =>
    rcases writePair_cases p w s with ⟨-, e⟩ | ⟨after, stored, ⟨-, e⟩ | ⟨-, -, e⟩ | ⟨-, -, -, e⟩ | ⟨-, -, -, e⟩⟩
    · rw [e]; exact law
    · rw [e]; exact law
    · rw [e]; exact law
    · rw [e]; exact law
    · have guard : after.guard ≤ 255 := pairAfter_guard_le stored (law p).1
      rw [e]; exact pairsInRange_set ⟨guard, Nat.zero_le _⟩ law
  | _ => exact pairsInRange_congr (by simp) law

theorem pairsInRange_opening {s t : State} (h : Opening s t) (law : ∀ p, PairInRange (s.pairHalt.pairs.get p))
    (p : PairId) : PairInRange (t.pairHalt.pairs.get p) := by
  rcases h.block (block := fun s => s.pairHalt.pairs) (fun _ _ => rfl) (fun _ _ => rfl) openedFrame_pairs with e | e
  · exact pairsInRange_congr e law p
  · have reset : t.pairHalt.pairs.get p = PairEntry.reset := (congrArg (Table.get · p) e).trans (Table.get_fill ..)
    rw [reset]
    exact ⟨Nat.zero_le _, Nat.zero_le _⟩

/-! ### The link reset counts -/

theorem linkCounts_move {s t : State} (h : Move s t) (law : s.links.switchResets ≤ 65535 ∧ s.links.poolLosses ≤ 65535) :
    t.links.switchResets ≤ 65535 ∧ t.links.poolLosses ≤ 65535 := by
  cases h with
  | switchUp | poolUp => exact law
  | switchReset => exact ⟨min_le_left _ _, law.2⟩
  | losePool =>
    rw [losePool_eq, freeSlot_links, loseEntries_links]
    exact ⟨law.1, min_le_left _ _⟩
  | clearLinkCount p =>
    cases p
    · exact ⟨Nat.zero_le _, law.2⟩
    · exact ⟨law.1, Nat.zero_le _⟩
  | discardAll x => rw [discardAll_links]; exact law
  | discardWrites x => rw [discardWrites_links]; exact law
  | _ => simpa using law

theorem linkCounts_opening {s t : State} (h : Opening s t)
    (law : s.links.switchResets ≤ 65535 ∧ s.links.poolLosses ≤ 65535) :
    t.links.switchResets ≤ 65535 ∧ t.links.poolLosses ≤ 65535 := by
  rcases h.block (block := State.links) (fun _ _ => rfl) (fun _ _ => rfl) openedFrame_links with e | e
  · rw [e]; exact law
  · rw [e]; exact ⟨Nat.zero_le _, Nat.zero_le _⟩

/-! ### The whole law -/

theorem inRange_move {s t : State} (h : Move s t) (law : InRange s) : InRange t := by
  obtain ⟨records, credit, ages, pairs, switchResets, poolLosses⟩ := law
  obtain ⟨resets, losses⟩ := linkCounts_move h ⟨switchResets, poolLosses⟩
  exact ⟨recordsInRange_move h records, creditInRange_move h records credit, ages_move h ages,
    pairsInRange_move h pairs, resets, losses⟩

theorem inRange_admits {s t : State} (h : Admits s t) (law : InRange s) : InRange t := by
  obtain ⟨records, credit, ages, pairs, switchResets, poolLosses⟩ := law
  obtain ⟨x, q, tag, b⟩ := h
  exact ⟨recordsInRange_congr (by simp) records, creditInRange_congr (by simp) credit,
    forall_queued_admitArrival (Nat.zero_le _) ages, pairsInRange_congr (by simp) pairs, by simpa using switchResets,
    by simpa using poolLosses⟩

theorem inRange_opening {s t : State} (h : Opening s t) (law : InRange s) : InRange t := by
  obtain ⟨records, credit, ages, pairs, switchResets, poolLosses⟩ := law
  obtain ⟨resets, losses⟩ := linkCounts_opening h ⟨switchResets, poolLosses⟩
  exact ⟨recordsInRange_opening h records, creditInRange_opening h credit, forall_queued_opening h ages,
    pairsInRange_opening h pairs, resets, losses⟩

end Sys2Proof.Machine

section

open Sys2Proof Sys2Proof.Machine

/-- Settles O13: each of the five laws is kept by every opening, every move and an admission. -/
theorem stepKeepsRangeLaws : Obligations.StepKeepsRangeLaws := by
  unfold Obligations.StepKeepsRangeLaws
  intro s t h
  refine ⟨fun law => ?_, fun law => ?_, fun law => ?_, fun law => ?_, fun law => ?_⟩
  · exact step_keeps (fun o => timeoutLaw_opening o law) timeoutLaw_move id timeoutLaw_admits h
  · exact step_keeps (fun o => observationLaw_opening o law) observationLaw_move id observationLaw_admits h
  · exact step_keeps (fun o => portLaw_opening o law) portLaw_move id portLaw_admits h
  · exact step_keeps (fun o => timerLaw_opening o law) timerLaw_move id timerLaw_admits h
  · rw [rangeLaw_iff] at law ⊢
    exact step_keeps (fun o => inRange_opening o ⟨law.1, law.2, law.3, law.4, law.5, law.6⟩) inRange_move id
      inRange_admits h

end
end

