-- ==== Sys2Proof/Proofs/QueueLaws.lean ====
section
/-! PROOFS. Every step keeps the limits of the queues, the parking of descriptors and the drain targets (R21 to R25, R32, R35, R115). -/

namespace Sys2Proof.Machine

/-! ### The law of one tenant's queues in its parts -/

/-- What a tenant's state says of its queued descriptors (R25, R35). -/
def ParkingAgrees (state : TenantState) (ds : List Descriptor) : Prop :=
  (state = .off ∨ state = .fenced → ds = []) ∧ (state = .active → ∀ d ∈ ds, d.parked = false) ∧
    (state = .quiesced → ∀ d ∈ ds, d.parked = true)

/-- The RQ holds READs and the WQ the other kinds (R32). -/
def KindsAgree (u : TenantQueues) : Prop := (∀ d ∈ u.rq, d.kind = .read) ∧ ∀ d ∈ u.wq, d.kind ≠ .read

/-- The limits of a record hold its occupancy and its reserve (R23, R25). -/
def LimitsHold (r : TenantRecord) (u : TenantQueues) : Prop :=
  (queuedOf u).length ≤ r.qlim ∧ r.qres ≤ r.qlim ∧ r.qlim ≤ 1024

/-- A drain target stands in DRAINING alone (R115). -/
def TargetAgrees (r : TenantRecord) : Prop := r.target = .none ↔ r.state ≠ .draining

theorem tenantQueueLaw_iff (s : State) (x : TenantId) : TenantQueueLaw s x ↔
    LimitsHold (recordAt s x) (queuesAt s x) ∧ ParkingAgrees (recordAt s x).state (queuedOf (queuesAt s x)) ∧
      KindsAgree (queuesAt s x) := by
  simp only [TenantQueueLaw, LimitsHold, ParkingAgrees, KindsAgree, occupancy, and_assoc]

theorem parkingAgrees_of_empty {state : TenantState} {ds : List Descriptor} (empty : ds = []) :
    ParkingAgrees state ds := by
  subst empty
  exact ⟨fun _ => rfl, fun _ => nofun, fun _ => nofun⟩

theorem parkingAgrees_draining (ds : List Descriptor) : ParkingAgrees .draining ds :=
  ⟨fun h => absurd h (by decide), nofun, nofun⟩

theorem parkingAgrees_quiesced {ds : List Descriptor} (parked : ∀ d ∈ ds, d.parked = true) :
    ParkingAgrees .quiesced ds :=
  ⟨fun h => absurd h (by decide), nofun, fun _ => parked⟩

/-! ### What queues that follow keep -/

theorem Follows.kindsAgree {f : Descriptor → Descriptor} {u v : TenantQueues} (h : Follows f u v) (law : KindsAgree u) :
    KindsAgree v := by
  obtain ⟨reads, others⟩ := law
  constructor <;> intro e he
  · obtain ⟨d, hd, rfl⟩ := List.mem_map.1 (h.rq.subset he)
    rw [(h.alike d).kind]
    exact reads d hd
  · obtain ⟨d, hd, rfl⟩ := List.mem_map.1 (h.wq.subset he)
    rw [(h.alike d).kind]
    exact others d hd

theorem QueueFollows.parkingAgrees {s t : State} {x : TenantId} (h : QueueFollows s t x)
    (law : ParkingAgrees (recordAt t x).state (queuedOf (queuesAt s x))) :
    ParkingAgrees (recordAt t x).state (queuedOf (queuesAt t x)) := by
  obtain ⟨f, follows, parking⟩ := h
  obtain ⟨resting, active, quiesced⟩ := law
  refine ⟨fun state => follows.eq_nil (resting state), fun state e he => ?_, fun state e he => ?_⟩
  · obtain ⟨d, hd, rfl⟩ := follows.descriptor he
    exact Bool.eq_false_iff.2 fun parked => absurd ((follows.alike d).parked parked) (by simp [active state d hd])
  · obtain ⟨d, hd, rfl⟩ := follows.descriptor he
    have kept := parking.resolve_left (by rw [state]; decide)
    exact (kept d).trans (quiesced state d hd)

theorem QueueFollows.length_le {s t : State} {x : TenantId} (h : QueueFollows s t x) : occupancy t x ≤ occupancy s x := by
  obtain ⟨f, follows, -⟩ := h
  exact follows.length_le

/-! ### Tenant Records -/

/-- A record's limits, state and target. -/
def lifeOf (r : TenantRecord) : Nat × Nat × TenantState × DrainTarget := (r.qlim, r.qres, r.state, r.target)

/-- Every tenant's record keeps its limits, its state and its target. -/
def LifeKept (s t : State) : Prop := ∀ x, lifeOf (recordAt t x) = lifeOf (recordAt s x)

theorem lifeKept_of_records {s t : State} (h : t.records = s.records) : LifeKept s t := fun x => by rw [recordAt_congr h]

theorem lifeKept_changeRecord {y : TenantId} {f : TenantRecord → TenantRecord} (kept : ∀ r, lifeOf (f r) = lifeOf r)
    (s : State) : LifeKept s (changeRecord y f s) := fun x => by
  rw [recordAt_changeRecord]
  split
  · exact kept _
  · rfl

theorem lifeOf_tickDrainClock (r : TenantRecord) : lifeOf (tickDrainClock r) = lifeOf r := by
  rcases tickDrainClock_cases r with ⟨-, -, e⟩ | ⟨-, e⟩ <;> rw [e] <;> rfl

/-- Where a tenant's queues follow and its limits stay, its parking and its target decide. -/
theorem queueLaws_of_follows {s t : State} {x : TenantId} (follows : QueueFollows s t x)
    (limits : (recordAt t x).qlim = (recordAt s x).qlim ∧ (recordAt t x).qres = (recordAt s x).qres)
    (parking : ParkingAgrees (recordAt t x).state (queuedOf (queuesAt t x))) (target : TargetAgrees (recordAt t x))
    (law : TenantQueueLaw s x) : TenantQueueLaw t x ∧ TargetAgrees (recordAt t x) := by
  obtain ⟨qlim, qres⟩ := limits
  rw [tenantQueueLaw_iff] at law ⊢
  obtain ⟨⟨held, reserve, limit⟩, -, kinds⟩ := law
  refine ⟨⟨⟨?_, ?_, ?_⟩, parking, ?_⟩, target⟩
  · rw [qlim]; exact follows.length_le.trans held
  · rw [qlim, qres]; exact reserve
  · rw [qlim]; exact limit
  · obtain ⟨f, queue, -⟩ := follows
    exact queue.kindsAgree kinds

/-- Where the queues follow and the records keep their limits and states, the laws stay. -/
theorem queueLaws_of_lifeKept {s t : State} {x : TenantId} (kept : lifeOf (recordAt t x) = lifeOf (recordAt s x))
    (follows : QueueFollows s t x) (law : TenantQueueLaw s x ∧ TargetAgrees (recordAt s x)) :
    TenantQueueLaw t x ∧ TargetAgrees (recordAt t x) := by
  simp only [lifeOf, Prod.mk.injEq] at kept
  obtain ⟨qlim, qres, state, target⟩ := kept
  obtain ⟨queues, targets⟩ := law
  obtain ⟨-, parking, -⟩ := (tenantQueueLaw_iff s x).1 queues
  refine queueLaws_of_follows follows ⟨qlim, qres⟩ (follows.parkingAgrees (state ▸ parking)) ?_ queues
  rw [TargetAgrees, target, state]
  exact targets

/-- A tenant whose state changes: its parking has to agree with the new state, and its target with it. -/
theorem queueLaws_of_newState {y : TenantId} {f : TenantRecord → TenantRecord} {s t : State}
    (records : t.records = s.records.modify y f) (follows : ∀ x, QueueFollows s t x)
    (limits : ∀ r, (f r).qlim = r.qlim ∧ (f r).qres = r.qres)
    (parking : ParkingAgrees (f (recordAt s y)).state (queuedOf (queuesAt t y)))
    (target : TargetAgrees (f (recordAt s y)))
    (law : ∀ x, TenantQueueLaw s x ∧ TargetAgrees (recordAt s x)) (x : TenantId) :
    TenantQueueLaw t x ∧ TargetAgrees (recordAt t x) := by
  have value : recordAt t x = if y = x then f (recordAt s x) else recordAt s x := by
    rw [recordAt, records, Table.get_modify]
    rfl
  by_cases same : y = x
  · subst y
    rw [if_pos rfl] at value
    refine queueLaws_of_follows (follows x) ?_ ?_ ?_ (law x).1 <;> rw [value]
    · exact limits _
    · exact parking
    · exact target
  · rw [if_neg same] at value
    exact queueLaws_of_lifeKept (by rw [value]) (follows x) (law x)

/-- New limits of a tenant that is OFF hold, since nothing of it is queued (R23). -/
theorem queueLaws_of_newLimits {y : TenantId} {f : TenantRecord → TenantRecord} {s : State}
    (off : (recordAt s y).state = .off) (kept : ∀ r, (f r).state = r.state ∧ (f r).target = r.target)
    (limits : (recordAt s y).qres ≤ (recordAt s y).qlim → (recordAt s y).qlim ≤ 1024 →
      (f (recordAt s y)).qres ≤ (f (recordAt s y)).qlim ∧ (f (recordAt s y)).qlim ≤ 1024)
    (law : ∀ x, TenantQueueLaw s x ∧ TargetAgrees (recordAt s x)) (x : TenantId) :
    TenantQueueLaw (changeRecord y f s) x ∧ TargetAgrees (recordAt (changeRecord y f s) x) := by
  obtain ⟨queues, targets⟩ := law x
  rw [tenantQueueLaw_iff] at queues ⊢
  have same : queuesAt (changeRecord y f s) x = queuesAt s x := rfl
  rw [recordAt_changeRecord, same]
  split
  · subst y
    obtain ⟨⟨-, reserve, limit⟩, parking, kinds⟩ := queues
    obtain ⟨state, target⟩ := kept (recordAt s x)
    have empty := parking.1 (.inl off)
    rw [TargetAgrees, state, target]
    exact ⟨⟨⟨empty ▸ Nat.zero_le _, limits reserve limit⟩, parking, kinds⟩, targets⟩
  · exact ⟨queues, targets⟩

/-! ### Every move -/

theorem parkingAgrees_unparked (rq wq : List Descriptor) (retryMark : Bool) :
    ParkingAgrees .active (queuedOf ⟨rq.map unpark, wq.map unpark, retryMark⟩) := by
  refine ⟨fun h => absurd h (by decide), fun _ d hd => ?_, nofun⟩
  rw [queuedOf, ← List.map_append] at hd
  obtain ⟨_, -, rfl⟩ := List.mem_map.1 hd
  rfl

theorem queueLaws_writeTenantField {y : TenantId} {f : TenantField} {v : Nat} {s : State}
    (law : ∀ x, TenantQueueLaw s x ∧ TargetAgrees (recordAt s x)) (x : TenantId) :
    TenantQueueLaw (writeTenantField y f v s) x ∧ TargetAgrees (recordAt (writeTenantField y f v s) x) := by
  have set : ∀ g : TenantRecord → TenantRecord, (∀ r, lifeOf (g r) = lifeOf r) →
      TenantQueueLaw (changeRecord y g s) x ∧ TargetAgrees (recordAt (changeRecord y g s) x) := fun g kept =>
    queueLaws_of_lifeKept (lifeKept_changeRecord kept s x) (queueFollows_of_admission rfl) (law x)
  cases f with
  | weight | ceil | ageb | strikeTh | drainb | attrs => exact set _ fun _ => rfl
  | floor =>
    rcases writeFloor_cases y v s with ⟨-, -, e⟩ | ⟨-, e⟩
    · rw [writeTenantField, e]; exact law x
    · rw [writeTenantField, e]; exact set _ fun _ => rfl
  | qlim =>
    rcases writeQlim_cases y v s with ⟨-, e⟩ | ⟨off, e⟩
    · rw [writeTenantField, e]; exact law x
    · rw [writeTenantField, e]
      exact queueLaws_of_newLimits off (fun _ => ⟨by rfl, by rfl⟩) (fun _ _ => ⟨by exact min_le_right _ _, by exact min_le_left _ _⟩) law x
  | qres =>
    rcases writeQres_cases y v s with ⟨-, e⟩ | ⟨-, -, e⟩ | ⟨off, -, e⟩
    · rw [writeTenantField, e]; exact law x
    · rw [writeTenantField, e]; exact law x
    · rw [writeTenantField, e]
      exact queueLaws_of_newLimits off (fun _ => ⟨by rfl, by rfl⟩) (fun _ limit => ⟨by exact min_le_left _ _, limit⟩) law x
  | _ => exact law x

theorem queueLaws_move {s t : State} (h : Move s t) (law : ∀ x, TenantQueueLaw s x ∧ TargetAgrees (recordAt s x)) :
    ∀ x, TenantQueueLaw t x ∧ TargetAgrees (recordAt t x) := by
  have follows := move_queueFollows h
  have parking := fun x => ((tenantQueueLaw_iff s x).1 (law x).1).2.1
  have kept : LifeKept s t → ∀ x, TenantQueueLaw t x ∧ TargetAgrees (recordAt t x) := fun life x =>
    queueLaws_of_lifeKept (life x) (follows x) (law x)
  cases h with
  | strikeBoundary => exact kept fun x => strikeBoundary_recordAt s x ▸ rfl
  | runtimeReset => exact kept fun x => runtimeReset_recordAt s x ▸ rfl
  | pauseMarks => exact kept fun x => by rw [recordAt, Table.get_build]; rfl
  | tickDrainClock => exact kept (lifeKept_changeRecord lifeOf_tickDrainClock s)
  | clearStrikes | writeAttrs => exact kept (lifeKept_changeRecord (fun _ => by rfl) s)
  | writeTenantField y f v => exact queueLaws_writeTenantField law
  | started y _ off =>
    refine queueLaws_of_newState (changeRecord_records y _ s) follows ?_ ?_ ?_ law
    · exact fun _ => ⟨rfl, rfl⟩
    · exact parkingAgrees_of_empty ((parking y).1 (.inl off))
    · exact ⟨fun _ => nofun, fun _ => rfl⟩
  | drainBegun y target _ _ named =>
    refine queueLaws_of_newState (changeRecord_records y _ s) follows ?_ ?_ ?_ law
    · exact fun _ => ⟨rfl, rfl⟩
    · exact parkingAgrees_draining _
    · exact ⟨fun h => absurd h named, fun h => absurd rfl h⟩
  | quiesced y _ finished =>
    obtain ⟨-, parked, -⟩ := finished
    refine queueLaws_of_newState (changeRecord_records y _ s) follows ?_ ?_ ?_ law
    · exact fun _ => ⟨rfl, rfl⟩
    · exact parkingAgrees_quiesced parked
    · exact ⟨fun _ => nofun, fun _ => rfl⟩
  | closed y state _ _ resting empty =>
    refine queueLaws_of_newState (changeRecord_records y _ s) follows ?_ ?_ ?_ law
    · exact fun _ => ⟨rfl, rfl⟩
    · exact parkingAgrees_of_empty empty
    · exact ⟨fun _ => by rcases resting with rfl | rfl <;> exact nofun, fun _ => rfl⟩
  | stopped y _ quiesced empty =>
    refine queueLaws_of_newState (changeRecord_records y _ s) follows ?_ ?_ ?_ law
    · exact fun _ => ⟨rfl, rfl⟩
    · exact parkingAgrees_of_empty empty
    · exact ⟨fun _ => nofun, fun _ => (law y).2.2 (by rw [quiesced]; decide)⟩
  | cleared y _ fenced =>
    refine queueLaws_of_newState (changeRecord_records y _ s) follows ?_ ?_ ?_ law
    · exact fun _ => ⟨rfl, rfl⟩
    · exact parkingAgrees_of_empty ((parking y).1 (.inr fenced))
    · exact ⟨fun _ => nofun, fun _ => (law y).2.2 (by rw [fenced]; decide)⟩
  | resumed y _ paused =>
    refine queueLaws_of_newState ((changeQueues_records y _ _).trans (changeRecord_records y _ s)) follows ?_ ?_ ?_ law
    · exact fun _ => ⟨rfl, rfl⟩
    · rw [queuesAt_changeQueues, if_pos rfl]
      exact parkingAgrees_unparked _ _ _
    · exact ⟨fun _ => nofun, fun _ => rfl⟩
  | _ => exact kept (lifeKept_of_records (by simp))

theorem descriptorsInUse_move {s t : State} (h : Move s t) : descriptorsInUse t ≤ descriptorsInUse s :=
  sumOver_le fun x _ => (move_queueFollows h x).length_le

/-! ### Admissions and openings -/

theorem admitArrival_occupancy (x : TenantId) (q : RequesterId) (tag : Byte) (b : RequestBody) (s : State) (y : TenantId) :
    occupancy (admitArrival x q tag b s) y = if x = y then occupancy s x + 1 else occupancy s y := by
  rw [occupancy, admitArrival_queuesAt]
  split
  · exact length_queuedOf_enqueue _ _
  · rfl

theorem descriptorsInUse_admitArrival (x : TenantId) (q : RequesterId) (tag : Byte) (b : RequestBody) (s : State) :
    descriptorsInUse (admitArrival x q tag b s) = descriptorsInUse s + 1 := by
  have others : ∀ y, y ≠ x → occupancy (admitArrival x q tag b s) y = occupancy s y := fun y apart => by
    rw [admitArrival_occupancy, if_neg (Ne.symm apart)]
  have changed := sumOver_update others
  rw [admitArrival_occupancy, if_pos rfl] at changed
  have total : descriptorsInUse (admitArrival x q tag b s) + occupancy s x = descriptorsInUse s + (occupancy s x + 1) :=
    changed
  omega

theorem kindsAgree_enqueue {d : Descriptor} {u : TenantQueues} (law : KindsAgree u) : KindsAgree (enqueue d u) := by
  obtain ⟨reads, others⟩ := law
  rw [enqueue]
  split
  · refine ⟨fun e he => ?_, others⟩
    rcases List.mem_append.1 he with he | he
    · exact reads e he
    · rwa [List.mem_singleton.1 he]
  · refine ⟨reads, fun e he => ?_⟩
    rcases List.mem_append.1 he with he | he
    · exact others e he
    · rwa [List.mem_singleton.1 he]

/-- A new descriptor is parked as its tenant's state asks (R35). -/
theorem parkingAgrees_enqueue {x : TenantId} {q : RequesterId} {tag : Byte} {b : RequestBody} {s : State}
    (notOff : (recordAt s x).state ≠ .off) (notFenced : (recordAt s x).state ≠ .fenced)
    (law : ParkingAgrees (recordAt s x).state (queuedOf (queuesAt s x))) :
    ParkingAgrees (recordAt s x).state (queuedOf (enqueue (newDescriptor x q tag b s) (queuesAt s x))) := by
  obtain ⟨-, active, quiesced⟩ := law
  refine ⟨fun resting => absurd resting (not_or.2 ⟨notOff, notFenced⟩), fun state d hd => ?_, fun state d hd => ?_⟩
  · rcases mem_queuedOf_enqueue.1 hd with rfl | hd
    · simp [newDescriptor, state]
    · exact active state d hd
  · rcases mem_queuedOf_enqueue.1 hd with rfl | hd
    · simp [newDescriptor, state]
    · exact quiesced state d hd

/-- The descriptor test leaves room in the tenant's limit and in the pool (R25). -/
theorem room_of_descriptorTest {s : State} {x : TenantId} (room : descriptorTest s x = true)
    (reserve : (recordAt s x).qres ≤ (recordAt s x).qlim) :
    occupancy s x < (recordAt s x).qlim ∧ descriptorsInUse s < 1024 := by
  have passes := (descriptorTest_iff s x).1 room
  rw [PassesDescriptorTest, ← occupancy_eq_held] at passes
  rw [descriptorsInUse]
  omega

theorem queueLaw_admits {s t : State} (h : Admits s t)
    (law : descriptorsInUse s ≤ 1024 ∧ ∀ x, TenantQueueLaw s x ∧ TargetAgrees (recordAt s x)) :
    descriptorsInUse t ≤ 1024 ∧ ∀ x, TenantQueueLaw t x ∧ TargetAgrees (recordAt t x) := by
  obtain ⟨-, tenants⟩ := law
  obtain ⟨x, q, tag, b, _, -, notOff, notFenced, room, -⟩ := h
  obtain ⟨⟨-, reserve, limit⟩, parking, kinds⟩ := (tenantQueueLaw_iff s x).1 (tenants x).1
  obtain ⟨below, free⟩ := room_of_descriptorTest room reserve
  refine ⟨by rw [descriptorsInUse_admitArrival]; omega, fun y => ?_⟩
  have record : recordAt (admitArrival x q tag b s) y = recordAt s y := recordAt_congr (by simp) y
  rw [tenantQueueLaw_iff, record, admitArrival_queuesAt]
  split
  · subst y
    refine ⟨⟨⟨?_, reserve, limit⟩, parkingAgrees_enqueue notOff notFenced parking, kindsAgree_enqueue kinds⟩,
      (tenants x).2⟩
    rw [length_queuedOf_enqueue]
    exact below
  · exact ⟨(tenantQueueLaw_iff s y).1 (tenants y).1, (tenants y).2⟩

theorem queueLaws_powerOn {t : State} {x : TenantId} (record : recordAt t x = recordAt State.powerOn x)
    (empty : queuesAt t x = TenantQueues.empty) : TenantQueueLaw t x ∧ TargetAgrees (recordAt t x) := by
  have limits := recordInRange_powerOn x
  obtain ⟨-, -, -, -, -, -, -, -, reserve, limit⟩ := limits
  have target : TargetAgrees (recordAt State.powerOn x) := by
    rw [powerOn_recordAt, TargetAgrees]
    split <;> decide
  rw [tenantQueueLaw_iff, record, empty]
  exact ⟨⟨⟨Nat.zero_le _, reserve, limit⟩, parkingAgrees_of_empty rfl, nofun, nofun⟩, target⟩

/-- An opening leaves a tenant's queues and its record but for the pause mark, or sets both to their power-on values. -/
theorem opening_tenant {s t : State} (h : Opening s t) (x : TenantId) :
    (queuesAt t x = queuesAt s x ∧ lifeOf (recordAt t x) = lifeOf (recordAt s x)) ∨
      (queuesAt t x = TenantQueues.empty ∧ recordAt t x = recordAt State.powerOn x) := by
  have opened : ∀ u, recordAt u x = recordAt s x → lifeOf (recordAt (openedFrame u) x) = lifeOf (recordAt s x) :=
    fun u same => by
      obtain ⟨_, e⟩ := openedFrame_recordAt u x
      rw [e, ← same]
      rfl
  cases h with
  | none => exact .inl ⟨rfl, rfl⟩
  | powerOnReset => exact .inr ⟨Table.get_fill .., rfl⟩
  | pinReset => exact .inr ⟨Table.get_fill .., rfl⟩
  | powerOnRelease => exact .inl ⟨queuesAt_congr (openedFrame_admission _) x, opened _ rfl⟩
  | pinResetRelease => exact .inl ⟨queuesAt_congr (openedFrame_admission _) x, opened _ rfl⟩

theorem queueLaws_opening {s t : State} (h : Opening s t) (x : TenantId)
    (law : TenantQueueLaw s x ∧ TargetAgrees (recordAt s x)) : TenantQueueLaw t x ∧ TargetAgrees (recordAt t x) := by
  rcases opening_tenant h x with ⟨same, kept⟩ | ⟨empty, record⟩
  · exact queueLaws_of_lifeKept kept (queueFollows_of_eq (by rw [same]) (by rw [same])) law
  · exact queueLaws_powerOn record empty

theorem descriptorsInUse_opening {s t : State} (h : Opening s t) : descriptorsInUse t ≤ descriptorsInUse s := by
  refine sumOver_le fun x _ => ?_
  rcases opening_queuesAt h with same | empty
  · rw [occupancy, same]; rfl
  · rw [occupancy, empty]; exact Nat.zero_le _

end Sys2Proof.Machine

section

open Sys2Proof Sys2Proof.Machine

/-- Settles O10: the two laws together are kept by every opening, every move and an admission. -/
theorem stepKeepsQueueLaw : Obligations.StepKeepsQueueLaw := by
  unfold Obligations.StepKeepsQueueLaw
  intro s t queues targets h
  obtain ⟨few, tenants⟩ := queues
  obtain ⟨few', tenants'⟩ := step_keeps
    (P := fun s => descriptorsInUse s ≤ 1024 ∧ ∀ x, TenantQueueLaw s x ∧ TargetAgrees (recordAt s x))
    (fun o => ⟨(descriptorsInUse_opening o).trans few, fun x => queueLaws_opening o x ⟨tenants x, targets x⟩⟩)
    (fun m law => ⟨(descriptorsInUse_move m).trans law.1, queueLaws_move m law.2⟩) id queueLaw_admits h
  exact ⟨⟨few', fun x => (tenants' x).1⟩, fun x => (tenants' x).2⟩

end
end

