-- ==== Sys2Proof/Proofs/Division.lean ====
section
/-! PROOFS. Every step keeps the division of capacity: floors, snapshot, result, credits, spare pool and charges (R19, R20, R47, R53 to R56, R67, R68, R71 to R77). -/

namespace Sys2Proof.Machine

/-! ### Floors and the snapshot -/

theorem effCapOf_le (fp cap : Nat) (straps : Straps) : effCapOf fp cap straps ≤ 16383 :=
  (min_le_right _ _).trans (min_le_left _ _)

theorem floorLaw_of_counted {s t : State} (cap : effectiveCap t = effectiveCap s)
    (counted : ∀ x, countedFloor (recordAt t x) ≤ countedFloor (recordAt s x)) (law : FloorLaw s) : FloorLaw t := by
  rw [FloorLaw, floorSum_eq, cap]
  rw [FloorLaw, floorSum_eq] at law
  exact (sumOver_le fun x _ => counted x).trans law

theorem floorLaw_congr {s t : State} (records : t.records = s.records) (fp : t.timer.fp = s.timer.fp)
    (cap : t.timer.cap = s.timer.cap) (straps : t.control.straps = s.control.straps) (law : FloorLaw s) :
    FloorLaw t :=
  floorLaw_of_counted (by rw [effectiveCap, fp, cap, straps, effectiveCap])
    (fun x => (congrArg countedFloor (recordAt_congr records x)).le) law

/-- A record changed without raising the counted floor (R47). -/
theorem floorLaw_changeRecord {y : TenantId} {f : TenantRecord → TenantRecord} {s : State}
    (lower : countedFloor (f (recordAt s y)) ≤ countedFloor (recordAt s y)) (law : FloorLaw s) :
    FloorLaw (changeRecord y f s) := by
  refine floorLaw_of_counted (s := s) rfl (fun x => ?_) law
  rw [recordAt_changeRecord]
  split
  · subst y; exact lower
  · exact le_rfl

theorem countedFloor_le_floor (r : TenantRecord) : countedFloor r ≤ r.floor := by
  rw [countedFloor]
  split
  · exact Nat.zero_le _
  · exact le_rfl

theorem countedFloor_of_off {r : TenantRecord} (off : r.state = .off) : countedFloor r = 0 := if_pos off

theorem countedFloor_of_not_off {r : TenantRecord} (up : r.state ≠ .off) : countedFloor r = r.floor := if_neg up

/-- The floor sum with one tenant's counted floor replaced. -/
theorem floorSum_changeRecord (y : TenantId) (f : TenantRecord → TenantRecord) (s : State) :
    floorSum (changeRecord y f s) + countedFloor (recordAt s y) = floorSum s + countedFloor (f (recordAt s y)) := by
  have others : ∀ x, x ≠ y → countedFloor (recordAt (changeRecord y f s) x) = countedFloor (recordAt s x) :=
    fun x apart => by rw [recordAt_changeRecord, if_neg (Ne.symm apart)]
  have changed := sumOver_update others
  rw [recordAt_changeRecord, if_pos rfl] at changed
  rw [floorSum_eq, floorSum_eq]
  exact changed

/-- A tenant that counted for nothing counts from now on (R47, R118). -/
theorem floorLaw_of_counted_from_zero {y : TenantId} {f : TenantRecord → TenantRecord} {s : State}
    (before : countedFloor (recordAt s y) = 0)
    (fits : floorSum s + countedFloor (f (recordAt s y)) ≤ effectiveCap s) : FloorLaw (changeRecord y f s) := by
  have sum := floorSum_changeRecord y f s
  rw [before, Nat.add_zero] at sum
  rw [FloorLaw, sum]
  exact fits

theorem floorLaw_writeTenantField {y : TenantId} {f : TenantField} {v : Nat} {s : State} (law : FloorLaw s) :
    FloorLaw (writeTenantField y f v s) := by
  have set : ∀ g : TenantRecord → TenantRecord, (∀ r, countedFloor (g r) = countedFloor r) →
      FloorLaw (changeRecord y g s) := fun g kept => floorLaw_changeRecord (kept _).le law
  cases f with
  | weight | ceil | ageb | strikeTh | drainb | attrs => exact set _ fun _ => rfl
  | floor =>
    rcases writeFloor_cases y v s with ⟨-, -, e⟩ | ⟨off | fits, e⟩
    · rw [writeTenantField, e]; exact law
    · rw [writeTenantField, e]
      exact floorLaw_changeRecord ((countedFloor_of_off (by exact off)).trans_le (Nat.zero_le _)) law
    · rw [writeTenantField, e, FloorLaw, floorSum_eq]
      exact fits
  | qlim =>
    rcases writeQlim_cases y v s with ⟨-, e⟩ | ⟨-, e⟩
    · rw [writeTenantField, e]; exact law
    · rw [writeTenantField, e]; exact set _ fun _ => rfl
  | qres =>
    rcases writeQres_cases y v s with ⟨-, e⟩ | ⟨-, -, e⟩ | ⟨-, -, e⟩
    · rw [writeTenantField, e]; exact law
    · rw [writeTenantField, e]; exact law
    · rw [writeTenantField, e]; exact set _ fun _ => rfl
  | _ => exact law

theorem floorLaw_move {s t : State} (h : Move s t) (law : FloorLaw s) : FloorLaw t := by
  cases h with
  | strikeBoundary =>
    refine floorLaw_of_counted (by simp [effectiveCap]) (fun x => ?_) law
    rw [strikeBoundary_recordAt]
    exact le_rfl
  | runtimeReset => exact floorLaw_of_counted (s := s) rfl (fun x => (congrArg countedFloor (runtimeReset_recordAt s x)).le) law
  | pauseMarks _ marked =>
    exact floorLaw_of_counted (s := s) rfl (fun x => (congrArg countedFloor (Table.get_build ..)).le) law
  | openFrame | passTime | reachLendPhase | writeLp => exact law
  | tickDrainClock y =>
    refine floorLaw_changeRecord ?_ law
    rcases tickDrainClock_cases (recordAt s y) with ⟨-, -, e⟩ | ⟨-, e⟩ <;> (rw [e]; exact le_rfl)
  | clearStrikes | writeAttrs => exact floorLaw_changeRecord (by exact le_rfl) law
  | writeTenantField => exact floorLaw_writeTenantField law
  | writeFp v =>
    rcases writeFp_cases v s with ⟨-, e⟩ | ⟨fits, e⟩
    · rw [e]; exact law
    · rw [e, FloorLaw, floorSum_eq]; exact fits
  | writeCap v =>
    rcases writeCap_cases v s with ⟨-, e⟩ | ⟨fits, e⟩
    · rw [e]; exact law
    · rw [e, FloorLaw, floorSum_eq]; exact fits
  | started x _ off fits =>
    refine floorLaw_of_counted_from_zero (countedFloor_of_off off) ?_
    exact (Nat.add_le_add_left (countedFloor_le_floor _) _).trans fits
  | drainBegun y target _ active =>
    refine floorLaw_changeRecord ?_ law
    rw [countedFloor_of_not_off (r := recordAt s y) (by rw [active]; decide)]
    exact countedFloor_le_floor _
  | quiesced y _ finished =>
    refine floorLaw_changeRecord ?_ law
    rw [countedFloor_of_not_off (r := recordAt s y) (by rw [finished.1]; decide)]
    exact countedFloor_le_floor _
  | closed y state _ draining =>
    refine floorLaw_changeRecord ?_ law
    rw [countedFloor_of_not_off (r := recordAt s y) (by rw [draining]; decide)]
    exact countedFloor_le_floor _
  | stopped y _ quiesced =>
    refine floorLaw_changeRecord ?_ law
    rw [countedFloor_of_not_off (r := recordAt s y) (by rw [quiesced]; decide)]
    exact countedFloor_le_floor _
  | cleared y _ fenced =>
    refine floorLaw_changeRecord ?_ law
    rw [countedFloor_of_not_off (r := recordAt s y) (by rw [fenced]; decide)]
    exact countedFloor_le_floor _
  | resumed y _ paused =>
    have up : (recordAt s y).state ≠ .off := by rcases paused with e | e <;> (rw [e]; decide)
    refine floorLaw_congr (s := changeRecord y (fun r => { r with state := .active, target := .none }) s) rfl rfl rfl rfl
      (floorLaw_changeRecord ?_ law)
    rw [countedFloor_of_not_off up]
    exact countedFloor_le_floor _
  | _ => exact floorLaw_congr (by simp) (by simp) (by simp) (by simp) law

/-- A tenant's guaranteed part is at most its counted floor: an eligible tenant is not OFF (R49, R52). -/
theorem guaranteedPart_le (s : State) (x : TenantId) :
    guaranteedPart (snapshotTenant s x) ≤ countedFloor (recordAt s x) := by
  rw [guaranteedPart]
  split
  · rename_i h
    have up : (recordAt s x).state ≠ .off := fun off => by
      have chosen : eligible s x = true := h
      simp [eligible, off] at chosen
    rw [countedFloor_of_not_off up]
    refine (min_le_left _ _).trans ?_
    rw [effectiveFloor]
    split
    · exact Nat.zero_le _
    · exact le_rfl
  · exact Nat.zero_le _

/-- The guaranteed parts of a snapshot are within the floor sum, and so within the effective CAP (R47, R53). -/
theorem totalGuaranteed_takeSnapshot (s : State) : totalGuaranteed (takeSnapshot s).solver.snapshot ≤ floorsHeld s := by
  have taken : totalGuaranteed (takeSnapshot s).solver.snapshot = sumTenants fun x => guaranteedPart (snapshotTenant s x) := by
    rw [totalGuaranteed, sumOver_toList]
    exact sumOver_congr fun x _ => congrArg guaranteedPart (takeSnapshot_snapshotOf s x)
  have floors : floorsHeld s = sumTenants fun x => countedFloor (recordAt s x) := rfl
  rw [taken, floors]
  exact sumOver_le fun x _ => guaranteedPart_le s x

theorem snapshotLaw_takeSnapshot {s : State} (law : FloorLaw s) : SnapshotLaw (takeSnapshot s).solver.snapshot := by
  rw [FloorLaw, floorSum_eq] at law
  exact ⟨(totalGuaranteed_takeSnapshot s).trans law, effCapOf_le _ _ _⟩

theorem sumOver_eq_zero {α : Type} {l : List α} {f : α → Nat} (h : ∀ a ∈ l, f a = 0) : sumOver l f = 0 := by
  induction l with
  | nil => rfl
  | cons a l ih => rw [sumOver_cons, h a List.mem_cons_self, ih fun b hb => h b (List.mem_cons_of_mem _ hb)]

theorem snapshotLaw_empty : SnapshotLaw Snapshot.empty := by
  have none : totalGuaranteed Snapshot.empty = 0 := by
    rw [totalGuaranteed, sumOver_toList]
    refine sumOver_eq_zero fun x _ => ?_
    rw [Snapshot.empty, Table.get_fill]
    rfl
  exact ⟨none.le, Nat.zero_le _⟩

/-! ### The solve -/

theorem totalExtra_zero (n : Snapshot) : totalExtra n 0 = 0 :=
  sumOver_eq_zero fun t _ => by simp [extraAt]

/-- The extras at the level found fit the residual (R54, R55). -/
theorem totalExtra_waterLevel (n : Snapshot) : totalExtra n (waterLevel n) ≤ residualOf n := by
  have start : totalExtra n 0 ≤ residualOf n := by rw [totalExtra_zero]; exact Nat.zero_le _
  rw [waterLevel]
  split
  · exact start
  · refine foldl_preserves (trial n) (fun level => totalExtra n level ≤ residualOf n) _ (fun level bit _ fits => ?_) 0
      start
    rw [trial]
    split
    · assumption
    · exact fits

/-- A solve hands out at most the effective CAP (R53, R56). -/
theorem resultLaw_solve {n : Snapshot} (law : SnapshotLaw n) (frame : BitVec 16) : ResultLaw (solve n frame) := by
  obtain ⟨guaranteed, cap⟩ := law
  have extra := totalExtra_waterLevel n
  have allotted : sumOver (solve n frame).allotments.toList id = totalGuaranteed n + totalExtra n (waterLevel n) := by
    rw [sumOver_toList, totalGuaranteed, totalExtra, sumOver_toList, sumOver_toList, ← sumOver_add]
    exact sumOver_congr fun x _ => congrArg id (Table.get_map ..)
  have spare : (solve n frame).spare = residualOf n - totalExtra n (waterLevel n) := rfl
  rw [ResultLaw, allotted, spare]
  rw [residualOf] at extra ⊢
  omega

theorem resultLaw_empty : ResultLaw SolveResult.empty := by
  have none : sumOver SolveResult.empty.allotments.toList id = 0 := by
    rw [sumOver_toList]
    exact sumOver_eq_zero fun x _ => Table.get_fill ..
  rw [ResultLaw, none]
  decide

/-! ### Credit and the spare pool -/

/-- The positive credits, tenant by tenant. -/
theorem spendable_sum (c : CreditTable) :
    sumOver c.tenants.toList spendable = sumTenants fun x => spendable (c.tenants.get x) := sumOver_toList _ _

theorem handedAllotment_le (k : LoadKind) (s : State) (x : TenantId) :
    handedAllotment k s x ≤ s.solver.result.allotments.get x := by
  cases k with
  | fresh => exact le_rfl
  | stale =>
    rw [handedAllotment]
    split
    · exact le_rfl
    · exact Nat.zero_le _
  | start => exact Nat.zero_le _

theorem handedSpare_le (k : LoadKind) (s : State) : handedSpare k s ≤ s.solver.result.spare := by
  cases k
  · exact le_rfl
  · exact le_rfl
  · exact Nat.zero_le _

/-- A load gives at most the allotment, and keeps no more of a debt than there was (R71). -/
theorem loadedCredit_bounds (state : TenantState) (allotment : Nat) {old : Int} (debt : -255 ≤ old) :
    -255 ≤ loadedCredit state allotment old ∧ loadedCredit state allotment old ≤ allotment := by
  rw [loadedCredit]
  split <;> omega

theorem creditLaw_load {k : LoadKind} {s : State} (result : ResultLaw s.solver.result) (law : CreditLaw s.credit) :
    CreditLaw (loadCredit k s).credit := by
  obtain ⟨bounds, -⟩ := law
  have sum : sumOver s.solver.result.allotments.toList id = sumTenants fun x => s.solver.result.allotments.get x :=
    sumOver_toList _ _
  rw [ResultLaw, sum] at result
  have loaded : ∀ x, -255 ≤ ((loadCredit k s).credit.tenants.get x).credit ∧
      ((loadCredit k s).credit.tenants.get x).credit ≤ s.solver.result.allotments.get x := fun x => by
    have entry : (loadCredit k s).credit.tenants.get x = loadEntry k s x := Table.get_build ..
    have given := loadedCredit_bounds (recordAt s x).state (handedAllotment k s x) (bounds x).1
    have most := handedAllotment_le k s x
    rw [entry]
    exact ⟨given.1, given.2.trans (Int.ofNat_le.2 most)⟩
  have spent : sumTenants (fun x => spendable ((loadCredit k s).credit.tenants.get x)) ≤
      sumTenants fun x => s.solver.result.allotments.get x :=
    sumOver_le fun x _ => Int.toNat_le.2 (loaded x).2
  have spare := handedSpare_le k s
  refine ⟨fun x => ⟨(loaded x).1, ?_⟩, ?_⟩
  · have one : s.solver.result.allotments.get x ≤ sumTenants fun x => s.solver.result.allotments.get x :=
      le_sumOver (List.mem_finRange x) fun x => s.solver.result.allotments.get x
    have most := (loaded x).2
    omega
  · rw [spendable_sum]
    have pool : (loadCredit k s).credit.spare = handedSpare k s := rfl
    omega

/-- One entry and the spare pool changed, so that what they can pay together does not grow. -/
theorem creditLaw_modify {c : CreditTable} {y : TenantId} {f : CreditEntry → CreditEntry} {spare : Nat}
    (bounds : -255 ≤ (f (c.tenants.get y)).credit ∧ (f (c.tenants.get y)).credit ≤ 16383)
    (together : spare + spendable (f (c.tenants.get y)) ≤ c.spare + spendable (c.tenants.get y)) (law : CreditLaw c) :
    CreditLaw ⟨c.tenants.modify y f, spare⟩ := by
  obtain ⟨all, pool⟩ := law
  have others : ∀ x, x ≠ y → spendable ((c.tenants.modify y f).get x) = spendable (c.tenants.get x) := fun x apart => by
    rw [Table.get_modify, if_neg (Ne.symm apart)]
  have changed : sumTenants (fun x => spendable ((c.tenants.modify y f).get x)) + spendable (c.tenants.get y) =
      sumTenants (fun x => spendable (c.tenants.get x)) + spendable ((c.tenants.modify y f).get y) :=
    sumOver_update others
  rw [Table.get_modify, if_pos rfl] at changed
  refine ⟨fun x => ?_, ?_⟩
  · rw [Table.get_modify]
    split
    · subst y; exact bounds
    · exact all x
  · rw [spendable_sum] at pool ⊢
    dsimp only
    omega

theorem creditLaw_lendOne {y : TenantId} {s : State} (law : CreditLaw s.credit) : CreditLaw (lendOne s y).credit := by
  rcases lendOne_cases s y with ⟨-, e⟩ | ⟨-, e⟩
  · rw [e]
    exact creditLaw_modify ⟨show (-255 : Int) ≤ 0 by decide, show (0 : Int) ≤ 16383 by decide⟩ le_rfl law
  · rw [e]; exact law

theorem creditLaw_clearCredit {y : TenantId} {s : State} (law : CreditLaw s.credit) :
    CreditLaw (changeCredit y (fun e => { e with credit := 0, spent := 0 }) s).credit :=
  creditLaw_modify ⟨show (-255 : Int) ≤ 0 by decide, show (0 : Int) ≤ 16383 by decide⟩ (Nat.add_le_add_left (Nat.zero_le _) _) law

/-- A charge within its range leaves the credit law (R67, R68, R73, R74). -/
theorem creditLaw_payCharge {y : TenantId} {n : Nat} {s : State} (charge : n ≤ 256) (law : CreditLaw s.credit) :
    CreditLaw (payCharge y n s).credit := by
  obtain ⟨all, pool⟩ := law
  rcases payCharge_cases y n s with ⟨credit, e⟩ | ⟨-, e⟩
  · rw [e]
    have bounds := all y
    have one : 1 ≤ (s.credit.tenants.get y).credit := credit
    refine creditLaw_modify ⟨?_, ?_⟩ (Nat.add_le_add_left ?_ _) ⟨all, pool⟩
    · dsimp only; omega
    · dsimp only; omega
    · exact Int.toNat_le_toNat (by dsimp only; omega)
  · rw [e]
    refine ⟨all, ?_⟩
    have paid : (paidFromSpare n s).credit.spare = s.credit.spare - n := rfl
    have same : (paidFromSpare n s).credit.tenants = s.credit.tenants := rfl
    rw [paid, same]
    omega

theorem creditLaw_release {c : Candidate} {k : ReleaseClass} {tag : Nat} {s : State} (charge : c.desc.charge ≤ 256)
    (law : CreditLaw s.credit) : CreditLaw (release c k tag s).credit := by
  have paid : CreditLaw (if s.control.mode = .govern then payCharge c.tenant c.desc.charge s else s).credit := by
    split
    · exact creditLaw_payCharge charge law
    · exact law
  rw [release_credit, payRelease]
  exact creditLaw_modify (paid.1 c.tenant) le_rfl paid

theorem creditLaw_of_zero {c : CreditTable} (credit : ∀ x, (c.tenants.get x).credit = 0) (spare : c.spare = 0) :
    CreditLaw c := by
  refine ⟨fun x => by rw [credit]; decide, ?_⟩
  rw [spendable_sum, spare, sumTenants, sumOver_eq_zero fun x _ => by rw [spendable, credit]; rfl]
  decide

/-! ### Charges -/

theorem discardAll_writeFactor (x : TenantId) (s : State) :
    (discardAll x s).admission.writeFactor = s.admission.writeFactor := by
  obtain ⟨⟨l, -, -, -, writeFactor, -⟩, -⟩ := queueRefused_discardAll x s
  exact writeFactor

theorem discardWrites_writeFactor (x : TenantId) (s : State) :
    (discardWrites x s).admission.writeFactor = s.admission.writeFactor := by
  obtain ⟨⟨l, -, -, -, writeFactor, -⟩, -⟩ := writesRefused_discardWrites x s
  exact writeFactor

theorem freeSlot_writeFactor (s : State) : (freeSlot s).admission.writeFactor = s.admission.writeFactor := by
  rw [freeSlot]
  split <;> rfl

theorem endSend_writeFactor (s : State) : (endSend s).admission.writeFactor = s.admission.writeFactor := by
  rw [endSend]
  split
  · rfl
  · exact freeSlot_writeFactor _

theorem losePool_writeFactor (s : State) : (losePool s).admission.writeFactor = s.admission.writeFactor := by
  rw [losePool_eq, freeSlot_writeFactor, loseEntries_admission]
  rfl

theorem release_writeFactor (c : Candidate) (k : ReleaseClass) (tag : Nat) (s : State) :
    (release c k tag s).admission.writeFactor = s.admission.writeFactor := by
  simp [release, recordRelease]

theorem chargeLaw_move {s t : State} (h : Move s t) (law : ChargeLaw s.admission) : ChargeLaw t.admission := by
  obtain ⟨low, high, charges⟩ := law
  have queued : ∀ x, ∀ d ∈ queuedOf (t.admission.queues.get x), 1 ≤ d.charge ∧ d.charge ≤ 256 := fun x e he => by
    obtain ⟨f, follows, -⟩ := move_queueFollows h x
    obtain ⟨d, hd, rfl⟩ := follows.descriptor he
    rw [(follows.alike d).charge]
    exact charges x d hd
  have factor : 4 ≤ t.admission.writeFactor ∧ t.admission.writeFactor ≤ 16 := by
    cases h with
    | writeWf v => exact clamp_mem (by decide) v
    | ageBoundary | retryMark | runtimeReset | resumed | switchReset => exact ⟨low, high⟩
    | strikeBoundary => rw [strikeBoundary]; split <;> exact ⟨low, high⟩
    | discardAll x => exact discardAll_writeFactor x s ▸ ⟨low, high⟩
    | discardWrites x => exact discardWrites_writeFactor x s ▸ ⟨low, high⟩
    | release c k tag => exact release_writeFactor c k tag s ▸ ⟨low, high⟩
    | losePool => exact losePool_writeFactor s ▸ ⟨low, high⟩
    | endSend => exact endSend_writeFactor s ▸ ⟨low, high⟩
    | _ => simpa using And.intro low high
  exact ⟨factor.1, factor.2, queued⟩

theorem blocksTouched_bounds {n : Nat} (low : 1 ≤ n) (high : n ≤ 4096) : 1 ≤ blocksTouched n ∧ blocksTouched n ≤ 64 := by
  simp only [blocksTouched, ceilDiv, Config.blockBytes]
  omega

/-- The charge of a request that a link frame carries lies in 1 to 256 (R19). -/
theorem chargeOf_bounds {wf : Nat} {b : RequestBody} (low : 4 ≤ wf) (high : wf ≤ 16) (fits : lengthFits b = true) :
    1 ≤ chargeOf wf b ∧ chargeOf wf b ≤ 256 := by
  cases b with
  | read a n =>
    simp only [lengthFits, bodyLength, Config.maxLength, Bool.and_eq_true, decide_eq_true_eq] at fits
    have blocks := blocksTouched_bounds fits.1 fits.2
    exact ⟨blocks.1, blocks.2.trans (by decide)⟩
  | write a p =>
    simp only [lengthFits, bodyLength, Config.maxLength, Bool.and_eq_true, decide_eq_true_eq] at fits
    obtain ⟨few, many⟩ := blocksTouched_bounds fits.1 fits.2
    have least : 4 ≤ blocksTouched p.length * wf := low.trans (Nat.le_mul_of_pos_left _ few)
    have most : blocksTouched p.length * wf ≤ 64 * 16 := Nat.mul_le_mul many high
    simp only [chargeOf, ceilDiv]
    omega
  | flush => exact ⟨le_rfl, show 1 ≤ 256 by decide⟩

theorem chargeLaw_admits {s t : State} (h : Admits s t) (law : ChargeLaw s.admission) : ChargeLaw t.admission := by
  obtain ⟨low, high, charges⟩ := law
  obtain ⟨x, q, tag, b, _, fits⟩ := h
  have factor : (admitArrival x q tag b s).admission.writeFactor = s.admission.writeFactor := by
    simp only [admitArrival, countTenant_admission]
    split <;> rfl
  rw [ChargeLaw, factor]
  exact ⟨low, high, forall_queued_admitArrival (P := fun d => 1 ≤ d.charge ∧ d.charge ≤ 256)
    (chargeOf_bounds low high fits) charges⟩

/-! ### The whole law -/

/-- The head that a grant chooses is queued. -/
theorem mem_queuedOf_of_headOf {s : State} {x : TenantId} {fromWq : Bool} {d : Descriptor}
    (h : headOf s x fromWq = some d) : d ∈ queuedOf (queuesAt s x) := by
  cases fromWq with
  | false => exact List.mem_append_left _ (List.mem_of_head? h)
  | true => exact List.mem_append_right _ (List.mem_of_head? h)

theorem solverLaws_move {s t : State} (h : Move s t) (floors : FloorLaw s)
    (law : SnapshotLaw s.solver.snapshot ∧ ResultLaw s.solver.result) :
    SnapshotLaw t.solver.snapshot ∧ ResultLaw t.solver.result := by
  cases h with
  | load k => exact ⟨snapshotLaw_takeSnapshot floors, law.2⟩
  | solved => exact ⟨law.1, resultLaw_solve law.1 _⟩
  | runtimeReset => exact ⟨snapshotLaw_empty, resultLaw_empty⟩
  | solving | openFrame | writeLp | writeWf => exact law
  | writeFp v => rcases writeFp_cases v s with ⟨-, e⟩ | ⟨-, e⟩ <;> (rw [e]; exact law)
  | writeCap v => rcases writeCap_cases v s with ⟨-, e⟩ | ⟨-, e⟩ <;> (rw [e]; exact law)
  | _ => simpa using law

theorem creditLaw_move {s t : State} (h : Move s t) (result : ResultLaw s.solver.result)
    (charges : ChargeLaw s.admission) (law : CreditLaw s.credit) : CreditLaw t.credit := by
  cases h with
  | load k => exact creditLaw_load result law
  | lendOne => exact creditLaw_lendOne law
  | clearCredit => exact creditLaw_clearCredit law
  | runtimeReset => exact creditLaw_of_zero (fun x => congrArg CreditEntry.credit (runtimeReset_creditAt s x)) rfl
  | release c k tag _ _ _ _ chosen =>
    obtain ⟨-, -, charges⟩ := charges
    exact creditLaw_release (charges _ _ (mem_queuedOf_of_headOf (chooseRelease_head chosen))).2 law
  | _ => simpa using law

theorem divisionLaw_move {s t : State} (h : Move s t) (law : DivisionLaw s) : DivisionLaw t := by
  obtain ⟨floors, snapshot, result, credit, charges⟩ := law
  obtain ⟨snapshot', result'⟩ := solverLaws_move h floors ⟨snapshot, result⟩
  exact ⟨floorLaw_move h floors, snapshot', result', creditLaw_move h result charges credit, chargeLaw_move h charges⟩

theorem divisionLaw_admits {s t : State} (h : Admits s t) (law : DivisionLaw s) : DivisionLaw t := by
  obtain ⟨floors, snapshot, result, credit, charges⟩ := law
  have charges' := chargeLaw_admits h charges
  obtain ⟨x, q, tag, b⟩ := h
  exact ⟨floorLaw_congr (by simp) (by simp) (by simp) (by simp) floors, by simpa using snapshot, by simpa using result,
    by simpa using credit, charges'⟩

/-- While a reset is held nothing is divided: no floor, no result, no credit, no queued charge (R151). -/
theorem divisionLaw_holdReset (held : Held) (s : State) (control : ModeControl) :
    DivisionLaw { holdReset held s with control := control } := by
  have floors : floorSum { holdReset held s with control := control } = 0 := by
    rw [floorSum_eq]
    refine sumOver_eq_zero fun x _ => ?_
    have record : recordAt { holdReset held s with control := control } x = recordAt State.powerOn x := rfl
    rw [record, powerOn_recordAt]
    split <;> rfl
  refine ⟨?_, snapshotLaw_empty, resultLaw_empty, ?_, show 4 ≤ 4 from le_rfl, show 4 ≤ 16 by decide, fun x => ?_⟩
  · rw [FloorLaw, floors]; exact Nat.zero_le _
  · exact creditLaw_of_zero (fun x => congrArg CreditEntry.credit (Table.get_fill ..)) rfl
  · have empty : (holdReset held s).admission.queues.get x = TenantQueues.empty := Table.get_fill ..
    rw [empty]
    exact nofun

theorem divisionLaw_openedFrame {s : State} (law : DivisionLaw s) : DivisionLaw (openedFrame s) := by
  obtain ⟨floors, snapshot, result, credit, charges⟩ := law
  refine ⟨floorLaw_of_counted ?_ (fun x => ?_) floors, ?_, ?_, ?_, ?_⟩
  · rw [effectiveCap, openedFrame_timer, openedFrame_straps]; rfl
  · obtain ⟨_, e⟩ := openedFrame_recordAt s x
    rw [e]
    exact le_rfl
  · rw [openedFrame_solver]; exact snapshot
  · rw [openedFrame_solver]; exact result
  · rw [openedFrame_credit]; exact credit
  · rw [openedFrame_admission]; exact charges

theorem divisionLaw_opening {s t : State} (h : Opening s t) (held : HeldLaw s) (law : DivisionLaw s) :
    DivisionLaw t := by
  obtain ⟨powerOn, pin⟩ := held
  cases h with
  | none => exact law
  | powerOnReset => exact divisionLaw_holdReset .powerOn s _
  | pinReset => exact divisionLaw_holdReset .pin s _
  | powerOnRelease straps _ on =>
    refine divisionLaw_openedFrame ?_
    rw [powerOn on]
    exact divisionLaw_holdReset .powerOn s _
  | pinResetRelease _ on =>
    refine divisionLaw_openedFrame ?_
    rw [pin on]
    exact divisionLaw_holdReset .pin s _

end Sys2Proof.Machine

section

open Sys2Proof Sys2Proof.Machine

/-- Settles O9: kept by every opening from a state that meets HeldLaw, by every move and by an admission. -/
theorem stepKeepsDivisionLaw : Obligations.StepKeepsDivisionLaw := by
  unfold Obligations.StepKeepsDivisionLaw
  intro s t held law h
  refine step_keeps (fun {rest u} o => divisionLaw_opening o ?_ law) divisionLaw_move id divisionLaw_admits h
  obtain ⟨powerOn, pin⟩ := held
  exact ⟨fun on => congrArg (fun s : State => { s with pending := rest }) (powerOn on),
    fun on => congrArg (fun s : State => { s with pending := rest }) (pin on)⟩

end
end

