-- ==== Sys2Proof/Proofs/WorkCounts.lean ====
section
/-! PROOFS. Sums over all queued descriptors and over all outstanding entries, and what each move does to them. -/

namespace Sys2Proof.Machine

/-! ### Sums over the queued descriptors -/

/-- A weight summed over every queued descriptor. -/
def queueSum (w : Descriptor → Nat) (s : State) : Nat := sumTenants fun x => sumOver (queuedOf (queuesAt s x)) w

theorem sumOver_perm {α : Type} {l l' : List α} (h : l.Perm l') (f : α → Nat) : sumOver l f = sumOver l' f := by
  induction h with
  | nil => rfl
  | cons a _ ih => rw [sumOver_cons, sumOver_cons, ih]
  | swap a b l => simp only [sumOver_cons]; omega
  | trans _ _ ih ih' => exact ih.trans ih'

theorem sumOver_append {α : Type} (l l' : List α) (f : α → Nat) : sumOver (l ++ l') f = sumOver l f + sumOver l' f := by
  induction l with
  | nil => rw [List.nil_append, sumOver_nil, Nat.zero_add]
  | cons a l ih => rw [List.cons_append, sumOver_cons, sumOver_cons, ih, Nat.add_assoc]

theorem sumOver_pos {α : Type} {l : List α} {f : α → Nat} : 0 < sumOver l f ↔ ∃ a ∈ l, 0 < f a := by
  constructor
  · intro h
    by_contra none
    refine h.ne' (sumOver_eq_zero fun a ha => ?_)
    exact Nat.eq_zero_of_not_pos fun pos => none ⟨a, ha, pos⟩
  · rintro ⟨a, ha, pos⟩
    exact pos.trans_le (le_sumOver ha f)

theorem sumTenants_update {x : TenantId} {f g : TenantId → Nat} (h : ∀ y, y ≠ x → g y = f y) :
    sumTenants g + f x = sumTenants f + g x := sumOver_update h

theorem queueSum_pos {w : Descriptor → Nat} {s : State} :
    0 < queueSum w s ↔ ∃ x, ∃ d ∈ queuedOf (queuesAt s x), 0 < w d := by
  rw [queueSum, sumTenants, sumOver_pos]
  constructor
  · rintro ⟨x, -, pos⟩
    exact ⟨x, sumOver_pos.1 pos⟩
  · rintro ⟨x, pos⟩
    exact ⟨x, List.mem_finRange x, sumOver_pos.2 pos⟩

theorem queueSum_of_sums {w : Descriptor → Nat} {s t : State}
    (h : ∀ x, sumOver (queuedOf (queuesAt t x)) w = sumOver (queuedOf (queuesAt s x)) w) : queueSum w t = queueSum w s :=
  congrArg sumTenants (funext h)

theorem queueSum_of_queues {w : Descriptor → Nat} {s t : State} (h : ∀ x, queuesAt t x = queuesAt s x) :
    queueSum w t = queueSum w s := queueSum_of_sums fun x => by rw [h]

theorem queueSum_congr {w : Descriptor → Nat} {s t : State} (h : t.admission = s.admission) :
    queueSum w t = queueSum w s := queueSum_of_queues (queuesAt_congr h)

theorem queueSum_empty {w : Descriptor → Nat} {s : State} (h : ∀ x, queuedOf (queuesAt s x) = []) : queueSum w s = 0 := by
  rw [queueSum, sumTenants]
  exact sumOver_eq_zero fun x _ => by rw [h, sumOver_nil]

/-- A change of one tenant's queues changes the sum by that tenant's part. -/
theorem queueSum_changed {w : Descriptor → Nat} {s t : State} {x : TenantId}
    (others : ∀ y, y ≠ x → queuesAt t y = queuesAt s y) :
    queueSum w t + sumOver (queuedOf (queuesAt s x)) w = queueSum w s + sumOver (queuedOf (queuesAt t x)) w :=
  sumTenants_update (x := x) (f := fun y => sumOver (queuedOf (queuesAt s y)) w)
    (g := fun y => sumOver (queuedOf (queuesAt t y)) w) fun y apart => by rw [others y apart]

theorem queueSum_discardAll (w : Descriptor → Nat) (x : TenantId) (s : State) :
    queueSum w s = queueSum w (discardAll x s) + sumOver (queuedOf (queuesAt s x)) w := by
  have changed := queueSum_changed (w := w) (s := s) (t := discardAll x s) (x := x) fun y apart => by
    rw [discardAll_queuesAt, if_neg (Ne.symm apart)]
  rw [discardAll_empty, sumOver_nil] at changed
  omega

theorem queueSum_discardWrites (w : Descriptor → Nat) (x : TenantId) (s : State) :
    queueSum w s = queueSum w (discardWrites x s) + sumOver (queuesAt s x).wq w := by
  have changed := queueSum_changed (w := w) (s := s) (t := discardWrites x s) (x := x) fun y apart => by
    rw [discardWrites_queuesAt, if_neg (Ne.symm apart)]
  have reads : queuedOf (queuesAt (discardWrites x s) x) = (queuesAt s x).rq := by
    rw [discardWrites_queuesAt, if_pos rfl, queuedOf, List.append_nil]
  rw [reads, queuedOf, sumOver_append] at changed
  omega

theorem queueSum_release {c : Candidate} {k : ReleaseClass} {tag : Nat} {s : State} (w : Descriptor → Nat)
    (head : headOf s c.tenant c.fromWq = some c.desc) :
    queueSum w s = queueSum w (release c k tag s) + w c.desc := by
  have changed := queueSum_changed (w := w) (s := s) (t := release c k tag s) (x := c.tenant) fun y apart => by
    rw [release_queuesAt, if_neg (Ne.symm apart)]
  rw [release_queuesAt, if_pos rfl, sumOver_perm (perm_popHead head), sumOver_cons] at changed
  omega

theorem queueSum_admitArrival (w : Descriptor → Nat) (x : TenantId) (q : RequesterId) (tag : Byte) (b : RequestBody)
    (s : State) : queueSum w (admitArrival x q tag b s) = queueSum w s + w (newDescriptor x q tag b s) := by
  have changed := queueSum_changed (w := w) (s := s) (t := admitArrival x q tag b s) (x := x) fun y apart => by
    rw [admitArrival_queuesAt, if_neg (Ne.symm apart)]
  rw [admitArrival_queuesAt, if_pos rfl, sumOver_perm (perm_enqueue _ _), sumOver_cons] at changed
  omega

/-- Descriptors that change but not in weight leave the sum. -/
theorem queueSum_of_map {w : Descriptor → Nat} {s t : State} (f : TenantId → Descriptor → Descriptor)
    (weight : ∀ x d, w (f x d) = w d) (queues : ∀ x, queuedOf (queuesAt t x) = (queuedOf (queuesAt s x)).map (f x)) :
    queueSum w t = queueSum w s :=
  queueSum_of_sums fun x => by
    rw [queues, sumOver_map]
    exact sumOver_congr fun d _ => weight x d

theorem queuedOf_ageBoundary (s : State) (x : TenantId) :
    queuedOf (queuesAt (ageBoundary s) x) = (queuedOf (queuesAt s x)).map ageDescriptor := by
  have aged : queuesAt (ageBoundary s) x = ageQueues (queuesAt s x) := Table.get_map ..
  rw [aged, queuedOf, queuedOf, List.map_append]
  rfl

theorem queueSum_ageBoundary {w : Descriptor → Nat} (weight : ∀ d, w (ageDescriptor d) = w d) (s : State) :
    queueSum w (ageBoundary s) = queueSum w s :=
  queueSum_of_map (fun _ => ageDescriptor) (fun _ => weight) (queuedOf_ageBoundary s)

theorem queueSum_unparked {w : Descriptor → Nat} (weight : ∀ d, w (unpark d) = w d) (x : TenantId) (s : State) :
    queueSum w (changeQueues x (fun u => { u with rq := u.rq.map unpark, wq := u.wq.map unpark }) s) = queueSum w s := by
  refine queueSum_of_map (fun y => if x = y then unpark else id) (fun y d => ?_) fun y => ?_
  · split
    · exact weight d
    · rfl
  · rw [queuesAt_changeQueues]
    split
    · rw [queuedOf, queuedOf, List.map_append]
    · rw [List.map_id]

theorem queueSum_retryMark (w : Descriptor → Nat) (x : TenantId) (b : Bool) (s : State) :
    queueSum w (changeQueues x (fun u => { u with retryMark := b }) s) = queueSum w s :=
  queueSum_of_sums fun y => by
    rw [queuesAt_changeQueues]
    split <;> rfl

theorem queueSum_strikeBoundary (w : Descriptor → Nat) (s : State) : queueSum w (strikeBoundary s) = queueSum w s :=
  queueSum_of_sums fun x => by rw [strikeBoundary_queuesAt]; rfl

theorem queueSum_runtimeReset (w : Descriptor → Nat) (s : State) : queueSum w (runtimeReset s) = queueSum w s :=
  queueSum_of_sums fun x => by rw [runtimeReset_queuesAt]; rfl

theorem queueSum_switchReset (w : Descriptor → Nat) (s : State) : queueSum w (switchReset s) = 0 :=
  queueSum_empty fun x => by rw [switchReset_queuesAt]; rfl

/-! ### Sums over the Outstanding Table -/

/-- A weight summed over every place of the Outstanding Table. -/
def entrySum (w : Option OutstandingEntry → Nat) (s : State) : Nat := sumOver s.paths.entries.toList w

theorem entrySum_pos {w : Option OutstandingEntry → Nat} {s : State} :
    0 < entrySum w s ↔ ∃ k, 0 < w (s.paths.entries.get k) := by
  rw [entrySum, sumOver_pos]
  constructor
  · rintro ⟨o, ho, pos⟩
    obtain ⟨k, rfl⟩ := Table.mem_toList.1 ho
    exact ⟨k, pos⟩
  · rintro ⟨k, pos⟩
    exact ⟨_, Table.mem_toList.2 ⟨k, rfl⟩, pos⟩

theorem entrySum_of_weights {w : Option OutstandingEntry → Nat} {s t : State}
    (h : ∀ k, w (t.paths.entries.get k) = w (s.paths.entries.get k)) : entrySum w t = entrySum w s := by
  rw [entrySum, entrySum, sumOver_toList, sumOver_toList]
  exact sumOver_congr fun k _ => h k

theorem entrySum_congr {w : Option OutstandingEntry → Nat} {s t : State} (h : t.paths.entries = s.paths.entries) :
    entrySum w t = entrySum w s := entrySum_of_weights fun k => by rw [h]

theorem entrySum_zero {w : Option OutstandingEntry → Nat} {s : State} (h : ∀ k, w (s.paths.entries.get k) = 0) :
    entrySum w s = 0 := by
  rw [entrySum, sumOver_toList]
  exact sumOver_eq_zero fun k _ => h k

/-- A change of one place changes the sum by that place. -/
theorem entrySum_set {w : Option OutstandingEntry → Nat} {s t : State} {i : Fin 256} {o : Option OutstandingEntry}
    (h : t.paths.entries = s.paths.entries.set i o) :
    entrySum w t + w (s.paths.entries.get i) = entrySum w s + w o := by
  have at_i : t.paths.entries.get i = o := by rw [h, Table.get_set_self]
  rw [entrySum, entrySum, sumOver_toList, sumOver_toList, ← at_i]
  exact sumOver_update (f := fun i => w (s.paths.entries.get i)) (g := fun i => w (t.paths.entries.get i))
    fun j hj => by rw [h, Table.get_set_of_ne _ (Ne.symm hj)]

end Sys2Proof.Machine
end

