-- ==== Sys2Proof/Proofs/OrderLists.lean ====
section
/-! PROOFS. Every step keeps the write order lists as the stamps of the live WRITEs (R29, R98, R103, R104). -/

namespace Sys2Proof.Machine

/-! ### The live WRITEs of a requester with a stamp -/

/-- 1 for a descriptor that is a WRITE of a requester with a stamp. -/
def writeWeight (q : Fin 64) (x : Stamp) (d : Descriptor) : Nat := if isWriteOf q x d then 1 else 0

/-- 1 for a place that holds a live WRITE of a requester with a stamp. -/
def entryWeight (q : Fin 64) (x : Stamp) (o : Option OutstandingEntry) : Nat := if isEntryOf q x o then 1 else 0

/-- How many live WRITEs of a requester have a stamp. -/
def liveCount (q : Fin 64) (x : Stamp) (s : State) : Nat := queueSum (writeWeight q x) s + entrySum (entryWeight q x) s

theorem isWriteOf_iff (q : Fin 64) (x : Stamp) (d : Descriptor) :
    isWriteOf q x d = true ↔ d.kind = .write ∧ d.requester.toFin = q ∧ d.stamp = x := by
  simp [isWriteOf, and_assoc]

theorem isEntryOf_some (q : Fin 64) (x : Stamp) (e : OutstandingEntry) : isEntryOf q x (some e) = isLiveWrite q x e := rfl

theorem isEntryOf_iff (q : Fin 64) (x : Stamp) (o : Option OutstandingEntry) : isEntryOf q x o = true ↔
    ∃ e, o = some e ∧ e.kind = .write ∧ e.orphan = false ∧ e.requester.toFin = q ∧ e.stamp = x := by
  cases o with
  | none => simp [isEntryOf]
  | some e => simp [isEntryOf, and_assoc]

theorem ite_one_pos {p : Bool} : (0 < if p then 1 else 0) ↔ p = true := by cases p <;> decide

theorem writeWeight_pos {q : Fin 64} {x : Stamp} {d : Descriptor} :
    0 < writeWeight q x d ↔ d.kind = .write ∧ d.requester.toFin = q ∧ d.stamp = x := by
  rw [writeWeight, ite_one_pos, isWriteOf_iff]

theorem entryWeight_pos {q : Fin 64} {x : Stamp} {o : Option OutstandingEntry} : 0 < entryWeight q x o ↔
    ∃ e, o = some e ∧ e.kind = .write ∧ e.orphan = false ∧ e.requester.toFin = q ∧ e.stamp = x := by
  rw [entryWeight, ite_one_pos, isEntryOf_iff]

theorem queuedWrite_iff (q : Fin 64) (x : Stamp) (s : State) : QueuedWrite s q x ↔ 0 < queueSum (writeWeight q x) s := by
  simp only [queueSum_pos, writeWeight_pos]
  rfl

theorem outstandingWrite_iff (q : Fin 64) (x : Stamp) (s : State) :
    OutstandingWrite s q x ↔ 0 < entrySum (entryWeight q x) s := by
  simp only [entrySum_pos, entryWeight_pos]
  rfl

theorem live_iff (q : Fin 64) (x : Stamp) (s : State) : QueuedWrite s q x ∨ OutstandingWrite s q x ↔ 0 < liveCount q x s := by
  rw [queuedWrite_iff, outstandingWrite_iff, liveCount]
  omega

theorem orderLaw_iff (s : State) : OrderLaw s ↔ ∀ q, ∀ x ∈ s.paths.orderLists.get q, 0 < liveCount q x s := by
  simp only [OrderLaw, live_iff]

theorem listedLaw_iff (s : State) : ListedLaw s ↔ ∀ q x, 0 < liveCount q x s → x ∈ s.paths.orderLists.get q := by
  simp only [ListedLaw, live_iff]

theorem liveStampsDistinct_iff (s : State) : LiveStampsDistinct s ↔ ∀ q x, liveCount q x s ≤ 1 := by
  have same : ∀ q x, sumTenants (fun t => (queuedOf (queuesAt s t)).countP (isWriteOf q x)) +
      s.paths.entries.toList.countP (isEntryOf q x) = liveCount q x s := fun q x => by
    have queued : queueSum (writeWeight q x) s =
        sumTenants fun t => (queuedOf (queuesAt s t)).countP (isWriteOf q x) :=
      congrArg sumTenants (funext fun y => (countP_eq_sumOver (isWriteOf q x) (queuedOf (queuesAt s y))).symm)
    rw [liveCount, queued, entrySum, countP_eq_sumOver]
    rfl
  simp only [LiveStampsDistinct, same]

/-! ### WRITEs that end -/

/-- Live WRITEs end with their stamps leaving the lists, and the lists of the others stay. -/
structure Ends (s t : State) : Prop where
  fewer : ∀ q x, liveCount q x t ≤ liveCount q x s
  listed : ∀ q, ∀ x ∈ t.paths.orderLists.get q, x ∈ s.paths.orderLists.get q
  ended : ∀ q x, liveCount q x t < liveCount q x s → x ∉ t.paths.orderLists.get q
  kept : ∀ q x, 0 < liveCount q x t → liveCount q x t = liveCount q x s → x ∈ s.paths.orderLists.get q →
    x ∈ t.paths.orderLists.get q

theorem Ends.trans {s t u : State} (h : Ends s t) (h' : Ends t u) : Ends s u where
  fewer q x := (h'.fewer q x).trans (h.fewer q x)
  listed q x hx := h.listed q x (h'.listed q x hx)
  ended q x less hx := by
    have later := mt (h'.ended q x) (not_not.2 hx)
    have sooner := mt (h.ended q x) (not_not.2 (h'.listed q x hx))
    omega
  kept q x some same hx := by
    have first := h.fewer q x
    have second := h'.fewer q x
    exact h'.kept q x some (by omega) (h.kept q x (by omega) (by omega) hx)

/-- `n q x` WRITEs ended, and where there are some their stamp left the list. -/
theorem ends_of_count {s t : State} (n : Fin 64 → Stamp → Nat) (count : ∀ q x, liveCount q x s = liveCount q x t + n q x)
    (lists : ∀ q x, x ∈ t.paths.orderLists.get q ↔ x ∈ s.paths.orderLists.get q ∧ n q x = 0) : Ends s t where
  fewer q x := by have := count q x; omega
  listed q x hx := ((lists q x).1 hx).1
  ended q x less hx := by
    have := count q x
    have := ((lists q x).1 hx).2
    omega
  kept q x _ same hx := by
    have := count q x
    exact (lists q x).2 ⟨hx, by omega⟩

theorem ends_of_same {s t : State} (queued : ∀ q x, queueSum (writeWeight q x) t = queueSum (writeWeight q x) s)
    (entries : ∀ q x, entrySum (entryWeight q x) t = entrySum (entryWeight q x) s)
    (lists : t.paths.orderLists = s.paths.orderLists) : Ends s t :=
  ends_of_count (fun _ _ => 0) (fun q x => by rw [liveCount, liveCount, queued, entries, Nat.add_zero])
    fun q x => by rw [lists, and_iff_left rfl]

theorem ends_congr {s t : State} (admission : t.admission = s.admission) (paths : t.paths = s.paths) : Ends s t :=
  ends_of_same (fun _ _ => queueSum_congr admission) (fun _ _ => entrySum_congr (by rw [paths])) (by rw [paths])

theorem Ends.refl (s : State) : Ends s s := ends_congr rfl rfl

theorem Ends.orderLaw {s t : State} (h : Ends s t) (law : OrderLaw s) : OrderLaw t := by
  rw [orderLaw_iff] at law ⊢
  intro q x hx
  have live := law q x (h.listed q x hx)
  have none := mt (h.ended q x) (not_not.2 hx)
  omega

theorem Ends.listedLaw {s t : State} (h : Ends s t) (law : LiveStampsDistinct s ∧ ListedLaw s) :
    LiveStampsDistinct t ∧ ListedLaw t := by
  simp only [liveStampsDistinct_iff, listedLaw_iff] at law ⊢
  obtain ⟨distinct, listed⟩ := law
  refine ⟨fun q x => (h.fewer q x).trans (distinct q x), fun q x live => ?_⟩
  have one := distinct q x
  have less := h.fewer q x
  exact h.kept q x live (by omega) (listed q x (by omega))

/-! ### Discards -/

theorem writeWeight_eq_zero {q : Fin 64} {x : Stamp} {d : Descriptor} : writeWeight q x d = 0 ↔ isWriteOf q x d = false := by
  rw [writeWeight]
  cases isWriteOf q x d <;> decide

/-- A list of descriptors holds no WRITE of a stamp exactly where none of them weighs. -/
theorem holdsWrite_eq_false {ds : List Descriptor} {q : Fin 64} {x : Stamp} :
    holdsWrite ds q x = false ↔ sumOver ds (writeWeight q x) = 0 := by
  have any : holdsWrite ds q x = true ↔ 0 < sumOver ds (writeWeight q x) := by
    rw [sumOver_pos, holdsWrite, List.any_eq_true]
    simp only [writeWeight, ite_one_pos]
    rfl
  rw [← Bool.not_eq_true, any]
  omega

/-- Refused descriptors end their WRITEs (R33, R104). -/
theorem ends_of_refused {y : TenantId} {ds l : List Descriptor} {s t : State} (perm : l.Perm ds) (refused : Refused y l s t)
    (queued : ∀ w, queueSum w s = queueSum w t + sumOver ds w) : Ends s t := by
  obtain ⟨-, -, -, -, entries, -, -, lists, -⟩ := refused
  refine ends_of_count (fun q x => sumOver ds (writeWeight q x)) (fun q x => ?_) fun q x => ?_
  · rw [liveCount, liveCount, queued, entrySum_congr entries]
    omega
  · rw [lists, List.mem_filter, Bool.not_eq_true', holdsWrite_eq_false, sumOver_perm perm]

theorem ends_discardAll (x : TenantId) (s : State) : Ends s (discardAll x s) := by
  obtain ⟨⟨l, ⟨perm, -⟩, refused⟩, -⟩ := queueRefused_discardAll x s
  exact ends_of_refused perm refused fun w => queueSum_discardAll w x s

theorem ends_discardWrites (x : TenantId) (s : State) : Ends s (discardWrites x s) := by
  obtain ⟨⟨l, ⟨perm, -⟩, refused⟩, -⟩ := writesRefused_discardWrites x s
  exact ends_of_refused perm refused fun w => queueSum_discardWrites w x s

/-! ### Entries that end -/

theorem entryWeight_eq_zero {q : Fin 64} {x : Stamp} {o : Option OutstandingEntry} :
    entryWeight q x o = 0 ↔ isEntryOf q x o = false := by
  rw [entryWeight]
  cases isEntryOf q x o <;> decide

/-- An entry that is freed ends its WRITE where it is no orphan (R95, R101, R104). -/
theorem ends_of_freed {i : Fin 256} {e : OutstandingEntry} {s t : State} (entry : s.paths.entries.get i = some e)
    (admission : t.admission = s.admission) (entries : t.paths.entries = s.paths.entries.set i none)
    (lists : ∀ q, t.paths.orderLists.get q = (s.paths.orderLists.get q).filter fun x => !isLiveWrite q x e) :
    Ends s t := by
  refine ends_of_count (fun q x => entryWeight q x (some e)) (fun q x => ?_) fun q x => ?_
  · have freed := entrySum_set (w := entryWeight q x) entries
    have none : entryWeight q x none = 0 := rfl
    rw [entry, none] at freed
    rw [liveCount, liveCount, queueSum_congr admission]
    omega
  · rw [lists, List.mem_filter, Bool.not_eq_true', entryWeight_eq_zero, isEntryOf_some]

theorem lists_of_orphan {e : OutstandingEntry} (orphan : e.orphan = true) (q : Fin 64) (l : List Stamp) :
    l = l.filter fun x => !isLiveWrite q x e := by
  rw [eq_comm, List.filter_eq_self]
  intro x _
  simp [isLiveWrite, orphan]

theorem answerEntry_lists {e : OutstandingEntry} (live : e.orphan = false) (status : ResponseStatus) (data : List Byte)
    (s : State) (q : Fin 64) : (answerEntry e status data s).paths.orderLists.get q =
      (s.paths.orderLists.get q).filter fun x => !isLiveWrite q x e := by
  rw [answerEntry, endWrite_lists, sendUp_paths]
  simp [isLiveWrite, live]

theorem ends_expireEntry (tag : Byte) (s : State) : Ends s (expireEntry tag s) := by
  rcases expireEntry_cases tag s with ⟨-, r⟩ | ⟨e, entry, orphan, r⟩ | ⟨e, entry, live, r⟩
  · rw [r]; exact .refl s
  · rw [r]
    exact ends_of_freed entry (by simp) rfl fun q => lists_of_orphan orphan q _
  · rw [r]
    refine ends_of_freed entry (by simp) ?_ fun q => ?_
    · simp [answerEntry_entries]
    · simp [answerEntry_lists live]

theorem ends_forwardResponse {tag : Byte} {e : OutstandingEntry} (status : PoolStatus) (data : List Byte) {s : State}
    (entry : s.paths.entries.get tag.toFin = some e) : Ends s (forwardResponse tag e status data s) := by
  rcases forwardResponse_cases tag e status data s with ⟨orphan, r⟩ | ⟨live, -, r⟩ | ⟨live, -, r⟩
  · rw [r]
    exact ends_of_freed entry (by simp) rfl fun q => lists_of_orphan orphan q _
  · rw [r]
    refine ends_of_freed entry (by simp) ?_ fun q => ?_
    · simp [answerEntry_entries]
    · simp [answerEntry_lists live]
  · rw [r]
    refine ends_of_freed entry (by simp) ?_ fun q => ?_
    · simp [answerEntry_entries]
    · simp [answerEntry_lists live]

theorem ends_expireAtBoundary (s : State) : Ends s (expireAtBoundary s) := by
  have aged : Ends s (ageEntries s) := by
    refine ends_of_same (fun _ _ => rfl) (fun q x => entrySum_of_weights fun k => ?_) rfl
    have place : (ageEntries s).paths.entries.get k = (s.paths.entries.get k).map ageEntry := Table.get_map ..
    rw [place]
    cases s.paths.entries.get k <;> rfl
  exact foldl_preserves _ (Ends s) _ (fun _ c _ h => h.trans (ends_expireEntry (BitVec.ofNat 8 c.1) _)) (ageEntries s) aged

theorem any_entriesEnded (q : Fin 64) (x : Stamp) (s : State) :
    (entriesEnded s).any (isLiveWrite q x) = false ↔ entrySum (entryWeight q x) s = 0 := by
  have any : (entriesEnded s).any (isLiveWrite q x) = true ↔ 0 < entrySum (entryWeight q x) s := by
    rw [entrySum, sumOver_pos, List.any_eq_true, entriesEnded]
    constructor
    · rintro ⟨e, he, write⟩
      obtain ⟨o, ho, rfl⟩ := List.mem_filterMap.1 he
      exact ⟨some e, ho, ite_one_pos.2 write⟩
    · rintro ⟨o, ho, pos⟩
      have write := ite_one_pos.1 pos
      cases o with
      | none => cases write
      | some e => exact ⟨e, List.mem_filterMap.2 ⟨some e, ho, rfl⟩, write⟩
  rw [← Bool.not_eq_true, any]
  omega

theorem ends_losePool (s : State) : Ends s (losePool s) := by
  have lost := lost_loseEntries (poolDowned s)
  obtain ⟨-, -, none⟩ := losePool_paths s
  have lists : ∀ q, (losePool s).paths.orderLists.get q =
      (s.paths.orderLists.get q).filter fun x => !(entriesEnded s).any (isLiveWrite q x) := fun q => by
    rw [losePool_eq, freeSlot_paths]; exact lost.answered.lists q
  refine ends_of_count (fun q x => entrySum (entryWeight q x) s) (fun q x => ?_) fun q x => ?_
  · rw [liveCount, liveCount, queueSum_of_queues (losePool_queuesAt s), entrySum_zero (s := losePool s) fun k => by
      rw [none]; rfl]
    omega
  · rw [lists, List.mem_filter, Bool.not_eq_true', any_entriesEnded]

/-! ### Links, releases and the rest -/

/-- Where no WRITE lives and no list holds a stamp, all have ended. -/
theorem ends_of_nothing {s t : State} (queued : ∀ x, queuedOf (queuesAt t x) = [])
    (entries : ∀ q x k, entryWeight q x (t.paths.entries.get k) = 0) (lists : ∀ q, t.paths.orderLists.get q = []) :
    Ends s t := by
  have none : ∀ q x, liveCount q x t = 0 := fun q x => by
    rw [liveCount, queueSum_empty queued, entrySum_zero (entries q x)]
  refine ⟨fun q x => ?_, fun q x hx => ?_, fun q x _ hx => ?_, fun q x live => ?_⟩
  · rw [none]; exact Nat.zero_le _
  · rw [lists] at hx; cases hx
  · rw [lists] at hx; cases hx
  · rw [none] at live; cases live

theorem ends_switchReset (s : State) : Ends s (switchReset s) := by
  refine ends_of_nothing (fun x => by rw [switchReset_queuesAt]; rfl) (fun q x k => ?_) fun q => Table.get_fill ..
  rw [switchReset, orphanAll_emptyQueues, Table.get_map, entryWeight_eq_zero]
  cases s.paths.entries.get k <;> simp [isEntryOf]

/-- A release carries the head from its queue to the Outstanding Table (R34, R93). -/
theorem ends_release {c : Candidate} {k : ReleaseClass} {tag : Nat} {s : State} (lowest : lowestFreeTag s = some tag)
    (chosen : chooseRelease s = some (c, k)) : Ends s (release c k tag s) := by
  refine ends_of_count (fun _ _ => 0) (fun q x => ?_) fun q x => ?_
  · have popped := queueSum_release (k := k) (tag := tag) (writeWeight q x) (chooseRelease_head chosen)
    have placed := entrySum_set (w := entryWeight q x) (release_entries c k tag s)
    have none : entryWeight q x none = 0 := rfl
    have same : entryWeight q x (some (entryFor c)) = writeWeight q x c.desc := by
      simp [entryWeight, writeWeight, isEntryOf, isWriteOf, entryFor]
    rw [lowestFreeTag_spec lowest, none, same] at placed
    rw [liveCount, liveCount]
    omega
  · have lists : (release c k tag s).paths.orderLists = s.paths.orderLists := by
      simp [release, recordRelease, beginSend]
    rw [lists, and_iff_left rfl]

theorem ends_move {s t : State} (h : Move s t) : Ends s t := by
  cases h with
  | discardAll x => exact ends_discardAll x s
  | discardWrites x => exact ends_discardWrites x s
  | expireEntry tag => exact ends_expireEntry tag s
  | forward tag e status data _ entry => exact ends_forwardResponse status data entry
  | expireAtBoundary => exact ends_expireAtBoundary s
  | losePool => exact ends_losePool s
  | switchReset => exact ends_switchReset s
  | release c k tag _ _ _ lowest chosen => exact ends_release lowest chosen
  | ageBoundary => exact ends_of_same (fun q x => queueSum_ageBoundary (fun _ => rfl) s) (fun _ _ => rfl) rfl
  | strikeBoundary =>
    exact ends_of_same (fun q x => queueSum_strikeBoundary _ s) (fun _ _ => entrySum_congr (by simp)) (by simp)
  | runtimeReset => exact ends_of_same (fun q x => queueSum_runtimeReset _ s) (fun _ _ => rfl) rfl
  | resumed x =>
    exact ends_of_same (fun q y => queueSum_unparked (fun _ => rfl) x _) (fun _ _ => rfl) rfl
  | retryMark x b => exact ends_of_same (fun q y => queueSum_retryMark _ x b s) (fun _ _ => rfl) rfl
  | endSend =>
    exact ends_of_same (fun q x => queueSum_of_queues (endSend_queuesAt s)) (fun _ _ => entrySum_congr (by simp))
      (by simp)
  | writeWf | writeCto => exact ends_of_same (fun _ _ => rfl) (fun _ _ => rfl) rfl
  | _ => exact ends_congr (by simp) (by simp)

theorem ends_opening {s t : State} (h : Opening s t) : Ends s t := by
  have reset : ∀ held, Ends s (holdReset held s) := fun held => by
    refine ends_of_nothing (fun x => congrArg queuedOf (Table.get_fill ..)) (fun q x k => ?_) fun q => Table.get_fill ..
    exact congrArg (entryWeight q x) (Table.get_fill ..)
  cases h with
  | none => exact .refl s
  | powerOnReset => exact reset .powerOn
  | pinReset => exact (reset .pin).trans (ends_congr rfl rfl)
  | powerOnRelease => exact ends_congr (openedFrame_admission _) (openedFrame_paths _)
  | pinResetRelease => exact ends_congr (openedFrame_admission _) (openedFrame_paths _)

/-! ### Admissions -/

theorem admitArrival_lists (x : TenantId) (q : RequesterId) (tag : Byte) (b : RequestBody) (s : State) (i : Fin 64) :
    (admitArrival x q tag b s).paths.orderLists.get i =
      s.paths.orderLists.get i ++ if bodyKind b = .write ∧ q.toFin = i then [s.admission.nextStamp] else [] := by
  have kind : (newDescriptor x q tag b s).kind = bodyKind b := rfl
  simp only [admitArrival, countTenant_paths, kind]
  by_cases write : bodyKind b = .write
  · rw [if_pos write, joinOrder, Table.get_modify]
    by_cases own : q.toFin = i
    · rw [if_pos own, if_pos ⟨write, own⟩]
      rfl
    · rw [if_neg own, if_neg fun h => own h.2, List.append_nil]
      rfl
  · rw [if_neg write, if_neg fun h => write h.1, List.append_nil]
    rfl

theorem liveCount_admitArrival (x : TenantId) (q : RequesterId) (tag : Byte) (b : RequestBody) (s : State) (i : Fin 64)
    (y : Stamp) : liveCount i y (admitArrival x q tag b s) =
      liveCount i y s + writeWeight i y (newDescriptor x q tag b s) := by
  rw [liveCount, liveCount, queueSum_admitArrival, entrySum_congr (admitArrival_entries x q tag b s)]
  omega

/-- The stamp of an admitted WRITE joins its list, so the lists still hold the live stamps and those alone (R104). -/
theorem mem_lists_admitArrival (x : TenantId) (q : RequesterId) (tag : Byte) (b : RequestBody) (s : State) (i : Fin 64)
    (y : Stamp) : y ∈ (admitArrival x q tag b s).paths.orderLists.get i ↔
      y ∈ s.paths.orderLists.get i ∨ 0 < writeWeight i y (newDescriptor x q tag b s) := by
  rw [admitArrival_lists, List.mem_append, writeWeight_pos]
  have new : (newDescriptor x q tag b s).kind = bodyKind b ∧ (newDescriptor x q tag b s).requester = q ∧
      (newDescriptor x q tag b s).stamp = s.admission.nextStamp := ⟨rfl, rfl, rfl⟩
  obtain ⟨kind, requester, stamp⟩ := new
  rw [kind, requester, stamp]
  split
  · rename_i write
    simp [write, eq_comm]
  · rename_i other
    simp only [List.not_mem_nil, or_false]
    tauto

theorem orderLaw_admits {s t : State} (h : Admits s t) (law : OrderLaw s) : OrderLaw t := by
  obtain ⟨x, q, tag, b⟩ := h
  rw [orderLaw_iff] at law ⊢
  intro i y hy
  rw [liveCount_admitArrival]
  rcases (mem_lists_admitArrival x q tag b s i y).1 hy with old | new
  · have := law i y old
    omega
  · omega

theorem listedLaw_admits {s t : State} (h : Admits s t) (law : ListedLaw s) : ListedLaw t := by
  obtain ⟨x, q, tag, b⟩ := h
  rw [listedLaw_iff] at law ⊢
  intro i y live
  rw [liveCount_admitArrival] at live
  rw [mem_lists_admitArrival]
  by_cases new : 0 < writeWeight i y (newDescriptor x q tag b s)
  · exact .inr new
  · exact .inl (law i y (by omega))

end Sys2Proof.Machine
end

