-- ==== Sys2Proof/Proofs/HeldBlocks.lean ====
section
/-! PROOFS. Every step keeps the Payload Store's blocks in use as those that descriptors and the send in progress hold (R21, R26, R34, R82). -/

namespace Sys2Proof.Machine

/-! ### How often a block is held -/

/-- How often the send in progress holds a block. -/
def slotCount (b : Nat) (slot : Option Transaction) : Nat :=
  match slot with
  | some x => x.blocks.count b
  | none => 0

/-- How often a descriptor holds a block. -/
def blockWeight (b : Nat) (d : Descriptor) : Nat := d.blocks.count b

/-- How often a block is held. -/
def blockCount (b : Nat) (s : State) : Nat := queueSum (blockWeight b) s + slotCount b s.arbiter.slot

theorem count_flatMap_eq_sumOver {α : Type} (l : List α) (f : α → List Nat) (b : Nat) :
    (l.flatMap f).count b = sumOver l fun a => (f a).count b := by
  induction l with
  | nil => rfl
  | cons a l ih => rw [List.flatMap_cons, List.count_append, sumOver_cons, ih]

theorem count_queuedBlocks (b : Nat) (s : State) : (queuedBlocks s).count b = queueSum (blockWeight b) s := by
  rw [queuedBlocks, count_flatMap_eq_sumOver, sumOver_toList, queueSum, sumTenants]
  exact sumOver_congr fun x _ => count_flatMap_eq_sumOver _ _ b

theorem count_heldBlocks (b : Nat) (s : State) : (heldBlocks s).count b = blockCount b s := by
  rw [heldBlocks, List.count_append, count_queuedBlocks, blockCount]
  cases s.arbiter.slot <;> rfl

theorem blocksLaw_iff (s : State) : BlocksLaw s ↔ storeWf s.admission.store = true ∧ (∀ b, blockCount b s ≤ 1) ∧
    ∀ b, 0 < blockCount b s ↔ b ∈ s.admission.store.map (·.1) := by
  simp only [BlocksLaw, StoreLaw, List.nodup_iff_count_le_one, ← List.count_pos_iff, count_heldBlocks]

/-! ### Blocks that are freed -/

/-- `n b` holds of block `b` end, and the blocks of which some end leave the store. -/
def Frees (n : Nat → Nat) (s t : State) : Prop :=
  (∀ b, blockCount b s = blockCount b t + n b) ∧
    t.admission.store = s.admission.store.filter fun c => decide (n c.1 = 0)

theorem Frees.blocksLaw {n : Nat → Nat} {s t : State} (h : Frees n s t) (law : BlocksLaw s) : BlocksLaw t := by
  rw [blocksLaw_iff] at law ⊢
  obtain ⟨count, store⟩ := h
  obtain ⟨wf, once, used⟩ := law
  have left : ∀ b, b ∈ t.admission.store.map (·.1) ↔ b ∈ s.admission.store.map (·.1) ∧ n b = 0 := fun b => by
    simp only [store, List.mem_map, List.mem_filter, decide_eq_true_eq]
    constructor
    · rintro ⟨c, ⟨hc, zero⟩, rfl⟩
      exact ⟨⟨c, hc, rfl⟩, zero⟩
    · rintro ⟨⟨c, hc, rfl⟩, zero⟩
      exact ⟨c, ⟨hc, zero⟩, rfl⟩
  refine ⟨by rw [store]; exact storeWf_filter wf _, fun b => ?_, fun b => ?_⟩
  · have := once b
    have := count b
    omega
  · rw [left, ← used b]
    have := once b
    have := count b
    omega

/-- Where the holds and the store stay, nothing is freed. -/
theorem frees_of_same {s t : State} (queued : ∀ b, queueSum (blockWeight b) t = queueSum (blockWeight b) s)
    (slot : t.arbiter.slot = s.arbiter.slot) (store : t.admission.store = s.admission.store) : Frees (fun _ => 0) s t :=
  ⟨fun b => by rw [blockCount, blockCount, queued, slot, Nat.add_zero],
    by rw [store, List.filter_eq_self.2 fun _ _ => decide_eq_true rfl]⟩

theorem frees_congr {s t : State} (admission : t.admission = s.admission) (slot : t.arbiter.slot = s.arbiter.slot) :
    Frees (fun _ => 0) s t := frees_of_same (fun _ => queueSum_congr admission) slot (by rw [admission])

theorem any_contains_eq_false {ds : List Descriptor} {b : Nat} :
    (ds.any fun d => d.blocks.contains b) = false ↔ sumOver ds (blockWeight b) = 0 := by
  have any : (ds.any fun d => d.blocks.contains b) = true ↔ 0 < sumOver ds (blockWeight b) := by
    rw [sumOver_pos, List.any_eq_true]
    simp only [blockWeight, List.count_pos_iff, List.contains_iff_mem]
  rw [← Bool.not_eq_true, any]
  omega

/-- Refused descriptors free their blocks (R33). -/
theorem frees_of_refused {y : TenantId} {ds l : List Descriptor} {s t : State} (perm : l.Perm ds) (refused : Refused y l s t)
    (slot : t.arbiter = s.arbiter) (queued : ∀ w, queueSum w s = queueSum w t + sumOver ds w) :
    Frees (fun b => sumOver ds (blockWeight b)) s t := by
  obtain ⟨-, store, -⟩ := refused
  refine ⟨fun b => ?_, ?_⟩
  · dsimp only
    rw [blockCount, blockCount, queued, slot]
    omega
  · rw [store]
    refine List.filter_congr fun c _ => ?_
    rw [Bool.eq_iff_iff, Bool.not_eq_true', any_contains_eq_false, sumOver_perm perm, decide_eq_true_eq]

theorem blocksLaw_discardAll {s : State} (x : TenantId) (law : BlocksLaw s) : BlocksLaw (discardAll x s) := by
  obtain ⟨⟨l, ⟨perm, -⟩, refused⟩, -, -, -, -, -, slot, -⟩ := queueRefused_discardAll x s
  exact (frees_of_refused perm refused slot fun w => queueSum_discardAll w x s).blocksLaw law

theorem blocksLaw_discardWrites {s : State} (x : TenantId) (law : BlocksLaw s) : BlocksLaw (discardWrites x s) := by
  obtain ⟨⟨l, ⟨perm, -⟩, refused⟩, -, -, -, -, -, slot, -⟩ := writesRefused_discardWrites x s
  exact (frees_of_refused perm refused slot fun w => queueSum_discardWrites w x s).blocksLaw law

theorem blocksLaw_switchReset {s : State} (law : BlocksLaw s) : BlocksLaw (switchReset s) := by
  refine Frees.blocksLaw (n := fun b => queueSum (blockWeight b) s) ⟨fun b => ?_, ?_⟩ law
  · dsimp only
    rw [blockCount, blockCount, queueSum_switchReset, switchReset_arbiter]
    omega
  · have store : (switchReset s).admission.store =
        s.admission.store.filter fun c => !(queuedBlocks s).contains c.1 := rfl
    rw [store]
    refine List.filter_congr fun c _ => ?_
    have held : (queuedBlocks s).contains c.1 = true ↔ 0 < queueSum (blockWeight c.1) s := by
      rw [List.contains_iff_mem, ← List.count_pos_iff, count_queuedBlocks]
    rw [Bool.eq_iff_iff, Bool.not_eq_true', ← Bool.not_eq_true, held, decide_eq_true_eq, Nat.not_lt, Nat.le_zero]

/-- A slot freed returns its blocks (R82). -/
theorem frees_freeSlot (s : State) : Frees (fun b => slotCount b s.arbiter.slot) s (freeSlot s) := by
  refine ⟨fun b => ?_, ?_⟩
  · have none : slotCount b (freeSlot s).arbiter.slot = 0 := by rw [freeSlot_slot]; rfl
    rw [blockCount, blockCount, queueSum_of_queues (freeSlot_queuesAt s), none, Nat.add_zero]
  · rw [freeSlot_store]
    refine List.filter_congr fun c _ => ?_
    cases s.arbiter.slot with
    | none => rfl
    | some x =>
      rw [Bool.eq_iff_iff, Bool.not_eq_true', ← Bool.not_eq_true, List.contains_iff_mem, decide_eq_true_eq]
      exact List.count_eq_zero.symm

theorem blocksLaw_endSend {s : State} (law : BlocksLaw s) : BlocksLaw (endSend s) := by
  rw [endSend]
  split
  · exact law
  · exact (frees_freeSlot _).blocksLaw law

theorem blocksLaw_losePool {s : State} (law : BlocksLaw s) : BlocksLaw (losePool s) := by
  rw [losePool_eq]
  refine (frees_freeSlot _).blocksLaw ((frees_congr ?_ ?_).blocksLaw law)
  · exact loseEntries_admission _
  · rw [loseEntries_arbiter]; rfl

/-- A release carries the head's blocks into the slot (R34, R82). -/
theorem blocksLaw_release {c : Candidate} {k : ReleaseClass} {tag : Nat} {s : State} (free : s.arbiter.slot = none)
    (chosen : chooseRelease s = some (c, k)) (law : BlocksLaw s) : BlocksLaw (release c k tag s) := by
  refine Frees.blocksLaw (n := fun _ => 0) ⟨fun b => ?_, ?_⟩ law
  · have popped := queueSum_release (k := k) (tag := tag) (blockWeight b) (chooseRelease_head chosen)
    have slot : slotCount b (release c k tag s).arbiter.slot = blockWeight b c.desc := rfl
    have none : slotCount b s.arbiter.slot = 0 := by rw [free]; rfl
    rw [blockCount, blockCount, slot, none]
    omega
  · have store : (release c k tag s).admission.store = s.admission.store := by simp [release, recordRelease]
    rw [store, List.filter_eq_self.2 fun _ _ => decide_eq_true rfl]

theorem blocksLaw_move {s t : State} (h : Move s t) (law : BlocksLaw s) : BlocksLaw t := by
  cases h with
  | discardAll x => exact blocksLaw_discardAll x law
  | discardWrites x => exact blocksLaw_discardWrites x law
  | switchReset => exact blocksLaw_switchReset law
  | endSend => exact blocksLaw_endSend law
  | losePool => exact blocksLaw_losePool law
  | release c k tag _ free _ _ chosen => exact blocksLaw_release free chosen law
  | ageBoundary => exact (frees_of_same (fun b => queueSum_ageBoundary (fun _ => rfl) s) rfl rfl).blocksLaw law
  | strikeBoundary =>
    refine (frees_of_same (fun b => queueSum_strikeBoundary _ s) (by simp) ?_).blocksLaw law
    rw [strikeBoundary]
    split <;> rfl
  | runtimeReset => exact (frees_of_same (fun b => queueSum_runtimeReset _ s) rfl rfl).blocksLaw law
  | resumed x => exact (frees_of_same (fun b => queueSum_unparked (fun _ => rfl) x _) rfl rfl).blocksLaw law
  | retryMark x b => exact (frees_of_same (fun _ => queueSum_retryMark _ x b s) rfl rfl).blocksLaw law
  | writeWf => exact (frees_of_same (fun _ => rfl) rfl rfl).blocksLaw law
  | _ => exact (frees_congr (by simp) (by simp)).blocksLaw law

theorem blocksLaw_opening {s t : State} (h : Opening s t) (law : BlocksLaw s) : BlocksLaw t := by
  have reset : ∀ held, BlocksLaw (holdReset held s) := fun held => by
    have none : ∀ b, blockCount b (holdReset held s) = 0 := fun b => by
      have empty : ∀ x, queuedOf (queuesAt (holdReset held s) x) = [] := (holdReset_empty held s).1
      rw [blockCount, queueSum_empty empty]
      rfl
    rw [blocksLaw_iff]
    refine ⟨rfl, fun b => by rw [none]; exact Nat.zero_le _, fun b => ?_⟩
    rw [none]
    exact ⟨nofun, nofun⟩
  cases h with
  | none => exact law
  | powerOnReset => exact reset .powerOn
  | pinReset => exact (frees_congr rfl rfl).blocksLaw (reset .pin)
  | powerOnRelease =>
    exact (frees_congr (openedFrame_admission _) (by rw [openedFrame_arbiter])).blocksLaw law
  | pinResetRelease => exact (frees_congr (openedFrame_admission _) (by rw [openedFrame_arbiter])).blocksLaw law

/-! ### Admissions -/

theorem admitArrival_store (x : TenantId) (q : RequesterId) (tag : Byte) (b : RequestBody) (s : State) :
    (admitArrival x q tag b s).admission.store =
      (storePayload (blocksFor (blocksNeeded b) s) (bodyPayload b) s).admission.store := by
  simp only [admitArrival, countTenant_admission]
  split <;> rfl

theorem blocksFor_lt {n : Nat} {s : State} (room : n ≤ freeBlockCount s) : ∀ b ∈ blocksFor n s, b < 4096 := by
  obtain ⟨length, -, -, inside⟩ := blocksFor_cases n s
  by_cases none : n = 0
  · rw [none] at length ⊢
    rw [List.length_eq_zero_iff.1 length]
    exact nofun
  · rw [freeBlockCount, Config.storeBlocks] at room
    exact inside (by omega)

/-- An admitted request takes free blocks, each once (R26). -/
theorem blocksLaw_admits {s t : State} (h : Admits s t) (law : BlocksLaw s) : BlocksLaw t := by
  obtain ⟨x, q, tag, b, _, -, -, -, -, room⟩ := h
  rw [blocksLaw_iff] at law ⊢
  obtain ⟨wf, once, used⟩ := law
  obtain ⟨-, distinct, free, -⟩ := blocksFor_cases (blocksNeeded b) s
  have count : ∀ k, blockCount k (admitArrival x q tag b s) =
      blockCount k s + (blocksFor (blocksNeeded b) s).count k := fun k => by
    have slot : (admitArrival x q tag b s).arbiter = s.arbiter := by simp
    have new : blockWeight k (newDescriptor x q tag b s) = (blocksFor (blocksNeeded b) s).count k := rfl
    rw [blockCount, blockCount, queueSum_admitArrival, slot, new]
    omega
  have low : ∀ k ∈ blocksFor (blocksNeeded b) s, k < 4096 := blocksFor_lt room
  obtain ⟨wf', -, -, keys⟩ := storePayload_cases (blocksFor (blocksNeeded b) s) (bodyPayload b) s wf distinct low free
  have apart : ∀ k, blockCount k s = 0 ∨ (blocksFor (blocksNeeded b) s).count k = 0 := fun k => by
    by_cases mem : k ∈ blocksFor (blocksNeeded b) s
    · exact .inl (Nat.eq_zero_of_not_pos fun pos => free k mem ((used k).1 pos))
    · exact .inr (List.count_eq_zero.2 mem)
  have atMost := List.nodup_iff_count_le_one.1 distinct
  rw [admitArrival_store]
  refine ⟨wf', fun k => ?_, fun k => ?_⟩
  · have := once k
    have := atMost k
    have := apart k
    rw [count]
    omega
  · rw [keys, count, ← used k, ← List.count_pos_iff]
    omega

end Sys2Proof.Machine

section

open Sys2Proof Sys2Proof.Machine

/-- Settles O11: openings, moves and an admission keep each of the three laws. -/
theorem stepKeepsOrderAndBlocksLaws : Obligations.StepKeepsOrderAndBlocksLaws := by
  unfold Obligations.StepKeepsOrderAndBlocksLaws
  intro s t h
  refine ⟨fun law => ?_, fun law => ?_, fun distinct listed => ?_⟩
  · exact step_keeps (fun o => (ends_opening o).orderLaw law) (fun m => (ends_move m).orderLaw) id orderLaw_admits h
  · exact step_keeps (fun o => blocksLaw_opening o law) blocksLaw_move id blocksLaw_admits h
  · exact step_keeps (fun o => (ends_opening o).listedLaw ⟨distinct, listed⟩) (fun m => (ends_move m).listedLaw)
      (fun law => law.2) (fun a law => listedLaw_admits a law.2) h

end
end

