-- ==== Sys2Proof/Proofs/Admitted.lean ====
section
/-! PROOFS. An arrival with room is admitted (R19, R21, R26, R29, R31, R104). -/

namespace Sys2Proof.Machine

/-- The charge of a request, written out (R19). -/
theorem chargeOf_eq (wf : Nat) (b : RequestBody) : chargeOf wf b = match b with
    | .read _ n => (n + 63) / 64
    | .write _ p => ((p.length + 63) / 64 * wf + 3) / 4
    | .flush => 1 := by cases b <;> rfl

theorem bodyPayload_eq (b : RequestBody) : bodyPayload b = match b with
    | .write _ p => p
    | _ => [] := by cases b <;> rfl

theorem blocksNeeded_eq (b : RequestBody) : blocksNeeded b = ((bodyPayload b).length + 63) / 64 := by
  cases b with
  | write a p => rfl
  | read a n => simp [blocksNeeded, bodyPayload]
  | flush => simp [blocksNeeded, bodyPayload]

theorem lookup_eq_none {st : List (Nat × List Byte)} {k : Nat} (h : k ∉ st.map (·.1)) : st.lookup k = none := by
  rw [List.lookup_eq_none_iff]
  intro c hc
  exact bne_iff_ne.2 fun e => h (List.mem_map.2 ⟨c, hc, e.symm⟩)

/-- Admission, state by state. -/
theorem admitArrival_eq (x : TenantId) (q : RequesterId) (tag : Byte) (b : RequestBody) (s : State) :
    admitArrival x q tag b s = { s with
      admission.queues := s.admission.queues.modify x (enqueue (newDescriptor x q tag b s))
      admission.store := (storePayload (blocksFor (blocksNeeded b) s) (bodyPayload b) s).admission.store
      admission.nextStamp := s.admission.nextStamp + 1
      paths.orderLists :=
        if bodyKind b = .write then s.paths.orderLists.modify q.toFin fun l => l ++ [s.admission.nextStamp]
        else s.paths.orderLists
      observe.counters := s.observe.counters.modify x fun c => { c with accepted := c.accepted + 1 } } := by
  have kind : (newDescriptor x q tag b s).kind = bodyKind b := rfl
  simp only [admitArrival, kind]
  split <;> rfl

theorem takeArrival_of_room {s : State} {q : RequesterId} {tag : Byte} {b : RequestBody} {x : TenantId}
    (up : s.links.switchUp = true) (tenant : (classify s.classifier q b).1 = x) (notOff : (recordAt s x).state ≠ .off)
    (notFenced : (recordAt s x).state ≠ .fenced) (room : descriptorTest s x = true)
    (blocks : blocksNeeded b ≤ freeBlockCount s) : takeArrival q tag b s = admitArrival x q tag b s := by
  rw [takeArrival, if_pos up, tenant, admission, if_neg (not_or.2 ⟨notOff, notFenced⟩),
    if_neg (by rw [room]; decide), if_neg (Nat.not_lt.2 blocks)]

end Sys2Proof.Machine

section

open Sys2Proof Sys2Proof.Machine

/-- Settles O20: the blocks are those that `blocksFor` picks, and the store is that of `storePayload`. -/
theorem arrivalWithRoomIsAdmitted : Obligations.ArrivalWithRoomIsAdmitted := by
  unfold Obligations.ArrivalWithRoomIsAdmitted
  intro s q tag b running up wf store x notOff notFenced room blocks charge payload
  have room' : blocksNeeded b ≤ freeBlockCount s := Nat.not_lt.1 (mt (freeBlockCount_lt_iff s wf).1 blocks)
  have hcharge : charge = chargeOf s.admission.writeFactor b := (chargeOf_eq _ b).symm
  have hpayload : payload = bodyPayload b := (bodyPayload_eq b).symm
  obtain ⟨length, distinct, free, -⟩ := blocksFor_cases (blocksNeeded b) s
  have low := blocksFor_lt room'
  obtain ⟨wf', others, -, -⟩ := storePayload_cases _ (bodyPayload b) s store distinct low free
  have parked : ((recordAt s x).state == .draining || (recordAt s x).state == .quiesced) =
      decide ((recordAt s x).state = .draining ∨ (recordAt s x).state = .quiesced) := by
    rw [Bool.decide_or]; rfl
  refine ⟨blocksFor (blocksNeeded b) s, (storePayload (blocksFor (blocksNeeded b) s) (bodyPayload b) s).admission.store,
    ?_, distinct, fun k hk => ⟨low k hk, lookup_eq_none (free k hk)⟩, wf', ?_, others, ?_⟩
  · rw [length, hpayload, blocksNeeded_eq]
  · rw [hpayload]
    refine readPayload_storePayload _ _ s store distinct low free ?_
    rw [length, blocksNeeded_eq]
    omega
  · rw [exec_arrival_of_wf running wf, takeArrival_of_room up rfl notOff notFenced ((descriptorTest_iff s x).2 room) room',
      admitArrival_eq, hcharge, ← parked]
    rfl

end
end

