-- ==== Sys2Proof/Proofs/DrainEnds.lean ====
section
/-! PROOFS. The fence and the completion of a drain as events of their own (R33, R124, R125, R128). -/

namespace Sys2Proof.Machine

/-- A tenant's queue refused and its record then changed. -/
theorem queueRefused_changeRecord {x : TenantId} {f : TenantRecord → TenantRecord} {s u : State} (h : QueueRefused x s u) :
    QueueRefused x s (changeRecord x f u) := h

/-- A drain's queue refused and its record changed: nothing else but what the refusals do. -/
theorem refusedThenChanged (x : TenantId) (f : TenantRecord → TenantRecord) (s : State) :
    QueueRefused x s (changeRecord x f (discardAll x s)) ∧
      (changeRecord x f (discardAll x s)).pairHalt = s.pairHalt ∧
      (changeRecord x f (discardAll x s)).records = s.records.modify x f := by
  refine ⟨queueRefused_changeRecord (queueRefused_discardAll x s), ?_, ?_⟩
  · rw [changeRecord_pairHalt, discardAll_pairHalt]
  · rw [changeRecord_records, discardAll_records]

end Sys2Proof.Machine

section

open Sys2Proof Sys2Proof.Machine

/-- Settles O35. -/
theorem fenceAndDrainCompletionEndDrains : Obligations.FenceAndDrainCompletionEndDrains := by
  unfold Obligations.FenceAndDrainCompletionEndDrains
  refine ⟨fun s x running => ⟨fun idle => ?_, fun draining due => ?_⟩,
    fun s x running => ⟨fun unfinished => ?_, fun finished target => ?_, fun finished target => ?_⟩⟩
  · rw [exec_fence, whileRunning_of_running running]
    rcases fenceIfDue_cases x s with ⟨draining, due, -⟩ | ⟨-, e⟩
    · rcases idle with idle | notDue
      · exact absurd draining idle
      · rw [due] at notDue; cases notDue
    · rw [e]
  · obtain ⟨refused, pairHalt, records⟩ := refusedThenChanged x
      (fun r => { r with state := .fenced, target := .none, fenceDue := false }) s
    refine ⟨_, refused, pairHalt, records, ?_⟩
    rw [exec_fence, whileRunning_of_running running, fenceIfDue, if_pos ⟨draining, due⟩, fence, discardAll_changeRecord]
    rfl
  · rw [exec_drainCompletion, whileRunning_of_running running, testDrain, if_neg (mt (drainDone_iff s x).1 unfinished)]
  · rw [exec_drainCompletion, whileRunning_of_running running, testDrain, if_pos ((drainDone_iff s x).2 finished),
      completeDrain, target]
    rfl
  · obtain ⟨refused, pairHalt, records⟩ := refusedThenChanged x
      (fun r => { r with state := .off, target := .none, fenceDue := false }) s
    refine ⟨_, refused, pairHalt, records, ?_⟩
    rw [exec_drainCompletion, whileRunning_of_running running, testDrain, if_pos ((drainDone_iff s x).2 finished),
      completeDrain, target]

end
end

