-- ==== Sys2Proof/Proofs/Lending.lean ====
section
/-! PROOFS. The lend point: every lending tenant's credit joins the spare pool (R36, R43, R77, R78). -/

namespace Sys2Proof.Machine

/-- A tenant's credit entry after the lend point. -/
def lentEntry (s : State) (x : TenantId) : CreditEntry :=
  if lends s x then { creditAt s x with credit := 0 } else creditAt s x

/-- What a tenant gives to the spare pool. -/
def lentCredit (s : State) (x : TenantId) : Nat := if lends s x then (creditAt s x).credit.toNat else 0

theorem lends_iff (s : State) (x : TenantId) : lends s x = true ↔
    (creditAt s x).settings.lend = true ∧ 0 < (creditAt s x).credit ∧ eligibleCharge s x = 0 := by
  simp [lends, and_assoc]

theorem lendOne_eq (s : State) (x : TenantId) : lendOne s x = { s with
    credit := ⟨s.credit.tenants.set x (lentEntry s x), s.credit.spare + lentCredit s x⟩ } := by
  rcases lendOne_cases s x with ⟨lending, e⟩ | ⟨keeping, e⟩
  · have entries : (s.credit.tenants.modify x fun e => { e with credit := 0 }) =
        s.credit.tenants.set x (lentEntry s x) := Table.ext_get fun y => by
      rw [Table.get_modify, Table.get_set, lentEntry, if_pos lending]
      split
      · subst y; rfl
      · rfl
    rw [e, entries, lentCredit, if_pos lending]
  · have entries : s.credit.tenants.set x (lentEntry s x) = s.credit.tenants := Table.ext_get fun y => by
      have kept : lentEntry s x = creditAt s x := if_neg (by rw [keeping]; decide)
      rw [Table.get_set, kept]
      split
      · subst y; rfl
      · rfl
    have none : lentCredit s x = 0 := if_neg (by rw [keeping]; decide)
    rw [e, entries, none]
    rfl

theorem lendOne_creditAt (s : State) (x y : TenantId) :
    creditAt (lendOne s x) y = if x = y then lentEntry s x else creditAt s y := by
  rw [lendOne_eq, creditAt, Table.get_set]
  rfl

/-- What one tenant lends, another's part does not show (R77). -/
theorem lends_lendOne {x y : TenantId} (apart : x ≠ y) (s : State) : lends (lendOne s x) y = lends s y := by
  have entry : creditAt (lendOne s x) y = creditAt s y := by rw [lendOne_creditAt, if_neg apart]
  have charge : eligibleCharge (lendOne s x) y = eligibleCharge s y := by rw [lendOne_eq]; rfl
  rw [lends, lends, entry, charge]

theorem lentEntry_lendOne {x y : TenantId} (apart : x ≠ y) (s : State) : lentEntry (lendOne s x) y = lentEntry s y := by
  rw [lentEntry, lentEntry, lends_lendOne apart, lendOne_creditAt, if_neg apart]

theorem lentCredit_lendOne {x y : TenantId} (apart : x ≠ y) (s : State) : lentCredit (lendOne s x) y = lentCredit s y := by
  rw [lentCredit, lentCredit, lends_lendOne apart, lendOne_creditAt, if_neg apart]

/-- Tenants examined one after another lend as each would alone. -/
theorem foldl_lendOne {l : List TenantId} (distinct : l.Nodup) (s : State) : l.foldl lendOne s = { s with
    credit := ⟨Table.build fun x => if x ∈ l then lentEntry s x else creditAt s x,
      s.credit.spare + sumOver l (lentCredit s)⟩ } := by
  induction l generalizing s with
  | nil =>
    have same : (Table.build fun x => if x ∈ ([] : List TenantId) then lentEntry s x else creditAt s x) =
        s.credit.tenants := Table.ext_get fun x => by rw [Table.get_build, if_neg List.not_mem_nil]; rfl
    rw [same]
    rfl
  | cons a l ih =>
    obtain ⟨first, rest⟩ := List.nodup_cons.1 distinct
    have apart : ∀ x ∈ l, a ≠ x := fun x hx e => first (e ▸ hx)
    have entries : (Table.build fun x => if x ∈ l then lentEntry (lendOne s a) x else creditAt (lendOne s a) x) =
        Table.build fun x => if x ∈ a :: l then lentEntry s x else creditAt s x := Table.ext_get fun x => by
      rw [Table.get_build, Table.get_build, lendOne_creditAt]
      by_cases later : x ∈ l
      · rw [if_pos later, if_pos (List.mem_cons_of_mem a later), lentEntry_lendOne (apart x later)]
      · rw [if_neg later]
        by_cases same : a = x
        · subst same
          rw [if_pos rfl, if_pos List.mem_cons_self]
        · rw [if_neg same, if_neg (List.not_mem_cons_of_ne_of_not_mem (Ne.symm same) later)]
    have given : sumOver l (lentCredit (lendOne s a)) = sumOver l (lentCredit s) :=
      sumOver_congr fun x hx => lentCredit_lendOne (apart x hx) s
    rw [List.foldl_cons, ih rest, entries, given, lendOne_eq, sumOver_cons, Nat.add_assoc]

/-- The lend point in closed form. -/
theorem lendAll_eq (s : State) : lendAll s = { s with
    credit := ⟨Table.build (lentEntry s), s.credit.spare + sumTenants (lentCredit s)⟩ } := by
  have everyone : (Table.build fun x => if x ∈ List.finRange 24 then lentEntry s x else creditAt s x) =
      Table.build (lentEntry s) := Table.ext_get fun x => by
    rw [Table.get_build, Table.get_build, if_pos (List.mem_finRange x)]
  rw [lendAll, foldl_lendOne (List.nodup_finRange 24), everyone]
  rfl

theorem sumOver_filter_notParked (l : List Descriptor) :
    sumOver (l.filter fun d => !d.parked) (·.charge) = sumOver l fun d => if d.parked = true then 0 else d.charge := by
  induction l with
  | nil => rfl
  | cons d l ih =>
    rw [List.filter_cons, sumOver_cons, ← ih]
    cases d.parked
    · rfl
    · exact (Nat.zero_add _).symm

end Sys2Proof.Machine

section

open Sys2Proof Sys2Proof.Machine

/-- Settles O37: the lend point in closed form, and the eligible charge with its filter written as a condition. -/
theorem lendPointMovesUnusedCredit : Obligations.LendPointMovesUnusedCredit := by
  unfold Obligations.LendPointMovesUnusedCredit
  refine ⟨fun s running => ⟨fun never => ?_, fun some ahead => ?_⟩, fun s x => ⟨fun gate => ?_, fun gate => ?_⟩⟩
  · rw [exec_lendPoint, whileRunning_of_running running, lendPoint, if_neg]
    rintro ⟨some, ahead⟩
    rcases never with none | passed
    · exact some none
    · exact Nat.not_lt.2 passed ahead
  · have entries : lentEntry { s with timer.phase := lendPhase s.timer } = fun x =>
        if (creditAt s x).settings.lend = true ∧ 0 < (creditAt s x).credit ∧ eligibleCharge s x = 0 then
          { creditAt s x with credit := 0 } else creditAt s x := funext fun x => if_congr (lends_iff s x) rfl rfl
    have given : lentCredit { s with timer.phase := lendPhase s.timer } = fun x =>
        if (creditAt s x).settings.lend = true ∧ 0 < (creditAt s x).credit ∧ eligibleCharge s x = 0 then
          (creditAt s x).credit.toNat else 0 := funext fun x => if_congr (lends_iff s x) rfl rfl
    rw [exec_lendPoint, whileRunning_of_running running, lendPoint, if_pos ⟨some, ahead⟩, lendAll_eq]
    rw [entries, given]
    rfl
  · rw [eligibleCharge, if_pos ((gateOpen_iff s x).2 gate), sumOver_filter_notParked, sumOver_filter_notParked]
  · rw [eligibleCharge, if_neg (mt (gateOpen_iff s x).1 gate), sumOver_filter_notParked, Nat.add_zero]

end
end

