-- ==== Sys2Proof/Proofs/TenantCommands.lean ====
section
/-! PROOFS. STOP of a QUIESCED tenant, TENANT_RESET and PAIR_SWAP (R33, R90, R117, R120, R123, R125, R137, R138, R160, R173). -/

namespace Sys2Proof.Machine

/-! ### Commands by their results -/

/-- A command's row, from what the command makes of the state and its result (R173). -/
theorem issueCommand_of_run {code arg : Byte} {r : CmdResult} {s u : State}
    (h : runCommand code arg (commandTaken arg s) = (u, r)) : issueCommand code arg s = withResult code r u := by
  have given : (commandTaken arg s).port.cmdArg = arg := rfl
  rw [issueCommand_eq, commandEvent, given, h]
  rfl

theorem onTenant_of_val {arg : Byte} {x : TenantId} (h : arg.toNat = x.val) (f : TenantId → State → State × CmdResult)
    (s : State) : onTenant arg f s = f x s := by
  rw [onTenant, tenantOf_of_val h]

theorem stopTenant_of_quiesced {x : TenantId} {s : State} (h : (recordAt s x).state = .quiesced) :
    stopTenant x s = (changeRecord x (fun r => { r with state := .off }) (discardAll x s), .ok) := by
  rw [stopTenant, h]

/-- What TENANT_RESET clears once the queue has been refused, before the drain is tested (R123, R160). -/
def tenantCleared (x : TenantId) (s : State) : State :=
  { s with
    credit.tenants := s.credit.tenants.modify x fun e => { e with credit := 0, spent := 0 }
    admission.queues := s.admission.queues.modify x fun a => { a with retryMark := false }
    records := s.records.modify x fun r => { r with strikes := 0, demoted := false }
    observe.counters := s.observe.counters.set x ⟨0, 0, 0, 0, 0, 0, 0, 0, 0⟩ }

theorem resetTenant_eq (x : TenantId) (s : State) :
    resetTenant x s = (testDrain x (tenantCleared x (discardAll x s)), .ok) := rfl

/-! ### PAIR_SWAP -/

/-- The entry of a pair that has just been swapped (R137). -/
def swappedEntry (e : PairEntry) : PairEntry :=
  { e with inGuard := true, counter := e.guard, active := if e.active = .primary then .secondary else .primary }

theorem pairSwap_of_invalid {arg : Byte} {p : PairId} {s : State} (named : arg.toNat = p.val)
    (invalid : (s.pairHalt.pairs.get p).valid = false) : pairSwap arg s = (s, .wrongState) := by
  rw [pairSwap, pairOf_of_val named]
  exact if_pos invalid

theorem pairSwap_of_busy {arg : Byte} {p : PairId} {s : State} (named : arg.toNat = p.val)
    (valid : (s.pairHalt.pairs.get p).valid = true) (busy : (s.pairHalt.pairs.get p).inGuard = true) :
    pairSwap arg s = (s, .pairBusy) := by
  rw [pairSwap, pairOf_of_val named]
  exact (if_neg (by rw [valid]; decide)).trans (if_pos busy)

theorem pairSwap_of_settled {arg : Byte} {p : PairId} {s : State} (named : arg.toNat = p.val)
    (valid : (s.pairHalt.pairs.get p).valid = true) (settled : (s.pairHalt.pairs.get p).inGuard = false) :
    pairSwap arg s = (swapPair p s, .ok) := by
  rw [pairSwap, pairOf_of_val named]
  exact (if_neg (by rw [valid]; decide)).trans (if_neg (by rw [settled]; decide))

theorem activeTenant_eq (e : PairEntry) : activeTenant e = if e.active = .primary then e.primary else e.secondary := by
  rw [activeTenant]
  cases e.active <;> rfl

theorem otherMember_eq (m : Member) : otherMember m = if m = .primary then .secondary else .primary := by
  cases m <;> rfl

theorem flipPair_eq (p : PairId) (s : State) : flipPair p s =
    { s with pairHalt.pairs := s.pairHalt.pairs.set p (swappedEntry (s.pairHalt.pairs.get p)) } := by
  rw [swappedEntry, ← otherMember_eq]
  rfl

theorem discardWrites_record (x : TenantId) (s : State) (y : TenantId) :
    recordAt (discardWrites x s) y = recordAt s y := recordAt_congr (discardWrites_records x s) y

/-- The drain of a tenant whose WQ has been refused has finished when its RQ is parked and nothing of it is outstanding. -/
theorem drainFinished_discardWrites (x : TenantId) (s : State) : DrainFinished (discardWrites x s) x ↔
    (recordAt s x).state = .draining ∧ (∀ d ∈ (queuesAt s x).rq, d.parked = true) ∧
      ∀ k e, s.paths.entries.get k = some e → e.tenant ≠ x := by
  have reads : queuedOf (queuesAt (discardWrites x s) x) = (queuesAt s x).rq := by
    rw [discardWrites_queuesAt, if_pos rfl, queuedOf, List.append_nil]
  obtain ⟨⟨l, -, -, -, -, -, entries, -⟩, -⟩ := writesRefused_discardWrites x s
  rw [DrainFinished, discardWrites_record, reads, entries]

end Sys2Proof.Machine

section

open Sys2Proof Sys2Proof.Machine

/-- Settles O46. -/
theorem stopOfQuiescedAndTenantReset : Obligations.StopOfQuiescedAndTenantReset := by
  unfold Obligations.StopOfQuiescedAndTenantReset
  intro s arg x running named u
  refine ⟨fun quiesced => ?_, ?_⟩
  · obtain ⟨refused, pairHalt, records⟩ := refusedThenChanged x (fun r => { r with state := .off }) u
    refine ⟨_, refused, pairHalt, records, ?_⟩
    have run : runCommand 3 arg u =
        (changeRecord x (fun r => { r with state := .off }) (discardAll x u), .ok) :=
      (onTenant_of_val named stopTenant u).trans (stopTenant_of_quiesced quiesced)
    rw [exec_stop, whileRunning_of_running running, issueCommand_of_run run]
  · have run : runCommand 6 arg u = (testDrain x (tenantCleared x (discardAll x u)), .ok) :=
      (onTenant_of_val named resetTenant u).trans (resetTenant_eq x u)
    have still : Running (tenantCleared x (discardAll x u)) := by
      have control : (tenantCleared x (discardAll x u)).control = s.control := discardAll_control x u
      rw [Running, control]
      exact running
    refine ⟨discardAll x u, testDrain x (tenantCleared x (discardAll x u)), queueRefused_discardAll x u,
      discardAll_pairHalt x u, discardAll_records x u, ?_, ?_⟩
    · exact whileRunning_of_running still (testDrain x)
    · rw [exec_tenantReset, whileRunning_of_running running, issueCommand_of_run run]

/-- Settles O48: the swap flips the pair, sweeps the old active member's WQ, and tests the settling. -/
theorem pairSwapRefusesTheOldActiveMembersWrites : Obligations.PairSwapRefusesTheOldActiveMembersWrites := by
  unfold Obligations.PairSwapRefusesTheOldActiveMembersWrites
  intro s arg p running named u e old flip stops
  have run : runCommand 7 arg u = pairSwap arg u := rfl
  have row : ∀ {r z}, pairSwap arg u = (z, r) → exec (.pairSwap arg) s = .next (withResult 7 r z) := fun {r z} h => by
    rw [exec_pairSwap, whileRunning_of_running running, issueCommand_of_run (run.trans h)]
  have active : activeTenant (u.pairHalt.pairs.get p) = old := activeTenant_eq _
  have guarded : ∀ v, v.control = u.control → Running v := fun v control => by
    rw [Running, control]
    exact running
  have swapped : e.valid = true → e.inGuard = false →
      pairSwap arg u = (testSettle p (sweepWrites old (flipPair p u)), .ok) := fun valid settled => by
    rw [pairSwap_of_settled (s := u) named valid settled, swapPair_eq, active]
  refine ⟨fun invalid => ?_, fun valid busy => ?_, fun valid settled goesOn => ?_, fun valid settled ends => ?_⟩
  · exact row (pairSwap_of_invalid named invalid)
  · exact row (pairSwap_of_busy named valid busy)
  · have sweeps : sweepWrites old (flipPair p u) = testDrain old (discardWrites old (flipPair p u)) := by
      rcases sweepWrites_cases old (flipPair p u) with ⟨finished, target, -⟩ | ⟨-, e⟩
      · obtain ⟨draining, parked, none⟩ := (drainFinished_discardWrites old (flipPair p u)).1 finished
        exact absurd ⟨draining, target, parked, none⟩ goesOn
      · exact e
    refine ⟨discardWrites old (flipPair p u), testDrain old (discardWrites old (flipPair p u)), _,
      writesRefused_discardWrites old (flipPair p u), discardWrites_records old (flipPair p u), ?_,
      whileRunning_of_running (guarded _ ?_) (testDrain old), whileRunning_of_running (guarded _ ?_) (testSettle p),
      row ?_⟩
    · rw [discardWrites_pairHalt, flipPair_eq]
      rfl
    · rw [discardWrites_control]
      rfl
    · rw [testDrain_control, discardWrites_control]
      rfl
    · rw [swapped valid settled, sweeps]
  · obtain ⟨draining, target, parked, none⟩ := ends
    have finished : DrainFinished (discardWrites old (flipPair p u)) old :=
      (drainFinished_discardWrites old (flipPair p u)).2 ⟨draining, parked, none⟩
    have sweeps : sweepWrites old (flipPair p u) =
        changeRecord old (fun r => { r with state := .off, target := .none, fenceDue := false })
          (discardAll old (flipPair p u)) := by
      rcases sweepWrites_cases old (flipPair p u) with ⟨-, -, e⟩ | ⟨not, -⟩
      · have off : (recordAt (flipPair p u) old).target = .off := target
        rw [e, completeDrain, off]
      · exact absurd ⟨finished, target⟩ not
    obtain ⟨refused, pairHalt, records⟩ := refusedThenChanged old
      (fun r => { r with state := .off, target := .none, fenceDue := false }) (flipPair p u)
    refine ⟨_, _, refused, records, ?_, whileRunning_of_running (guarded _ ?_) (testSettle p), row ?_⟩
    · rw [pairHalt, flipPair_eq]
      rfl
    · rw [changeRecord_control, discardAll_control]
      rfl
    · rw [swapped valid settled, sweeps]

end
end

