-- ==== Sys2Proof/Proofs/FieldPlaces.lean ====
section
/-! PROOFS. The layouts list their fields by rising address, so that the place an address lies in gives its field, and what each field reads as. -/

namespace Sys2Proof.Machine

/-! ### One address, one field -/

theorem covers_iff (place : Nat × Nat) (a : Nat) :
    covers place a = true ↔ place.1 ≤ a ∧ a < place.1 + place.2 := by
  simp [covers]

/-- The places of a layout's fields rise and do not overlap. -/
def Rising {α : Type} (place : α → Nat × Nat) (fields : List α) : Prop :=
  fields.Pairwise fun f g => (place f).1 + (place f).2 ≤ (place g).1

theorem Rising.find? {α : Type} {place : α → Nat × Nat} {fields : List α} (rising : Rising place fields) {f : α}
    (mem : f ∈ fields) {a : Nat} (covered : covers (place f) a = true) :
    fields.find? (fun g => covers (place g) a) = some f := by
  have here := (covers_iff _ _).mp covered
  induction fields with
  | nil => simp at mem
  | cons g fields ih =>
    obtain ⟨above, rest⟩ := List.pairwise_cons.mp rising
    rcases List.mem_cons.mp mem with rfl | mem
    · exact List.find?_cons_of_pos covered
    · have passed : ¬ covers (place g) a = true := by
        have := above f mem
        rw [covers_iff]
        omega
      rw [List.find?_cons_of_neg (p := fun g => covers (place g) a) passed, ih rest mem]

theorem directFields_rising : Rising directPlace directFields := by unfold Rising; decide
theorem tenantFields_rising : Rising tenantPlace tenantFields := by unfold Rising; decide
theorem classifierFields_rising : Rising classifierPlace classifierFields := by unfold Rising; decide
theorem pairFields_rising : Rising pairPlace pairFields := by unfold Rising; decide
theorem counterFields_rising : Rising counterPlace counterFields := by unfold Rising; decide
theorem frameFields_rising : Rising framePlace frameFields := by unfold Rising; decide

/-- Every direct register stands below the window. -/
theorem directPlace_below_window (f : DirectField) : (directPlace f).1 + (directPlace f).2 ≤ windowBase := by
  cases f <;> decide

/-! ### The field at the pointer -/

theorem fieldAt_direct {s : State} {f : DirectField} {k : Nat} (inside : k < (directPlace f).2)
    (at_ : s.port.pointer.toNat = (directPlace f).1 + k) : fieldAt s = some (.direct f) := by
  have below := directPlace_below_window f
  have found := directFields_rising.find? (f := f) (by cases f <;> decide)
    (a := s.port.pointer.toNat) ((covers_iff _ _).mpr (by omega))
  rw [fieldAt, if_pos (by omega), found, Option.map_some]

/-- A pointer in the window selects by its offset there. -/
theorem fieldAt_window {s : State} {k : Nat} (at_ : s.port.pointer.toNat = windowBase + k) :
    fieldAt s = windowFieldAt s.port.page s.port.index.val k := by
  rw [fieldAt, if_neg (by omega), at_, Nat.add_sub_cancel_left]

theorem windowFieldAt_tenant (x : TenantId) {f : TenantField} {k : Nat} (inside : k < (tenantPlace f).2) :
    windowFieldAt .tenant x.val ((tenantPlace f).1 + k) = some (.tenant x f) := by
  have found := tenantFields_rising.find? (f := f) (by cases f <;> decide)
    (a := (tenantPlace f).1 + k) ((covers_iff _ _).mpr (by omega))
  rw [windowFieldAt, dif_pos x.isLt, found, Option.map_some]

theorem windowFieldAt_classifier (i : EntryId) {f : ClassifierField} {k : Nat} (inside : k < (classifierPlace f).2) :
    windowFieldAt .classifier i.val ((classifierPlace f).1 + k) = some (.classifier i f) := by
  have found := classifierFields_rising.find? (f := f) (by cases f <;> decide)
    (a := (classifierPlace f).1 + k) ((covers_iff _ _).mpr (by omega))
  rw [windowFieldAt, dif_pos i.isLt, found, Option.map_some]

theorem windowFieldAt_pair (p : PairId) {f : PairField} {k : Nat} (inside : k < (pairPlace f).2) :
    windowFieldAt .pair p.val ((pairPlace f).1 + k) = some (.pair p f) := by
  have found := pairFields_rising.find? (f := f) (by cases f <;> decide)
    (a := (pairPlace f).1 + k) ((covers_iff _ _).mpr (by omega))
  rw [windowFieldAt, dif_pos p.isLt, found, Option.map_some]

theorem windowFieldAt_counters (x : TenantId) {f : CounterField} {k : Nat} (inside : k < (counterPlace f).2) :
    windowFieldAt .counters x.val ((counterPlace f).1 + k) = some (.counters x f) := by
  have found := counterFields_rising.find? (f := f) (by cases f <;> decide)
    (a := (counterPlace f).1 + k) ((covers_iff _ _).mpr (by omega))
  rw [windowFieldAt, dif_pos x.isLt, found, Option.map_some]

theorem windowFieldAt_frames (n : Fin 32) {f : FrameField} {k : Nat} (inside : k < (framePlace f).2) :
    windowFieldAt .frames n.val ((framePlace f).1 + k) = some (.frames n f) := by
  have found := frameFields_rising.find? (f := f) (by cases f <;> decide)
    (a := (framePlace f).1 + k) ((covers_iff _ _).mpr (by omega))
  rw [windowFieldAt, dif_pos n.isLt, found, Option.map_some]

/-! ### Addresses of no field -/

/-- No field covers an address that lies outside all places. -/
theorem find?_covers_eq_none {α : Type} {place : α → Nat × Nat} (fields : List α) {a : Nat}
    (outside : ∀ f, (place f).1 ≤ a → (place f).1 + (place f).2 ≤ a) :
    fields.find? (fun f => covers (place f) a) = none :=
  List.find?_eq_none.mpr fun f _ covered => by
    have := outside f
    have := (covers_iff _ _).mp covered
    omega

theorem fieldAt_direct_gap {s : State} (below : s.port.pointer.toNat < windowBase)
    (outside : ∀ f, (directPlace f).1 ≤ s.port.pointer.toNat →
      (directPlace f).1 + (directPlace f).2 ≤ s.port.pointer.toNat) : fieldAt s = none := by
  rw [fieldAt, if_pos below, find?_covers_eq_none _ outside, Option.map_none]

theorem windowFieldAt_tenant_gap (index : Nat) {k : Nat}
    (outside : ∀ f, (tenantPlace f).1 ≤ k → (tenantPlace f).1 + (tenantPlace f).2 ≤ k) :
    windowFieldAt .tenant index k = none := by
  simp [windowFieldAt, find?_covers_eq_none _ outside]

theorem windowFieldAt_classifier_gap (index : Nat) {k : Nat}
    (outside : ∀ f, (classifierPlace f).1 ≤ k → (classifierPlace f).1 + (classifierPlace f).2 ≤ k) :
    windowFieldAt .classifier index k = none := by
  simp [windowFieldAt, find?_covers_eq_none _ outside]

theorem windowFieldAt_pair_gap (index : Nat) {k : Nat}
    (outside : ∀ f, (pairPlace f).1 ≤ k → (pairPlace f).1 + (pairPlace f).2 ≤ k) :
    windowFieldAt .pair index k = none := by
  simp [windowFieldAt, find?_covers_eq_none _ outside]

theorem windowFieldAt_counters_gap (index : Nat) {k : Nat}
    (outside : ∀ f, (counterPlace f).1 ≤ k → (counterPlace f).1 + (counterPlace f).2 ≤ k) :
    windowFieldAt .counters index k = none := by
  simp [windowFieldAt, find?_covers_eq_none _ outside]

theorem windowFieldAt_frames_gap (index : Nat) {k : Nat}
    (outside : ∀ f, (framePlace f).1 ≤ k → (framePlace f).1 + (framePlace f).2 ≤ k) :
    windowFieldAt .frames index k = none := by
  simp [windowFieldAt, find?_covers_eq_none _ outside]

/-- A pointer in the window names no field where the page assigns none to its offset. -/
theorem fieldAt_window_gap {s : State} {page : Page} (shown : s.port.page = page)
    (inWindow : windowBase ≤ s.port.pointer.toNat)
    (gap : windowFieldAt page s.port.index.val (s.port.pointer.toNat - windowBase) = none) : fieldAt s = none := by
  rw [fieldAt, if_neg (by omega), shown, gap]

/-! ### What the fields read as -/

theorem effectiveCap_eq (s : State) :
    effectiveCap s = min s.timer.cap (min 16383 (s.timer.fp * 16 / (s.control.straps.div.toNat + 1))) := rfl

theorem occupancy_eq (s : State) (x : TenantId) :
    occupancy s x = (queuesAt s x).rq.length + (queuesAt s x).wq.length := List.length_append

theorem queuedCharge_eq (s : State) (x : TenantId) :
    queuedCharge s x = sumOver (queuesAt s x).rq (·.charge) + sumOver (queuesAt s x).wq (·.charge) :=
  sumOver_append _ _ _

theorem outstandingCount_eq (s : State) (x : TenantId) :
    outstandingCount s x = s.paths.entries.toList.countP fun o => o.any fun e => e.tenant == x := by
  refine congrArg (List.countP · _) (funext fun o => ?_)
  cases o <;> rfl

theorem outstandingWrites_eq (s : State) (x : TenantId) :
    outstandingWrites s x = s.paths.entries.toList.countP fun o => o.any fun e => e.tenant == x && e.kind != .read := by
  refine congrArg (List.countP · _) (funext fun o => ?_)
  cases o <;> rfl

/-- A credit of 16 bits reads in two's complement. -/
theorem toNat_ofInt_of_word {c : Int} (low : -32768 ≤ c) (high : c ≤ 32767) :
    ((BitVec.ofInt 16 c).toNat : Int) = if c < 0 then c + 65536 else c := by
  rw [BitVec.toNat_ofInt]
  split <;> omega

theorem statusCode_eq (status : Option RefuseReason) :
    statusCode status = (match status with
      | none => 0
      | some .range => 128 + 1
      | some .state => 128 + 2
      | some .reserve => 128 + 3
      | some .floor => 128 + 4
      | some .guard => 128 + 5
      | some .member => 128 + 6) := by
  rcases status with _ | reason
  · rfl
  · cases reason <;> rfl

theorem bitAt_memberBit (m : Member) : bitAt (memberBit m) 1 = if m = .secondary then 2 else 0 := by
  cases m <;> rfl

theorem outcomeCode_eq (o : FrameOutcome) : outcomeCode o = if o = .solved then 1 else 2 := by
  cases o <;> rfl

end Sys2Proof.Machine

section
open Sys2Proof Sys2Proof.Machine

/-- Settles O57: the layouts list their fields by rising address, so that an address inside a field's place finds that field; the codes agree case by case. -/
theorem fieldsStandAtTheirPlaces : Obligations.FieldsStandAtTheirPlaces := by
  unfold Obligations.FieldsStandAtTheirPlaces
  refine ⟨by decide, by decide, by decide, by decide, by decide, by decide, fun s => ⟨?_, ?_, ?_, ?_, ?_⟩,
    fun s => ⟨?_, ?_, ?_, ?_, ?_, ?_⟩, fun s => ⟨?_, fun x => ?_, fun i => ?_, fun p => ?_, fun x => ?_, fun n => ?_⟩⟩
  case refine_1 =>
    intro gap
    refine fieldAt_direct_gap (by unfold windowBase; omega) fun f => ?_
    cases f <;> dsimp only [directPlace] <;> omega
  case refine_2 =>
    intro page gap
    refine fieldAt_window_gap page (by unfold windowBase; omega) (windowFieldAt_tenant_gap _ fun f => ?_)
    cases f <;> dsimp only [tenantPlace, windowBase] <;> omega
  case refine_3 =>
    intro page gap
    rcases page with page | page
    · refine fieldAt_window_gap page (by unfold windowBase; omega) (windowFieldAt_classifier_gap _ fun f => ?_)
      cases f <;> dsimp only [classifierPlace, windowBase] <;> omega
    · refine fieldAt_window_gap page (by unfold windowBase; omega) (windowFieldAt_frames_gap _ fun f => ?_)
      cases f <;> dsimp only [framePlace, windowBase] <;> omega
  case refine_4 =>
    intro page gap
    refine fieldAt_window_gap page (by unfold windowBase; omega) (windowFieldAt_pair_gap _ fun f => ?_)
    cases f <;> dsimp only [pairPlace, windowBase] <;> omega
  case refine_5 =>
    intro page gap
    refine fieldAt_window_gap page (by unfold windowBase; omega) (windowFieldAt_counters_gap _ fun f => ?_)
    cases f <;> dsimp only [counterPlace, windowBase] <;> omega
  case refine_6 => exact fun f k inside pointer => fieldAt_direct inside pointer
  case refine_7 =>
    intro x f k page index inside pointer
    rw [fieldAt_window (pointer.trans (Nat.add_assoc ..)), page, index, windowFieldAt_tenant x inside]
  case refine_8 =>
    intro i f k page index inside pointer
    rw [fieldAt_window (pointer.trans (Nat.add_assoc ..)), page, index, windowFieldAt_classifier i inside]
  case refine_9 =>
    intro p f k page index inside pointer
    rw [fieldAt_window (pointer.trans (Nat.add_assoc ..)), page, index, windowFieldAt_pair p inside]
  case refine_10 =>
    intro x f k page index inside pointer
    rw [fieldAt_window (pointer.trans (Nat.add_assoc ..)), page, index, windowFieldAt_counters x inside]
  case refine_11 =>
    intro n f k page index inside pointer
    rw [fieldAt_window (pointer.trans (Nat.add_assoc ..)), page, index, windowFieldAt_frames n inside]
  case refine_12 =>
    have mode : modeCode s.control.mode + pendingCode s.control.pendingMode * 4 =
        modeCode s.control.mode + 4 * pendingCode s.control.pendingMode := by rw [Nat.mul_comm 4]
    have straps : s.control.straps.addr.toNat + s.control.straps.div.toNat * 4 + bitAt s.control.straps.start 5 =
        s.control.straps.addr.toNat + 4 * s.control.straps.div.toNat + bitAt s.control.straps.start 5 := by
      rw [Nat.mul_comm 4]
    exact ⟨rfl, statusCode_eq _, mode, rfl, rfl, rfl, rfl, rfl, rfl, rfl, effectiveCap_eq s, rfl, rfl, rfl, rfl, rfl,
      rfl, rfl, rfl, rfl, straps, rfl, rfl, rfl, rfl, rfl⟩
  case refine_13 =>
    have status : stateCode (recordAt s x).state + targetCode (recordAt s x).target * 16 +
          bitAt (recordAt s x).demoted 6 =
        stateCode (recordAt s x).state + 16 * targetCode (recordAt s x).target + bitAt (recordAt s x).demoted 6 := by
      rw [Nat.mul_comm 16]
    exact ⟨status, rfl, rfl, rfl, rfl, rfl, rfl, rfl, rfl, rfl, rfl, rfl, rfl, occupancy_eq s x, rfl, rfl,
      queuedCharge_eq s x, toNat_ofInt_of_word, rfl, rfl, rfl, rfl, rfl, outstandingCount_eq s x,
      outstandingWrites_eq s x⟩
  case refine_14 =>
    have flags : bitAt (s.classifier.entries.get i).valid 0 + filterCode (s.classifier.entries.get i).filter * 2 +
          bitAt (s.classifier.entries.get i).window 3 =
        bitAt (s.classifier.entries.get i).valid 0 + 2 * filterCode (s.classifier.entries.get i).filter +
          bitAt (s.classifier.entries.get i).window 3 := by
      rw [Nat.mul_comm 2]
    exact ⟨flags, rfl, rfl, rfl, rfl, rfl, rfl⟩
  case refine_15 =>
    exact ⟨congrArg _ (bitAt_memberBit _), rfl, rfl, rfl, rfl, rfl⟩
  case refine_16 => exact ⟨rfl, rfl, rfl, rfl, rfl, rfl, rfl, rfl, rfl⟩
  case refine_17 =>
    refine ⟨fun beyond f => ?_, fun r held => ?_⟩
    · show frameValue s.observe.ring[n.val]? f = 0
      rw [List.getElem?_eq_none beyond]
      rfl
    · have shown : ∀ f, fieldValue s (.frames n f) = frameValue (some r) f := fun f =>
        congrArg (frameValue · f) held
      exact ⟨shown _, shown _, shown _, shown _, shown _, shown _, shown _, shown _,
        (shown _).trans (outcomeCode_eq _)⟩

end
end

