-- ==== Sys2Proof/Proofs/SettingWrites.lean ====
section
/-! PROOFS. Writes of a tenant's settings: the whole-write rows, and the data byte at a field's highest address, which writes the byte above the latched ones. -/

namespace Sys2Proof.Machine

/-! ### Sums after a setting is changed -/

/-- The floors with one of them replaced (R47). -/
theorem floorsHeld_setFloor (x : TenantId) (floor : Nat) (s : State) :
    floorsHeld (changeRecord x (fun r => { r with floor := floor }) s) = sumTenants fun y =>
      if (recordAt s y).state = .off then 0 else if y = x then floor else (recordAt s y).floor := by
  refine congrArg sumTenants (funext fun y => ?_)
  rw [recordAt_changeRecord]
  by_cases same : x = y
  · subst same
    rw [if_pos rfl, if_pos rfl]
  · rw [if_neg same, if_neg (Ne.symm same)]

/-- The reserves with one of them replaced (R23). -/
theorem reserveSum_setQres (x : TenantId) (f : TenantRecord → Nat) (s : State) :
    reserveSum (changeRecord x (fun r => { r with qres := f r }) s) =
      sumTenants fun y => if y = x then f (recordAt s x) else (recordAt s y).qres := by
  rw [reserveSum, sumOver_toList]
  refine congrArg sumTenants (funext fun y => ?_)
  show (recordAt (changeRecord x (fun r => { r with qres := f r }) s) y).qres = _
  rw [recordAt_changeRecord]
  by_cases same : x = y
  · subst same
    rw [if_pos rfl, if_pos rfl]
  · rw [if_neg same, if_neg (Ne.symm same)]

/-! ### The byte at a field's highest address -/

/-- The state in which a field is written by its highest byte: the byte acknowledged, both latches empty (R169, R170). -/
def topByteTaken (s : State) : State :=
  { s with port.readLatch := none, port.writeLatch := none, wires.bus := s.wires.bus ++ [.ack] }

theorem managementWrite_topByte {s : State} {f : Field} {b : Byte} (running : Running s)
    (writing : s.port.transfer = .writing) (found : fieldAt s = some f)
    (top : (fieldPlace f).2 ≤ s.port.pointer.toNat - (fieldPlace f).1 + 1) :
    ∃ stored, exec (.managementWrite b) s = .next (advancePointer (writeField f
      (assemble (latchedBytes s.port.writeLatch f) stored (fieldPlace f).2 b) (topByteTaken s))) := by
  have found' : fieldAt (driveBus .ack { s with port.readLatch := none }) = some f := found
  refine ⟨fieldValue (driveBus .ack { s with port.readLatch := none }) f, ?_⟩
  rw [exec_managementWrite, whileRunning_of_running running, if_pos writing, dataByteWritten, writeByteAt, found']
  exact congrArg (fun t => Host.Outcome.next (advancePointer t)) (if_neg (Nat.not_lt.mpr top))

/-- A one-byte field takes the byte as it is. -/
theorem assemble_one (bytes : List (Nat × Byte)) (stored : Nat) (b : Byte) : assemble bytes stored 1 b = b.toNat := rfl

theorem toNat_append_byte (hi lo : Byte) : (hi ++ lo).toNat = lo.toNat + 256 * hi.toNat := by
  rw [BitVec.toNat_append, ← Nat.shiftLeft_add_eq_or_of_lt lo.isLt, Nat.shiftLeft_eq]
  omega

/-- A two-byte field takes the byte above the latched one (R169). -/
theorem assemble_two (stored : Nat) (lo hi : Byte) : assemble [(0, lo)] stored 2 hi = (hi ++ lo).toNat :=
  (toNat_append_byte hi lo).symm

/-- A record changed by a top byte leaves the port as one written up to the next address. -/
theorem advancePointer_changeRecord (x : TenantId) (f : TenantRecord → TenantRecord) {s : State} {n : Nat}
    (pointer : s.port.pointer = BitVec.ofNat 7 n) :
    advancePointer (changeRecord x f (topByteTaken s)) =
      { written (n + 1) s with records := s.records.set x (f (recordAt s x)) } := by
  have next : s.port.pointer + 1 = BitVec.ofNat 7 (n + 1) := by rw [pointer, BitVec.ofNat_add]; rfl
  simp only [written, ← next]
  rfl

/-- The highest byte of a field of the selected tenant. -/
theorem managementWrite_tenantField {s : State} {x : TenantId} {f : TenantField} {b : Byte} {n : Nat}
    (running : Running s) (writing : s.port.transfer = .writing) (page : s.port.page = .tenant)
    (index : s.port.index.val = x.val) (pointer : s.port.pointer = BitVec.ofNat 7 n)
    (top : (BitVec.ofNat 7 n).toNat + 1 = windowBase + (tenantPlace f).1 + (tenantPlace f).2) :
    ∃ stored, exec (.managementWrite b) s = .next (advancePointer (writeTenantField x f
      (assemble (latchedBytes s.port.writeLatch (.tenant x f)) stored (tenantPlace f).2 b) (topByteTaken s))) := by
  have wide : 0 < (tenantPlace f).2 := by cases f <;> decide
  rw [← pointer] at top
  have found : fieldAt s = some (.tenant x f) := by
    rw [fieldAt_window (k := (tenantPlace f).1 + ((tenantPlace f).2 - 1)) (by omega), page, index,
      windowFieldAt_tenant x (by omega)]
  exact managementWrite_topByte running writing found (by dsimp only [fieldPlace]; omega)

end Sys2Proof.Machine

section
open Sys2Proof Sys2Proof.Machine

/-- Settles O52: each whole-write row goes through the cases of its write; each data byte stands at the highest address of its field and writes the assembled value. -/
theorem tenantSettingWrites : Obligations.TenantSettingWrites := by
  unfold Obligations.TenantSettingWrites
  refine ⟨fun s x v h running => ⟨?_, ?_, ?_, ?_, ?_, ?_, ?_⟩,
    fun s x lo hi running writing page index => ⟨?_, ?_, ?_, ?_, ?_, ?_, ?_⟩⟩
  case refine_1 =>
    intro up above
    rw [exec_floorWrite, whileRunning_of_running running]
    rcases writeFloor_cases x v.toNat (dataByteTaken (.tenant x .floor) s) with ⟨-, -, refused⟩ | ⟨fits, -⟩
    · exact congrArg _ refused
    · rw [floorsHeld_setFloor] at fits
      exact absurd above (Nat.not_lt.mpr (fits.resolve_left up))
  case refine_2 =>
    intro fits
    rw [exec_floorWrite, whileRunning_of_running running]
    rcases writeFloor_cases x v.toNat (dataByteTaken (.tenant x .floor) s) with ⟨up, above, -⟩ | ⟨-, stored⟩
    · rw [floorsHeld_setFloor] at above
      exact absurd above (Nat.not_lt.mpr (fits.resolve_left up))
    · exact congrArg _ stored
  case refine_3 =>
    intro up
    rw [exec_qlimWrite, exec_qresWrite, whileRunning_of_running running, whileRunning_of_running running]
    refine ⟨?_, ?_⟩
    · rcases writeQlim_cases x v.toNat (dataByteTaken (.tenant x .qlim) s) with ⟨-, refused⟩ | ⟨off, -⟩
      · exact congrArg _ refused
      · exact absurd off up
    · rcases writeQres_cases x v.toNat (dataByteTaken (.tenant x .qres) s) with
        ⟨-, refused⟩ | ⟨off, -⟩ | ⟨off, -⟩
      · exact congrArg _ refused
      · exact absurd off up
      · exact absurd off up
  case refine_4 =>
    intro off
    rw [exec_qlimWrite, whileRunning_of_running running]
    rcases writeQlim_cases x v.toNat (dataByteTaken (.tenant x .qlim) s) with ⟨up, -⟩ | ⟨-, stored⟩
    · exact absurd off up
    · exact congrArg _ stored
  case refine_5 =>
    intro off above
    rw [exec_qresWrite, whileRunning_of_running running]
    rcases writeQres_cases x v.toNat (dataByteTaken (.tenant x .qres) s) with
      ⟨up, -⟩ | ⟨-, -, refused⟩ | ⟨-, fits, -⟩
    · exact absurd off up
    · exact congrArg _ refused
    · rw [reserveSum_setQres] at fits
      exact absurd above (Nat.not_lt.mpr fits)
  case refine_6 =>
    intro off fits
    rw [exec_qresWrite, whileRunning_of_running running]
    rcases writeQres_cases x v.toNat (dataByteTaken (.tenant x .qres) s) with
      ⟨up, -⟩ | ⟨-, above, -⟩ | ⟨-, -, stored⟩
    · exact absurd off up
    · rw [reserveSum_setQres] at above
      exact absurd above (Nat.not_lt.mpr fits)
    · exact congrArg _ stored
  case refine_7 =>
    rw [exec_haltableWrite, whileRunning_of_running running]
    rfl
  case refine_8 =>
    intro pointer
    obtain ⟨_, wrote⟩ := managementWrite_tenantField (f := .weight) (b := hi) running writing page index pointer rfl
    rw [wrote, tenantPlace, assemble_one]
    refine (congrArg _ (advancePointer_changeRecord x _ pointer)).trans ?_
    dsimp only
    split
    · rename_i zero
      rw [zero]
      rfl
    · rw [Nat.max_eq_right (by omega)]
  case refine_9 =>
    intro pointer latch
    obtain ⟨_, wrote⟩ := managementWrite_tenantField (f := .ceil) (b := hi) running writing page index pointer rfl
    rw [wrote, latch, latchedBytes, if_pos rfl, tenantPlace, assemble_two]
    exact congrArg _ (advancePointer_changeRecord x _ pointer)
  case refine_10 =>
    intro pointer
    obtain ⟨_, wrote⟩ := managementWrite_tenantField (f := .ageb) (b := hi) running writing page index pointer rfl
    rw [wrote, tenantPlace, assemble_one]
    exact congrArg _ (advancePointer_changeRecord x _ pointer)
  case refine_11 =>
    intro pointer
    obtain ⟨_, wrote⟩ := managementWrite_tenantField (f := .strikeTh) (b := hi) running writing page index pointer rfl
    rw [wrote, tenantPlace, assemble_one]
    exact congrArg _ (advancePointer_changeRecord x _ pointer)
  case refine_12 =>
    intro pointer latch
    obtain ⟨_, wrote⟩ := managementWrite_tenantField (f := .drainb) (b := hi) running writing page index pointer rfl
    rw [wrote, latch, latchedBytes, if_pos rfl, tenantPlace, assemble_two]
    exact congrArg _ (advancePointer_changeRecord x _ pointer)
  case refine_13 =>
    intro pointer
    obtain ⟨_, wrote⟩ := managementWrite_tenantField (f := .attrs) (b := hi) running writing page index pointer rfl
    rw [wrote, tenantPlace, assemble_one, writeTenantField, BitVec.ofNat_toNat, BitVec.setWidth_eq]
    exact congrArg _ (advancePointer_changeRecord x _ pointer)
  case refine_14 =>
    intro pointer
    have found : fieldAt s = some (.direct .cmdArg) := fieldAt_direct (k := 0) (by decide) (by rw [pointer]; rfl)
    obtain ⟨_, wrote⟩ := managementWrite_topByte (b := hi) running writing found (by rw [pointer]; decide)
    rw [wrote, fieldPlace, directPlace, assemble_one, writeField, writeDirect, BitVec.ofNat_toNat, BitVec.setWidth_eq]
    have next : s.port.pointer + 1 = 0x08 := by rw [pointer]; rfl
    simp only [advancePointer, topByteTaken, written, next]
    rfl

end
end

