-- ==== Sys2Proof/Proofs/BoundaryFrame.lean ====
section
/-! PROOFS. The frame that a boundary opens: what ages, what restarts, and what the boundary leaves as it was (R37, R42, R43, R148, R158). -/

namespace Sys2Proof.Machine

/-! ### The solver and the mode -/

theorem readyState_solver (s : State) :
    (readyState s).solver = { s.solver with solving := false, snapshot := (readyState s).solver.snapshot } := by
  simp [readyState, drainedState, expiredState, struckState, takeSnapshot, openFrame]

theorem loadBoundary_solver (k : LoadKind) (s : State) :
    (loadBoundary k s).solver = { s.solver with newResult := false } := by
  rcases loadBoundary_cases k s with ⟨-, e⟩ | ⟨-, e⟩
  · rw [e, noteStale_solver]; rfl
  · rw [e]; rfl

/-- A boundary begins a solve and forgets that the last result was new; the result stands (R48, R59). -/
theorem frameBoundary_solver (s : State) : (frameBoundary s).solver =
    { s.solver with solving := true, newResult := false, snapshot := (readyState s).solver.snapshot } := by
  have loaded : (frameBoundary s).solver = { (loadedState s).solver with solving := true } := rfl
  rw [loaded, loadedState, loadBoundary_solver, readyState_solver]

theorem modeBoundary_control (s : State) : (modeBoundary s).control = { s.control with
    mode := match s.control.pendingMode with
      | .none => s.control.mode
      | .transparent => .transparent
      | .govern => .govern
    pendingMode := .none } := by
  rw [modeBoundary]
  cases pending : s.control.pendingMode with
  | none => exact congrArg (fun m => { s.control with pendingMode := m }) pending
  | transparent => rfl
  | govern => rfl

theorem drainedState_control (s : State) : (drainedState s).control = s.control := by
  simp [drainedState, expiredState, struckState]

/-- A pending mode becomes current (R148). -/
theorem frameBoundary_control (s : State) : (frameBoundary s).control = { s.control with
    mode := match s.control.pendingMode with
      | .none => s.control.mode
      | .transparent => .transparent
      | .govern => .govern
    pendingMode := .none } := by
  have ready : (frameBoundary s).control = (modeBoundary (guardsBoundary (drainedState s))).control := by
    rw [frameBoundary_eq]
    simp [loadedState, readyState]
  have before : (guardsBoundary (drainedState s)).control = s.control := by
    rw [← drainedState_control s]
    simp
  rw [ready, modeBoundary_control, before]

/-- A boundary changes no pair-and-halt state but the pairs. -/
theorem frameBoundary_pairHalt (s : State) :
    (frameBoundary s).pairHalt = { s.pairHalt with pairs := (frameBoundary s).pairHalt.pairs } := by
  have after : (frameBoundary s).pairHalt = (guardsBoundary (drainedState s)).pairHalt := by
    rw [frameBoundary_eq]
    simp [loadedState, readyState]
  have before : (drainedState s).pairHalt = s.pairHalt := by simp [drainedState, expiredState, struckState]
  rw [after, guardsBoundary, (testSettles_spec _).2, before]

/-! ### The queues -/

/-- A boundary's queues: aged, unless a drain ended in OFF or was fenced (R33, R37, R38). -/
theorem frameBoundary_queues (s : State) (x : TenantId) : queuesAt (frameBoundary s) x =
    if endsNow (expiredState s) x then ⟨[], [], false⟩
    else ⟨(queuesAt s x).rq.map ageDescriptor, (queuesAt s x).wq.map ageDescriptor, false⟩ := by
  have drained := (drainsBoundary_spec (expiredState s)).2.1 x
  rw [expiredState_queues, struckState_queues] at drained
  rw [queuesAt_congr (asDrained_frameBoundary s).admission]
  exact drained

theorem drainedState_admission (s : State) :
    (drainedState s).admission.writeFactor = s.admission.writeFactor ∧
      (drainedState s).admission.nextStamp = s.admission.nextStamp := by
  have struck : (struckState s).admission = { s.admission with queues := (struckState s).admission.queues } := by
    rw [struckState, strikeBoundary]
    split <;> rfl
  have admission := (refusals_drainedState s).admission
  rw [expiredState, expireAtBoundary_admission, struck] at admission
  rw [admission]
  exact ⟨rfl, rfl⟩

/-! ### Records -/

/-- A record's settings with its drain mark: what no boundary changes. -/
def settingsOf (r : TenantRecord) : TenantRecord :=
  { r with
    state := .off, target := .none, drainClock := 0, strikes := 0, demoted := false, pauseMark := false
    fenceDue := false }

theorem settingsOf_pauseMark (r : TenantRecord) (b : Bool) : settingsOf { r with pauseMark := b } = settingsOf r := rfl

theorem settingsOf_struck (r : TenantRecord) (n : Nat) (b : Bool) :
    settingsOf { r with strikes := n, demoted := b } = settingsOf r := rfl

theorem fields_of_settingsOf {r r' : TenantRecord} (h : settingsOf r' = settingsOf r) :
    r'.weight = r.weight ∧ r'.floor = r.floor ∧ r'.ceil = r.ceil ∧ r'.ageb = r.ageb ∧ r'.drainb = r.drainb ∧
      r'.strikeTh = r.strikeTh ∧ r'.attrs = r.attrs ∧ r'.qlim = r.qlim ∧ r'.qres = r.qres ∧
      r'.drainMark = r.drainMark := by
  injection h with weight floor ceil ageb drainb strikeTh attrs qlim qres _ _ drainMark
  exact ⟨weight, floor, ceil, ageb, drainb, strikeTh, attrs, qlim, qres, drainMark⟩

theorem settingsOf_tickDrainClock (r : TenantRecord) : settingsOf (tickDrainClock r) = settingsOf r := by
  rcases tickDrainClock_cases r with ⟨-, -, e⟩ | ⟨-, e⟩ <;> rw [e] <;> rfl

theorem settingsOf_endedRecord (r : TenantRecord) : settingsOf (endedRecord r) = settingsOf r := by
  rw [endedRecord]
  split <;> rfl

theorem settingsOf_drainedRecord (s : State) (x : TenantId) :
    settingsOf (drainedRecord s x) = settingsOf (recordAt s x) := by
  rw [drainedRecord]
  split
  · exact settingsOf_endedRecord _
  · split
    · exact settingsOf_tickDrainClock _
    · exact settingsOf_tickDrainClock _

theorem settingsOf_frameBoundary (s : State) (x : TenantId) :
    settingsOf (recordAt (frameBoundary s) x) = settingsOf (recordAt s x) := by
  obtain ⟨n, d, before⟩ := expiredState_record_eq s x
  rw [frameBoundary_record, settingsOf_pauseMark, drainedState_record, settingsOf_drainedRecord, before,
    settingsOf_struck]

/-! ### Counters -/

/-- A tenant's counters without those that refusals and expiries advance (R157). -/
def otherCounts (c : TenantCounters) : TenantCounters := { c with refused := 0, expired := 0 }

/-- A tenant's counters with both heads' ages noted (R158). -/
def headsNoted (u : TenantQueues) (c : TenantCounters) : TenantCounters :=
  noteHeadAge (headAge u.wq) (noteHeadAge (headAge u.rq) c)

theorem otherCounts_refused (c : TenantCounters) (n : BitVec 32) :
    otherCounts { c with refused := n } = otherCounts c := rfl

theorem maxHeadAge_of_otherCounts {c c' : TenantCounters} (h : otherCounts c' = otherCounts c) :
    c'.maxHeadAge = c.maxHeadAge := by
  injection h

theorem fields_of_otherCounts {u : TenantQueues} {c c' : TenantCounters}
    (h : otherCounts c' = otherCounts (headsNoted u c)) :
    c'.accepted = c.accepted ∧ c'.readBlocks = c.readBlocks ∧ c'.writeBlocks = c.writeBlocks ∧ c'.retry = c.retry ∧
      c'.mediaFault = c.mediaFault ∧ c'.pathLost = c.pathLost := by
  injection h with accepted readBlocks writeBlocks retry _ _ mediaFault pathLost
  exact ⟨accepted, readBlocks, writeBlocks, retry, mediaFault, pathLost⟩

theorem otherCounts_expireEntry (tag : Byte) (s : State) (x : TenantId) :
    otherCounts ((expireEntry tag s).observe.counters.get x) = otherCounts (s.observe.counters.get x) := by
  rcases expireEntry_cases tag s with ⟨-, r⟩ | ⟨e, -, -, r⟩ | ⟨e, -, -, r⟩
  · rw [r]
  · rw [r]; rfl
  · have counted : (expireEntry tag s).observe.counters =
        s.observe.counters.modify e.tenant fun c => { c with expired := c.expired + 1 } := by
      rw [r]; simp
    rw [counted, Table.get_modify]
    split <;> rfl

/-- What every expiry keeps, a boundary's expiries keep. -/
theorem expireAtBoundary_keeps {β : Type} {p : State → β} (kept : ∀ tag s, p (expireEntry tag s) = p s) (s : State) :
    p (expireAtBoundary s) = p (ageEntries s) :=
  foldl_keeps (fun (u : State) (c : Nat × OutstandingEntry) => expireEntry (BitVec.ofNat 8 c.1) u) p
    (fun u c => kept (BitVec.ofNat 8 c.1) u) _ (ageEntries s)

theorem otherCounts_expireAtBoundary (s : State) (x : TenantId) :
    otherCounts ((expireAtBoundary s).observe.counters.get x) = otherCounts (s.observe.counters.get x) :=
  expireAtBoundary_keeps (p := fun u => otherCounts (u.observe.counters.get x))
    (fun tag u => otherCounts_expireEntry tag u x) s

theorem struckState_counters (s : State) (x : TenantId) :
    (struckState s).observe.counters.get x = headsNoted (ageQueues (queuesAt s x)) (s.observe.counters.get x) := by
  have aged : (ageBoundary (openFrame s)).observe.counters.get x =
      headsNoted (ageQueues (queuesAt s x)) (s.observe.counters.get x) := by
    rw [ageBoundary, Table.get_build, Table.get_map]
    rfl
  rw [struckState, strikeBoundary]
  split <;> exact aged

theorem otherCounts_frameBoundary (s : State) (x : TenantId) :
    otherCounts ((frameBoundary s).observe.counters.get x) =
      otherCounts (headsNoted (ageQueues (queuesAt s x)) (s.observe.counters.get x)) := by
  have refused : otherCounts ((drainedState s).observe.counters.get x) =
      otherCounts ((expiredState s).observe.counters.get x) := by
    rw [(refusals_drainedState s).counters, otherCounts_refused]
  rw [(asDrained_frameBoundary s).counters, refused, expiredState, otherCounts_expireAtBoundary, struckState_counters]

theorem headAge_aged (l : List Descriptor) : headAge (l.map ageDescriptor) = headAgeNext l := by
  cases l <;> rfl

theorem maxHeadAge_headsNoted (u : TenantQueues) (c : TenantCounters) : (headsNoted (ageQueues u) c).maxHeadAge =
    min 255 (max c.maxHeadAge (max (headAgeNext u.rq) (headAgeNext u.wq))) := by
  have rq := headAge_aged u.rq
  have wq := headAge_aged u.wq
  rw [headsNoted, ageQueues]
  dsimp only
  rw [rq, wq, noteHeadAge, noteHeadAge]
  dsimp only [Config.maxAge]
  omega

/-! ### Alerts -/

theorem alertBit_apart (f g : AlertFlag) : f ≠ g → alertBit g &&& alertBit f = 0 := by
  cases f <;> cases g <;> decide

theorem alertSet_raiseAlert_of_ne {f g : AlertFlag} (apart : f ≠ g) (s : State) :
    alertSet f (raiseAlert g s) = alertSet f s := by
  have noBit : alertBit g &&& alertBit f = 0 := alertBit_apart f g apart
  have flags : (s.observe.flags ||| alertBit g) &&& alertBit f = s.observe.flags &&& alertBit f := by
    rw [BitVec.and_or_distrib_right, noBit]
    exact BitVec.or_zero
  rw [alertSet, alertSet, raiseAlert_observe, flags]

/-- The alerts that no boundary raises (R163). -/
def NotOfBoundary (f : AlertFlag) : Prop := f ≠ .fence ∧ f ≠ .expire ∧ f ≠ .stale ∧ f ≠ .demote

section
variable {f : AlertFlag}

theorem alertSet_struckState (other : f ≠ .demote) (s : State) : alertSet f (struckState s) = alertSet f s := by
  rw [struckState, strikeBoundary]
  split
  · rw [alertSet_raiseAlert_of_ne other]; rfl
  · rfl

theorem alertSet_expireEntry (other : f ≠ .expire) (tag : Byte) (s : State) :
    alertSet f (expireEntry tag s) = alertSet f s := by
  rcases expireEntry_cases tag s with ⟨-, r⟩ | ⟨e, -, -, r⟩ | ⟨e, -, -, r⟩
  · rw [r]
  · rw [r, alertSet_raiseAlert_of_ne other]; rfl
  · rw [r, alertSet_raiseAlert_of_ne other]
    exact alertSet_congr (by simp) f

theorem alertSet_expireAtBoundary (other : f ≠ .expire) (s : State) :
    alertSet f (expireAtBoundary s) = alertSet f s :=
  expireAtBoundary_keeps (p := alertSet f) (alertSet_expireEntry other) s

theorem alertSet_drainAtBoundary (other : f ≠ .fence) (s : State) (x : TenantId) :
    alertSet f (drainAtBoundary s x) = alertSet f s := by
  rcases drainAtBoundary_cases s x with ⟨-, e⟩ | ⟨-, -, -, e⟩ | ⟨-, -, e⟩
  · rw [e]
    exact alertSet_congr (completeDrain_spec x s).2.2.2.1 f
  · rw [e, fence, alertSet_raiseAlert_of_ne other]
    obtain ⟨⟨l, -, -, -, -, -, -, -, -, -, observe⟩, -⟩ := queueRefused_discardAll x (changeRecord x
      (fun r => { r with state := .fenced, target := .none, fenceDue := false }) (changeRecord x tickDrainClock s))
    exact alertSet_congr (by rw [observe]; rfl) f
  · rw [e]; rfl

theorem alertSet_loadBoundary (other : f ≠ .stale) (k : LoadKind) (s : State) :
    alertSet f (loadBoundary k s) = alertSet f s := by
  rcases loadBoundary_cases k s with ⟨-, e⟩ | ⟨-, e⟩
  · rw [e, noteStale, alertSet_congr (takeLevel_counters 3 _).2, alertSet_raiseAlert_of_ne other]; rfl
  · rw [e]; rfl

theorem alertSet_frameBoundary (other : NotOfBoundary f) (s : State) :
    alertSet f (frameBoundary s) = alertSet f s := by
  obtain ⟨fence, expire, stale, demote⟩ := other
  have loaded : alertSet f (frameBoundary s) = alertSet f (loadedState s) := rfl
  have ready : alertSet f (readyState s) = alertSet f (drainedState s) := alertSet_congr (by simp [readyState]) f
  have drained : alertSet f (drainedState s) = alertSet f (expiredState s) :=
    foldl_keeps drainAtBoundary (alertSet f) (alertSet_drainAtBoundary fence) _ _
  rw [loaded, loadedState, alertSet_loadBoundary stale, ready, drained, expiredState,
    alertSet_expireAtBoundary expire, alertSet_struckState demote]

end

/-! ### The other figures -/

theorem expireEntry_observe (tag : Byte) (s : State) : (expireEntry tag s).observe = { s.observe with
    counters := (expireEntry tag s).observe.counters, flags := (expireEntry tag s).observe.flags } := by
  rcases expireEntry_cases tag s with ⟨-, r⟩ | ⟨e, -, -, r⟩ | ⟨e, -, -, r⟩
  · rw [r]
  · rw [r]; rfl
  · rw [r]; simp

theorem expireAtBoundary_observe (s : State) : (expireAtBoundary s).observe = { s.observe with
    counters := (expireAtBoundary s).observe.counters, flags := (expireAtBoundary s).observe.flags } :=
  foldl_preserves (fun (u : State) (c : Nat × OutstandingEntry) => expireEntry (BitVec.ofNat 8 c.1) u)
    (fun u => u.observe = { s.observe with counters := u.observe.counters, flags := u.observe.flags }) _
    (fun u c _ before => by rw [expireEntry_observe, before]) (ageEntries s) rfl

/-- Until its load a boundary changes no figures but counters and alert flags. -/
theorem readyState_observe (s : State) : (readyState s).observe =
    { s.observe with counters := (readyState s).observe.counters, flags := (readyState s).observe.flags } := by
  have ready : (readyState s).observe = (drainedState s).observe := by simp [readyState]
  have struck : (struckState s).observe =
      { s.observe with counters := (struckState s).observe.counters, flags := (struckState s).observe.flags } := by
    rw [struckState, strikeBoundary]
    split <;> rfl
  have expired : (expiredState s).observe = { (struckState s).observe with
      counters := (expiredState s).observe.counters, flags := (expiredState s).observe.flags } :=
    expireAtBoundary_observe (struckState s)
  rw [ready, (refusals_drainedState s).observe, expired, struck]

theorem takeLevel_strays (c : Nat) (s : State) :
    (takeLevel c s).observe.strays = s.observe.strays ∧ (takeLevel c s).observe.enables = s.observe.enables := by
  rcases takeLevel_cases c s with ⟨-, e⟩ | ⟨-, e⟩ | ⟨-, -, e⟩ | ⟨-, -, e⟩ <;> rw [e] <;> exact ⟨rfl, rfl⟩

theorem loadBoundary_strays (k : LoadKind) (s : State) :
    (loadBoundary k s).observe.strays = s.observe.strays ∧
      (loadBoundary k s).observe.enables = s.observe.enables := by
  rcases loadBoundary_cases k s with ⟨-, e⟩ | ⟨-, e⟩
  · rw [e, noteStale, (takeLevel_strays 3 _).1, (takeLevel_strays 3 _).2]
    exact ⟨rfl, rfl⟩
  · rw [e]; exact ⟨rfl, rfl⟩

theorem frameBoundary_strays (s : State) :
    (frameBoundary s).observe.strays = s.observe.strays ∧ (frameBoundary s).observe.enables = s.observe.enables := by
  obtain ⟨strays, enables⟩ := loadBoundary_strays (loadKind s.timer.startDue (readyState s)) (readyState s)
  rw [readyState_observe] at strays enables
  exact ⟨strays, enables⟩

theorem frameBoundary_cto (s : State) : (frameBoundary s).paths.cto = s.paths.cto := by
  have struck : (struckState s).paths = s.paths := by simp [struckState]
  rw [(asDrained_frameBoundary s).paths, (refusals_drainedState s).paths, expiredState,
    (expireAtBoundary_entries _).1, struck]

end Sys2Proof.Machine

section
open Sys2Proof Sys2Proof.Machine

/-- Settles O28: each part of the state is followed through the steps of the boundary. -/
theorem boundaryOpensAFrame : Obligations.BoundaryOpensAFrame := by
  unfold Obligations.BoundaryOpensAFrame
  intro s running
  have solver := frameBoundary_solver s
  have counts := otherCounts_frameBoundary s
  have kept := settingsOf_frameBoundary s
  obtain ⟨strays, enables⟩ := frameBoundary_strays s
  obtain ⟨writeFactor, nextStamp⟩ := drainedState_admission s
  have admission := (asDrained_frameBoundary s).admission
  have plink : NotOfBoundary .plink := ⟨nofun, nofun, nofun, nofun⟩
  have stray : NotOfBoundary .stray := ⟨nofun, nofun, nofun, nofun⟩
  have unmapped : NotOfBoundary .unmapped := ⟨nofun, nofun, nofun, nofun⟩
  refine ⟨frameBoundary s, by rw [exec_frameBoundary, whileRunning_of_running running], frameBoundary_timer s,
    by rw [solver], by rw [solver], by rw [solver], frameBoundary_control s, fun x => ?_, fun x => ?_,
    frameBoundary_links s, frameBoundary_classifier s, frameBoundary_arbiter s, frameBoundary_port s,
    by rw [admission, writeFactor], by rw [admission, nextStamp], by rw [frameBoundary_wires],
    by rw [frameBoundary_wires], by rw [frameBoundary_pairHalt], by rw [frameBoundary_pairHalt], strays, enables,
    frameBoundary_cto s, alertSet_frameBoundary plink s, alertSet_frameBoundary stray s, alertSet_frameBoundary unmapped s,
    by rw [frameBoundary_store]; exact List.filter_sublist, fun x => ?_⟩
  · have queues := frameBoundary_queues s x
    cases ends : endsNow (expiredState s) x with
    | false => exact .inl (by rw [queues, ends]; rfl)
    | true =>
      obtain ⟨draining, ended⟩ := (endsNow_expiredState s x).mp ends
      exact .inr ⟨draining, ended.symm, by rw [queues, ends]; rfl⟩
  · exact (maxHeadAge_of_otherCounts (counts x)).trans (maxHeadAge_headsNoted _ _)
  · obtain ⟨accepted, readBlocks, writeBlocks, retry, mediaFault, pathLost⟩ := fields_of_otherCounts (counts x)
    exact ⟨accepted, readBlocks, writeBlocks, retry, mediaFault, pathLost, fields_of_settingsOf (kept x)⟩

end
end

