-- ==== Sys2Proof/Proofs/RuntimeReset.lean ====
section
/-! PROOFS. RUNTIME_RESET: the state it leaves, in which no GOVERN grant can pay, and the start boundary that takes it up (R44, R48, R59, R64, R90, R109, R131, R153). -/

namespace Sys2Proof.Machine

/-! ### The reset itself -/

/-- The state that RUNTIME_RESET leaves, with the row's part of the port (R153, R173). -/
def resetTaken (s : State) : State := withResult 9 .ok (runtimeReset (commandTaken s.port.cmdArg s))

theorem exec_runtimeReset_of_running {s : State} (running : Running s) :
    exec .runtimeReset s = .next (resetTaken s) := by
  rw [exec_runtimeReset, whileRunning_of_running running]
  exact congrArg _ (issueCommand_of_run rfl)

theorem resetTaken_eq (s : State) : resetTaken s = { withResult 9 .ok (written 0x07 s) with
    timer := { s.timer with phase := 16 * s.timer.frameLength - 1, startDue := true }
    admission.queues := Table.build fun x => { queuesAt s x with retryMark := false }
    solver := ⟨false, ⟨0, Table.fill 24 ⟨0, 0, 0, false, false, 0⟩⟩, SolveResult.empty, false⟩
    credit := ⟨Table.build fun x => ⟨0, 0, 0, 0, (creditAt s x).settings⟩, 0⟩
    arbiter := ⟨23, 23, s.arbiter.slot⟩
    records := Table.build fun x => { recordAt s x with strikes := 0, demoted := false, pauseMark := true }
    control.cause := .runtime
    observe := { s.observe with ring := [] } } := by
  have queues : (s.admission.queues.map fun u => { u with retryMark := false }) =
      Table.build fun x => { queuesAt s x with retryMark := false } :=
    Table.ext_get fun x => by rw [Table.get_map, Table.get_build]; rfl
  have credit : (s.credit.tenants.map fun e =>
      { e with credit := 0, spent := 0, releasedNow := 0, releasedPrevious := 0 }) =
      Table.build fun x => ⟨0, 0, 0, 0, (creditAt s x).settings⟩ :=
    Table.ext_get fun x => by rw [Table.get_map, Table.get_build]; rfl
  have records : (s.records.map fun r => { r with strikes := 0, demoted := false, pauseMark := true }) =
      Table.build fun x => { recordAt s x with strikes := 0, demoted := false, pauseMark := true } :=
    Table.ext_get fun x => by rw [Table.get_map, Table.get_build]; rfl
  rw [← queues, ← credit, ← records]
  rfl

theorem resetTaken_creditAt (s : State) (x : TenantId) :
    creditAt (resetTaken s) x = ⟨0, 0, 0, 0, (creditAt s x).settings⟩ :=
  runtimeReset_creditAt (commandTaken s.port.cmdArg s) x

theorem resetTaken_queuesAt (s : State) (x : TenantId) :
    queuesAt (resetTaken s) x = { queuesAt s x with retryMark := false } :=
  runtimeReset_queuesAt (commandTaken s.port.cmdArg s) x

theorem resetTaken_recordAt (s : State) (x : TenantId) :
    recordAt (resetTaken s) x = { recordAt s x with strikes := 0, demoted := false, pauseMark := true } :=
  runtimeReset_recordAt (commandTaken s.port.cmdArg s) x

theorem chargeLaw_resetTaken {s : State} (law : ChargeLaw s.admission) : ChargeLaw (resetTaken s).admission := by
  obtain ⟨low, high, charges⟩ := law
  refine ⟨low, high, fun x d mem => charges x d ?_⟩
  have queues : (resetTaken s).admission.queues.get x = { queuesAt s x with retryMark := false } :=
    resetTaken_queuesAt s x
  rw [queues] at mem
  exact mem

/-! ### A grant that nobody can pay -/

theorem candidateOf_eligible {s : State} {x : TenantId} {c : Candidate} (h : candidateOf s x = some c) :
    Eligible s c.tenant c.fromWq c.desc := by
  have presents : ∀ fromWq,
      presented s x fromWq (if fromWq then (queuesAt s x).wq else (queuesAt s x).rq) = some c →
        Eligible s c.tenant c.fromWq c.desc := fun fromWq hp => by
    obtain ⟨d, eligible, rfl⟩ := (presented_iff s x fromWq c).mp hp
    exact eligible
  rw [candidateOf] at h
  rcases olderCandidate_cases (presented s x false (queuesAt s x).rq) (presented s x true (queuesAt s x).wq) with e | e
  · exact presents false (e ▸ h)
  · exact presents true (e ▸ h)

/-- Without candidates GOVERN chooses nothing (R83 to R85). -/
theorem chooseGovern_of_none {s : State} (none : ∀ x, candidateOf s x = none) : chooseGovern s = .none := by
  have candidates : candidates s = [] := List.filterMap_eq_nil_iff.mpr fun x _ => none x
  have turn : ∀ p inClass, firstInTurn s p inClass = .none := fun p inClass =>
    List.findSome?_eq_none_iff.mpr fun x _ => by rw [none x]
  rw [chooseGovern, candidates, turn, turn]
  rfl

/-- With no credit and no spare blocks a GOVERN grant releases nothing (R73 to R75, R79). -/
theorem takeGrant_of_nothingToPay {s : State} (govern : s.control.mode = .govern)
    (credit : ∀ x, (creditAt s x).credit ≤ 0) (spare : s.credit.spare = 0) (charges : ChargeLaw s.admission) :
    takeGrant s = s := by
  obtain ⟨-, -, charged⟩ := charges
  have broke : ∀ x, candidateOf s x = none := fun x => by
    cases found : candidateOf s x with
    | none => rfl
    | some c =>
      obtain ⟨head, -, pays, -⟩ := candidateOf_eligible found
      have cost := (charged c.tenant c.desc (mem_queuedOf_of_headOf head)).1
      rcases pays govern with own | ⟨-, held, -⟩
      · have := credit c.tenant
        omega
      · omega
  rcases takeGrant_cases s with same | ⟨tag, c, k, -, -, -, chosen, -⟩
  · exact same
  · rw [chooseRelease, govern] at chosen
    exact absurd ((chooseGovern_of_none broke).symm.trans chosen) nofun

/-! ### The start boundary -/

/-- A start boundary loads nothing (R59). -/
theorem loadedState_of_start {s : State} (start : s.timer.startDue = true) :
    loadedState s = loadCredit .start (readyState s) := by
  rw [loadedState, loadKind, if_pos start, loadBoundary, if_neg nofun]

theorem readyState_credit (s : State) : (readyState s).credit = s.credit := by
  simp [readyState, drainedState, expiredState, struckState]

theorem loadEntry_start (s : State) (x : TenantId) :
    (loadEntry .start s x).credit = loadedCredit (recordAt s x).state 0 (creditAt s x).credit ∧
      (loadEntry .start s x).spent = 0 ∧ (loadEntry .start s x).releasedNow = 0 ∧
      (loadEntry .start s x).releasedPrevious = (creditAt s x).releasedNow := ⟨rfl, rfl, rfl, rfl⟩

theorem frameBoundary_creditAt_of_start {s : State} (start : s.timer.startDue = true) (x : TenantId) :
    (creditAt (frameBoundary s) x).credit = loadedCredit (recordAt (readyState s) x).state 0 (creditAt s x).credit ∧
      (creditAt (frameBoundary s) x).spent = 0 ∧ (creditAt (frameBoundary s) x).releasedNow = 0 ∧
      (creditAt (frameBoundary s) x).releasedPrevious = (creditAt s x).releasedNow := by
  have loaded : creditAt (frameBoundary s) x = loadEntry .start (readyState s) x := by
    have same : creditAt (frameBoundary s) x = creditAt (loadedState s) x := rfl
    rw [same, loadedState_of_start start]
    exact loadCredit_creditAt .start (readyState s) x
  have before : creditAt (readyState s) x = creditAt s x := creditAt_congr (readyState_credit s) x
  rw [loaded, ← before]
  exact loadEntry_start (readyState s) x

theorem frameBoundary_spare_of_start {s : State} (start : s.timer.startDue = true) :
    (frameBoundary s).credit.spare = 0 := by
  have same : (frameBoundary s).credit = (loadedState s).credit := rfl
  rw [same, loadedState_of_start start]
  rfl

theorem frameBoundary_observe_of_start {s : State} (start : s.timer.startDue = true) :
    (frameBoundary s).observe.ring = s.observe.ring ∧
      (frameBoundary s).observe.staleFrames = s.observe.staleFrames ∧
      (frameBoundary s).observe.level = s.observe.level := by
  have same : (frameBoundary s).observe = (loadedState s).observe := rfl
  rw [same, loadedState_of_start start, loadCredit_observe, readyState_observe]
  exact ⟨rfl, rfl, rfl⟩

/-- With no credit before it, a load of nothing gives none (R71). -/
theorem loadedCredit_zero (state : TenantState) : loadedCredit state 0 0 = 0 := by
  rw [loadedCredit]
  split <;> rfl

/-! ### Strikes and drains over a boundary -/

theorem drainedRecord_strikes (s : State) (x : TenantId) :
    (drainedRecord s x).strikes = (recordAt s x).strikes ∧ (drainedRecord s x).demoted = (recordAt s x).demoted := by
  have ticked : (tickDrainClock (recordAt s x)).strikes = (recordAt s x).strikes ∧
      (tickDrainClock (recordAt s x)).demoted = (recordAt s x).demoted := by
    rcases tickDrainClock_cases (recordAt s x) with ⟨-, -, e⟩ | ⟨-, e⟩ <;> rw [e] <;> exact ⟨rfl, rfl⟩
  rw [drainedRecord]
  split
  · rw [endedRecord]
    split <;> exact ⟨rfl, rfl⟩
  · split
    · exact ticked
    · exact ticked

/-- A tenant without strikes, demotion or a retry mark stays so (R129, R130). -/
theorem strikeRecord_of_clean {u : TenantQueues} {r : TenantRecord} (unmarked : u.retryMark = false)
    (strikes : r.strikes = 0) (demoted : r.demoted = false) :
    (strikeRecord u r).strikes = 0 ∧ (strikeRecord u r).demoted = false := by
  have after : strikesAfter u r.strikes = 0 := by
    rw [strikesAfter, strikes, unmarked, if_neg nofun]
    split <;> rfl
  refine ⟨after, ?_⟩
  rw [strikeRecord, after, demotedAfter, demoted]
  simp

theorem frameBoundary_clean {s : State} {x : TenantId} (unmarked : (queuesAt s x).retryMark = false)
    (strikes : (recordAt s x).strikes = 0) (demoted : (recordAt s x).demoted = false) :
    (recordAt (frameBoundary s) x).strikes = 0 ∧ (recordAt (frameBoundary s) x).demoted = false := by
  obtain ⟨sameStrikes, sameDemoted⟩ := drainedRecord_strikes (expiredState s) x
  have struck : recordAt (expiredState s) x = strikeRecord (ageQueues (queuesAt s x)) (recordAt s x) := by
    have aged : queuesAt (ageBoundary (openFrame s)) x = ageQueues (queuesAt s x) := Table.get_map ..
    rw [expiredState_record, struckState, strikeBoundary_recordAt, aged]
    rfl
  rw [frameBoundary_record, drainedState_record]
  dsimp only
  rw [struck] at sameStrikes sameDemoted
  have clean := strikeRecord_of_clean (u := ageQueues (queuesAt s x)) unmarked strikes demoted
  exact ⟨sameStrikes.trans clean.1, sameDemoted.trans clean.2⟩

/-- A paused drain is neither counted nor fenced (R126 to R128). -/
theorem drainedRecord_of_pauseMark {s : State} {x : TenantId} (paused : (recordAt s x).pauseMark = true) :
    (drainedRecord s x).drainClock = (recordAt s x).drainClock ∧
      ((drainedRecord s x).state = .fenced ↔ (recordAt s x).state = .fenced) := by
  by_cases finished : DrainFinished s x
  · rw [(drainedRecord_of_finished finished).1, finished.1, endedRecord]
    split <;> simp [finished.1]
  · by_cases draining : (recordAt s x).state = .draining
    · rw [(drainedRecord_of_paused finished paused).1]
      exact ⟨rfl, .rfl⟩
    · rw [(drainedRecord_of_idle draining).1]
      exact ⟨rfl, .rfl⟩

theorem frameBoundary_of_pauseMark {s : State} {x : TenantId} (paused : (recordAt s x).pauseMark = true) :
    (recordAt (frameBoundary s) x).drainClock = (recordAt s x).drainClock ∧
      ((recordAt (frameBoundary s) x).state = .fenced ↔ (recordAt s x).state = .fenced) := by
  obtain ⟨n, d, record⟩ := expiredState_record_eq s x
  obtain ⟨state, -, clock⟩ := frameBoundary_drain s x
  have verdict := drainedRecord_of_pauseMark (s := expiredState s) (x := x) (by rw [record]; exact paused)
  rw [record] at verdict
  rw [state, clock]
  exact verdict

end Sys2Proof.Machine

section
open Sys2Proof Sys2Proof.Machine

/-- Settles O50: after the reset no head can be paid for, and its start boundary finds no credit, no strikes and every drain paused. -/
theorem runtimeResetKeepsConfigurationAndWorkInFlight : Obligations.RuntimeResetKeepsConfigurationAndWorkInFlight := by
  unfold Obligations.RuntimeResetKeepsConfigurationAndWorkInFlight
  intro s running
  rw [← resetTaken_eq]
  have start : (resetTaken s).timer.startDue = true := rfl
  have still : Running (resetTaken s) := running
  refine ⟨exec_runtimeReset_of_running running, fun govern charges => ?_, frameBoundary (resetTaken s), ?_, ?_⟩
  · rw [exec_grant, whileRunning_of_running still]
    exact congrArg _ (takeGrant_of_nothingToPay govern (fun x => by rw [resetTaken_creditAt]) rfl
      (chargeLaw_resetTaken charges))
  · rw [exec_frameBoundary, whileRunning_of_running still]
  · have solver := frameBoundary_solver (resetTaken s)
    have result : (resetTaken s).solver.result = SolveResult.empty := rfl
    refine ⟨frameBoundary_timer (resetTaken s), by rw [solver], by rw [solver], by rw [solver]; exact result,
      frameBoundary_spare_of_start start, fun x => ?_, frameBoundary_observe_of_start start⟩
    have record := resetTaken_recordAt s x
    obtain ⟨credit, spent, releasedNow, releasedPrevious⟩ := frameBoundary_creditAt_of_start start x
    rw [resetTaken_creditAt] at credit releasedPrevious
    obtain ⟨strikes, demoted⟩ := frameBoundary_clean (s := resetTaken s) (x := x)
      (by rw [resetTaken_queuesAt]) (by rw [record]) (by rw [record])
    obtain ⟨clock, fenced⟩ := frameBoundary_of_pauseMark (s := resetTaken s) (x := x) (by rw [record])
    rw [record] at clock fenced
    exact ⟨credit.trans (loadedCredit_zero _), spent, releasedNow, releasedPrevious, strikes, demoted, clock, fenced⟩

end
end

