-- ==== Sys2Proof/Proofs/Solves.lean ====
section
/-! PROOFS. The solve: the water level by its twelve trials, the division of the whole capacity, and what a completed solve stores (R52 to R58, R161, R165, R166). -/

namespace Sys2Proof.Machine

/-! ### The water level -/

theorem extraAt_mono (t : SnapshotTenant) {l m : Nat} (h : l ≤ m) : extraAt l t ≤ extraAt m t :=
  min_le_min_left _ (Nat.div_le_div_right (Nat.mul_le_mul_left _ h))

/-- A higher water level takes no less (R54). -/
theorem totalExtra_mono (n : Snapshot) {l m : Nat} (h : l ≤ m) : totalExtra n l ≤ totalExtra n m :=
  sumOver_le fun t _ => extraAt_mono t h

/-- `r` is the largest level below `bound` whose extras fit the residual (R55). -/
def LargestFitting (n : Snapshot) (bound r : Nat) : Prop :=
  r < bound ∧ totalExtra n r ≤ residualOf n ∧ ∀ l < bound, totalExtra n l ≤ residualOf n → l ≤ r

/-- Trials from bit `k - 1` down to bit 0, begun at a level that fits, find the largest fitting level of the `2 ^ k` from there on. -/
theorem largestFitting_trials (n : Snapshot) (k : Nat) {level : Nat} (fits : totalExtra n level ≤ residualOf n) :
    LargestFitting n (level + 2 ^ k) ((List.range k).reverse.foldl (trial n) level) := by
  induction k generalizing level with
  | zero => exact ⟨Nat.lt_succ_self level, fits, fun l below _ => Nat.le_of_lt_succ below⟩
  | succ k ih =>
    have bits : (List.range (k + 1)).reverse = k :: (List.range k).reverse := by
      rw [List.range_succ, List.reverse_append]; rfl
    have width : level + 2 ^ (k + 1) = level + 2 ^ k + 2 ^ k := by rw [Nat.pow_succ]; omega
    rw [bits, List.foldl_cons, trial, width]
    split
    · exact ih ‹_›
    · rename_i exceeds
      obtain ⟨below, fitting, largest⟩ := ih fits
      refine ⟨below.trans_le (Nat.le_add_right _ _), fitting, fun l _ fitsThere => largest l (Nat.lt_of_not_le fun reached => ?_) fitsThere⟩
      exact exceeds ((totalExtra_mono n reached).trans fitsThere)

theorem waterLevel_of_residual {n : Snapshot} (some : residualOf n ≠ 0) :
    LargestFitting n 4096 (waterLevel n) := by
  have start : totalExtra n 0 ≤ residualOf n := by rw [totalExtra_zero]; exact Nat.zero_le _
  rw [waterLevel, if_neg some]
  exact largestFitting_trials n 12 start

/-! ### The terms of a solve, written out -/

theorem guaranteedPart_eq (t : SnapshotTenant) : guaranteedPart t =
    if t.eligible = true then min (if t.demoted = true then 0 else t.floor) t.demand else 0 := rfl

theorem headroom_eq (t : SnapshotTenant) : headroom t = if t.eligible = true then
    min t.demand (max t.ceil (if t.demoted = true then 0 else t.floor)) -
      min (if t.demoted = true then 0 else t.floor) t.demand else 0 := by
  rw [headroom, guaranteedPart_eq]
  split <;> rfl

theorem extraAt_eq (level : Nat) (t : SnapshotTenant) : extraAt level t = if t.eligible = true then
    min (min t.demand (max t.ceil (if t.demoted = true then 0 else t.floor)) -
      min (if t.demoted = true then 0 else t.floor) t.demand) (t.weight * level / 8) else 0 := by
  rw [extraAt, headroom_eq]
  split
  · rfl
  · exact Nat.zero_min _

theorem solve_allotment (n : Snapshot) (frame : BitVec 16) (x : TenantId) : (solve n frame).allotments.get x =
    guaranteedPart (n.tenants.get x) + extraAt (waterLevel n) (n.tenants.get x) := Table.get_map ..

theorem solve_demand (n : Snapshot) (frame : BitVec 16) (x : TenantId) :
    (solve n frame).demands.get x = (n.tenants.get x).demand := Table.get_map ..

theorem solve_allotment_of_eligible {n : Snapshot} {x : TenantId} (eligible : (n.tenants.get x).eligible = true)
    (frame : BitVec 16) : (solve n frame).allotments.get x =
      min (if (n.tenants.get x).demoted = true then 0 else (n.tenants.get x).floor) (n.tenants.get x).demand +
        min (min (n.tenants.get x).demand
            (max (n.tenants.get x).ceil (if (n.tenants.get x).demoted = true then 0 else (n.tenants.get x).floor)) -
          min (if (n.tenants.get x).demoted = true then 0 else (n.tenants.get x).floor) (n.tenants.get x).demand)
          ((n.tenants.get x).weight * waterLevel n / 8) := by
  rw [solve_allotment, guaranteedPart_eq, extraAt_eq, if_pos eligible, if_pos eligible]

theorem solve_allotment_of_ineligible {n : Snapshot} {x : TenantId}
    (ineligible : ¬(n.tenants.get x).eligible = true) (frame : BitVec 16) :
    (solve n frame).allotments.get x = 0 := by
  rw [solve_allotment, guaranteedPart_eq, extraAt_eq, if_neg ineligible, if_neg ineligible]

/-- Σ over a snapshot of a term that is 0 for an ineligible tenant is Σ over its eligible tenants (R53). -/
theorem sumOver_eligible {f g : SnapshotTenant → Nat} (term : ∀ t, f t = if t.eligible = true then g t else 0)
    (n : Snapshot) : sumOver n.tenants.toList f =
      sumTenants fun x => if (n.tenants.get x).eligible = true then g (n.tenants.get x) else 0 := by
  rw [sumOver_toList]
  exact sumOver_congr fun x _ => term _

/-- The allotments of all tenants are F with the extras (R56). -/
theorem sum_allotments (n : Snapshot) (frame : BitVec 16) :
    (sumTenants fun x => (solve n frame).allotments.get x) = totalGuaranteed n + totalExtra n (waterLevel n) := by
  rw [totalGuaranteed, totalExtra, sumOver_toList, sumOver_toList, ← sumOver_add]
  exact sumOver_congr fun x _ => solve_allotment n frame x

/-- The allotments with the spare are the effective CAP (R56). -/
theorem sum_allotments_spare {n : Snapshot} (covered : totalGuaranteed n ≤ n.effCap) (frame : BitVec 16) :
    (sumTenants fun x => (solve n frame).allotments.get x) + (solve n frame).spare = n.effCap := by
  have extra := totalExtra_waterLevel n
  have spare : (solve n frame).spare = residualOf n - totalExtra n (waterLevel n) := rfl
  rw [sum_allotments, spare]
  rw [residualOf] at extra ⊢
  omega

/-! ### The completion of a solve -/

/-- The pressure level, fall count and fall maximum after a level is computed (R166). -/
def pressureAfter (o : Observation) (c : Nat) : Nat × Nat × Nat :=
  if o.level < c then (c, 0, 0)
  else if c = o.level then (o.level, 0, 0)
  else if o.fallCount = 3 then (max o.fallMax c, 0, 0)
  else (o.level, o.fallCount + 1, max o.fallMax c)

theorem takeLevel_eq {s : State} (few : s.observe.fallCount ≤ 3) (c : Nat) : takeLevel c s = { s with
    observe := { s.observe with
      level := (pressureAfter s.observe c).1
      fallCount := (pressureAfter s.observe c).2.1
      fallMax := (pressureAfter s.observe c).2.2 } } := by
  rcases takeLevel_cases c s with ⟨rise, e⟩ | ⟨same, e⟩ | ⟨fall, notLast, e⟩ | ⟨fall, last, e⟩
  · rw [e, pressureAfter, if_pos rise]
  · rw [e, pressureAfter, if_neg (by omega), if_pos same]
  · rw [e, pressureAfter, if_neg (by omega), if_neg (by omega), if_neg (by omega)]
  · rw [e, pressureAfter, if_neg (by omega), if_neg (by omega), if_pos (by omega)]

theorem completeSolve_of_solving {s : State} (solving : s.solver.solving = true) (few : s.observe.fallCount ≤ 3) :
    completeSolve s = { s with
      solver := ⟨false, s.solver.snapshot, solve s.solver.snapshot s.timer.number, true⟩
      observe := { s.observe with
        ring := (recordOf (solve s.solver.snapshot s.timer.number) s.timer.number .solved :: s.observe.ring).take 32
        level := (pressureAfter s.observe (solvedLevel (solve s.solver.snapshot s.timer.number))).1
        fallCount := (pressureAfter s.observe (solvedLevel (solve s.solver.snapshot s.timer.number))).2.1
        fallMax := (pressureAfter s.observe (solvedLevel (solve s.solver.snapshot s.timer.number))).2.2 } } := by
  rcases completeSolve_cases s with ⟨idle, -⟩ | ⟨-, e⟩
  · exact absurd (solving.symm.trans idle) nofun
  · rw [e, takeLevel_eq (by exact few)]
    rfl

end Sys2Proof.Machine

section
open Sys2Proof Sys2Proof.Machine

/-- Settles O39: the trials find the largest level below 4096 that fits. -/
theorem waterLevelIsTheLargestThatFits : Obligations.WaterLevelIsTheLargestThatFits := by
  unfold Obligations.WaterLevelIsTheLargestThatFits
  intro n
  refine ⟨fun none => if_pos none, fun some => ?_⟩
  obtain ⟨below, fits, largest⟩ := waterLevel_of_residual (Nat.pos_iff_ne_zero.mp some)
  exact ⟨Nat.le_of_lt_succ below, fits, fun l bound => largest l (Nat.lt_succ_of_le bound)⟩

/-- Settles O40: what the extras leave of the residual is the spare. -/
theorem solveDividesTheWholeCapacity : Obligations.SolveDividesTheWholeCapacity := by
  unfold Obligations.SolveDividesTheWholeCapacity
  intro n frame covered
  have whole := sum_allotments_spare covered frame
  refine ⟨whole, fun cap => ⟨by omega, fun x => ?_⟩, fun x => ⟨fun ineligible => ?_, fun eligible => ?_⟩⟩
  · have part : (solve n frame).allotments.get x ≤ sumTenants fun y => (solve n frame).allotments.get y :=
      le_sumOver (List.mem_finRange x) _
    omega
  · exact solve_allotment_of_ineligible (by rw [ineligible]; exact nofun) frame
  · have allotted := solve_allotment_of_eligible eligible frame
    refine ⟨allotted, ?_, ?_⟩
    · rw [allotted]
      exact Nat.le_add_right _ _
    · rw [allotted]
      have guaranteed := le_max_right (n.tenants.get x).ceil
        (if (n.tenants.get x).demoted = true then 0 else (n.tenants.get x).floor)
      omega

/-- Settles O38: the completion stores the solve's result, whose figures are the terms of the division. -/
theorem solveCompletionStoresResultAndRecord : Obligations.SolveCompletionStoresResultAndRecord := by
  unfold Obligations.SolveCompletionStoresResultAndRecord
  refine ⟨fun s running => ⟨fun idle => ?_, fun solving law => ?_⟩, fun n frame => ?_⟩
  · rw [exec_solveCompletion, whileRunning_of_running running, completeSolve, idle]
    rfl
  · obtain ⟨-, -, few, -⟩ := law
    rw [exec_solveCompletion, whileRunning_of_running running, completeSolve_of_solving solving few]
    rfl
  · have guaranteed := sumOver_eligible guaranteedPart_eq n
    have headroom := sumOver_eligible headroom_eq n
    have demand := sumOver_eligible (f := countedDemand) (g := (·.demand)) (fun _ => rfl) n
    have extra := fun level => sumOver_eligible (extraAt_eq level) n
    have count : eligibleTenants n = _ :=
      (countP_eq_sumOver _ _).trans (sumOver_eligible (g := fun _ => 1) (fun _ => rfl) n)
    refine ⟨rfl, rfl, rfl, rfl, fun x => ⟨solve_demand n frame x, ?_⟩, guaranteed, rfl,
      congrArg (n.effCap - ·) guaranteed, rfl, headroom, rfl, demand, rfl, count, rfl, extra,
      congrArg (residualOf n - ·) (extra _)⟩
    split
    · exact solve_allotment_of_eligible ‹_› frame
    · exact solve_allotment_of_ineligible ‹_› frame

end
end

