-- ==== Sys2Proof/Proofs/BoundaryLoad.lean ====
section
/-! PROOFS. The snapshot and the load of a frame boundary, and the record of a stale one (R44, R46, R48 to R50, R58 to R60, R69 to R71, R161, R165). -/

namespace Sys2Proof.Machine

/-! ### The state that the snapshot is taken of -/

/-- The boundary's state as its snapshot finds it (R48, R138, R148). -/
def modedState (s : State) : State := modeBoundary (guardsBoundary (drainedState s))

theorem readyState_eq (s : State) : readyState s = takeSnapshot (modedState s) := rfl

theorem modedState_timer (s : State) : (modedState s).timer = (openFrame s).timer := by
  simp [modedState, drainedState, expiredState, struckState]

theorem modedState_straps (s : State) : (modedState s).control.straps = s.control.straps := by
  have before : (guardsBoundary (drainedState s)).control = s.control := by
    rw [← drainedState_control s]
    simp
  rw [modedState, modeBoundary_control, before]

theorem modedState_haltCondition (s : State) : (modedState s).pairHalt.haltCondition = s.pairHalt.haltCondition := by
  have before : (drainedState s).pairHalt = s.pairHalt := by simp [drainedState, expiredState, struckState]
  rw [modedState, modeBoundary_pairHalt, guardsBoundary, (testSettles_spec _).2, before]

theorem modedState_creditAt (s : State) (x : TenantId) : creditAt (modedState s) x = creditAt s x :=
  creditAt_congr (by simp [modedState, drainedState, expiredState, struckState]) x

theorem modedState_record (s : State) (x : TenantId) : recordAt (modedState s) x = recordAt (drainedState s) x :=
  recordAt_congr (by simp [modedState]) x

/-- The eligible charge is read from the queues and the pairs alone (R36). -/
theorem eligibleCharge_congr {s t : State} (admission : t.admission = s.admission)
    (pairs : t.pairHalt.pairs = s.pairHalt.pairs) (x : TenantId) : eligibleCharge t x = eligibleCharge s x := by
  rw [eligibleCharge, eligibleCharge, queuesAt_congr admission, gateOpen, gateOpen, pairs]

/-- The boundary's snapshot counts the charge that the boundary leaves queued (R50). -/
theorem modedState_eligibleCharge (s : State) (x : TenantId) :
    eligibleCharge (modedState s) x = eligibleCharge (frameBoundary s) x := by
  refine (eligibleCharge_congr ?_ ?_ x).symm
  · rw [(asDrained_frameBoundary s).admission]
    simp [modedState]
  · rw [frameBoundary_eq]
    simp [loadedState, readyState, modedState]

/-! ### The snapshot -/

/-- A boundary leaves a record as its drain left it, but for the pause mark (R126). -/
theorem frameBoundary_settled (s : State) (x : TenantId) :
    (recordAt (frameBoundary s) x).state = (recordAt (modedState s) x).state ∧
      (recordAt (frameBoundary s) x).demoted = (recordAt (modedState s) x).demoted := by
  rw [frameBoundary_record, modedState_record]
  dsimp only
  exact ⟨rfl, rfl⟩

theorem modedState_settings (s : State) (x : TenantId) :
    settingsOf (recordAt (modedState s) x) = settingsOf (recordAt s x) := by
  obtain ⟨n, d, before⟩ := expiredState_record_eq s x
  rw [modedState_record, drainedState_record, settingsOf_drainedRecord, before, settingsOf_struck]

theorem frameBoundary_snapshot (s : State) :
    (frameBoundary s).solver.snapshot = (takeSnapshot (modedState s)).solver.snapshot := by
  rw [frameBoundary_solver, readyState_eq]

theorem takeSnapshot_effCap (s : State) : (takeSnapshot s).solver.snapshot.effCap = effectiveCap s := rfl

theorem frameBoundary_snapshotOf (s : State) (x : TenantId) :
    (frameBoundary s).solver.snapshot.tenants.get x = snapshotTenant (modedState s) x := by
  rw [frameBoundary_snapshot, takeSnapshot_snapshotOf]

theorem frameBoundary_snapshotCap (s : State) : (frameBoundary s).solver.snapshot.effCap =
    min s.timer.cap (min 16383 (s.timer.fp * 16 / (s.control.straps.div.toNat + 1))) := by
  rw [frameBoundary_snapshot, takeSnapshot_effCap, effectiveCap, modedState_timer, modedState_straps]
  rfl

theorem eligible_modedState (s : State) (x : TenantId) : eligible (modedState s) x = true ↔
    ((recordAt (frameBoundary s) x).state = .active ∨ (recordAt (frameBoundary s) x).state = .draining) ∧
      ¬(s.pairHalt.haltCondition = true ∧ (recordAt s x).attrs.haltable = true) := by
  obtain ⟨-, -, -, -, -, -, attrs, -⟩ := fields_of_settingsOf (modedState_settings s x)
  rw [← modedState_haltCondition, ← attrs, ← heldByHalt_iff, (frameBoundary_settled s x).1]
  simp [eligible]

theorem demandOf_modedState (s : State) (x : TenantId) : demandOf (modedState s) x =
    if eligible (modedState s) x then
      min 16383 (eligibleCharge (frameBoundary s) x + (creditAt s x).releasedNow) else 0 := by
  rw [demandOf, modedState_eligibleCharge, modedState_creditAt]

/-- What a snapshot of `u` holds for a tenant, said of the states that a boundary leads from and to. -/
theorem snapshotOf_snapshotTenant {s t u : State} {x : TenantId}
    (settings : settingsOf (recordAt u x) = settingsOf (recordAt s x))
    (demoted : (recordAt t x).demoted = (recordAt u x).demoted)
    (chosen : eligible u x = true ↔ ((recordAt t x).state = .active ∨ (recordAt t x).state = .draining) ∧
      ¬(s.pairHalt.haltCondition = true ∧ (recordAt s x).attrs.haltable = true))
    (demand : demandOf u x =
      if eligible u x then min 16383 (eligibleCharge t x + (creditAt s x).releasedNow) else 0) :
    SnapshotOf s t x (snapshotTenant u x) := by
  obtain ⟨weight, floor, ceil, -⟩ := fields_of_settingsOf settings
  exact ⟨weight, floor, ceil, demoted.symm, chosen, fun isEligible => demand.trans (if_pos (chosen.mpr isEligible)),
    fun not => demand.trans (if_neg (mt chosen.mp not))⟩

theorem snapshotOf_frameBoundary (s : State) (x : TenantId) :
    SnapshotOf s (frameBoundary s) x ((frameBoundary s).solver.snapshot.tenants.get x) := by
  rw [frameBoundary_snapshotOf]
  exact snapshotOf_snapshotTenant (modedState_settings s x) (frameBoundary_settled s x).2 (eligible_modedState s x)
    (demandOf_modedState s x)

/-! ### The load -/

/-- The kind of load of a boundary (R59). -/
def kindOf (s : State) : LoadKind := loadKind s.timer.startDue s

theorem loadedState_eq (s : State) : loadedState s = loadBoundary (kindOf s) (readyState s) := by
  rw [loadedState, kindOf, loadKind, loadKind, readyState_solver]

theorem readyState_result (s : State) : (readyState s).solver.result = s.solver.result := by rw [readyState_solver]

theorem loadCredit_result (k : LoadKind) (s : State) : (loadCredit k s).solver.result = s.solver.result := rfl

theorem loadBoundary_credit (k : LoadKind) (s : State) : (loadBoundary k s).credit = (loadCredit k s).credit := by
  rcases loadBoundary_cases k s with ⟨-, e⟩ | ⟨-, e⟩ <;> rw [e]
  exact noteStale_credit _

theorem frameBoundary_creditAt (s : State) (x : TenantId) :
    creditAt (frameBoundary s) x = loadEntry (kindOf s) (readyState s) x := by
  have loaded : (frameBoundary s).credit = (loadCredit (kindOf s) (readyState s)).credit :=
    (congrArg State.credit (loadedState_eq s)).trans (loadBoundary_credit _ _)
  rw [creditAt_congr loaded, loadCredit_creditAt]

theorem frameBoundary_spare (s : State) : (frameBoundary s).credit.spare =
    if s.timer.startDue = true then 0 else s.solver.result.spare := by
  have loaded : (frameBoundary s).credit.spare = handedSpare (kindOf s) (readyState s) :=
    congrArg CreditTable.spare ((congrArg State.credit (loadedState_eq s)).trans (loadBoundary_credit _ _))
  rw [loaded, kindOf]
  rcases loadKind_cases s.timer.startDue s with ⟨due, e⟩ | ⟨due, -, e⟩ | ⟨due, -, e⟩
  · rw [e, due]
    rfl
  · rw [e, due]
    exact congrArg SolveResult.spare (readyState_result s)
  · rw [e, due]
    exact congrArg SolveResult.spare (readyState_result s)

theorem handedAllotment_readyState (s : State) (x : TenantId) : handedAllotment (kindOf s) (readyState s) x =
    if s.timer.startDue = true then 0
    else if s.solver.newResult = true ∨ ((frameBoundary s).solver.snapshot.tenants.get x).eligible = true then
      s.solver.result.allotments.get x
    else 0 := by
  have snapshot : (frameBoundary s).solver.snapshot = (readyState s).solver.snapshot := by rw [frameBoundary_solver]
  rw [kindOf, snapshot, ← readyState_result]
  rcases loadKind_cases s.timer.startDue s with ⟨due, e⟩ | ⟨due, new, e⟩ | ⟨due, old, e⟩
  · rw [e, if_pos due]
    rfl
  · rw [e, due, if_neg nofun, if_pos (.inl new)]
    rfl
  · rw [e, due, if_neg nofun, old]
    simp only [Bool.false_eq_true, false_or]
    rfl

/-- The frame settings latched from a record and from the snapshot taken of it (R69, R70). -/
theorem latchSettings_takeSnapshot (s : State) (x : TenantId) : latchSettings (takeSnapshot s) x =
    ⟨(recordAt s x).attrs.lend, (recordAt s x).attrs.borrow, (recordAt s x).attrs.exempt, (recordAt s x).ageb,
      max (recordAt s x).ceil (if (recordAt s x).demoted = true then 0 else (recordAt s x).floor)⟩ := by
  rw [latchSettings, takeSnapshot_snapshotOf, recordAt_congr (takeSnapshot_records s)]
  rfl

theorem latchSettings_readyState (s : State) (x : TenantId) : latchSettings (readyState s) x =
    ⟨(recordAt s x).attrs.lend, (recordAt s x).attrs.borrow, (recordAt s x).attrs.exempt, (recordAt s x).ageb,
      max (recordAt s x).ceil
        (if (recordAt (frameBoundary s) x).demoted = true then 0 else (recordAt s x).floor)⟩ := by
  obtain ⟨-, floor, ceil, ageb, -, -, attrs, -⟩ := fields_of_settingsOf (modedState_settings s x)
  rw [readyState_eq, latchSettings_takeSnapshot, (frameBoundary_settled s x).2, floor, ceil, ageb, attrs]

theorem readyState_creditAt (s : State) (x : TenantId) : creditAt (readyState s) x = creditAt s x :=
  creditAt_congr (readyState_credit s) x

/-! ### A stale boundary -/

/-- The top level is taken at once (R60, R166). -/
theorem takeLevel_top {s : State} (range : s.observe.level ≤ 3) : takeLevel 3 s =
    { s with observe.level := 3, observe.fallCount := 0, observe.fallMax := 0 } := by
  rcases takeLevel_cases 3 s with ⟨-, e⟩ | ⟨same, e⟩ | ⟨fall, -, -⟩ | ⟨fall, -, -⟩
  · exact e
  · rw [e, same]
  · omega
  · omega

theorem alertSet_readyState_stale (s : State) : alertSet .stale (readyState s) = alertSet .stale s := by
  have ready : alertSet .stale (readyState s) = alertSet .stale (drainedState s) :=
    alertSet_congr (by simp [readyState]) .stale
  have drained : alertSet .stale (drainedState s) = alertSet .stale (expiredState s) :=
    foldl_keeps drainAtBoundary (alertSet .stale) (alertSet_drainAtBoundary (f := .stale) nofun) _ _
  rw [ready, drained, expiredState, alertSet_expireAtBoundary (f := .stale) nofun,
    alertSet_struckState (f := .stale) nofun]

/-- What a stale load makes of the figures (R60, R161, R165). -/
theorem noteStale_observe {s : State} (range : s.observe.level ≤ 3) : (noteStale s).observe = { s.observe with
    staleFrames := s.observe.staleFrames + 1
    ring := (recordOf s.solver.result (s.timer.number - 1) .stale :: s.observe.ring).take 32
    flags := s.observe.flags ||| 8
    level := 3
    fallCount := 0
    fallMax := 0 } := by
  rw [noteStale, takeLevel_top (by exact range)]
  rfl

theorem alertSet_stale_of_raised {s : State} {flags : BitVec 7} (h : s.observe.flags = flags ||| 8) :
    alertSet .stale s = true := by
  have bit : ∀ flags : BitVec 7, ((flags ||| 8) &&& 8 != 0) = true := by decide
  rw [alertSet, h]
  exact bit flags

theorem readyState_number (s : State) : (readyState s).timer.number = s.timer.number + 1 := by
  rw [readyState_eq, takeSnapshot_timer, modedState_timer, openFrame_timer]

/-- A boundary with no new result notes its stale load (R59, R60). -/
theorem loadedState_of_stale {s : State} (old : s.solver.newResult = false) (running : s.timer.startDue = false) :
    loadedState s = noteStale (loadCredit .stale (readyState s)) := by
  have kind : kindOf s = .stale := by rw [kindOf, running, loadKind, if_neg nofun, old, if_neg nofun]
  rw [loadedState_eq, kind, loadBoundary, if_pos rfl]

/-- A boundary with a new result, and a start boundary, note nothing (R59, R60). -/
theorem loadedState_of_noted {s : State} (noted : s.solver.newResult = true ∨ s.timer.startDue = true) :
    loadedState s = loadCredit (kindOf s) (readyState s) := by
  have kind : kindOf s ≠ .stale := by
    rw [kindOf]
    rcases loadKind_cases s.timer.startDue s with ⟨-, e⟩ | ⟨-, -, e⟩ | ⟨due, old, -⟩
    · rw [e]; exact nofun
    · rw [e]; exact nofun
    · rcases noted with new | start
      · exact absurd (new.symm.trans old) nofun
      · exact absurd (start.symm.trans due) nofun
  rw [loadedState_eq, loadBoundary, if_neg kind]

end Sys2Proof.Machine

section
open Sys2Proof Sys2Proof.Machine

/-- Settles O29: the snapshot is taken of the records, queues and pairs that the boundary leaves, and the load reads that snapshot. -/
theorem boundaryTakesSnapshotAndLoadsCredit : Obligations.BoundaryTakesSnapshotAndLoadsCredit := by
  unfold Obligations.BoundaryTakesSnapshotAndLoadsCredit
  intro s running
  refine ⟨frameBoundary s, whileRunning_of_running running _, frameBoundary_snapshotCap s, frameBoundary_spare s,
    fun x => ?_⟩
  have entry := frameBoundary_creditAt s x
  have before := readyState_creditAt s x
  have state : (recordAt (readyState s) x).state = (recordAt (frameBoundary s) x).state :=
    (congrArg _ (recordAt_congr (takeSnapshot_records _) x)).trans (frameBoundary_settled s x).1.symm
  refine ⟨snapshotOf_frameBoundary s x, ?_, by rw [entry, loadEntry], by rw [entry, loadEntry], ?_, ?_⟩
  · rw [entry, loadEntry, handedAllotment_readyState, before, state, loadedCredit]
  · rw [entry, loadEntry, before]
  · rw [entry, loadEntry, latchSettings_readyState]

/-- Settles O30: only a stale load is noted, and level 3 is taken at once. -/
theorem boundaryWithoutNewResultIsStale : Obligations.BoundaryWithoutNewResultIsStale := by
  unfold Obligations.BoundaryWithoutNewResultIsStale
  intro s running
  have observe : (frameBoundary s).observe = (loadedState s).observe := rfl
  have figures := readyState_observe s
  refine ⟨frameBoundary s, whileRunning_of_running running _, fun old inFrame range => ?_, fun noted => ?_⟩
  · rw [loadedState_of_stale old inFrame, noteStale_observe (by rw [loadCredit_observe, figures]; exact range),
      loadCredit_observe, loadCredit_result, loadCredit_timer, readyState_result, readyState_number,
      BitVec.add_sub_cancel, figures] at observe
    refine ⟨?_, ?_, alertSet_stale_of_raised (congrArg Observation.flags observe), ?_, ?_, ?_⟩ <;> rw [observe]
    rfl
  · rw [loadedState_of_noted noted, loadCredit_observe] at observe
    have flag : alertSet .stale (frameBoundary s) = alertSet .stale (readyState s) :=
      alertSet_congr (congrArg Observation.flags observe) .stale
    rw [flag, alertSet_readyState_stale, observe, figures]
    exact ⟨rfl, rfl, rfl, rfl, rfl, rfl⟩

end
end

