-- ==== Sys2Proof/Proofs/StartResumeClear.lean ====
section
/-! PROOFS. START, RESUME and CLEAR in every tenant state (R47, R117, R118, R121, R122, R173). -/

namespace Sys2Proof.Machine

theorem startTenant_of_room {x : TenantId} {s : State} (off : (recordAt s x).state = .off)
    (room : floorsHeld s + (recordAt s x).floor ≤ effectiveCap s) :
    startTenant x s = (changeRecord x (fun r => { r with state := .active, target := .none }) s, .ok) := by
  rw [startTenant, if_pos off, floorSum_eq, if_pos room]

theorem startTenant_of_full {x : TenantId} {s : State} (off : (recordAt s x).state = .off)
    (full : effectiveCap s < floorsHeld s + (recordAt s x).floor) : startTenant x s = (s, .floorOver) := by
  rw [startTenant, if_pos off, floorSum_eq, if_neg (Nat.not_le.mpr full)]

theorem startTenant_of_not_off {x : TenantId} {s : State} (up : (recordAt s x).state ≠ .off) :
    startTenant x s = (s, .wrongState) := if_neg up

/-- A tenant resumed: ACTIVE without a target, its parked descriptors ordinary in their places (R35, R121). -/
def resumed (x : TenantId) (s : State) : State :=
  changeQueues x (fun u => { u with rq := u.rq.map unpark, wq := u.wq.map unpark })
    (changeRecord x (fun r => { r with state := .active, target := .none }) s)

theorem resumeTenant_of_stopped {x : TenantId} {s : State}
    (stopped : (recordAt s x).state = .draining ∨ (recordAt s x).state = .quiesced) :
    resumeTenant x s = (resumed x s, .ok) := if_pos stopped

theorem resumeTenant_of_other {x : TenantId} {s : State}
    (other : ¬((recordAt s x).state = .draining ∨ (recordAt s x).state = .quiesced)) :
    resumeTenant x s = (s, .wrongState) := if_neg other

theorem clearTenant_of_fenced {x : TenantId} {s : State} (fenced : (recordAt s x).state = .fenced) :
    clearTenant x s = (changeRecord x (fun r => { r with state := .off }) s, .ok) := if_pos fenced

theorem clearTenant_of_not_fenced {x : TenantId} {s : State} (other : (recordAt s x).state ≠ .fenced) :
    clearTenant x s = (s, .wrongState) := if_neg other

section

variable {s u : State} {arg : Byte} {x : TenantId} {result : CmdResult}

/-- A START row of a running part, from what START makes of the tenant it names. -/
theorem exec_start_of_tenant (running : Running s) (named : arg.toNat = x.val)
    (effect : startTenant x (commandTaken arg s) = (u, result)) :
    exec (.start arg) s = .next (withResult 1 result u) := by
  have run : runCommand 1 arg (commandTaken arg s) = (u, result) := (onTenant_of_val named startTenant _).trans effect
  rw [exec_start, whileRunning_of_running running, issueCommand_of_run run]

/-- A RESUME row of a running part, from what RESUME makes of the tenant it names. -/
theorem exec_resume_of_tenant (running : Running s) (named : arg.toNat = x.val)
    (effect : resumeTenant x (commandTaken arg s) = (u, result)) :
    exec (.resume arg) s = .next (withResult 4 result u) := by
  have run : runCommand 4 arg (commandTaken arg s) = (u, result) := (onTenant_of_val named resumeTenant _).trans effect
  rw [exec_resume, whileRunning_of_running running, issueCommand_of_run run]

/-- A CLEAR row of a running part, from what CLEAR makes of the tenant it names. -/
theorem exec_clear_of_tenant (running : Running s) (named : arg.toNat = x.val)
    (effect : clearTenant x (commandTaken arg s) = (u, result)) :
    exec (.clear arg) s = .next (withResult 5 result u) := by
  have run : runCommand 5 arg (commandTaken arg s) = (u, result) := (onTenant_of_val named clearTenant _).trans effect
  rw [exec_clear, whileRunning_of_running running, issueCommand_of_run run]

end

end Sys2Proof.Machine

section
open Sys2Proof Sys2Proof.Machine

/-- Settles O44: each command by the tenant's state, which the port's part of the row leaves alone. -/
theorem startResumeAndClear : Obligations.StartResumeAndClear := by
  unfold Obligations.StartResumeAndClear
  refine ⟨fun s arg x running named => ⟨fun off room => ?_, fun off full => ?_, fun up => ?_⟩,
    fun s arg x running named => ⟨fun stopped => ?_, fun notDraining notQuiesced => ?_, fun fenced => ?_,
      fun other => ?_⟩⟩
  · exact exec_start_of_tenant running named (startTenant_of_room off room)
  · exact exec_start_of_tenant running named (startTenant_of_full off full)
  · exact exec_start_of_tenant running named (startTenant_of_not_off up)
  · exact exec_resume_of_tenant running named (resumeTenant_of_stopped stopped)
  · exact exec_resume_of_tenant running named (resumeTenant_of_other (not_or.mpr ⟨notDraining, notQuiesced⟩))
  · exact exec_clear_of_tenant running named (clearTenant_of_fenced fenced)
  · exact exec_clear_of_tenant running named (clearTenant_of_not_fenced other)

end
end

