-- ==== Sys2Proof/Proofs/PassingTime.lean ====
section
/-! PROOFS. What the passing of time brings on an empty queue: the boundary, the completion of a solve and the lend point (R42, R43, R62). -/

namespace Sys2Proof.Machine

/-! ### The phase and a completing solve -/

/-- The state with the frame at another phase. -/
def atPhase (p : Nat) (s : State) : State := { s with timer.phase := p }

theorem takeLevel_atPhase (c p : Nat) (s : State) : takeLevel c (atPhase p s) = atPhase p (takeLevel c s) := by
  rw [takeLevel, takeLevel, pressureFall, pressureFall, apply_ite (atPhase p), apply_ite (atPhase p),
    apply_ite (atPhase p)]
  rfl

/-- The completion of a solve neither reads nor changes the phase (R58). -/
theorem completeSolve_atPhase (p : Nat) (s : State) : completeSolve (atPhase p s) = atPhase p (completeSolve s) := by
  rcases completeSolve_cases s with ⟨idle, e⟩ | ⟨solving, e⟩
  · rw [e]
    exact if_neg (Bool.eq_false_iff.mp idle)
  · rw [e, ← takeLevel_atPhase]
    exact if_pos solving

/-! ### One sixteenth of a unit -/

/-- The lend point falls due in the next sixteenth of a unit (R43). -/
def LendsNext (s : State) : Prop :=
  s.timer.frameLend ≠ 0 ∧ s.timer.phase + 1 = s.timer.frameLend * s.timer.frameLength

theorem lendPoint_of_lendsNext {s : State} (next : LendsNext s) :
    lendPoint s = lendAll (atPhase (s.timer.phase + 1) s) := by
  obtain ⟨some, reached⟩ := next
  have point : lendPhase s.timer = s.timer.phase + 1 := reached.symm
  rw [lendPoint, point, if_pos ⟨some, Nat.lt_succ_self _⟩]
  rfl

theorem lendDue_of_lendsNext {s u : State} (next : LendsNext s)
    (timer : u.timer = (atPhase (s.timer.phase + 1) s).timer) : lendDue u = lendAll u := by
  rw [lendDue, timer]
  exact if_pos next

theorem lendDue_of_not_lendsNext {s u : State} (none : ¬LendsNext s)
    (timer : u.timer = (atPhase (s.timer.phase + 1) s).timer) : lendDue u = u := by
  rw [lendDue, timer]
  exact if_neg none

theorem tick_of_end {s : State} (running : Running s) (ends : 16 * s.timer.frameLength ≤ s.timer.phase + 1) :
    tick s = frameBoundary s := by
  rw [tick, if_neg (fun held => held running), if_pos ends]

theorem tick_inside {s : State} (running : Running s) (inside : s.timer.phase + 1 < 16 * s.timer.frameLength) :
    tick s = lendDue (solveDue (atPhase (s.timer.phase + 1) s)) := by
  rw [tick, if_neg (fun held => held running), if_neg (Nat.not_le.mpr inside)]
  rfl

theorem solveDue_of_early {s : State} (early : s.timer.phase + 1 < 96) :
    solveDue (atPhase (s.timer.phase + 1) s) = atPhase (s.timer.phase + 1) s :=
  if_neg (Nat.not_le.mpr early)

theorem solveDue_of_late {s : State} (late : 96 ≤ s.timer.phase + 1) :
    solveDue (atPhase (s.timer.phase + 1) s) = completeSolve (atPhase (s.timer.phase + 1) s) := if_pos late

theorem step_of_empty {s : State} (empty : s.pending = []) : step s = .next (tick s) := by rw [step, empty]

end Sys2Proof.Machine

section
open Sys2Proof Sys2Proof.Machine

/-- Settles O2: by the phase that the sixteenth of a unit reaches. -/
theorem emptyQueueLetsTimePass : Obligations.EmptyQueueLetsTimePass := by
  unfold Obligations.EmptyQueueLetsTimePass
  intro s empty later lends
  rw [step_of_empty empty]
  refine ⟨fun held => ?_, fun running ends => ?_, fun running inside => ?_⟩
  · rw [tick, if_pos held]
  · rw [tick_of_end running ends, exec_frameBoundary, whileRunning_of_running running]
  rw [tick_inside running inside, exec_lendPoint, exec_solveCompletion, exec_solveCompletion,
    whileRunning_of_running running, whileRunning_of_running running, whileRunning_of_running (s := later) running]
  have solved : (completeSolve (atPhase (s.timer.phase + 1) s)).timer = (atPhase (s.timer.phase + 1) s).timer :=
    completeSolve_timer _
  refine ⟨fun none early => ?_, fun none late => ?_, fun next early => ?_, fun next late => ?_⟩
  · rw [solveDue_of_early early, lendDue_of_not_lendsNext none rfl]
    rfl
  · rw [solveDue_of_late late, lendDue_of_not_lendsNext none solved]
    rfl
  · rw [solveDue_of_early early, lendDue_of_lendsNext next rfl, lendPoint_of_lendsNext next]
  · have timer : (completeSolve s).timer = s.timer := completeSolve_timer s
    have still : Running (completeSolve s) := by rw [Running, completeSolve_control]; exact running
    refine ⟨completeSolve s, rfl, ?_⟩
    have next' : LendsNext (completeSolve s) := by rw [LendsNext, timer]; exact next
    rw [solveDue_of_late late, lendDue_of_lendsNext next solved, exec_lendPoint, whileRunning_of_running still,
      lendPoint_of_lendsNext next', timer, completeSolve_atPhase]

end
end

