-- ==== Sys2Proof/Proofs/ResetState.lean ====
section
/-! PROOFS. The state right after reset upholds every law: nothing is queued, outstanding, paired or spent in it (R44, R46, R51, R116, R151). -/

namespace Sys2Proof.Machine

/-! ### What the reset state holds -/

theorem reset_recordAt (x : TenantId) :
    recordAt State.reset x = { recordAt State.powerOn x with pauseMark := true } := Table.get_map ..

theorem reset_queuesAt (x : TenantId) : queuesAt State.reset x = TenantQueues.empty := Table.get_fill ..

theorem reset_queued (x : TenantId) : queuedOf (queuesAt State.reset x) = [] := by rw [reset_queuesAt]; rfl

theorem reset_creditAt (x : TenantId) : creditAt State.reset x = ⟨0, 0, 0, 0, ⟨false, false, false, 0, 16383⟩⟩ :=
  Table.get_fill ..

theorem reset_entry (k : Fin 256) : State.reset.paths.entries.get k = none := Table.get_fill ..

theorem reset_orderList (q : Fin 64) : State.reset.paths.orderLists.get q = [] := Table.get_fill ..

theorem reset_pair (p : PairId) : State.reset.pairHalt.pairs.get p = PairEntry.reset := Table.get_fill ..

theorem reset_snapshotOf (x : TenantId) : State.reset.solver.snapshot.tenants.get x =
    ⟨16, 0, 16383, false, decide (x = 23), 0⟩ := by
  have taken : State.reset.solver.snapshot.tenants.get x =
      if 23 = x then ⟨16, 0, 16383, false, true, 0⟩ else ⟨16, 0, 16383, false, false, 0⟩ := by
    rw [State.reset, Table.get_set, Table.get_fill]
  rw [taken]
  split
  · rename_i same
    rw [← same]
    rfl
  · rename_i apart
    rw [decide_eq_false (Ne.symm apart)]

theorem reset_state (x : TenantId) : (recordAt State.reset x).state = if x = 23 then .active else .off := by
  rw [reset_recordAt, powerOn_recordAt]
  by_cases h : x = 23
  · rw [if_pos h, if_pos h.symm]
  · rw [if_neg h, if_neg (Ne.symm h)]
    rfl

/-! ### The laws -/

theorem divisionLaw_reset : DivisionLaw State.reset := by
  have floors : floorSum State.reset = 0 := by
    rw [floorSum_eq]
    refine sumOver_eq_zero fun x _ => ?_
    rw [reset_recordAt, powerOn_recordAt]
    split <;> rfl
  have guaranteed : totalGuaranteed State.reset.solver.snapshot = 0 := by
    rw [totalGuaranteed, sumOver_toList]
    refine sumOver_eq_zero fun x _ => ?_
    rw [reset_snapshotOf, guaranteedPart_eq]
    exact ite_self 0
  refine ⟨?_, ⟨?_, by decide⟩, resultLaw_empty, ?_, by decide, by decide, fun x => ?_⟩
  · rw [FloorLaw, floors]
    exact Nat.zero_le _
  · rw [guaranteed]
    exact Nat.zero_le _
  · exact creditLaw_of_zero (fun x => congrArg CreditEntry.credit (reset_creditAt x)) rfl
  · have empty : queuedOf (State.reset.admission.queues.get x) = [] := reset_queued x
    rw [empty]
    exact nofun

theorem queueLaws_reset : QueueLaw State.reset ∧ TargetLaw State.reset := by
  have tenants : ∀ x, TenantQueueLaw State.reset x ∧ TargetAgrees (recordAt State.reset x) := fun x =>
    queueLaws_of_lifeKept (s := State.powerOn) (by rw [reset_recordAt]; rfl)
      (queueFollows_of_eq rfl rfl) (queueLaws_powerOn rfl (Table.get_fill ..))
  have none : descriptorsInUse State.reset = 0 := sumOver_eq_zero fun x _ => by rw [occupancy, reset_queued]; rfl
  exact ⟨⟨by rw [none]; exact Nat.zero_le _, fun x => (tenants x).1⟩, fun x => (tenants x).2⟩

theorem linkLaws_reset : SwitchDownLaw State.reset ∧ PoolDownLaw State.reset :=
  ⟨fun _ => ⟨reset_queued, fun k _ held => absurd ((reset_entry k).symm.trans held) nofun, reset_orderList⟩,
    fun _ => ⟨reset_entry, rfl⟩⟩

theorem rangeLaw_reset : RangeLaw State.reset := by
  rw [rangeLaw_iff]
  refine ⟨fun x => ?_, fun x => ?_, fun x => ?_, fun p => ?_, by decide, by decide⟩
  · rw [reset_recordAt]
    exact recordInRange_powerOn x
  · rw [reset_creditAt, CreditInRange]
    decide
  · rw [reset_queued]
    exact nofun
  · rw [reset_pair, PairInRange]
    decide

theorem blocksLaw_reset : BlocksLaw State.reset := by
  have none : heldBlocks State.reset = [] := by
    refine (List.append_nil _).trans (List.eq_nil_iff_forall_not_mem.mpr fun b held => ?_)
    obtain ⟨x, d, queued, -⟩ := (mem_queuedBlocks State.reset b).mp held
    rw [reset_queued] at queued
    cases queued
  rw [BlocksLaw, none]
  exact ⟨storeWf_reset, List.nodup_nil, fun b => Iff.rfl⟩

theorem not_queuedWrite_reset (q : Fin 64) (x : Stamp) : ¬QueuedWrite State.reset q x := by
  rintro ⟨t, d, queued, -⟩
  rw [reset_queued] at queued
  cases queued

theorem not_outstandingWrite_reset (q : Fin 64) (x : Stamp) : ¬OutstandingWrite State.reset q x := by
  rintro ⟨k, _, held, -⟩
  exact absurd ((reset_entry k).symm.trans held) nofun

theorem listLaws_reset : OrderLaw State.reset ∧ ListedLaw State.reset := by
  refine ⟨fun q x listed => ?_, fun q x live => ?_⟩
  · rw [reset_orderList] at listed
    cases listed
  · exact absurd live (not_or.mpr ⟨not_queuedWrite_reset q x, not_outstandingWrite_reset q x⟩)

theorem liveStampsDistinct_reset : LiveStampsDistinct State.reset := by
  intro q x
  have queued : (sumTenants fun t => (queuedOf (queuesAt State.reset t)).countP (isWriteOf q x)) = 0 :=
    sumOver_eq_zero fun t _ => by rw [reset_queued]; rfl
  have outstanding : State.reset.paths.entries.toList.countP (isEntryOf q x) = 0 := by
    rw [List.countP_eq_zero]
    intro o held
    obtain ⟨k, rfl⟩ := Table.mem_toList.mp held
    rw [reset_entry]
    exact nofun
  rw [queued, outstanding]
  exact Nat.zero_le _

theorem safe_reset : Safe State.reset := by
  obtain ⟨queue, target⟩ := queueLaws_reset
  obtain ⟨switchDown, poolDown⟩ := linkLaws_reset
  obtain ⟨order, listed⟩ := listLaws_reset
  have pair : PairLaw State.reset := pairLaw_congr (s := holdReset .powerOn State.reset) rfl (pairLaw_holdReset _ _)
  have timer : TimerLaw State.reset :=
    timerLaw_of_phase (by decide) (by decide) (by decide) (by decide) (by decide) (by decide) nofun
  exact ⟨⟨nofun, nofun⟩, divisionLaw_reset, queue, target, pair, switchDown, poolDown,
    timeoutLaw_congr rfl timeoutLaw_powerOn, ⟨fun _ => rfl, fun held => absurd rfl held⟩,
    observationLaw_congr rfl observationLaw_powerOn, show 0 < 24 by decide, timer, rangeLaw_reset, blocksLaw_reset,
    order, listed, liveStampsDistinct_reset⟩

end Sys2Proof.Machine

section
open Sys2Proof Sys2Proof.Machine

/-- Settles O4: the laws hold of empty queues and tables, and the rest are fields of the reset state. -/
theorem resetStateUpholdsTheLawsAndOpensFrameZero : Obligations.ResetStateUpholdsTheLawsAndOpensFrameZero := by
  unfold Obligations.ResetStateUpholdsTheLawsAndOpensFrameZero
  refine ⟨safe_reset, rfl, rfl, rfl, rfl, by decide, rfl, rfl, rfl, rfl, fun x => ?_, fun x => ?_, rfl, reset_state⟩
  · rw [reset_snapshotOf]
  · have entry : State.reset.credit.tenants.get x = _ := reset_creditAt x
    rw [entry]
    exact ⟨rfl, rfl⟩

end
end

