-- ==== Sys2Proof/Proofs/Release.lean ====
section
/-! PROOFS. The release of a held reset (R44, R46, R141, R146, R151, R152): its start boundary finds nothing queued, outstanding, draining or paired, so that of all a boundary does only the snapshot, the load and the pause marks are left. -/

namespace Sys2Proof

theorem Table.map_eq_self {α : Type} {n : Nat} {t : Table α n} {f : α → α} (h : ∀ i, f (t.get i) = t.get i) :
    t.map f = t := Table.ext_get fun i => by rw [Table.get_map, h]

theorem Table.build_eq {α : Type} {n : Nat} {t : Table α n} {f : Fin n → α} (h : ∀ i, f i = t.get i) :
    Table.build f = t := Table.ext_get fun i => by rw [Table.get_build, h]

end Sys2Proof

namespace Sys2Proof.Machine

/-! ### A boundary that finds nothing to do -/

/-- A record that a boundary's strikes and drains leave alone: no strikes, never demoted, no drain begun. -/
structure RestingRecord (r : TenantRecord) : Prop where
  state : r.state ≠ .draining
  fenceDue : r.fenceDue = false
  strikes : r.strikes = 0
  demoted : r.demoted = false
  demotable : r.attrs.demotable = false

theorem tickDrainClock_of_resting {r : TenantRecord} (resting : RestingRecord r) : tickDrainClock r = r := by
  rw [tickDrainClock, if_neg (not_and_of_not_left _ resting.state), ← resting.fenceDue]

/-- Nothing is queued, outstanding, draining, in GUARD or pending, and no counter has been touched. -/
structure Quiet (s : State) : Prop where
  queues : ∀ x, queuesAt s x = TenantQueues.empty
  counters : ∀ x, s.observe.counters.get x = TenantCounters.zero
  records : ∀ x, RestingRecord (recordAt s x)
  entries : ∀ k, s.paths.entries.get k = none
  pairs : ∀ p, (s.pairHalt.pairs.get p).inGuard = false
  cto : s.paths.ctoInForce = s.paths.cto
  mode : s.control.pendingMode = .none

namespace Quiet
variable {s : State}

theorem openFrame (quiet : Quiet s) : Quiet (openFrame s) :=
  ⟨quiet.queues, quiet.counters, quiet.records, quiet.entries, quiet.pairs, quiet.cto, quiet.mode⟩

theorem ageBoundary (quiet : Quiet s) : ageBoundary s = s := by
  have queues : s.admission.queues.map ageQueues = s.admission.queues := Table.map_eq_self fun x => by
    have empty : s.admission.queues.get x = TenantQueues.empty := quiet.queues x
    rw [empty]
    rfl
  have counters : (Table.build fun t =>
      noteHeadAge (headAge (s.admission.queues.get t).wq) (noteHeadAge (headAge (s.admission.queues.get t).rq)
        (s.observe.counters.get t))) = s.observe.counters := Table.build_eq fun x => by
    have empty : s.admission.queues.get x = TenantQueues.empty := quiet.queues x
    rw [empty, quiet.counters]
    rfl
  rw [Machine.ageBoundary, queues, counters]

theorem strikeBoundary (quiet : Quiet s) : strikeBoundary s = s := by
  have struck : ∀ x, strikeRecord (queuesAt s x) (recordAt s x) = recordAt s x := fun x => by
    have resting := quiet.records x
    have noStrike : strikesAfter (queuesAt s x) (recordAt s x).strikes = (recordAt s x).strikes := by
      rw [quiet.queues, resting.strikes]
      rfl
    have notDemoted : demotedAfter (recordAt s x) = (recordAt s x).demoted := by
      rw [demotedAfter, resting.demoted, resting.demotable]
      rfl
    rw [strikeRecord, noStrike]
    exact congrArg (fun d => { recordAt s x with demoted := d }) notDemoted
  have records : (Table.build fun t => strikeRecord (queuesAt s t) (recordAt s t)) = s.records := Table.build_eq struck
  have queues : (s.admission.queues.map fun u => { u with retryMark := false }) = s.admission.queues :=
    Table.map_eq_self fun x => by
      have empty : s.admission.queues.get x = TenantQueues.empty := quiet.queues x
      rw [empty]
      rfl
  have newly : ((List.finRange 24).any fun t => (s.records.get t).demoted && !(recordAt s t).demoted) = false := by
    rw [List.any_eq_false]
    exact fun x _ => by simp [recordAt]
  rw [Machine.strikeBoundary, records, queues]
  exact if_neg (Bool.eq_false_iff.mp newly)

theorem expireAtBoundary (quiet : Quiet s) : expireAtBoundary s = s := by
  have aged : (s.paths.entries.map (Option.map fun e => { e with age := e.age + 1 })) = s.paths.entries :=
    Table.map_eq_self fun k => by rw [quiet.entries]; rfl
  have none : entriesInUse s = [] := List.eq_nil_iff_forall_not_mem.mpr fun c held =>
    absurd ((quiet.entries _).symm.trans (mem_entriesInUse held).2) nofun
  have same : { s with paths.ctoInForce := s.paths.cto } = s := by rw [← quiet.cto]
  rw [Machine.expireAtBoundary, aged]
  dsimp only
  rw [same, none]
  rfl

theorem drainAtBoundary (quiet : Quiet s) (x : TenantId) : drainAtBoundary s x = s := by
  have idle := (quiet.records x).state
  have ticked : changeRecord x tickDrainClock s = s := by
    have same : s.records.modify x tickDrainClock = s.records := Table.ext_get fun y => by
      rw [Table.get_modify]
      split
      · next here =>
        subst here
        exact tickDrainClock_of_resting (quiet.records x)
      · rfl
    rw [changeRecord, same]
  have pending : drainDone s x = false := by rw [drainDone, beq_eq_false_iff_ne.mpr idle]; rfl
  rw [Machine.drainAtBoundary, pending, ticked, fenceIfDue]
  exact if_neg (not_and_of_not_left _ idle)

theorem guardsBoundary (quiet : Quiet s) : guardsBoundary s = s := by
  have ticked : s.pairHalt.pairs.map tickGuard = s.pairHalt.pairs := Table.map_eq_self fun p =>
    if_neg (not_and_of_not_right _ (Bool.eq_false_iff.mp (quiet.pairs p)))
  have settled : ∀ p, testSettle p s = s := fun p => by
    rw [testSettle, settlePasses, quiet.pairs, Bool.and_false]
    rfl
  rw [Machine.guardsBoundary, ticked]
  exact List.foldl_fixed' settled _

theorem modeBoundary (quiet : Quiet s) : modeBoundary s = s := by rw [Machine.modeBoundary, quiet.mode]

/-- Before its snapshot a boundary then only opens the frame (R42, R43). -/
theorem beforeSnapshot (quiet : Quiet s) : beforeSnapshot s = Machine.openFrame s := by
  have opened := quiet.openFrame
  rw [Machine.beforeSnapshot, opened.ageBoundary, opened.strikeBoundary, opened.expireAtBoundary, drainsBoundary,
    List.foldl_fixed' opened.drainAtBoundary, opened.guardsBoundary, opened.modeBoundary]

end Quiet

/-! ### The start of the part -/

/-- The part at its power-on values as the release of a reset starts it, the start boundary due and HALT_REQ sampled (R141, R146, R151). -/
def startingState (pending : List Instr) (haltReq : Bool) (wires : Wires) (control : ModeControl) : State :=
  { State.powerOn with
    pending := pending
    wires := wires
    pairHalt.haltReq := haltReq
    pairHalt.haltCondition := haltReq
    control := control
    timer.startDue := true }

/-- The part as the start boundary leaves it: the reset state but for the mode, the straps and HALT_REQ (R44, R46, R151). -/
def startedState (pending : List Instr) (haltReq : Bool) (wires : Wires) (control : ModeControl) : State :=
  { State.reset with
    pending := pending
    wires := wires
    pairHalt.haltReq := haltReq
    pairHalt.haltCondition := haltReq
    control := control
    solver.snapshot.effCap := min 16383 (1024 / (control.straps.div.toNat + 1)) }

section Start
variable (pending : List Instr) (haltReq : Bool) (wires : Wires) (control : ModeControl)

theorem quiet_startingState (noMode : control.pendingMode = .none) :
    Quiet (startingState pending haltReq wires control) where
  queues x := Table.get_fill ..
  counters x := Table.get_fill ..
  records x := by
    have record : recordAt (startingState pending haltReq wires control) x = recordAt State.powerOn x := rfl
    rw [record, powerOn_recordAt]
    split <;> exact ⟨nofun, rfl, rfl, rfl, rfl⟩
  entries k := Table.get_fill ..
  pairs p := congrArg PairEntry.inGuard (Table.get_fill ..)
  cto := rfl
  mode := noMode

/-- The records are kept at the assertion of the halt condition, none of them HALTABLE (R112, R141). -/
theorem assertHalt_powerOn : State.powerOn.records.map (fun r => { r with pauseMark := r.pauseMark || r.attrs.haltable }) =
    State.powerOn.records := Table.map_eq_self fun x => by
  have record : State.powerOn.records.get x = _ := powerOn_recordAt x
  rw [record]
  split <;> rfl

/-- The state whose snapshot the start boundary takes: frame 0 opened (R42, R43). -/
def openedStart (pending : List Instr) (haltReq : Bool) (wires : Wires) (control : ModeControl) : State :=
  { startingState pending haltReq wires control with timer := State.reset.timer }

/-- The frame number wraps from its power-on value to 0 (R44). -/
theorem openFrame_startingState :
    openFrame (startingState pending haltReq wires control) = openedStart pending haltReq wires control := by
  have number : State.powerOn.timer.number + 1 = 0 := by decide
  have opened : openFrame (startingState pending haltReq wires control) =
      { startingState pending haltReq wires control with
        timer := ⟨64, 0, 16383, 64, 0, State.powerOn.timer.number + 1, 0, false⟩ } := rfl
  rw [opened, number]
  rfl

theorem openedStart_recordAt (x : TenantId) :
    recordAt (openedStart pending haltReq wires control) x = recordAt State.powerOn x := rfl

theorem openedStart_demand (x : TenantId) : demandOf (openedStart pending haltReq wires control) x = 0 := by
  have empty : queuesAt (openedStart pending haltReq wires control) x = TenantQueues.empty := Table.get_fill ..
  have charge : eligibleCharge (openedStart pending haltReq wires control) x = 0 := by
    rw [eligibleCharge, empty]
    exact (Nat.zero_add _).trans (ite_self 0)
  have released : (creditAt (openedStart pending haltReq wires control) x).releasedNow = 0 :=
    congrArg CreditEntry.releasedNow (Table.get_fill ..)
  rw [demandOf, charge, released]
  exact ite_self 0

theorem openedStart_eligible (x : TenantId) :
    eligible (openedStart pending haltReq wires control) x = decide (x = 23) := by
  rw [eligible, heldByHalt, openedStart_recordAt, powerOn_recordAt]
  by_cases default : x = 23
  · rw [if_pos default.symm, decide_eq_true default]
    exact congrArg not (Bool.and_false _)
  · rw [if_neg (Ne.symm default), decide_eq_false default]
    rfl

theorem openedStart_snapshot : Table.build (snapshotTenant (openedStart pending haltReq wires control)) =
    State.reset.solver.snapshot.tenants := Table.build_eq fun x => by
  rw [snapshotTenant, openedStart_demand, openedStart_eligible, openedStart_recordAt, powerOn_recordAt, reset_snapshotOf]
  split <;> rfl

theorem openedStart_effectiveCap : effectiveCap (openedStart pending haltReq wires control) =
    min 16383 (1024 / (control.straps.div.toNat + 1)) := by
  have figure : effectiveCap (openedStart pending haltReq wires control) =
      min 16383 (min 16383 (1024 / (control.straps.div.toNat + 1))) := rfl
  rw [figure, ← min_assoc, min_self]

/-- The state that the start load finds: the snapshot of frame 0 taken (R48). -/
def snappedStart (pending : List Instr) (haltReq : Bool) (wires : Wires) (control : ModeControl) : State :=
  { openedStart pending haltReq wires control with
    solver.snapshot := ⟨min 16383 (1024 / (control.straps.div.toNat + 1)), State.reset.solver.snapshot.tenants⟩ }

theorem takeSnapshot_openedStart :
    takeSnapshot (openedStart pending haltReq wires control) = snappedStart pending haltReq wires control := by
  rw [takeSnapshot, openedStart_snapshot, openedStart_effectiveCap]
  rfl

theorem loadEntry_snappedStart (x : TenantId) :
    loadEntry .start (snappedStart pending haltReq wires control) x = creditAt State.reset x := by
  have record : recordAt (snappedStart pending haltReq wires control) x = recordAt State.powerOn x := rfl
  have settings : (snappedStart pending haltReq wires control).solver.snapshot.tenants.get x = _ := reset_snapshotOf x
  have credit : creditAt (snappedStart pending haltReq wires control) x = CreditEntry.reset := Table.get_fill ..
  rw [loadEntry, latchSettings, settings, credit, record, powerOn_recordAt, reset_creditAt]
  split <;> rfl

/-- The state that the start load leaves (R59, R71). -/
def loadedStart (pending : List Instr) (haltReq : Bool) (wires : Wires) (control : ModeControl) : State :=
  { snappedStart pending haltReq wires control with credit := State.reset.credit }

theorem loadCredit_snappedStart :
    loadCredit .start (snappedStart pending haltReq wires control) = loadedStart pending haltReq wires control := by
  have entries : Table.build (loadEntry .start (snappedStart pending haltReq wires control)) =
      State.reset.credit.tenants := Table.build_eq (loadEntry_snappedStart pending haltReq wires control)
  rw [loadCredit, entries]
  rfl

/-- The Pool Port link is DOWN, so that no tenant is release-permitted (R126). -/
theorem renewPauseMarks_loadedStart : renewPauseMarks (loadedStart pending haltReq wires control) =
    { loadedStart pending haltReq wires control with records := State.reset.records } := by
  have records : (Table.build fun x => { recordAt (loadedStart pending haltReq wires control) x with
      pauseMark := !releasePermitted (loadedStart pending haltReq wires control) x }) = State.reset.records :=
    Table.build_eq fun x => by
      have forbidden : releasePermitted (loadedStart pending haltReq wires control) x = false := Bool.and_false _
      rw [forbidden]
      exact (reset_recordAt x).symm
  rw [renewPauseMarks, records]

/-- The start boundary opens frame 0, with the reset state's snapshot, load and pause marks (R44, R48, R51, R126). -/
theorem frameBoundary_startingState (noMode : control.pendingMode = .none) :
    frameBoundary (startingState pending haltReq wires control) = startedState pending haltReq wires control := by
  have before := (quiet_startingState pending haltReq wires control noMode).beforeSnapshot
  have load : loadBoundary .start (snappedStart pending haltReq wires control) =
      loadedStart pending haltReq wires control := loadCredit_snappedStart ..
  have kind : loadKind (startingState pending haltReq wires control).timer.startDue
      (snappedStart pending haltReq wires control) = .start := rfl
  rw [frameBoundary, before, openFrame_startingState, takeSnapshot_openedStart, kind, load, renewPauseMarks_loadedStart]
  rfl

/-- HALT_REQ sampled at the release: the halt condition takes its level (R141). -/
theorem sampleHalt_startingState :
    (if haltReq then assertHalt { startingState pending haltReq wires control with pairHalt.haltCondition := false }
      else { startingState pending haltReq wires control with pairHalt.haltCondition := false }) =
    startingState pending haltReq wires control := by
  cases haltReq
  · rfl
  · have records : (startingState pending true wires control).records.map
        (fun r => { r with pauseMark := r.pauseMark || r.attrs.haltable }) = State.powerOn.records := assertHalt_powerOn
    rw [if_pos rfl, assertHalt, records]
    rfl

/-- What the release of a reset makes of the power-on values that the reset held (R151). -/
theorem restart_powerOn : restart { State.powerOn with
      pending := pending
      wires := wires
      pairHalt.haltReq := haltReq
      control := control } =
    startedState pending haltReq wires
      { control with held := .no, mode := startMode control.straps, pendingMode := .none } := by
  rw [restart_eq, ← frameBoundary_startingState pending haltReq wires _ rfl, ← sampleHalt_startingState]
  rfl

end Start

/-! ### Either release -/

theorem powerOnRelease_of_held {s : State} (law : HeldLaw s) (held : s.control.held = .powerOn) (straps : Straps) :
    powerOnRelease straps s =
      startedState s.pending s.pairHalt.haltReq s.wires ⟨startMode straps, .none, straps, .powerOn, .no⟩ := by
  have latched : { s with control.straps := straps, control.cause := .powerOn } = { State.powerOn with
      pending := s.pending
      wires := s.wires
      pairHalt.haltReq := s.pairHalt.haltReq
      control := ⟨.transparent, .none, straps, .powerOn, .powerOn⟩ } := by
    conv_lhs => rw [law.1 held]
    rfl
  rw [powerOnRelease, if_pos held, latched, restart_powerOn]

theorem pinResetRelease_of_held {s : State} (law : HeldLaw s) (held : s.control.held = .pin) :
    pinResetRelease s = startedState s.pending s.pairHalt.haltReq s.wires
      ⟨startMode s.control.straps, .none, s.control.straps, .pin, .no⟩ := by
  have latched : { s with control.cause := .pin } = { State.powerOn with
      pending := s.pending
      wires := s.wires
      pairHalt.haltReq := s.pairHalt.haltReq
      control := ⟨.transparent, .none, s.control.straps, .pin, .pin⟩ } := by
    conv_lhs => rw [law.2 held]
    rfl
  rw [pinResetRelease, if_pos held, latched, restart_powerOn]

end Sys2Proof.Machine

section
open Sys2Proof Sys2Proof.Machine

/-- Settles O7: the held reset leaves nothing for its start boundary to age, expire, drain or settle. -/
theorem releaseOfAResetStartsThePart : Obligations.ReleaseOfAResetStartsThePart := by
  unfold Obligations.ReleaseOfAResetStartsThePart
  intro s law
  refine ⟨fun straps held => ?_, fun held => ?_, fun straps free => ?_, fun free => ?_⟩
  · rw [exec_powerOnRelease, powerOnRelease_of_held law held]
    rfl
  · rw [exec_pinResetRelease, pinResetRelease_of_held law held]
    rfl
  · rw [exec_powerOnRelease, powerOnRelease, if_neg free]
  · rw [exec_pinResetRelease, pinResetRelease, if_neg free]

end
end

