-- ==== Sys2Proof/Proofs/Grants.lean ====
section
/-! PROOFS. A grant (R79 to R88, R93): when it releases nothing, which candidate it chooses under each port mode, and the state that the release leaves. -/

namespace Sys2Proof.Machine

/-! ### The lowest free tag -/

theorem firstFree_eq_findIdx? (n : Nat) (l : List (Option OutstandingEntry)) :
    firstFree n l = (l.findIdx? Option.isNone).map (n + ·) := by
  induction l generalizing n with
  | nil => rfl
  | cons o l ih =>
    cases o with
    | none => rfl
    | some e =>
      rw [firstFree, ih, List.findIdx?_cons, Option.isNone_some, if_neg Bool.false_ne_true, Option.map_map]
      congr 1
      funext i
      exact Nat.add_right_comm n 1 i

/-- The lowest free tag is the one whose place is free with no free place below it (R93). -/
theorem lowestFreeTag_eq_some_iff {s : State} {tag : Nat} : lowestFreeTag s = some tag ↔
    ∃ k : Fin 256, k.val = tag ∧ s.paths.entries.get k = none ∧ ∀ j < k, s.paths.entries.get j ≠ none := by
  have places : lowestFreeTag s = s.paths.entries.toList.findIdx? Option.isNone := by
    rw [lowestFreeTag, firstFree_eq_findIdx?]
    simp
  have size := s.paths.entries.size
  rw [places, List.findIdx?_eq_some_iff_getElem]
  constructor
  · rintro ⟨inside, free, used⟩
    exact ⟨⟨tag, size ▸ inside⟩, rfl, Option.isNone_iff_eq_none.mp free,
      fun j below => mt Option.isNone_iff_eq_none.mpr (used j.val below)⟩
  · rintro ⟨k, rfl, free, used⟩
    exact ⟨size.symm ▸ k.isLt, Option.isNone_iff_eq_none.mpr free,
      fun j below => mt Option.isNone_iff_eq_none.mp (used ⟨j, by omega⟩ below)⟩

/-- The release conditions with the tag taken are those under which a grant makes its choice (R81, R93). -/
theorem canRelease_iff (s : State) (tag : Fin 256) : CanRelease s tag ↔
    s.arbiter.slot = none ∧ s.links.poolUp = true ∧ lowestFreeTag s = some tag.val := by
  simp [CanRelease, lowestFreeTag_eq_some_iff, Fin.val_inj]

/-! ### Candidates -/

theorem older_asymm {a b : Stamp} (h : older a b = true) : older b a = false := by
  rw [older, Bool.and_eq_true, decide_eq_true_eq, decide_eq_true_eq] at h
  rw [older, Bool.and_eq_false_iff, decide_eq_false_iff_not, decide_eq_false_iff_not]
  bv_omega

theorem older_irrefl (a : Stamp) : older a a = false := by
  cases h : older a a with
  | false => rfl
  | true => exact h.symm.trans (older_asymm h)

/-- Of two presented heads the one older than the other is taken. -/
theorem olderCandidate_eq_some {a b : Option Candidate} {c : Candidate} (mem : a = some c ∨ b = some c)
    (first : ∀ y, a = some y ∨ b = some y → y ≠ c → older c.desc.stamp y.desc.stamp = true) :
    olderCandidate a b = some c := by
  match a, b with
  | none, _ => exact mem.resolve_left nofun
  | some _, none => exact mem.resolve_right nofun
  | some x, some y =>
    rw [olderCandidate]
    split
    · rename_i newer
      rcases mem with mem | mem
      · obtain rfl := Option.some.inj mem
        by_cases same : y = x
        · rw [same]
        · rw [older_asymm (first y (.inr rfl) same)] at newer
          cases newer
      · exact mem
    · rename_i newer
      rcases mem with mem | mem
      · exact mem
      · obtain rfl := Option.some.inj mem
        by_cases same : x = y
        · rw [same]
        · exact absurd (first x (.inl rfl) same) newer

/-- No presented head is older than the one that is taken. -/
theorem not_older_olderCandidate {a b : Option Candidate} {c y : Candidate} (h : olderCandidate a b = some c)
    (presented : a = some y ∨ b = some y) : older y.desc.stamp c.desc.stamp = false := by
  match a, b with
  | none, _ =>
    obtain rfl := Option.some.inj ((presented.resolve_left nofun).symm.trans h)
    exact older_irrefl _
  | some _, none =>
    obtain rfl := Option.some.inj ((presented.resolve_right nofun).symm.trans h)
    exact older_irrefl _
  | some x, some z =>
    rw [olderCandidate] at h
    split at h
    · rename_i newer
      obtain rfl := Option.some.inj h
      rcases presented with e | e <;> obtain rfl := Option.some.inj e
      · exact older_asymm newer
      · exact older_irrefl _
    · rename_i newer
      obtain rfl := Option.some.inj h
      rcases presented with e | e <;> obtain rfl := Option.some.inj e
      · exact older_irrefl _
      · exact Bool.eq_false_iff.mpr newer

/-- What one of a tenant's two queues presents (R80). -/
def presentedFrom (s : State) (x : TenantId) (fromWq : Bool) : Option Candidate :=
  presented s x fromWq (if fromWq then (queuesAt s x).wq else (queuesAt s x).rq)

theorem presentedFrom_eq_some_iff {s : State} {x : TenantId} {fromWq : Bool} {c : Candidate} :
    presentedFrom s x fromWq = some c ↔ ∃ d, Eligible s x fromWq d ∧ c = ⟨x, fromWq, d⟩ :=
  presented_iff s x fromWq c

theorem candidateOf_eq (s : State) (x : TenantId) :
    candidateOf s x = olderCandidate (presentedFrom s x false) (presentedFrom s x true) := rfl

/-- Either queue of a tenant is one of the two whose heads are compared. -/
theorem presentedFrom_or {s : State} {x : TenantId} {c : Candidate} :
    (presentedFrom s x false = some c ∨ presentedFrom s x true = some c) ↔ ∃ w, presentedFrom s x w = some c := by
  simp

/-- The arbiter presents for a tenant the head that is its candidate (R80). -/
theorem candidateOf_of_isCandidate {s : State} {x : TenantId} {fromWq : Bool} {d : Descriptor}
    (h : IsCandidate s x fromWq d) : candidateOf s x = some ⟨x, fromWq, d⟩ := by
  obtain ⟨eligible, first⟩ := h
  rw [candidateOf_eq]
  refine olderCandidate_eq_some (presentedFrom_or.mpr ⟨fromWq, presentedFrom_eq_some_iff.mpr ⟨d, eligible, rfl⟩⟩)
    fun y presented other => ?_
  obtain ⟨w, presented⟩ := presentedFrom_or.mp presented
  obtain ⟨e, eligible', rfl⟩ := presentedFrom_eq_some_iff.mp presented
  by_cases same : w = fromWq
  · subst same
    obtain rfl := Option.some.inj (eligible.1.symm.trans eligible'.1)
    exact absurd rfl other
  · obtain rfl : w = !fromWq := Bool.eq_not.mpr same
    exact first e eligible'

/-- What the arbiter presents for a tenant may be its candidate (R80). -/
theorem mayBeCandidate_of_candidateOf {s : State} {x : TenantId} {c : Candidate} (h : candidateOf s x = some c) :
    c.tenant = x ∧ MayBeCandidate s x c.fromWq c.desc := by
  rw [candidateOf_eq] at h
  have own : ∃ w, presentedFrom s x w = some c := presentedFrom_or.mp
    ((olderCandidate_cases _ _).imp (fun e => e.symm.trans h) (fun e => e.symm.trans h))
  obtain ⟨w, own⟩ := own
  obtain ⟨d, eligible, rfl⟩ := presentedFrom_eq_some_iff.mp own
  exact ⟨rfl, eligible, fun d' eligible' => not_older_olderCandidate h
    (presentedFrom_or.mpr ⟨!w, presentedFrom_eq_some_iff.mpr ⟨d', eligible', rfl⟩⟩)⟩

theorem mem_candidates {s : State} {c : Candidate} : c ∈ candidates s ↔ candidateOf s c.tenant = some c := by
  rw [candidates, List.mem_filterMap]
  constructor
  · rintro ⟨x, -, h⟩
    rwa [(mayBeCandidate_of_candidateOf h).1]
  · exact fun h => ⟨c.tenant, List.mem_finRange _, h⟩

/-- The oldest of a list of candidates is the one older than every other (R83, R87, R88). -/
theorem oldest_eq_some {l : List Candidate} {c : Candidate} (mem : c ∈ l)
    (first : ∀ y ∈ l, y ≠ c → older c.desc.stamp y.desc.stamp = true) : oldest l = some c := by
  have kept : ∀ m : List Candidate, (∀ y ∈ m, y ≠ c → older c.desc.stamp y.desc.stamp = true) →
      m.foldl (fun best y => olderCandidate best (some y)) (some c) = some c := fun m first =>
    foldl_preserves _ (· = some c) m (fun best y mem found => olderCandidate_eq_some (.inl found) fun z hz => by
      rw [found] at hz
      rcases hz with e | e <;> obtain rfl := Option.some.inj e
      · exact absurd rfl
      · exact first _ mem) _ rfl
  obtain ⟨before, after, rfl⟩ := List.append_of_mem mem
  rw [oldest, List.foldl_append, List.foldl_cons]
  have reached : olderCandidate (oldest before) (some c) = some c :=
    olderCandidate_eq_some (.inr rfl) fun y hy other => by
      rcases hy with found | e
      · exact first y (List.mem_append_left _ (oldest_mem found)) other
      · exact absurd (Option.some.inj e).symm other
  rw [← oldest, reached]
  exact kept after fun y mem => first y (List.mem_append_right _ (List.mem_cons_of_mem _ mem))

/-! ### Turns after a pointer -/

theorem mem_turnAfter (p x : TenantId) : x ∈ turnAfter p := by
  have apart := Nat.lt_or_ge p.val x.val
  simpa [turnAfter] using apart

/-- The turns are taken by rising distance from the pointer (R84). -/
theorem pairwise_turnAfter (p : TenantId) : (turnAfter p).Pairwise fun x y => turnsAfter p x < turnsAfter p y := by
  have rising : (List.finRange 24).Pairwise (· < ·) := List.pairwise_lt_finRange 24
  refine List.pairwise_append.mpr ⟨?_, ?_, ?_⟩
  · refine List.pairwise_filter.mpr (rising.imp fun {x y} less above above' => ?_)
    simp only [decide_eq_true_eq, Fin.lt_def, turnsAfter] at *
    omega
  · refine List.pairwise_filter.mpr (rising.imp fun {x y} less below below' => ?_)
    simp only [decide_eq_true_eq, Fin.lt_def, Fin.le_def, turnsAfter] at *
    omega
  · intro x above y below
    simp only [List.mem_filter, decide_eq_true_eq, Fin.lt_def, Fin.le_def, turnsAfter] at *
    omega

/-- What a class has to serve for a tenant: its candidate, where that is in the class. -/
def inTurn (s : State) (inClass : Candidate → Bool) (x : TenantId) : Option Candidate :=
  (candidateOf s x).filter inClass

theorem firstInTurn_eq (s : State) (p : TenantId) (inClass : Candidate → Bool) :
    firstInTurn s p inClass = (turnAfter p).findSome? (inTurn s inClass) := by
  rw [firstInTurn]
  congr 1
  funext x
  rw [inTurn]
  cases candidateOf s x <;> rfl

/-- Served in turn is the candidate of the class that comes first after the pointer (R84, R85). -/
theorem firstInTurn_eq_some {s : State} {p : TenantId} {inClass : Candidate → Bool} {c : Candidate}
    (candidate : candidateOf s c.tenant = some c) (member : inClass c = true)
    (first : ∀ y, y.tenant ≠ c.tenant → candidateOf s y.tenant = some y → inClass y = true →
      turnsAfter p c.tenant < turnsAfter p y.tenant) : firstInTurn s p inClass = some c := by
  obtain ⟨before, after, split⟩ := List.append_of_mem (mem_turnAfter p c.tenant)
  have rising := pairwise_turnAfter p
  rw [split] at rising
  have nearer : ∀ x ∈ before, turnsAfter p x < turnsAfter p c.tenant := fun x mem =>
    (List.pairwise_append.mp rising).2.2 x mem c.tenant List.mem_cons_self
  rw [firstInTurn_eq, List.findSome?_eq_some_iff]
  refine ⟨before, c.tenant, after, split, ?_, fun x mem => ?_⟩
  · rw [inTurn, candidate, Option.filter_some, if_pos member]
  · rw [inTurn, Option.filter_eq_none_iff]
    intro y found
    obtain rfl := (mayBeCandidate_of_candidateOf found).1
    intro member'
    have near := nearer _ mem
    exact absurd near (Nat.lt_asymm (first y (fun same => by rw [same] at near; omega) found member'))

/-- A class without a member has nobody to serve. -/
theorem firstInTurn_eq_none {s : State} {p : TenantId} {inClass : Candidate → Bool}
    (none : ∀ y, candidateOf s y.tenant = some y → inClass y = false) : firstInTurn s p inClass = .none := by
  rw [firstInTurn_eq, List.findSome?_eq_none_iff]
  refine fun x _ => Option.filter_eq_none_iff.mpr fun y found => ?_
  obtain rfl := (mayBeCandidate_of_candidateOf found).1
  simp [none y found]

/-! ### The choice -/

/-- Whatever class a grant serves, it serves its tenant's candidate (R83 to R88). -/
theorem chooseRelease_candidate {s : State} {c : Candidate} {k : ReleaseClass} (h : chooseRelease s = some (c, k)) :
    candidateOf s c.tenant = some c := by
  have inTurn : ∀ {p inClass}, firstInTurn s p inClass = some c → candidateOf s c.tenant = some c := fun h => by
    rw [firstInTurn_eq] at h
    obtain ⟨x, -, found⟩ := List.exists_of_findSome?_eq_some h
    obtain ⟨found, -⟩ := Option.filter_eq_some_iff.mp found
    rwa [(mayBeCandidate_of_candidateOf found).1]
  rw [chooseRelease] at h
  split at h
  · rw [chooseGovern] at h
    split at h
    · rename_i aged
      cases h
      exact mem_candidates.mp (List.mem_of_mem_filter (oldest_mem aged))
    · split at h
      · rename_i own
        cases h
        exact inTurn own
      · obtain ⟨_, borrower, e⟩ := Option.map_eq_some_iff.mp h
        cases e
        exact inTurn borrower
  · obtain ⟨_, byAge, e⟩ := Option.map_eq_some_iff.mp h
    cases e
    exact mem_candidates.mp (oldest_mem byAge)

theorem chooseRelease_eligible {s : State} {c : Candidate} {k : ReleaseClass} (h : chooseRelease s = some (c, k)) :
    Eligible s c.tenant c.fromWq c.desc := candidateOf_eligible (chooseRelease_candidate h)

/-- In TRANSPARENT and HOLD the oldest eligible head is chosen (R87, R88). -/
theorem chooseRelease_of_oldest {s : State} {x : TenantId} {fromWq : Bool} {d : Descriptor}
    (mode : s.control.mode ≠ .govern) (eligible : Eligible s x fromWq d)
    (first : ∀ y w e, Eligible s y w e → (y, w) ≠ (x, fromWq) → older d.stamp e.stamp = true) :
    chooseRelease s = some (⟨x, fromWq, d⟩, .byAge) := by
  have candidate : IsCandidate s x fromWq d := ⟨eligible, fun e other => first x _ e other (by simp)⟩
  have chosen : oldest (candidates s) = some ⟨x, fromWq, d⟩ := by
    refine oldest_eq_some (mem_candidates.mpr (candidateOf_of_isCandidate candidate)) fun ⟨y, w, e⟩ mem other => ?_
    have eligible' := candidateOf_eligible (mem_candidates.mp mem)
    refine first y w e eligible' fun same => other ?_
    obtain ⟨rfl, rfl⟩ := Prod.mk.inj same
    exact congrArg _ (Option.some.inj (eligible'.1.symm.trans eligible.1))
  rw [chooseRelease]
  split
  · exact absurd ‹_› mode
  · rw [chosen]; rfl

/-- In GOVERN the oldest aged candidate is chosen first (R83). -/
theorem chooseRelease_of_aged {s : State} {x : TenantId} {fromWq : Bool} {d : Descriptor}
    (mode : s.control.mode = .govern) (candidate : IsCandidate s x fromWq d) (aged : Aged s x d)
    (first : ∀ y w e, y ≠ x → MayBeCandidate s y w e → Aged s y e → older d.stamp e.stamp = true) :
    chooseRelease s = some (⟨x, fromWq, d⟩, .aged) := by
  have presented := candidateOf_of_isCandidate candidate
  have chosen : oldest ((candidates s).filter fun c => headAged s c.tenant c.desc) = some ⟨x, fromWq, d⟩ := by
    refine oldest_eq_some (List.mem_filter.mpr ⟨mem_candidates.mpr presented, (headAged_iff s x d).mpr aged⟩)
      fun y mem other => ?_
    obtain ⟨mem, aged'⟩ := List.mem_filter.mp mem
    have presented' := mem_candidates.mp mem
    refine first y.tenant y.fromWq y.desc (fun same => other ?_) (mayBeCandidate_of_candidateOf presented').2
      ((headAged_iff ..).mp aged')
    rw [same, presented] at presented'
    exact (Option.some.inj presented').symm
  rw [chooseRelease, mode, chooseGovern, chosen]

section
variable {s : State} (mode : s.control.mode = .govern) (unaged : ∀ y w e, MayBeCandidate s y w e → ¬Aged s y e)

include unaged

theorem headAged_of_unaged {y : Candidate} (h : candidateOf s y.tenant = some y) :
    headAged s y.tenant y.desc = false :=
  Bool.eq_false_iff.mpr (mt (headAged_iff ..).mp (unaged _ _ _ (mayBeCandidate_of_candidateOf h).2))

theorem oldest_aged_of_unaged : oldest ((candidates s).filter fun c => headAged s c.tenant c.desc) = none := by
  rw [List.filter_eq_nil_iff.mpr fun y mem => by
    rw [headAged_of_unaged unaged (mem_candidates.mp mem)]; exact Bool.false_ne_true]
  rfl

/-- With no aged candidate the classes are told apart by credit alone (R84, R85). -/
theorem inOwnClass_iff {y : Candidate} (h : candidateOf s y.tenant = some y) :
    inOwnClass s y = true ↔ 1 ≤ (creditAt s y.tenant).credit := by
  simp [inOwnClass, headAged_of_unaged unaged h]

theorem inBorrowerClass_iff {y : Candidate} (h : candidateOf s y.tenant = some y) :
    inBorrowerClass s y = true ↔ (creditAt s y.tenant).credit ≤ 0 := by
  simp [inBorrowerClass, headAged_of_unaged unaged h]

include mode

/-- In GOVERN with no aged candidate, own credit is served in turn (R84). -/
theorem chooseRelease_of_own {x : TenantId} {fromWq : Bool} {d : Descriptor} (candidate : IsCandidate s x fromWq d)
    (credit : 1 ≤ (creditAt s x).credit)
    (first : ∀ y w e, y ≠ x → MayBeCandidate s y w e → 1 ≤ (creditAt s y).credit →
      turnsAfter s.arbiter.ownPointer x < turnsAfter s.arbiter.ownPointer y) :
    chooseRelease s = some (⟨x, fromWq, d⟩, .own) := by
  have presented := candidateOf_of_isCandidate candidate
  have chosen : firstInTurn s s.arbiter.ownPointer (inOwnClass s) = some ⟨x, fromWq, d⟩ :=
    firstInTurn_eq_some presented ((inOwnClass_iff unaged presented).mpr credit) fun y other found member =>
      first _ _ _ other (mayBeCandidate_of_candidateOf found).2 ((inOwnClass_iff unaged found).mp member)
  rw [chooseRelease, mode, chooseGovern, oldest_aged_of_unaged unaged, chosen]

/-- In GOVERN with no aged candidate and no tenant with own credit, borrowers are served in turn (R85). -/
theorem chooseRelease_of_borrower {x : TenantId} {fromWq : Bool} {d : Descriptor} (candidate : IsCandidate s x fromWq d)
    (spent : ∀ y w e, MayBeCandidate s y w e → (creditAt s y).credit ≤ 0)
    (first : ∀ y w e, y ≠ x → MayBeCandidate s y w e →
      turnsAfter s.arbiter.borrowPointer x < turnsAfter s.arbiter.borrowPointer y) :
    chooseRelease s = some (⟨x, fromWq, d⟩, .borrower) := by
  have presented := candidateOf_of_isCandidate candidate
  have broke : ∀ y : Candidate, candidateOf s y.tenant = some y → (creditAt s y.tenant).credit ≤ 0 := fun y found =>
    spent _ _ _ (mayBeCandidate_of_candidateOf found).2
  have noOwn : firstInTurn s s.arbiter.ownPointer (inOwnClass s) = none :=
    firstInTurn_eq_none fun y found => Bool.eq_false_iff.mpr
      (mt (inOwnClass_iff unaged found).mp (Int.not_le.mpr (Int.lt_add_one_of_le (broke y found))))
  have chosen : firstInTurn s s.arbiter.borrowPointer (inBorrowerClass s) = some ⟨x, fromWq, d⟩ :=
    firstInTurn_eq_some presented ((inBorrowerClass_iff unaged presented).mpr (broke _ presented))
      fun y other found _ => first _ _ _ other (mayBeCandidate_of_candidateOf found).2
  rw [chooseRelease, mode, chooseGovern, oldest_aged_of_unaged unaged, noOwn, chosen]
  rfl

end

/-! ### The release -/

/-- A grant that can release makes the choice of the port mode (R81, R82). -/
theorem exec_grant_of_canRelease {s : State} {tag : Fin 256} {c : Candidate} {k : ReleaseClass} (running : Running s)
    (can : CanRelease s tag) (chosen : chooseRelease s = some (c, k)) :
    exec .grant s = .next (release c k tag.val s) := by
  obtain ⟨free, up, lowest⟩ := (canRelease_iff s tag).mp can
  rw [exec_grant, whileRunning_of_running running, takeGrant, if_pos ⟨free, up⟩, lowest, chosen]

theorem countRelease_eq (d : Descriptor) (c : TenantCounters) : countRelease d c = { c with
    readBlocks := if d.kind = .read then c.readBlocks + BitVec.ofNat 32 d.charge else c.readBlocks
    writeBlocks := if d.kind = .read then c.writeBlocks else c.writeBlocks + BitVec.ofNat 32 d.charge
    maxHeadAge := min 255 (max c.maxHeadAge d.age) } := by
  rw [countRelease]
  split <;> rfl

theorem popHead_eq (fromWq : Bool) (u : TenantQueues) : popHead fromWq u =
    if fromWq then { u with wq := u.wq.drop 1 } else { u with rq := u.rq.drop 1 } := by
  rw [popHead, List.drop_one, List.drop_one]

/-- The state in which a release counts the charge: the head's charge paid where GOVERN is in force (R76, R86). -/
def paidFor (c : Candidate) (s : State) : State :=
  if s.control.mode = .govern then payCharge c.tenant c.desc.charge s else s

/-- A release is its payment, its pointer, and what the statements say of every release (R86). -/
theorem release_eq (c : Candidate) (k : ReleaseClass) (tag : Fin 256) (s : State) : release c k tag.val s =
    movePointer c k (released c.tenant c.fromWq c.desc tag (paidFor c s)) := by
  have place : (BitVec.ofNat 8 tag.val).toFin = tag := placeOf_val tag
  have counted : countRelease c.desc = _ := funext (countRelease_eq c.desc)
  have popped : popHead c.fromWq = _ := funext (popHead_eq c.fromWq)
  have paid : payRelease c s = changeCredit c.tenant (countCharge c.desc.charge) (paidFor c s) := rfl
  rw [release, paid, recordRelease, place, counted, popped]
  cases k <;> rfl

theorem paidFor_of_not_govern {s : State} (mode : s.control.mode ≠ .govern) (c : Candidate) : paidFor c s = s :=
  if_neg mode

theorem paidFor_of_credit {s : State} (mode : s.control.mode = .govern) {c : Candidate}
    (credit : 1 ≤ (creditAt s c.tenant).credit) : paidFor c s = paidFromCredit c.tenant c.desc.charge s := by
  rw [paidFor, if_pos mode, payCharge, if_pos credit]
  rfl

theorem paidFor_of_no_credit {s : State} (mode : s.control.mode = .govern) {c : Candidate}
    (credit : (creditAt s c.tenant).credit ≤ 0) : paidFor c s = paidFromSpare c.desc.charge s := by
  rw [paidFor, if_pos mode, payCharge, if_neg (by omega)]
  rfl

end Sys2Proof.Machine

section
open Sys2Proof Sys2Proof.Machine

/-- Settles O21: a grant that releases has the slot free, the link UP, a lowest free tag and an eligible choice. -/
theorem grantWithoutCandidateChangesNothing : Obligations.GrantWithoutCandidateChangesNothing := by
  unfold Obligations.GrantWithoutCandidateChangesNothing
  intro s running blocked
  rw [exec_grant, whileRunning_of_running running]
  refine congrArg _ ((takeGrant_cases s).resolve_right ?_)
  rintro ⟨tag, c, k, free, up, lowest, chosen, -⟩
  rcases blocked with busy | down | used | none
  · exact busy free
  · exact absurd (up.symm.trans down) nofun
  · exact used _ (lowestFreeTag_spec lowest)
  · exact none _ _ _ (chooseRelease_eligible chosen)

/-- Settles O22: the oldest eligible head is chosen by age, and out of GOVERN nothing is paid. -/
theorem oldestEligibleHeadIsReleased : Obligations.OldestEligibleHeadIsReleased := by
  unfold Obligations.OldestEligibleHeadIsReleased
  intro s x fromWq d tag running mode can eligible first
  rw [exec_grant_of_canRelease running can (chooseRelease_of_oldest mode eligible first), release_eq,
    paidFor_of_not_govern mode]
  rfl

/-- Settles O23: the oldest aged candidate is chosen before the classes in turn, and its payment goes by its credit. -/
theorem governServesTheOldestAgedCandidateFirst : Obligations.GovernServesTheOldestAgedCandidateFirst := by
  unfold Obligations.GovernServesTheOldestAgedCandidateFirst
  intro s x fromWq d tag running mode can candidate aged first
  rw [exec_grant_of_canRelease running can (chooseRelease_of_aged mode candidate aged first), release_eq]
  refine ⟨fun credit => ?_, fun credit => ?_⟩
  · rw [paidFor_of_credit mode credit]; rfl
  · rw [paidFor_of_no_credit mode credit]; rfl

/-- Settles O24: with no aged candidate the class is told by credit, and each class serves the first after its pointer. -/
theorem governServesOwnCreditThenBorrowersInTurn : Obligations.GovernServesOwnCreditThenBorrowersInTurn := by
  unfold Obligations.GovernServesOwnCreditThenBorrowersInTurn
  intro s x fromWq d tag running mode can candidate unaged
  refine ⟨fun credit first => ?_, fun credit spent first => ?_⟩
  · rw [exec_grant_of_canRelease running can (chooseRelease_of_own mode unaged candidate credit first), release_eq,
      paidFor_of_credit mode credit]
    rfl
  · rw [exec_grant_of_canRelease running can (chooseRelease_of_borrower mode unaged candidate spent first), release_eq,
      paidFor_of_no_credit mode credit]
    rfl

end
end

