-- ==== Sys2Proof/Proofs/OnlyGrants.lean ====
section
/-! PROOFS. Every command but a grant leaves the Outstanding Table's free places free: an entry in use after it was in use before, and but for its age and orphan mark is as it was (R92 to R94). -/

namespace Sys2Proof.Machine

/-! ### Entries that remain -/

/-- Every entry in use after was in use before under its tag, and but for its age and orphan mark is as it was: nothing has been released. -/
def EntriesRemain (s t : State) : Prop :=
  ∀ k e, t.paths.entries.get k = some e →
    ∃ e' age orphan, s.paths.entries.get k = some e' ∧ e = { e' with age := age, orphan := orphan }

theorem EntriesRemain.of_eq {s t : State} (h : t.paths.entries = s.paths.entries) : EntriesRemain s t :=
  fun _ e he => ⟨e, e.age, e.orphan, h ▸ he, rfl⟩

theorem EntriesRemain.trans {s t u : State} (h : EntriesRemain s t) (h' : EntriesRemain t u) : EntriesRemain s u := by
  intro k e he
  obtain ⟨e', age, orphan, he', rfl⟩ := h' k e he
  obtain ⟨e'', -, -, he'', rfl⟩ := h k e' he'
  exact ⟨e'', age, orphan, he'', rfl⟩

theorem EntriesRemain.of_freed {s t : State} {i : Fin 256}
    (h : t.paths.entries = s.paths.entries.set i none) : EntriesRemain s t := by
  intro k e he
  rw [h, Table.get_set] at he
  split at he
  · cases he
  · exact ⟨e, e.age, e.orphan, he, rfl⟩

theorem EntriesRemain.of_empty {s t : State} (h : ∀ k, t.paths.entries.get k = none) : EntriesRemain s t :=
  fun k _ he => absurd ((h k).symm.trans he) nofun

/-- A place that is free before is free after. -/
theorem EntriesRemain.free {s t : State} (h : EntriesRemain s t) {k : Fin 256} (free : s.paths.entries.get k = none) :
    t.paths.entries.get k = none := by
  cases after : t.paths.entries.get k with
  | none => rfl
  | some e =>
    obtain ⟨e', -, -, before, -⟩ := h k e after
    exact absurd (free.symm.trans before) nofun

/-! ### Drains and discards -/

@[simp] theorem discardAll_entries (x : TenantId) (s : State) : (discardAll x s).paths.entries = s.paths.entries := by
  rw [discardAll_paths]

@[simp] theorem discardWrites_entries (x : TenantId) (s : State) :
    (discardWrites x s).paths.entries = s.paths.entries := by rw [discardWrites_paths]

@[simp] theorem completeDrain_entries (x : TenantId) (s : State) :
    (completeDrain x s).paths.entries = s.paths.entries := by
  rw [completeDrain]
  split <;> simp

@[simp] theorem testDrain_entries (x : TenantId) (s : State) : (testDrain x s).paths.entries = s.paths.entries := by
  rw [testDrain]
  split <;> simp

@[simp] theorem testDrains_entries (s : State) : (testDrains s).paths.entries = s.paths.entries := by
  obtain ⟨-, -, -, refused⟩ := testDrains_spec s
  rw [refused.paths]

@[simp] theorem afterFreeing_entries (s : State) : (afterFreeing s).paths.entries = s.paths.entries := by
  rw [afterFreeing, testSettles_paths, testDrains_entries]

@[simp] theorem beginDrain_entries (x : TenantId) (target : DrainTarget) (s : State) :
    (beginDrain x target s).paths.entries = s.paths.entries := by simp [beginDrain]

@[simp] theorem fenceIfDue_entries (x : TenantId) (s : State) : (fenceIfDue x s).paths.entries = s.paths.entries := by
  rcases fenceIfDue_cases x s with ⟨-, -, e⟩ | ⟨-, e⟩
  · simp [e, fence]
  · rw [e]

@[simp] theorem sweepWrites_entries (x : TenantId) (s : State) : (sweepWrites x s).paths.entries = s.paths.entries := by
  rcases sweepWrites_cases x s with ⟨-, -, e⟩ | ⟨-, e⟩ <;> simp [e]

/-! ### The commands given through CMD -/

theorem onTenant_entries {f : TenantId → State → State × CmdResult}
    (h : ∀ x s, (f x s).1.paths.entries = s.paths.entries) (arg : Byte) (s : State) :
    (onTenant arg f s).1.paths.entries = s.paths.entries := by
  rw [onTenant]
  split
  · rfl
  · exact h _ s

theorem pairSwap_entries (arg : Byte) (s : State) : (pairSwap arg s).1.paths.entries = s.paths.entries := by
  rw [pairSwap]
  split
  · rfl
  · split
    · rfl
    · split
      · rfl
      · simp [swapPair_eq, flipPair]

theorem runCommand_entries (code arg : Byte) (s : State) : (runCommand code arg s).1.paths.entries = s.paths.entries := by
  rw [runCommand]
  split
  · exact onTenant_entries (fun x s => by rw [startTenant]; split <;> [split; skip] <;> simp) arg s
  · exact onTenant_entries (fun x s => by rw [quiesceTenant]; split <;> simp) arg s
  · exact onTenant_entries (fun x s => by rw [stopTenant]; split <;> simp) arg s
  · exact onTenant_entries (fun x s => by rw [resumeTenant]; split <;> simp) arg s
  · exact onTenant_entries (fun x s => by rw [clearTenant]; split <;> simp) arg s
  · exact onTenant_entries (fun x s => by simp [resetTenant]) arg s
  · exact pairSwap_entries arg s
  · rw [modeSet]; split <;> simp
  · simp
  · rfl

theorem commandEvent_entries (code : Byte) (s : State) : (commandEvent code s).paths.entries = s.paths.entries :=
  runCommand_entries code s.port.cmdArg s

theorem issueCommand_entries (code arg : Byte) (s : State) :
    (issueCommand code arg s).paths.entries = s.paths.entries := commandEvent_entries code (commandTaken arg s)

/-! ### Management writes -/

theorem writeDirect_entries (f : DirectField) (v : Nat) (s : State) :
    (writeDirect f v s).paths.entries = s.paths.entries := by
  cases f with
  | cmd => exact commandEvent_entries _ s
  | cto | wf => rfl
  | _ => simp [writeDirect]

theorem writeField_entries (f : Field) (v : Nat) (s : State) :
    (writeField f v s).paths.entries = s.paths.entries := by
  cases f with
  | direct d => exact writeDirect_entries d v s
  | tenant x d => simp [writeField]
  | classifier i d => simp [writeField]
  | pair p d => simp [writeField]
  | counters x d => rfl
  | frames k d => rfl

theorem dataByteWritten_entries (b : Byte) (s : State) : (dataByteWritten b s).paths.entries = s.paths.entries := by
  have written : ∀ s, (writeByteAt b s).paths.entries = s.paths.entries := fun s => by
    rw [writeByteAt]
    split
    · rfl
    · dsimp only
      split
      · rfl
      · exact writeField_entries ..
  exact written _

/-! ### Entries that end or grow older -/

theorem entriesRemain_expireEntry (tag : Byte) (s : State) : EntriesRemain s (expireEntry tag s) :=
  .of_freed (by rw [expireEntry_paths])

theorem entriesRemain_takeResponse (tag : Byte) (kind : ResponseKind) (status : PoolStatus) (data : List Byte)
    (s : State) : EntriesRemain s (takeResponse tag kind status data s) := by
  rcases takeResponse_cases tag kind status data s with ⟨-, e⟩ | ⟨-, -, e⟩ | ⟨entry, -, -, -, e⟩
  · rw [e]; exact .of_eq rfl
  · rw [e]; exact .of_eq rfl
  · rw [e]; exact .of_freed (by rw [afterFreeing_entries, forwardResponse_paths])

theorem entriesRemain_expiryEvent (tag : Byte) (s : State) : EntriesRemain s (expiryEvent tag s) := by
  rw [expiryEvent]
  split
  · exact (entriesRemain_expireEntry tag s).trans (.of_eq (afterFreeing_entries _))
  · exact .of_eq rfl

theorem entriesRemain_frameBoundary (s : State) : EntriesRemain s (frameBoundary s) := by
  intro k e he
  rw [(asDrained_frameBoundary s).paths, (refusals_drainedState s).paths] at he
  obtain ⟨e', before, rfl⟩ := Option.map_eq_some_iff.mp ((expireAtBoundary_entries (struckState s)).2.2 k e he).1
  refine ⟨e', e'.age + 1, e'.orphan, ?_, rfl⟩
  simpa [struckState] using before

theorem entriesRemain_restart (s : State) : EntriesRemain s (restart s) := by
  rw [restart_eq]
  refine EntriesRemain.trans ?_ (entriesRemain_frameBoundary _)
  split <;> exact .of_eq rfl

theorem entriesRemain_switchLinkReset (s : State) : EntriesRemain s (switchLinkReset s) := by
  rcases switchLinkReset_cases s with ⟨-, e⟩ | ⟨-, e⟩
  · rw [e]; exact .of_eq rfl
  · intro k entry he
    rw [e, testDrains_entries, switchReset, orphanAll_emptyQueues, Table.get_map] at he
    obtain ⟨e', before, rfl⟩ := Option.map_eq_some_iff.mp he
    exact ⟨e', e'.age, true, before, rfl⟩

theorem entriesRemain_poolLinkLoss (s : State) : EntriesRemain s (poolLinkLoss s) := by
  cases up : s.links.poolUp with
  | false => rw [poolLinkLoss, if_neg (by simp [up])]; exact .of_eq rfl
  | true =>
    rw [poolLinkLoss_of_up up]
    exact .of_empty fun k => by simp [(losePool_paths s).2.2 k]

theorem takeArrival_entries (q : RequesterId) (tag : Byte) (b : RequestBody) (s : State) :
    (takeArrival q tag b s).paths.entries = s.paths.entries := by
  rw [takeArrival]
  split
  · rcases admission_cases (classify s.classifier q b).1 (classify s.classifier q b).2 q tag b s with
      ⟨-, e⟩ | ⟨-, -, -, e⟩ | ⟨-, -, -, -, e⟩
    · rw [e, refuseArrival_paths]
    · rw [e, retryArrival_paths]
    · rw [e, admitArrival_entries]
  · rfl

/-! ### Every command -/

theorem entriesRemain_whileRunning {f : State → State} {s t : State} (h : whileRunning f s = .next t)
    (hf : EntriesRemain s (f s)) : EntriesRemain s t := by
  rcases whileRunning_cases h with ⟨-, rfl⟩ | ⟨-, rfl⟩
  · exact hf
  · exact .of_eq rfl

/-- No command but a grant fills a free place of the Outstanding Table (R92, R93). -/
theorem exec_entriesRemain {c : Instr} {s t : State} (noGrant : c ≠ .grant) (h : exec c s = .next t) :
    EntriesRemain s t := by
  have ran : ∀ {f : State → State}, whileRunning f s = .next t → (f s).paths.entries = s.paths.entries →
      EntriesRemain s t := fun h same => entriesRemain_whileRunning h (.of_eq same)
  have wrote : ∀ {field : Field} {f : State → State}, (∀ s, (f s).paths.entries = s.paths.entries) →
      whileRunning (fun s => f (dataByteTaken field s)) s = .next t → EntriesRemain s t := fun same h => ran h (same _)
  cases c with
  | grant => exact absurd rfl noGrant
  | arrival q tag b =>
    rw [exec_arrival] at h
    split at h
    · exact ran h (takeArrival_entries q tag b s)
    · cases h
  | poolResponse tag kind status data =>
    exact entriesRemain_whileRunning h (entriesRemain_takeResponse tag kind status data s)
  | frameBoundary => exact entriesRemain_whileRunning h (entriesRemain_frameBoundary s)
  | expiry tag => exact entriesRemain_whileRunning h (entriesRemain_expiryEvent tag s)
  | switchPortLinkReset => exact entriesRemain_whileRunning h (entriesRemain_switchLinkReset s)
  | poolPortLinkLoss => exact entriesRemain_whileRunning h (entriesRemain_poolLinkLoss s)
  | powerOnReset =>
    obtain rfl := Host.Outcome.next.inj h
    exact .of_empty (holdReset_empty .powerOn s).2
  | pinReset =>
    obtain rfl := Host.Outcome.next.inj h
    rw [pinReset]
    split
    · exact .of_eq rfl
    · exact .of_empty (holdReset_empty .pin s).2
  | powerOnRelease straps =>
    obtain rfl := Host.Outcome.next.inj h
    rw [powerOnRelease]
    split
    · exact entriesRemain_restart { s with control.straps := straps, control.cause := .powerOn }
    · exact .of_eq rfl
  | pinResetRelease =>
    obtain rfl := Host.Outcome.next.inj h
    rw [pinResetRelease]
    split
    · exact entriesRemain_restart { s with control.cause := .pin }
    · exact .of_eq rfl
  | haltReqRising =>
    obtain rfl := Host.Outcome.next.inj h
    exact .of_eq (by simp)
  | haltReqFalling =>
    obtain rfl := Host.Outcome.next.inj h
    exact .of_eq rfl
  | fence x => exact ran h (fenceIfDue_entries x s)
  | drainCompletion x => exact ran h (testDrain_entries x s)
  | start | quiesce | stop | resume | clear | tenantReset | pairSwap | modeSet | runtimeReset | unknownCommand =>
    exact ran h (issueCommand_entries _ _ s)
  | managementWrite b =>
    refine ran h ?_
    split
    · exact dataByteWritten_entries b s
    · rfl
  | readSnapshot a | dataByteRead a =>
    refine ran h ?_
    split <;> simp
  | switchPortLinkUp => exact ran (f := fun s => { s with links.switchUp := true }) h rfl
  | poolPortLinkUp => exact ran (f := fun s => { s with links.poolUp := true }) h rfl
  | maximumHeadAgeRead x =>
    rw [exec_maximumHeadAgeRead] at h
    exact ran h (by simp)
  | pairEntryWrite p w =>
    rw [exec_pairEntryWrite] at h
    exact ran h (by simp)
  | haltableWrite x v =>
    rw [exec_haltableWrite] at h
    exact ran h (by simp)
  | linkResetCountClear p v => exact wrote (f := clearLinkCount p) (fun s => by simp) h
  | ctoWrite v => exact wrote (f := writeCto v.toNat) (fun _ => rfl) h
  | wfWrite | pageWrite | indexWrite | statusClear | alertFlagClear | alertEnablesWrite | globalCounterClear | fpWrite
  | capWrite | lpWrite | defaultTenantWrite | floorWrite | qlimWrite | qresWrite | classifierEntryWrite =>
    exact wrote (fun s => by simp) h
  | endOfSend | settling | pressureFall | lendPoint | solveCompletion | pointerByte | i2cStartCondition
  | i2cStopCondition => exact ran h (by simp)

/-! ### What a grant records -/

/-- A descriptor that is not a READ heads a WQ alone (R21, R31). -/
theorem fromWq_of_headOf {s : State} (law : QueueLaw s) {x : TenantId} {fromWq : Bool} {d : Descriptor}
    (head : headOf s x fromWq = some d) (kind : d.kind ≠ .read) : fromWq = true := by
  cases fromWq with
  | true => rfl
  | false =>
    obtain ⟨-, -, -, -, -, -, reads, -⟩ := law.2 x
    exact absurd (reads d (List.mem_of_mem_head? head)) kind

/-- A place that a grant fills holds the entry of an eligible head, under the lowest free tag (R81, R93). -/
theorem takeGrant_fills {s : State} {k : Fin 256} {e : OutstandingEntry} (free : s.paths.entries.get k = none)
    (filled : (takeGrant s).paths.entries.get k = some e) :
    CanRelease s k ∧ ∃ c, e = entryFor c ∧ Eligible s c.tenant c.fromWq c.desc := by
  rcases takeGrant_cases s with same | ⟨tag, c, served, slot, up, lowest, chosen, result⟩
  · rw [same, free] at filled
    cases filled
  · obtain ⟨i, rfl, -⟩ := lowestFreeTag_eq_some_iff.mp lowest
    have place : (BitVec.ofNat 8 i.val).toFin = i := placeOf_val i
    rw [result, release_entries, place, Table.get_set] at filled
    split at filled
    · rename_i here
      obtain rfl := here
      exact ⟨(canRelease_iff s i).mpr ⟨slot, up, lowest⟩, c, (Option.some.inj filled).symm,
        chooseRelease_eligible chosen⟩
    · exact absurd (free.symm.trans filled) nofun

end Sys2Proof.Machine

section
open Sys2Proof Sys2Proof.Machine

/-- Settles O15: every other command leaves free places free, and a grant records an eligible head. -/
theorem onlyGrantsThroughTheGatesRelease : Obligations.OnlyGrantsThroughTheGatesRelease := by
  unfold Obligations.OnlyGrantsThroughTheGatesRelease
  intro c s t k e law next free filled
  by_cases grant : c = .grant
  · subst grant
    rw [exec_grant] at next
    rcases whileRunning_cases next with ⟨-, rfl⟩ | ⟨-, rfl⟩
    · obtain ⟨can, ⟨x, fromWq, d⟩, rfl, eligible⟩ := takeGrant_fills free filled
      obtain ⟨head, ⟨-, -, gate, -⟩, -⟩ := id eligible
      exact ⟨rfl, can, rfl, rfl, fun kind => gate (fromWq_of_headOf law head kind),
        fromWq, d, eligible, rfl, rfl, rfl, rfl⟩
    · exact absurd (free.symm.trans filled) nofun
  · exact absurd (((exec_entriesRemain grant next).free free).symm.trans filled) nofun

end
end

