-- ==== Sys2Proof/Proofs/ReturnPath.lean ====
section
/-! PROOFS. The pool's response and the expiry taken as a command: what each leaves of the entry under its tag, in closed form (R94 to R97, R101). -/

namespace Sys2Proof.Machine

/-! ### Entries answered and freed -/

/-- An answer changes what has left the Switch Port and, for a WRITE, its requester's order list (R95, R101). -/
theorem answerEntry_eq (e : OutstandingEntry) (status : ResponseStatus) (data : List Byte) (s : State) :
    answerEntry e status data s = { s with
      wires.upstream := s.wires.upstream ++
        if s.links.switchUp then [⟨e.kind, e.requester, e.tag, status, data⟩] else []
      paths.orderLists :=
        if e.kind = .write then s.paths.orderLists.modify e.requester.toFin fun l => l.filter (· != e.stamp)
        else s.paths.orderLists } := by
  have sent : sendUp ⟨e.kind, e.requester, e.tag, status, data⟩ s = { s with wires.upstream := s.wires.upstream ++
      if s.links.switchUp then [⟨e.kind, e.requester, e.tag, status, data⟩] else [] } := by
    rw [sendUp]
    split
    · rfl
    · rw [List.append_nil]
  rw [answerEntry, sent]
  rcases endWrite_cases e.kind e.requester e.stamp _ with ⟨write, ended⟩ | ⟨other, ended⟩
  · rw [ended, if_pos write]; rfl
  · rw [ended, if_neg other]

/-- An entry that is no orphan, ended by a response while the Switch Port is UP (R95). -/
theorem forwardResponse_of_live {e : OutstandingEntry} {s : State} (live : e.orphan = false)
    (up : s.links.switchUp = true) (tag : Byte) (status : PoolStatus) (data : List Byte) :
    forwardResponse tag e status data s = { s with
      wires.upstream := s.wires.upstream ++
        [⟨e.kind, e.requester, e.tag, statusOf status, if e.kind = .read ∧ status = .good then data else []⟩]
      paths.entries := s.paths.entries.set tag.toFin none
      paths.orderLists :=
        if e.kind = .write then s.paths.orderLists.modify e.requester.toFin fun l => l.filter (· != e.stamp)
        else s.paths.orderLists
      observe.counters :=
        if status = .mediaFault then
          s.observe.counters.modify e.tenant fun c => { c with mediaFault := c.mediaFault + 1 }
        else s.observe.counters } := by
  rcases forwardResponse_cases tag e status data s with ⟨orphan, -⟩ | ⟨-, rfl, r⟩ | ⟨-, rfl, r⟩
  · exact absurd (live.symm.trans orphan) nofun
  · rw [r, answerEntry_eq, if_pos up]
    simp [freeEntry, statusOf]
  · rw [r, answerEntry_eq, if_pos up]
    simp [freeEntry, countTenant, statusOf]

/-- An orphan ended by a response gives nothing upstream (R96). -/
theorem forwardResponse_of_orphan {e : OutstandingEntry} (orphan : e.orphan = true) (tag : Byte) (status : PoolStatus)
    (data : List Byte) (s : State) : forwardResponse tag e status data s = freeEntry tag s := by
  rw [forwardResponse, if_pos orphan]

section
variable {tag : Byte} {e : OutstandingEntry} {s : State}

/-- An orphan that expires gives nothing upstream (R101). -/
theorem expireEntry_of_orphan (entry : s.paths.entries.get tag.toFin = some e) (orphan : e.orphan = true) :
    expireEntry tag s = raiseAlert .expire (freeEntry tag s) := by
  simp only [expireEntry, entry, orphan, if_true]

/-- An entry that is no orphan expires: answered EXPIRED and counted (R101). -/
theorem expireEntry_of_live (entry : s.paths.entries.get tag.toFin = some e) (live : e.orphan = false) :
    expireEntry tag s = raiseAlert .expire (freeEntry tag
      (countTenant e.tenant (fun c => { c with expired := c.expired + 1 }) (answerEntry e .expired [] s))) := by
  simp only [expireEntry, entry, live, Bool.false_eq_true, if_false]

theorem expiryDue_of_entry (entry : s.paths.entries.get tag.toFin = some e) :
    expiryDue s tag = decide (s.paths.ctoInForce ≤ e.age) := by
  simp only [expiryDue, entry]

/-! ### The two commands -/

/-- An expiry taken while the entry under its tag is due (R94, R101). -/
theorem exec_expiry_of_due (running : Running s) (entry : s.paths.entries.get tag.toFin = some e)
    (due : s.paths.ctoInForce ≤ e.age) : exec (.expiry tag) s = .next (afterFreeing (expireEntry tag s)) := by
  rw [exec_expiry, whileRunning_of_running running, expiryEvent, expiryDue_of_entry entry, if_pos (decide_eq_true due)]

/-- An expiry taken while its tag is free or the entry under it is young. -/
theorem exec_expiry_of_young (running : Running s)
    (young : ∀ e, s.paths.entries.get tag.toFin = some e → e.age < s.paths.ctoInForce) :
    exec (.expiry tag) s = .next s := by
  have notDue : expiryDue s tag = false := by
    cases entry : s.paths.entries.get tag.toFin with
    | none => simp only [expiryDue, entry]
    | some e => simpa [expiryDue_of_entry entry] using young e entry
  rw [exec_expiry, whileRunning_of_running running, expiryEvent, notDue, if_neg Bool.false_ne_true]

theorem answersKind_iff (kind : ResponseKind) (k : Kind) : answersKind kind k = true ↔
    (k = .read ∧ kind = .readData) ∨ (k = .write ∧ kind = .writeAck) ∨ (k = .flush ∧ kind = .flushAck) := by
  cases kind <;> cases k <;> simp [answersKind]

/-- A response that matches the entry under its tag by kind (R10, R94). -/
theorem exec_poolResponse_of_match {kind : ResponseKind} (running : Running s) (up : s.links.poolUp = true)
    (entry : s.paths.entries.get tag.toFin = some e) (matching : answersKind kind e.kind = true) (status : PoolStatus)
    (data : List Byte) :
    exec (.poolResponse tag kind status data) s = .next (afterFreeing (forwardResponse tag e status data s)) := by
  rw [exec_poolResponse, whileRunning_of_running running, takeResponse, if_pos up]
  simp only [entry, matching, if_true]

/-- A response that no entry under its tag waits for is a stray (R97). -/
theorem exec_poolResponse_of_stray {kind : ResponseKind} (running : Running s) (up : s.links.poolUp = true)
    (stray : ∀ e, s.paths.entries.get tag.toFin = some e → answersKind kind e.kind = false) (status : PoolStatus)
    (data : List Byte) : exec (.poolResponse tag kind status data) s = .next (takeStray s) := by
  rw [exec_poolResponse, whileRunning_of_running running]
  rcases takeResponse_cases tag kind status data s with ⟨down, -⟩ | ⟨-, -, taken⟩ | ⟨e, -, entry, matching, -⟩
  · exact absurd (up.symm.trans down) nofun
  · rw [taken]
  · exact absurd ((stray e entry).symm.trans matching) nofun

end

end Sys2Proof.Machine

section
open Sys2Proof Sys2Proof.Machine

/-- Settles O26: a response either matches the entry under its tag, which is an orphan or not, or is a stray. -/
theorem poolResponsesAreForwardedConsumedOrStray : Obligations.PoolResponsesAreForwardedConsumedOrStray := by
  unfold Obligations.PoolResponsesAreForwardedConsumedOrStray
  constructor
  · intro s tag kind status data e running poolUp switchUp entry live read write flush
    have matching : answersKind kind e.kind = true := (answersKind_iff ..).2 <| by
      cases isKind : e.kind with
      | read => exact .inl ⟨rfl, read isKind⟩
      | write => exact .inr (.inl ⟨rfl, write isKind⟩)
      | flush => exact .inr (.inr ⟨rfl, flush isKind⟩)
    rw [exec_poolResponse_of_match running poolUp entry matching, forwardResponse_of_live live switchUp]
    rfl
  · intro s tag kind status data running answers
    refine ⟨fun poolUp stray => ?_, fun e poolUp entry matching orphan => ?_⟩
    · exact exec_poolResponse_of_stray running poolUp
        (fun e entry => Bool.eq_false_iff.2 (mt (answersKind_iff ..).1 (stray e entry))) status data
    · rw [exec_poolResponse_of_match running poolUp entry ((answersKind_iff ..).2 matching),
        forwardResponse_of_orphan orphan]
      rfl

/-- Settles O34: a due entry expires as an orphan or with its answer, and no other tag is due. -/
theorem expiryEndsADueEntry : Obligations.ExpiryEndsADueEntry := by
  unfold Obligations.ExpiryEndsADueEntry
  intro s tag running
  refine ⟨exec_expiry_of_young running, fun e entry due => ?_⟩
  refine ⟨fun orphan => ?_, fun live => ?_⟩
  · rw [exec_expiry_of_due running entry due, expireEntry_of_orphan entry orphan]
    rfl
  · rw [exec_expiry_of_due running entry due, expireEntry_of_live entry live, answerEntry_eq]
    rfl

end
end

