-- ==== Sys2Proof/Proofs/BoundaryExpiries.lean ====
section
/-! PROOFS. What a frame boundary's expiries leave: the entries that stay, the EXPIRED counters, the EXPIRE flag and the order lists (R99 to R101, R104). -/

namespace Sys2Proof.Machine

/-! ### The entries -/

/-- A boundary leaves alone the place of an entry that is still young once it has aged (R100). -/
theorem expireAtBoundary_get_of_young {s : State} {k : Fin 256}
    (young : ∀ e, (s.paths.entries.get k).map ageEntry = some e → e.age < s.paths.cto) :
    (expireAtBoundary s).paths.entries.get k = (s.paths.entries.get k).map ageEntry := by
  refine foldl_preserves (fun (u : State) (c : Nat × OutstandingEntry) => expireEntry (BitVec.ofNat 8 c.1) u)
    (fun u => u.paths.entries.get k = (s.paths.entries.get k).map ageEntry) _ (fun u c due kept => ?_) (ageEntries s)
    (Table.get_map ..)
  obtain ⟨used, old⟩ := List.mem_filter.1 due
  have apart : placeOf c.1 ≠ k := by
    rintro rfl
    have aged := (Table.get_map ..).symm.trans (mem_entriesInUse used).2
    exact Nat.not_le.2 (young c.2 aged) (of_decide_eq_true old)
  exact (expireEntry_get_of_ne apart u).trans kept

/-- The entries that a boundary leaves are exactly those one boundary older that have not reached the stored CTO (R100, R101). -/
theorem expireAtBoundary_get (s : State) (k : Fin 256) : (expireAtBoundary s).paths.entries.get k =
    ((s.paths.entries.get k).map ageEntry).filter fun e => e.age < s.paths.cto := by
  have left := (expireAtBoundary_entries s).2.2 k
  cases aged : (s.paths.entries.get k).map ageEntry with
  | none => exact Option.eq_none_iff_forall_ne_some.2 fun e stays => nomatch aged.symm.trans (left e stays).1
  | some e =>
    by_cases young : e.age < s.paths.cto
    · rw [expireAtBoundary_get_of_young fun e' aged' => Option.some.inj (aged.symm.trans aged') ▸ young, aged,
        Option.filter_some, decide_eq_true young, if_pos rfl]
    · rw [Option.filter_some, decide_eq_false young, if_neg Bool.false_ne_true]
      refine Option.eq_none_iff_forall_ne_some.2 fun e' stays => young ?_
      obtain ⟨aged', young'⟩ := left e' stays
      exact Option.some.inj (aged.symm.trans aged') ▸ young'

theorem frameBoundary_entries (s : State) (k : Fin 256) : (frameBoundary s).paths.entries.get k =
    ((s.paths.entries.get k).map ageEntry).filter fun e => e.age < s.paths.cto := by
  have struck : (struckState s).paths = s.paths := by simp [struckState]
  rw [(asDrained_frameBoundary s).paths, (refusals_drainedState s).paths, expiredState, expireAtBoundary_get, struck]

theorem frameBoundary_ctoInForce (s : State) : (frameBoundary s).paths.ctoInForce = s.paths.cto := by
  have struck : (struckState s).paths = s.paths := by simp [struckState]
  rw [(asDrained_frameBoundary s).paths, (refusals_drainedState s).paths, expiredState,
    (expireAtBoundary_entries _).2.1, struck]

/-! ### The EXPIRED counters and the EXPIRE flag -/

/-- Entries that expired in order, as the Observation block shows them: each that is no orphan counted for its tenant, and EXPIRE set by any (R101). -/
structure Noted (es : List OutstandingEntry) (s u : State) : Prop where
  expired : ∀ x, (u.observe.counters.get x).expired = (s.observe.counters.get x).expired +
    BitVec.ofNat 32 (es.countP fun e => e.tenant == x && !e.orphan)
  flag : alertSet .expire u = true ↔ alertSet .expire s = true ∨ es ≠ []

theorem Noted.cons {e : OutstandingEntry} {es : List OutstandingEntry} {s u v : State} (h : Noted [e] s u)
    (h' : Noted es u v) : Noted (e :: es) s v where
  expired x := by
    rw [h'.expired, h.expired, BitVec.add_assoc, ← BitVec.ofNat_add, ← List.countP_append, List.singleton_append]
  flag := by simp [h'.flag, h.flag]

theorem alertSet_raiseAlert_self (f : AlertFlag) (s : State) : alertSet f (raiseAlert f s) = true := by
  have bit : ∀ flags : BitVec 7, ((flags ||| alertBit f) &&& alertBit f != 0) = true := by cases f <;> decide
  exact bit s.observe.flags

theorem noted_expireEntry {tag : Byte} {e : OutstandingEntry} {s : State}
    (entry : s.paths.entries.get tag.toFin = some e) : Noted [e] s (expireEntry tag s) := by
  cases orphan : e.orphan with
  | true =>
    rw [expireEntry_of_orphan entry orphan]
    exact ⟨fun x => by simp [orphan], by simp [alertSet_raiseAlert_self]⟩
  | false =>
    rw [expireEntry_of_live entry orphan]
    refine ⟨fun x => ?_, by simp [alertSet_raiseAlert_self]⟩
    by_cases hx : e.tenant = x
    · simp [hx, orphan]
    · simp [hx]

/-- Entries under different tags expire one after another. -/
theorem noted_foldl {l : List (Nat × OutstandingEntry)} {s : State}
    (entries : ∀ c ∈ l, s.paths.entries.get (placeOf c.1) = some c.2)
    (apart : l.Pairwise fun c d => placeOf c.1 ≠ placeOf d.1) :
    Noted (l.map (·.2)) s (l.foldl (fun s c => expireEntry (BitVec.ofNat 8 c.1) s) s) := by
  induction l generalizing s with
  | nil => exact ⟨fun _ => by simp, by simp⟩
  | cons c l ih =>
    obtain ⟨hc, hl⟩ := List.pairwise_cons.1 apart
    refine (noted_expireEntry (entries c (by simp))).cons (ih (fun d hd => ?_) hl)
    rw [expireEntry_get_of_ne (hc d hd)]
    exact entries d (by simp [hd])

/-- The entries in use stand under different tags. -/
theorem pairwise_entriesInUse (s : State) :
    (entriesInUse s).Pairwise fun c d => placeOf c.1 ≠ placeOf d.1 := by
  refine (pairwise_entriesFrom 0 _).imp_of_mem fun {c d} hc hd hlt heq => ?_
  have place : ∀ c ∈ entriesInUse s, (placeOf c.1).val = c.1 := fun c hc =>
    congrArg Fin.val (placeOf_val ⟨c.1, (mem_entriesInUse hc).1⟩)
  have same := congrArg Fin.val heq
  rw [place c hc, place d hd] at same
  exact Nat.ne_of_lt hlt same

theorem noted_expireAtBoundary (s : State) : Noted (expiringEntries s) s (expireAtBoundary s) := by
  have folded := noted_foldl (s := ageEntries s)
    (l := (entriesInUse (ageEntries s)).filter fun c => s.paths.cto ≤ c.2.age)
    (fun c hc => (mem_entriesInUse (List.mem_of_mem_filter hc)).2) ((pairwise_entriesInUse _).filter _)
  rw [dueEntries_eq] at folded
  obtain ⟨expired, flag⟩ := folded
  refine ⟨fun x => ?_, ?_⟩
  · refine (expired x).trans ?_
    rw [List.countP_map]
    rfl
  · rw [Ne, List.map_eq_nil_iff] at flag
    exact flag

/-- The expiries of a boundary are noted; its ageing and strikes before them note none. -/
theorem noted_expiredState (s : State) : Noted (expiringEntries s) s (expiredState s) := by
  have paths : (struckState s).paths = s.paths := by simp [struckState]
  have same : expiringEntries (struckState s) = expiringEntries s := by rw [expiringEntries, expiringEntries, paths]
  obtain ⟨expired, flag⟩ := noted_expireAtBoundary (struckState s)
  rw [same] at expired flag
  refine ⟨fun x => ?_, ?_⟩
  · rw [expiredState, expired, struckState_counters]
    rfl
  · rw [expiredState, flag, alertSet_struckState (f := .expire) nofun]

theorem noted_frameBoundary (s : State) : Noted (expiringEntries s) s (frameBoundary s) := by
  obtain ⟨expired, flag⟩ := noted_expiredState s
  refine ⟨fun x => ?_, ?_⟩
  · rw [(asDrained_frameBoundary s).counters, (refusals_drainedState s).counters]
    exact expired x
  · have loaded : alertSet .expire (frameBoundary s) = alertSet .expire (loadedState s) := rfl
    have ready : alertSet .expire (readyState s) = alertSet .expire (drainedState s) :=
      alertSet_congr (by simp [readyState]) .expire
    have drained : alertSet .expire (drainedState s) = alertSet .expire (expiredState s) :=
      foldl_keeps drainAtBoundary (alertSet .expire) (alertSet_drainAtBoundary (f := .expire) nofun) _ _
    rw [loaded, loadedState, alertSet_loadBoundary (f := .expire) nofun, ready, drained, flag]

/-! ### The order lists -/

theorem isLiveWrite_iff {q : Fin 64} {x : Stamp} {e : OutstandingEntry} : isLiveWrite q x e = true ↔
    e.kind = .write ∧ e.orphan = false ∧ e.requester.toFin = q ∧ e.stamp = x := by
  simp [isLiveWrite, and_assoc]

theorem holdsWrite_iff {ds : List Descriptor} {q : Fin 64} {x : Stamp} : holdsWrite ds q x = true ↔
    ∃ d ∈ ds, d.kind = .write ∧ d.requester.toFin = q ∧ d.stamp = x := by
  simp [holdsWrite, and_assoc]

/-- What a boundary refuses of a tenant was queued before it, and leaves the tenant's queue empty. -/
theorem mem_boundaryRefusals {s : State} {y : TenantId} {d : Descriptor} (refused : d ∈ boundaryRefusals s y) :
    d ∈ queuedOf (queuesAt s y) ∧ queuedOf (queuesAt (frameBoundary s) y) = [] := by
  rw [boundaryRefusals] at refused
  split at refused
  · rename_i ends
    exact ⟨(byStamp_perm _).mem_iff.1 refused, (frameBoundary_emptied ends).1⟩
  · exact absurd refused List.not_mem_nil

/-- A stamp leaves its order list over a boundary with its WRITE, which expired or was refused (R104). -/
theorem frameBoundary_lists_left {s : State} {q : Fin 64} {x : Stamp} (listed : x ∈ s.paths.orderLists.get q)
    (left : x ∉ (frameBoundary s).paths.orderLists.get q) :
    (∃ e ∈ expiringEntries s, isLiveWrite q x e = true) ∨ ∃ y, holdsWrite (boundaryRefusals s y) q x = true := by
  rw [frameBoundary_lists, List.mem_filter, and_iff_right listed, Bool.not_eq_true, Bool.and_eq_false_iff,
    Bool.not_eq_false', Bool.not_eq_false', List.any_eq_true, List.any_eq_true] at left
  exact left.imp_right fun ⟨y, _, holds⟩ => ⟨y, holds⟩

end Sys2Proof.Machine

section
open Sys2Proof Sys2Proof.Machine

/-- Settles O32: the boundary's expiries by what they leave of each entry, and what its refusals add after them. -/
theorem boundaryExpiresOldEntries : Obligations.BoundaryExpiresOldEntries := by
  unfold Obligations.BoundaryExpiresOldEntries
  intro s running
  obtain ⟨expired, flag⟩ := noted_frameBoundary s
  refine ⟨frameBoundary s, by rw [exec_frameBoundary, whileRunning_of_running running], frameBoundary_ctoInForce s,
    fun k => ?_, ⟨if s.links.switchUp then (List.finRange 24).flatMap fun x => (boundaryRefusals s x).map refusal else [],
      fun r sent => ?_, ?_⟩, expired, fun q => ?_, fun e expires live write => ?_, fun q x listed left => ?_, flag⟩
  · rw [frameBoundary_entries]
    cases s.paths.entries.get k with
    | none => rfl
    | some e =>
      rcases Nat.lt_or_ge (e.age + 1) s.paths.cto with young | due
      · simp [ageEntry, young, Nat.not_le.2 young]
      · simp [ageEntry, due]
  · split at sent
    · obtain ⟨x, -, sent⟩ := List.mem_flatMap.1 sent
      obtain ⟨d, -, rfl⟩ := List.mem_map.1 sent
      exact ⟨rfl, rfl⟩
    · exact absurd sent List.not_mem_nil
  · rw [frameBoundary_wires]
    cases s.links.switchUp <;> simp
  · rw [frameBoundary_lists]
    exact List.filter_sublist
  · have ended : (expiringEntries s).any (isLiveWrite e.requester.toFin e.stamp) = true :=
      List.any_eq_true.2 ⟨e, expires, isLiveWrite_iff.2 ⟨write, live, rfl, rfl⟩⟩
    simp [frameBoundary_lists, ended]
  · rcases frameBoundary_lists_left listed left with ⟨e, expires, ends⟩ | ⟨y, holds⟩
    · exact .inl ⟨e, expires, isLiveWrite_iff.1 ends⟩
    · obtain ⟨d, refused, isWrite⟩ := holdsWrite_iff.1 holds
      obtain ⟨queued, emptied⟩ := mem_boundaryRefusals refused
      exact .inr ⟨y, emptied, d, queued, isWrite⟩

end
end

