-- ==== Sys2Proof/Proofs/BoundaryStrikes.lean ====
section
/-! PROOFS. Strikes, demotion and DEMOTE over a frame boundary (R129, R130, R163). -/

namespace Sys2Proof.Machine

/-! ### One record -/

/-- Ageing leaves what the strike count reads: the retry mark, and whether a queue is empty (R129). -/
theorem strikesAfter_ageQueues (u : TenantQueues) (n : Nat) : strikesAfter (ageQueues u) n =
    if u.retryMark = true then min 255 (n + 1) else if u.rq = [] ∧ u.wq = [] then n - 1 else n := by
  simp only [strikesAfter, ageQueues, List.isEmpty_iff, List.map_eq_nil_iff]

/-- A demoted flag is set at STRIKE_TH (R130). -/
theorem strikeRecord_sets_demoted {u : TenantQueues} {r : TenantRecord} (ordinary : r.demoted = false) :
    (strikeRecord u r).demoted = true ↔
      r.attrs.demotable = true ∧ r.strikeTh ≠ 0 ∧ r.strikeTh ≤ (strikeRecord u r).strikes := by
  simp [strikeRecord, demotedAfter, ordinary, and_assoc]

/-- A demoted flag is cleared at 0 strikes or on withdrawal (R130). -/
theorem strikeRecord_clears_demoted {u : TenantQueues} {r : TenantRecord} (demoted : r.demoted = true) :
    (strikeRecord u r).demoted = false ↔
      (strikeRecord u r).strikes = 0 ∨ r.attrs.demotable = false ∨ r.strikeTh = 0 := by
  rw [strikeRecord, demotedAfter, if_pos (by exact demoted), Bool.not_eq_false']
  simp [or_assoc]

/-! ### The boundary -/

theorem struckState_recordAt (s : State) (x : TenantId) :
    recordAt (struckState s) x = strikeRecord (ageQueues (queuesAt s x)) (recordAt s x) := by
  have aged : queuesAt (ageBoundary (openFrame s)) x = ageQueues (queuesAt s x) := Table.get_map ..
  rw [struckState, strikeBoundary_recordAt, aged]
  rfl

/-- A boundary makes no change to strikes and demotion but its strike update. -/
theorem frameBoundary_struck (s : State) (x : TenantId) :
    (recordAt (frameBoundary s) x).strikes = (recordAt (struckState s) x).strikes ∧
      (recordAt (frameBoundary s) x).demoted = (recordAt (struckState s) x).demoted := by
  rw [frameBoundary_record, drainedState_record, ← expiredState_record]
  exact drainedRecord_strikes (expiredState s) x

/-! ### DEMOTE -/

/-- The strike update sets DEMOTE where it sets a demoted flag, and nowhere else (R130). -/
theorem alertSet_demote_strikeBoundary (s : State) : alertSet .demote (strikeBoundary s) = true ↔
    alertSet .demote s = true ∨
      ∃ x, (recordAt s x).demoted = false ∧ (recordAt (strikeBoundary s) x).demoted = true := by
  have sets : ((List.finRange 24).any fun x =>
      ((Table.build fun t => strikeRecord (queuesAt s t) (recordAt s t)).get x).demoted && !(recordAt s x).demoted) =
        true ↔ ∃ x, (recordAt s x).demoted = false ∧ (recordAt (strikeBoundary s) x).demoted = true := by
    simp [strikeBoundary_recordAt, and_comm]
  rw [← sets]
  dsimp only [strikeBoundary]
  split
  · next raised => exact iff_of_true (alertSet_raiseAlert_self ..) (.inr raised)
  · next quiet => exact (or_iff_left quiet).symm

theorem alertSet_demote_struckState (s : State) : alertSet .demote (struckState s) = true ↔
    alertSet .demote s = true ∨
      ∃ x, (recordAt s x).demoted = false ∧ (recordAt (struckState s) x).demoted = true :=
  alertSet_demote_strikeBoundary (ageBoundary (openFrame s))

theorem alertSet_demote_frameBoundary (s : State) :
    alertSet .demote (frameBoundary s) = alertSet .demote (struckState s) := by
  have loaded : alertSet .demote (frameBoundary s) = alertSet .demote (loadedState s) := rfl
  have ready : alertSet .demote (readyState s) = alertSet .demote (drainedState s) :=
    alertSet_congr (by simp [readyState]) .demote
  have drained : alertSet .demote (drainedState s) = alertSet .demote (expiredState s) :=
    foldl_keeps drainAtBoundary (alertSet .demote) (alertSet_drainAtBoundary (f := .demote) nofun) _ _
  rw [loaded, loadedState, alertSet_loadBoundary (f := .demote) nofun, ready, drained, expiredState,
    alertSet_expireAtBoundary (f := .demote) nofun]

end Sys2Proof.Machine

section
open Sys2Proof Sys2Proof.Machine

/-- Settles O31: strikes and demotion are those of the strike update, which no later step of the boundary touches. -/
theorem boundaryCountsStrikesAndDemotes : Obligations.BoundaryCountsStrikesAndDemotes := by
  unfold Obligations.BoundaryCountsStrikesAndDemotes
  intro s running
  refine ⟨frameBoundary s, whileRunning_of_running running _, fun x => ?_, ?_⟩
  · obtain ⟨strikes, demoted⟩ := frameBoundary_struck s x
    rw [struckState_recordAt] at strikes demoted
    dsimp only
    rw [demoted, strikes]
    exact ⟨strikesAfter_ageQueues _ _, strikeRecord_sets_demoted, strikeRecord_clears_demoted⟩
  · simp only [alertSet_demote_frameBoundary, (frameBoundary_struck s _).2]
    exact alertSet_demote_struckState s

end
end

