-- ==== Sys2Proof/Proofs/HaltLines.lean ====
section
/-! PROOFS. The edges of HALT_REQ and the level on HALT_ACK (R126, R141, R143). -/

namespace Sys2Proof.Machine

theorem riseHalt_of_low {s : State} (running : Running s) (low : s.pairHalt.haltReq = false) :
    riseHalt s = assertHalt { s with pairHalt.haltReq := true } := by
  rw [riseHalt, if_neg (by simp [low])]
  exact if_pos running

theorem riseHalt_of_high {s : State} (high : s.pairHalt.haltReq = true) : riseHalt s = s := if_pos high

theorem haltAck_iff (s : State) : haltAck s = true ↔ s.pairHalt.haltCondition = true ∧
    ∀ x, (recordAt s x).attrs.haltable = true → outstandingCount s x = 0 := by
  simp [haltAck, ← Bool.not_eq_true, imp_iff_not_or]

/-- No HALTABLE tenant has anything outstanding exactly when no entry in use names one (R108, R143). -/
theorem haltable_outstanding_iff (s : State) :
    (∀ x, (recordAt s x).attrs.haltable = true → outstandingCount s x = 0) ↔
      ∀ k e, s.paths.entries.get k = some e → (recordAt s e.tenant).attrs.haltable = false := by
  simp only [outstandingCount_eq_zero]
  constructor
  · intro clear k e entry
    exact Bool.eq_false_iff.2 fun haltable => clear e.tenant haltable k e entry rfl
  · rintro ordinary x haltable k e entry rfl
    exact absurd ((ordinary k e entry).symm.trans haltable) nofun

end Sys2Proof.Machine

section
open Sys2Proof Sys2Proof.Machine

/-- Settles O43: an edge by the level before it, and the acknowledgement by the entries in use. -/
theorem haltLinesAndAcknowledgement : Obligations.HaltLinesAndAcknowledgement := by
  unfold Obligations.HaltLinesAndAcknowledgement
  refine ⟨fun s running => ⟨fun low => ?_, fun high => ?_, exec_haltReqFalling s⟩, fun s => ?_⟩
  · rw [exec_haltReqRising, riseHalt_of_low running low]
    rfl
  · rw [exec_haltReqRising, riseHalt_of_high high]
  · rw [haltAck_iff, haltable_outstanding_iff]

end
end

