-- ==== Sys2Proof/Proofs/QuiesceStop.lean ====
section
/-! PROOFS. QUIESCE and STOP of a tenant that is not QUIESCED: the drain that begins, and the one that ends at once (R117, R119, R120, R124, R126, R173). -/

namespace Sys2Proof

theorem Table.modify_modify {α : Type} {n : Nat} (t : Table α n) (i : Fin n) (f g : α → α) :
    (t.modify i f).modify i g = t.modify i fun a => g (f a) := by
  refine Table.ext_get fun j => ?_
  by_cases same : i = j
  · subst same; simp
  · simp [same]

/-- A change of one entry is told by what it makes of that entry. -/
theorem Table.modify_congr {α : Type} {n : Nat} {t : Table α n} {i : Fin n} {f g : α → α}
    (h : f (t.get i) = g (t.get i)) : t.modify i f = t.modify i g := congrArg (t.set i) h

theorem Table.modify_eq_self {α : Type} {n : Nat} {t : Table α n} {i : Fin n} {f : α → α}
    (h : f (t.get i) = t.get i) : t.modify i f = t := by
  refine Table.ext_get fun j => ?_
  rw [Table.get_modify]
  split
  · next same => rw [← same, h]
  · rfl

end Sys2Proof

namespace Sys2Proof.Machine

/-! ### The drain of a tenant that holds nothing -/

theorem discardAll_of_nothingQueued {x : TenantId} {s : State} (noneQueued : queuedOf (queuesAt s x) = []) :
    discardAll x s = s := by
  obtain ⟨rq, wq⟩ := List.append_eq_nil_iff.1 noneQueued
  have queues : (s.admission.queues.modify x fun q => { q with rq := [], wq := [] }) = s.admission.queues :=
    Table.modify_eq_self (congrArg₂ (fun r w => { queuesAt s x with rq := r, wq := w }) rq.symm wq.symm)
  rw [discardAll, noneQueued, changeQueues, queues]
  rfl

/-- With nothing queued, completing a drain changes its tenant's record alone (R125). -/
theorem completeDrain_of_nothingQueued {x : TenantId} {s : State} (noneQueued : queuedOf (queuesAt s x) = []) :
    completeDrain x s = changeRecord x endedRecord s := by
  have told : ∀ f : TenantRecord → TenantRecord, f (recordAt s x) = endedRecord (recordAt s x) →
      changeRecord x f s = changeRecord x endedRecord s := fun f h => by
    rw [changeRecord, changeRecord, Table.modify_congr h]
  rw [completeDrain]
  split
  · next off =>
    rw [discardAll_of_nothingQueued noneQueued]
    exact told _ (by rw [endedRecord, off])
  · next quiesced => exact told _ (by rw [endedRecord, quiesced])
  · next untargeted =>
    rw [← told id (by rw [endedRecord, untargeted, id])]
    exact congrArg (fun records => { s with records := records }) (Table.modify_eq_self (f := id) rfl).symm

/-! ### The beginning of a drain -/

/-- A record as its drain begins: the mark at the next stamp, the clock 0, the pause mark set (R119, R120, R126). -/
def drainOpened (target : DrainTarget) (next : Stamp) (r : TenantRecord) : TenantRecord :=
  { r with state := .draining, target := target, drainMark := next, drainClock := 0, pauseMark := true }

section

variable {x : TenantId} {s : State}

theorem beginDrain_eq (x : TenantId) (target : DrainTarget) (s : State) : beginDrain x target s =
    testDrain x (changeRecord x (drainOpened target s.admission.nextStamp) s) := rfl

theorem drainFinished_drainOpened (target : DrainTarget) (next : Stamp) :
    DrainFinished (changeRecord x (drainOpened target next) s) x ↔
      (∀ d ∈ queuedOf (queuesAt s x), d.parked = true) ∧ outstandingCount s x = 0 := by
  have draining : (recordAt (changeRecord x (drainOpened target next) s) x).state = .draining := by
    rw [recordAt_changeRecord, if_pos rfl]; rfl
  rw [DrainFinished, and_iff_right draining, outstandingCount_eq_zero]
  rfl

/-- A tenant that holds something drains (R119, R120). -/
theorem beginDrain_of_holding
    (holds : (∃ d ∈ queuedOf (queuesAt s x), d.parked = false) ∨ outstandingCount s x ≠ 0) (target : DrainTarget) :
    beginDrain x target s = changeRecord x (drainOpened target s.admission.nextStamp) s := by
  rw [beginDrain_eq, testDrain, if_neg]
  rw [drainDone_iff, drainFinished_drainOpened]
  rintro ⟨parked, clear⟩
  obtain ⟨d, queued, ordinary⟩ | outstanding := holds
  · exact absurd ((parked d queued).symm.trans ordinary) nofun
  · exact outstanding clear

/-- The drain of a tenant that holds nothing ends as it begins (R124). -/
theorem beginDrain_of_empty (noneQueued : queuedOf (queuesAt s x) = []) (clear : outstandingCount s x = 0)
    (target : DrainTarget) : beginDrain x target s =
      changeRecord x (fun r => endedRecord (drainOpened target s.admission.nextStamp r)) s := by
  have finished : DrainFinished (changeRecord x (drainOpened target s.admission.nextStamp) s) x :=
    (drainFinished_drainOpened ..).2 ⟨by simp [noneQueued], clear⟩
  rw [beginDrain_eq, testDrain, if_pos ((drainDone_iff ..).2 finished),
    completeDrain_of_nothingQueued (s := changeRecord x _ s) noneQueued, changeRecord, changeRecord, changeRecord, Table.modify_modify]

/-! ### The commands -/

theorem quiesceTenant_of_active (active : (recordAt s x).state = .active) :
    quiesceTenant x s = (beginDrain x .quiesced s, .ok) := if_pos active

theorem quiesceTenant_of_not_active (other : (recordAt s x).state ≠ .active) : quiesceTenant x s = (s, .wrongState) :=
  if_neg other

theorem stopTenant_of_active (active : (recordAt s x).state = .active) :
    stopTenant x s = (beginDrain x .off s, .ok) := by
  rw [stopTenant, active]

theorem stopTenant_of_other (notActive : (recordAt s x).state ≠ .active)
    (notQuiesced : (recordAt s x).state ≠ .quiesced) : stopTenant x s = (s, .wrongState) := by
  rw [stopTenant]
  split
  · exact absurd ‹_› notActive
  · exact absurd ‹_› notQuiesced
  · rfl

variable {u : State} {arg : Byte} {result : CmdResult}

/-- A QUIESCE row of a running part, from what QUIESCE makes of the tenant it names. -/
theorem exec_quiesce_of_tenant (running : Running s) (named : arg.toNat = x.val)
    (effect : quiesceTenant x (commandTaken arg s) = (u, result)) :
    exec (.quiesce arg) s = .next (withResult 2 result u) := by
  have run : runCommand 2 arg (commandTaken arg s) = (u, result) := (onTenant_of_val named quiesceTenant _).trans effect
  rw [exec_quiesce, whileRunning_of_running running, issueCommand_of_run run]

/-- A STOP row of a running part, from what STOP makes of the tenant it names. -/
theorem exec_stop_of_tenant (running : Running s) (named : arg.toNat = x.val)
    (effect : stopTenant x (commandTaken arg s) = (u, result)) :
    exec (.stop arg) s = .next (withResult 3 result u) := by
  have run : runCommand 3 arg (commandTaken arg s) = (u, result) := (onTenant_of_val named stopTenant _).trans effect
  rw [exec_stop, whileRunning_of_running running, issueCommand_of_run run]

end

end Sys2Proof.Machine

section
open Sys2Proof Sys2Proof.Machine

/-- Settles O45: what the tenant holds decides whether the test made as its drain begins ends it. -/
theorem quiesceAndStopBeginDrains : Obligations.QuiesceAndStopBeginDrains := by
  unfold Obligations.QuiesceAndStopBeginDrains
  intro s arg x running named u drained ended holds empty
  have quiesces : ∀ {v}, (recordAt s x).state = .active → beginDrain x .quiesced u = v →
      exec (.quiesce arg) s = .next (withResult 2 .ok v) := fun active begun =>
    exec_quiesce_of_tenant running named (begun ▸ quiesceTenant_of_active active)
  have stops : ∀ {v}, (recordAt s x).state = .active → beginDrain x .off u = v →
      exec (.stop arg) s = .next (withResult 3 .ok v) := fun active begun =>
    exec_stop_of_tenant running named (begun ▸ stopTenant_of_active active)
  refine ⟨fun active holding => ?_, fun active ⟨noneQueued, clear⟩ => ?_, fun other => ?_,
    fun notActive notQuiesced => ?_⟩
  · have begun := beginDrain_of_holding (s := u) holding
    exact ⟨quiesces active (begun .quiesced), stops active (begun .off)⟩
  · have begun := beginDrain_of_empty (s := u) noneQueued clear
    exact ⟨quiesces active (begun .quiesced), stops active (begun .off)⟩
  · exact exec_quiesce_of_tenant running named (quiesceTenant_of_not_active other)
  · exact exec_stop_of_tenant running named (stopTenant_of_other notActive notQuiesced)

end
end

