-- ==== Sys2Proof/Proofs/ModesAndBadArguments.lean ====
section
/-! PROOFS. MODE_SET, and the commands whose argument or code names nothing (R117, R126, R137, R147, R149, R173). -/

namespace Sys2Proof.Machine

/-! ### MODE_SET -/

/-- A MODE_SET row of a running part, from what MODE_SET makes of the state and its result. -/
theorem exec_modeSet_of_effect {arg : Byte} {result : CmdResult} {s u : State} (running : Running s)
    (effect : modeSet arg (commandTaken arg s) = (u, result)) :
    exec (.modeSet arg) s = .next (withResult 8 result u) := by
  have run : runCommand 8 arg (commandTaken arg s) = (u, result) := effect
  rw [exec_modeSet, whileRunning_of_running running, issueCommand_of_run run]

theorem modeSet_of_other {arg : Byte} (not1 : arg ≠ 1) (not2 : arg ≠ 2) (not3 : arg ≠ 3) (s : State) :
    modeSet arg s = (s, .badArg) := by
  rw [modeSet]
  split
  · exact absurd (BitVec.eq_of_toNat_eq ‹_›) not1
  · exact absurd (BitVec.eq_of_toNat_eq ‹_›) not2
  · exact absurd (BitVec.eq_of_toNat_eq ‹_›) not3
  · rfl

theorem modeSet_hold (s : State) : modeSet 3 s = (enterHold s, .ok) := rfl

/-- HOLD given again only cancels a pending mode (R147). -/
theorem enterHold_of_hold {s : State} (hold : s.control.mode = .hold) :
    enterHold s = { s with control.pendingMode := .none } := by
  rw [enterHold, if_pos hold, ← hold]

theorem enterHold_of_not_hold {s : State} (other : s.control.mode ≠ .hold) : enterHold s = { s with
    control.mode := .hold
    control.pendingMode := .none
    records := Table.build fun x => { recordAt s x with
      pauseMark := (recordAt s x).pauseMark || !(creditAt s x).settings.exempt } } := by
  rw [enterHold, if_neg other]
  rfl

/-! ### Arguments and codes that name nothing -/

theorem onTenant_of_ge {arg : Byte} (big : 24 ≤ arg.toNat) (f : TenantId → State → State × CmdResult) (s : State) :
    onTenant arg f s = (s, .badArg) := by
  rw [onTenant, tenantOf_of_ge big]

theorem pairSwap_of_ge {arg : Byte} (big : 8 ≤ arg.toNat) (s : State) : pairSwap arg s = (s, .badArg) := by
  rw [pairSwap, pairOf_of_ge big]

theorem runCommand_of_unknown {code : Byte} (unknown : namesNoCommand code = true) (arg : Byte) (s : State) :
    runCommand code arg s = (s, .badArg) := by
  have outside : code.toNat = 0 ∨ 10 ≤ code.toNat := by simpa [namesNoCommand] using unknown
  rw [runCommand]
  split
  case h_10 => rfl
  all_goals omega

/-- A command that makes nothing of the state and answers BAD_ARG leaves its row's part of the port alone. -/
theorem whileRunning_badArg {code arg : Byte} {s : State} (running : Running s)
    (bad : runCommand code arg (commandTaken arg s) = (commandTaken arg s, .badArg)) :
    whileRunning (issueCommand code arg) s = .next (withResult code .badArg (commandTaken arg s)) := by
  rw [whileRunning_of_running running, issueCommand_of_run bad]

end Sys2Proof.Machine

section
open Sys2Proof Sys2Proof.Machine

/-- Settles O49: MODE_SET by its argument, and HOLD by the mode it finds. -/
theorem modeSetMakesAModePendingOrHoldCurrent : Obligations.ModeSetMakesAModePendingOrHoldCurrent := by
  unfold Obligations.ModeSetMakesAModePendingOrHoldCurrent
  intro s running
  refine ⟨fun arg not1 not2 not3 => ?_, ?_, ?_, fun hold => ?_, fun other => ?_⟩
  · exact exec_modeSet_of_effect running (modeSet_of_other not1 not2 not3 _)
  · exact exec_modeSet_of_effect running rfl
  · exact exec_modeSet_of_effect running rfl
  · exact exec_modeSet_of_effect running (by rw [modeSet_hold, enterHold_of_hold (s := commandTaken 3 s) hold])
  · exact exec_modeSet_of_effect running <| by
      rw [modeSet_hold, enterHold_of_not_hold (s := commandTaken 3 s) other]
      rfl

/-- Settles O47: an argument outside the tenants or the pairs, or a code outside the commands, acts on nothing. -/
theorem badArgumentsChangeNothing : Obligations.BadArgumentsChangeNothing := by
  unfold Obligations.BadArgumentsChangeNothing
  intro s arg running u
  refine ⟨fun big => ?_, fun big => ?_, fun code unknown => ?_⟩
  · have bad := fun f => onTenant_of_ge big f u
    exact ⟨whileRunning_badArg running (bad startTenant), whileRunning_badArg running (bad quiesceTenant),
      whileRunning_badArg running (bad stopTenant), whileRunning_badArg running (bad resumeTenant),
      whileRunning_badArg running (bad clearTenant), whileRunning_badArg running (bad resetTenant)⟩
  · exact whileRunning_badArg running (pairSwap_of_ge big u)
  · exact whileRunning_badArg running (runCommand_of_unknown unknown s.port.cmdArg _)

end
end

