-- ==== Sys2Proof/Proofs/HeldResetsAndHaltLines.lean ====
section
/-! PROOFS. A held reset and the risk halt over every step: the laws of both, and what acts while a reset is held (R141, R151, R152). -/

namespace Sys2Proof.Machine

/-! ### The halt lines and the held reset, which most commands leave alone -/

/-- The reset that is held, the level on HALT_REQ and the halt condition. -/
def linesOf (s : State) : Held × Bool × Bool := (s.control.held, s.pairHalt.haltReq, s.pairHalt.haltCondition)

theorem linesOf_congr {s t : State} (control : t.control = s.control) (pairHalt : t.pairHalt = s.pairHalt) :
    linesOf t = linesOf s := by rw [linesOf, linesOf, control, pairHalt]

/-! #### Settlings and the events of a frame -/

theorem linesOf_testSettle (p : PairId) (s : State) : linesOf (testSettle p s) = linesOf s := by
  rcases testSettle_cases p s with ⟨-, e⟩ | ⟨-, e⟩
  · rw [e]; rfl
  · rw [e]

theorem linesOf_afterFreeing (s : State) : linesOf (afterFreeing s) = linesOf s := by
  have settled : linesOf (testSettles (testDrains s)) = linesOf (testDrains s) :=
    foldl_keeps _ linesOf (fun s p => linesOf_testSettle p s) _ _
  exact settled.trans (linesOf_congr (testDrains_control s) (testDrains_pairHalt s))

theorem linesOf_frameBoundary (s : State) : linesOf (frameBoundary s) = linesOf s := by
  rw [linesOf, frameBoundary_control, frameBoundary_pairHalt]
  rfl

theorem linesOf_expiryEvent (tag : Byte) (s : State) : linesOf (expiryEvent tag s) = linesOf s := by
  rw [expiryEvent]
  split
  · exact (linesOf_afterFreeing _).trans (linesOf_congr (by simp) (by simp))
  · rfl

theorem linesOf_tick (s : State) : linesOf (tick s) = linesOf s := by
  rw [tick]
  split
  · rfl
  · split
    · exact linesOf_frameBoundary s
    · exact linesOf_congr (by simp) (by simp)

/-! #### Responses and links -/

theorem linesOf_takeResponse (tag : Byte) (kind : ResponseKind) (status : PoolStatus) (data : List Byte) (s : State) :
    linesOf (takeResponse tag kind status data s) = linesOf s := by
  rcases takeResponse_cases tag kind status data s with ⟨-, e⟩ | ⟨-, -, e⟩ | ⟨entry, -, -, -, e⟩
  · rw [e]
  · rw [e]; exact linesOf_congr (by simp) (by simp)
  · rw [e, linesOf_afterFreeing]; exact linesOf_congr (by simp) (by simp)

theorem linesOf_poolLinkLoss (s : State) : linesOf (poolLinkLoss s) = linesOf s := by
  cases up : s.links.poolUp with
  | false => rw [poolLinkLoss, if_neg (by simp [up])]
  | true =>
    rw [poolLinkLoss_of_up up, linesOf_afterFreeing]
    exact linesOf_congr (by simp) (by simp)

/-! #### The commands given through CMD -/

theorem linesOf_onTenant {f : TenantId → State → State × CmdResult} (h : ∀ x s, linesOf (f x s).1 = linesOf s)
    (arg : Byte) (s : State) : linesOf (onTenant arg f s).1 = linesOf s := by
  rw [onTenant]
  split
  · rfl
  · exact h _ s

theorem linesOf_pairSwap (arg : Byte) (s : State) : linesOf (pairSwap arg s).1 = linesOf s := by
  have swept : ∀ x s, linesOf (sweepWrites x s) = linesOf s := fun x s => by
    rcases sweepWrites_cases x s with ⟨-, -, e⟩ | ⟨-, e⟩ <;> rw [e] <;> exact linesOf_congr (by simp) (by simp)
  rw [pairSwap]
  split
  · rfl
  · split
    · rfl
    · split
      · rfl
      · rw [swapPair_eq, linesOf_testSettle, swept]
        rfl

theorem linesOf_modeSet (arg : Byte) (s : State) : linesOf (modeSet arg s).1 = linesOf s := by
  rw [modeSet]
  split
  · rfl
  · rfl
  · rw [enterHold]
    dsimp only
    split <;> rfl
  · rfl

theorem linesOf_runCommand (code arg : Byte) (s : State) : linesOf (runCommand code arg s).1 = linesOf s := by
  have drain : ∀ x target s, linesOf (beginDrain x target s) = linesOf s := fun x target s =>
    linesOf_congr (beginDrain_control x target s) (beginDrain_pairHalt x target s)
  rw [runCommand]
  split
  · exact linesOf_onTenant (fun x s => by rw [startTenant]; split <;> [split; skip] <;> rfl) arg s
  · exact linesOf_onTenant (fun x s => by rw [quiesceTenant]; split <;> simp [drain]) arg s
  · refine linesOf_onTenant (fun x s => ?_) arg s
    rw [stopTenant]
    split
    · exact drain x .off s
    · exact linesOf_congr (by simp) (by simp)
    · rfl
  · exact linesOf_onTenant (fun x s => by rw [resumeTenant]; split <;> rfl) arg s
  · exact linesOf_onTenant (fun x s => by rw [clearTenant]; split <;> rfl) arg s
  · exact linesOf_onTenant (fun x s => linesOf_congr (by simp [resetTenant]) (by simp [resetTenant])) arg s
  · exact linesOf_pairSwap arg s
  · exact linesOf_modeSet arg s
  · rfl
  · rfl

theorem linesOf_commandEvent (code : Byte) (s : State) : linesOf (commandEvent code s) = linesOf s :=
  linesOf_runCommand code s.port.cmdArg s

/-! #### The management writes -/

theorem linesOf_writePair (p : PairId) (w : PairWrite) (s : State) : linesOf (writePair p w s) = linesOf s := by
  rcases writePair_cases p w s with ⟨-, e⟩ | ⟨x, -, ⟨-, e⟩ | ⟨-, -, e⟩ | ⟨-, -, -, e⟩ | ⟨-, -, -, e⟩⟩ <;>
    rw [e] <;> rfl

theorem linesOf_writeDirect (f : DirectField) (v : Nat) (s : State) : linesOf (writeDirect f v s) = linesOf s := by
  cases f with
  | cmd => exact linesOf_commandEvent _ s
  | switchResets | poolLosses | wf | cto => rfl
  | _ => apply linesOf_congr <;> simp [writeDirect]

theorem linesOf_writeField (f : Field) (v : Nat) (s : State) : linesOf (writeField f v s) = linesOf s := by
  cases f with
  | direct d => exact linesOf_writeDirect d v s
  | tenant x d => exact linesOf_congr (by simp [writeField]) (by simp [writeField])
  | classifier i d => exact linesOf_congr (by simp [writeField]) (by simp [writeField])
  | pair p d =>
    cases d with
    | flags | primary | secondary | guard => exact linesOf_writePair p _ s
    | state | counter => rfl
  | counters x d => rfl
  | frames k d => rfl

theorem linesOf_dataByteWritten (b : Byte) (s : State) : linesOf (dataByteWritten b s) = linesOf s := by
  have written : ∀ s, linesOf (writeByteAt b s) = linesOf s := fun s => by
    rw [writeByteAt]
    split
    · rfl
    · dsimp only
      split
      · rfl
      · exact linesOf_writeField ..
  exact written _

/-! #### Every command -/

/-- Only the resets, their releases and the edges of HALT_REQ change what is held, the line or the halt condition. -/
theorem linesOf_exec {c : Instr} {s t : State} (ordinary : actsWhileHeld c = false) (h : exec c s = .next t) :
    linesOf t = linesOf s := by
  have ran : ∀ {f : State → State}, whileRunning f s = .next t → linesOf (f s) = linesOf s → linesOf t = linesOf s :=
    fun h same => by
      rcases whileRunning_cases h with ⟨-, rfl⟩ | ⟨-, rfl⟩
      · exact same
      · rfl
  have kept : ∀ {f : State → State}, whileRunning f s = .next t → (f s).control = s.control →
      (f s).pairHalt = s.pairHalt → linesOf t = linesOf s := fun h control pairHalt =>
    ran h (linesOf_congr control pairHalt)
  have wrote : ∀ {field : Field} {f : State → State}, (∀ s, linesOf (f s) = linesOf s) →
      whileRunning (fun s => f (dataByteTaken field s)) s = .next t → linesOf t = linesOf s := fun same h =>
    ran h (same _)
  cases c with
  | powerOnReset | powerOnRelease | pinReset | pinResetRelease | haltReqRising | haltReqFalling => cases ordinary
  | arrival q tag b =>
    rw [exec_arrival] at h
    split at h
    · exact kept h (by simp) (by simp)
    · cases h
  | poolResponse tag kind status data => exact ran h (linesOf_takeResponse tag kind status data s)
  | frameBoundary => exact ran h (linesOf_frameBoundary s)
  | expiry tag => exact ran h (linesOf_expiryEvent tag s)
  | settling p => exact ran h (linesOf_testSettle p s)
  | poolPortLinkLoss => exact ran h (linesOf_poolLinkLoss s)
  | switchPortLinkUp => exact ran (f := fun s => { s with links.switchUp := true }) h rfl
  | poolPortLinkUp => exact ran (f := fun s => { s with links.poolUp := true }) h rfl
  | start | quiesce | stop | resume | clear | tenantReset | pairSwap | modeSet | runtimeReset | unknownCommand =>
    exact ran h (linesOf_commandEvent _ _)
  | managementWrite b =>
    refine ran h ?_
    split
    · exact linesOf_dataByteWritten b s
    · rfl
  | readSnapshot a | dataByteRead a =>
    refine ran h ?_
    split
    · exact linesOf_congr (by simp) (by simp)
    · rfl
  | maximumHeadAgeRead x =>
    rw [exec_maximumHeadAgeRead] at h
    exact kept h (by simp) (by simp)
  | haltableWrite x v =>
    rw [exec_haltableWrite] at h
    exact kept h (by simp) (by simp)
  | pairEntryWrite p w => exact wrote (linesOf_writePair p w) h
  | linkResetCountClear p v => exact wrote (f := clearLinkCount p) (fun s => linesOf_congr (by simp) (by simp)) h
  | wfWrite v => exact wrote (f := writeWf v.toNat) (fun _ => rfl) h
  | ctoWrite v => exact wrote (f := writeCto v.toNat) (fun _ => rfl) h
  | pageWrite | indexWrite | statusClear | alertFlagClear | alertEnablesWrite | globalCounterClear | fpWrite | capWrite
  | lpWrite | defaultTenantWrite | floorWrite | qlimWrite | qresWrite | classifierEntryWrite =>
    exact wrote (fun s => linesOf_congr (by simp) (by simp)) h
  | grant | endOfSend | fence | drainCompletion | pressureFall | lendPoint | solveCompletion | switchPortLinkReset
  | pointerByte | i2cStartCondition | i2cStopCondition => exact kept h (by simp) (by simp)

/-! ### A held reset -/

/-- Everything but the resets, their releases and the edges of HALT_REQ finds a held reset and does nothing. -/
theorem eq_of_exec_held {c : Instr} {s t : State} (ordinary : actsWhileHeld c = false) (held : s.control.held ≠ .no)
    (h : exec c s = .next t) : t = s := by
  cases c with
  | powerOnReset | powerOnRelease | pinReset | pinResetRelease | haltReqRising | haltReqFalling => cases ordinary
  | arrival q tag b =>
    rw [exec_arrival] at h
    split at h
    · exact Host.Outcome.next.inj (h.symm.trans (if_neg held))
    · cases h
  | _ => exact Host.Outcome.next.inj (h.symm.trans (if_neg held))

/-- The halt condition is deasserted while a reset is held (R151). -/
theorem HeldLaw.haltCondition {s : State} (law : HeldLaw s) (held : s.control.held ≠ .no) :
    s.pairHalt.haltCondition = false := by
  cases which : s.control.held with
  | no => exact absurd which held
  | powerOn => rw [law.1 which]; rfl
  | pin => rw [law.2 which]; rfl

/-- The line falls, and with it the halt condition, which no held reset had asserted. -/
theorem fallHalt_of_held {s : State} (law : HeldLaw s) (held : s.control.held ≠ .no) :
    { s with pairHalt.haltReq := false, pairHalt.haltCondition := false } = { s with pairHalt.haltReq := false } := by
  have condition : false = s.pairHalt.haltCondition := (law.haltCondition held).symm
  exact congrArg (fun c => { s with pairHalt.haltReq := false, pairHalt.haltCondition := c }) condition

theorem riseHalt_of_held {s : State} (held : s.control.held ≠ .no) :
    riseHalt s = { s with pairHalt.haltReq := true } := by
  rw [riseHalt, if_neg held]
  split
  · rename_i high
    exact congrArg (fun r => { s with pairHalt.haltReq := r }) high
  · rfl

/-- The waiting commands and the level on HALT_REQ are outside the part: a held reset says nothing of them (R151). -/
theorem HeldLaw.outside {s : State} (law : HeldLaw s) (pending : List Instr) (req : Bool) :
    HeldLaw { s with pending := pending, pairHalt.haltReq := req } :=
  ⟨fun on => congrArg (fun s : State => { s with pending := pending, pairHalt.haltReq := req }) (law.1 on),
    fun on => congrArg (fun s : State => { s with pending := pending, pairHalt.haltReq := req }) (law.2 on)⟩

/-! ### The two laws together -/

/-- What a held reset keeps, and how the halt condition follows HALT_REQ (R141, R151, R152). -/
def LineLaws (s : State) : Prop := HeldLaw s ∧ HaltLaw s

/-- While no reset is held the laws say that the halt condition follows HALT_REQ. -/
theorem lineLaws_of_running {s : State} (running : Running s)
    (follows : s.pairHalt.haltCondition = s.pairHalt.haltReq) : LineLaws s :=
  ⟨⟨fun on => absurd (running.symm.trans on) nofun, fun on => absurd (running.symm.trans on) nofun⟩,
    fun _ => follows, fun held => absurd running held⟩

theorem lineLaws_congr {s t : State} (running : Running s) (same : linesOf t = linesOf s) (law : LineLaws s) :
    LineLaws t := by
  obtain ⟨held, lines⟩ := Prod.mk.inj same
  obtain ⟨req, condition⟩ := Prod.mk.inj lines
  exact lineLaws_of_running (held.trans running) (condition.trans ((law.2.1 running).trans req.symm))

theorem lineLaws_outside {s : State} (held : s.control.held ≠ .no) (law : LineLaws s) (req : Bool) :
    LineLaws { s with pairHalt.haltReq := req } :=
  ⟨law.1.outside s.pending req, fun running => absurd running held, fun _ => law.2.2 held⟩

theorem lineLaws_pending {s : State} (law : LineLaws s) (pending : List Instr) : LineLaws { s with pending := pending } :=
  ⟨law.1.outside pending s.pairHalt.haltReq, law.2⟩

theorem lineLaws_powerOnReset (s : State) : LineLaws (holdReset .powerOn s) :=
  ⟨⟨fun _ => rfl, nofun⟩, nofun, fun _ => ⟨rfl, rfl, rfl⟩⟩

theorem lineLaws_pinReset {s : State} (law : LineLaws s) : LineLaws (pinReset s) := by
  rw [pinReset]
  split
  · exact law
  · exact ⟨⟨nofun, fun _ => rfl⟩, nofun, fun _ => ⟨rfl, rfl, rfl⟩⟩

/-- A release samples HALT_REQ into the halt condition (R141). -/
theorem lineLaws_startedState (pending : List Instr) (req : Bool) (wires : Wires) {control : ModeControl}
    (running : control.held = .no) : LineLaws (startedState pending req wires control) :=
  lineLaws_of_running running rfl

theorem lineLaws_powerOnRelease {s : State} (law : LineLaws s) (straps : Straps) :
    LineLaws (powerOnRelease straps s) := by
  by_cases held : s.control.held = .powerOn
  · rw [powerOnRelease_of_held law.1 held]
    exact lineLaws_startedState _ _ _ rfl
  · rw [powerOnRelease, if_neg held]
    exact law

theorem lineLaws_pinResetRelease {s : State} (law : LineLaws s) : LineLaws (pinResetRelease s) := by
  by_cases held : s.control.held = .pin
  · rw [pinResetRelease_of_held law.1 held]
    exact lineLaws_startedState _ _ _ rfl
  · rw [pinResetRelease, if_neg held]
    exact law

theorem lineLaws_riseHalt {s : State} (law : LineLaws s) : LineLaws (riseHalt s) := by
  rw [riseHalt]
  split
  · exact law
  · split
    · exact lineLaws_of_running ‹_› rfl
    · exact lineLaws_outside ‹_› law true

theorem lineLaws_fallHalt {s : State} (law : LineLaws s) :
    LineLaws { s with pairHalt.haltReq := false, pairHalt.haltCondition := false } := by
  by_cases running : Running s
  · exact lineLaws_of_running running rfl
  · rw [fallHalt_of_held law.1 running]
    exact lineLaws_outside running law false

theorem lineLaws_exec {c : Instr} {s t : State} (h : exec c s = .next t) (law : LineLaws s) : LineLaws t := by
  cases ordinary : actsWhileHeld c with
  | false =>
    by_cases running : Running s
    · exact lineLaws_congr running (linesOf_exec ordinary h) law
    · rw [eq_of_exec_held ordinary running h]
      exact law
  | true =>
    cases c with
    | powerOnReset => obtain rfl := Host.Outcome.next.inj h; exact lineLaws_powerOnReset s
    | powerOnRelease straps => obtain rfl := Host.Outcome.next.inj h; exact lineLaws_powerOnRelease law straps
    | pinReset => obtain rfl := Host.Outcome.next.inj h; exact lineLaws_pinReset law
    | pinResetRelease => obtain rfl := Host.Outcome.next.inj h; exact lineLaws_pinResetRelease law
    | haltReqRising => obtain rfl := Host.Outcome.next.inj h; exact lineLaws_riseHalt law
    | haltReqFalling => obtain rfl := Host.Outcome.next.inj h; exact lineLaws_fallHalt law
    | _ => cases ordinary

/-- Time passes only while no reset is held, and moves no line. -/
theorem lineLaws_tick {s : State} (law : LineLaws s) : LineLaws (tick s) := by
  by_cases running : Running s
  · exact lineLaws_congr running (linesOf_tick s) law
  · have stopped : tick s = s := if_pos running
    rw [stopped]
    exact law

end Sys2Proof.Machine

section
open Sys2Proof Sys2Proof.Machine

/-- Settles O8: a command at the front of the queue, or the passing of time, keeps the two laws together. -/
theorem stepKeepsHeldAndHaltLaws : Obligations.StepKeepsHeldAndHaltLaws := by
  unfold Obligations.StepKeepsHeldAndHaltLaws
  intro s t held halt h
  have law : LineLaws s := ⟨held, halt⟩
  rw [step] at h
  split at h
  · obtain rfl := Host.Outcome.next.inj h
    exact lineLaws_tick law
  · exact lineLaws_exec h (lineLaws_pending law _)

/-- Settles O6: every other command waits for the release, and an edge finds the halt condition deasserted. -/
theorem heldResetIgnoresOtherCommands : Obligations.HeldResetIgnoresOtherCommands := by
  unfold Obligations.HeldResetIgnoresOtherCommands
  refine fun s held => ⟨fun c wf ordinary => ?_, fun law => ⟨?_, ?_⟩⟩
  · obtain ⟨t, next⟩ := exec_next_of_wf wf s
    rw [next, eq_of_exec_held ordinary held next]
  · rw [exec_haltReqRising, riseHalt_of_held held]
  · rw [exec_haltReqFalling, fallHalt_of_held law held]

end
end

