-- ==== Sys2Proof/Proofs/HaltAcknowledged.lean ====
section
/-! PROOFS. HALT_ACK over a step: a tenant with nothing outstanding gains an entry only by a grant, which passes over what the risk halt holds (R81, R92, R141, R143). -/

namespace Sys2Proof.Machine

theorem outstandingCount_of_entriesRemain {s t : State} (remain : EntriesRemain s t) {x : TenantId}
    (clear : outstandingCount s x = 0) : outstandingCount t x = 0 := by
  rw [outstandingCount_eq_zero] at clear ⊢
  intro k e entry
  obtain ⟨before, age, orphan, there, rfl⟩ := remain k e entry
  exact clear k before there

/-- An entry in use after a grant was in use before, or is that of an eligible head (R93). -/
theorem takeGrant_entry {s : State} {k : Fin 256} {e : OutstandingEntry}
    (entry : (takeGrant s).paths.entries.get k = some e) :
    s.paths.entries.get k = some e ∨ ∃ c, e = entryFor c ∧ Eligible s c.tenant c.fromWq c.desc := by
  rcases takeGrant_cases s with same | ⟨tag, c, served, -, -, -, chosen, result⟩
  · rw [same] at entry
    exact .inl entry
  · rw [result, release_entries, Table.get_set] at entry
    split at entry
    · exact .inr ⟨c, (Option.some.inj entry).symm, chooseRelease_eligible chosen⟩
    · exact .inl entry

/-- A grant releases nothing of a tenant that the risk halt holds (R81, R141). -/
theorem outstandingCount_takeGrant_of_heldByHalt {s : State} {x : TenantId} (halted : heldByHalt s x = true)
    (clear : outstandingCount s x = 0) : outstandingCount (takeGrant s) x = 0 := by
  rw [outstandingCount_eq_zero] at clear ⊢
  intro k e entry
  rcases takeGrant_entry entry with before | ⟨c, rfl, -, ⟨-, free, -⟩, -⟩
  · exact clear k e before
  · rintro rfl
    exact free ((heldByHalt_iff s c.tenant).mp halted)

theorem entriesRemain_tick (s : State) : EntriesRemain s (tick s) := by
  rw [tick]
  split
  · exact .of_eq rfl
  · split
    · exact entriesRemain_frameBoundary s
    · exact .of_eq (by simp)

/-- A command leaves a tenant that had nothing outstanding without entries, unless it is a grant to a tenant that the risk halt does not hold; a grant changes no record. -/
theorem exec_outstandingCount {c : Instr} {s t : State} {x : TenantId} (h : exec c s = .next t)
    (clear : outstandingCount s x = 0) :
    outstandingCount t x = 0 ∨ (heldByHalt s x = false ∧ t.records = s.records) := by
  by_cases grant : c = .grant
  · subst grant
    rw [exec_grant] at h
    rcases whileRunning_cases h with ⟨-, rfl⟩ | ⟨-, rfl⟩
    · cases halted : heldByHalt s x with
      | false => exact .inr ⟨rfl, takeGrant_records s⟩
      | true => exact .inl (outstandingCount_takeGrant_of_heldByHalt halted clear)
    · exact .inl clear
  · exact .inl (outstandingCount_of_entriesRemain (exec_entriesRemain grant h) clear)

theorem step_outstandingCount {s t : State} {x : TenantId} (h : step s = .next t) (clear : outstandingCount s x = 0) :
    outstandingCount t x = 0 ∨ (heldByHalt s x = false ∧ t.records = s.records) := by
  rw [step] at h
  split at h
  · obtain rfl := Host.Outcome.next.inj h
    exact .inl (outstandingCount_of_entriesRemain (entriesRemain_tick s) clear)
  · rename_i rest _
    exact exec_outstandingCount (s := { s with pending := rest }) h clear

end Sys2Proof.Machine

section
open Sys2Proof Sys2Proof.Machine

/-- Settles O16: a tenant that is HALTABLE after the step had nothing outstanding before it, and no grant reaches it. -/
theorem haltAckStays : Obligations.HaltAckStays := by
  unfold Obligations.HaltAckStays
  intro s t ack h halted before
  obtain ⟨condition, quiet⟩ := (haltAck_iff s).mp ack
  refine (haltAck_iff t).mpr ⟨halted, fun x haltable => ?_⟩
  have clear : outstandingCount s x = 0 := (before x haltable).elim (quiet x) id
  rcases step_outstandingCount h clear with after | ⟨free, records⟩
  · exact after
  · rw [recordAt_congr records] at haltable
    exact absurd ((heldByHalt_iff s x).mpr ⟨condition, haltable⟩) (Bool.eq_false_iff.mp free)

end
end

