-- ==== Sys2Proof/Proofs/SettlingAndPressureFall.lean ====
section
/-! PROOFS. SETTLING and PRESSURE_FALL as commands (R138, R166). -/

section
open Sys2Proof Sys2Proof.Machine

/-- Settles O36: each by whether its condition holds. -/
theorem settlingAndPressureFall : Obligations.SettlingAndPressureFall := by
  unfold Obligations.SettlingAndPressureFall
  refine ⟨fun s p running => ?_, fun s running => ?_⟩
  · intro e old settles
    have passes : settlePasses s p = true ↔ settles := settle_iff s p e rfl
    rw [exec_settling, whileRunning_of_running running]
    rcases testSettle_cases p s with ⟨yes, result⟩ | ⟨no, result⟩
    · exact ⟨fun _ => congrArg _ result, fun fails => absurd (passes.mp yes) fails⟩
    · exact ⟨fun holds => absurd (passes.mpr holds) (Bool.eq_false_iff.mp no), fun _ => congrArg _ result⟩
  · rw [exec_pressureFall, whileRunning_of_running running]
    rcases pressureFall_cases s with ⟨reached, result⟩ | ⟨short, result⟩
    · exact ⟨fun _ => congrArg _ result, fun low => absurd low (Nat.not_lt.mpr reached)⟩
    · exact ⟨fun four => absurd short (Nat.not_lt.mpr four), fun _ => congrArg _ result⟩

end
end

