-- ==== Sys2Proof/Proofs/HeldResets.lean ====
section
/-! PROOFS. A held power-on or pin reset has every piece of state at its power-on value (R151, R152). -/

namespace Sys2Proof.Machine

theorem holdReset_recordAt (held : Held) (s : State) (x : TenantId) :
    recordAt (holdReset held s) x = recordAt State.powerOn x := rfl

/-- Every Tenant Record at power-on: T23 is ACTIVE with QLIM 1024, every other OFF with QLIM 64 (R23, R112, R116, R131). -/
theorem powerOn_recordAt_eq (x : TenantId) : recordAt State.powerOn x =
    { TenantRecord.reset with qlim := if x = 23 then 1024 else 64, state := if x = 23 then .active else .off } := by
  rw [powerOn_recordAt]
  by_cases last : x = 23
  · rw [if_pos last.symm, if_pos last, if_pos last]
  · rw [if_neg (Ne.symm last), if_neg last, if_neg last]
    rfl

/-- While a power-on reset is held every Credit Table entry is clear (R90). -/
theorem holdReset_creditAt (held : Held) (s : State) (x : TenantId) :
    creditAt (holdReset held s) x = CreditEntry.reset := Table.get_fill x _

theorem holdReset_alertAsserted (held : Held) (s : State) : alertAsserted (holdReset held s) = false := by
  have noFlags : (holdReset held s).observe.flags = 0 := rfl
  rw [alertAsserted, noFlags]
  exact congrArg (· != 0) BitVec.zero_and

theorem pinReset_of_powerOn {s : State} (held : s.control.held = .powerOn) : pinReset s = s := if_pos held

/-- A pin reset is a held reset with the strap snapshot and RESET_CAUSE kept (R152). -/
theorem pinReset_of_not_powerOn {s : State} (held : s.control.held ≠ .powerOn) :
    pinReset s = { holdReset .powerOn s with
      control := { (holdReset .powerOn s).control with
        straps := s.control.straps, cause := s.control.cause, held := .pin } } := if_neg held

end Sys2Proof.Machine

section
open Sys2Proof Sys2Proof.Machine

/-- Settles O5: the state of a held power-on reset, block by block, its tables entry by entry. -/
theorem heldResetsHoldPowerOnValues : Obligations.HeldResetsHoldPowerOnValues := by
  unfold Obligations.HeldResetsHoldPowerOnValues
  intro s
  have records (x : TenantId) := (holdReset_recordAt .powerOn s x).trans (powerOn_recordAt_eq x)
  have credits (x : TenantId) := holdReset_creditAt .powerOn s x
  refine ⟨holdReset .powerOn s, exec_powerOnReset s, fun held => ?_, fun held => ?_, rfl, rfl, rfl, rfl,
    fun e => Table.get_fill e _, rfl, rfl, rfl, rfl, fun x => Table.get_fill x _, rfl, rfl, rfl, rfl, rfl, rfl, rfl, rfl,
    rfl, rfl, fun x => ⟨Table.get_fill x _, Table.get_fill x _⟩, rfl, fun x => ?_, rfl, rfl, fun k => Table.get_fill k _,
    fun q => Table.get_fill q _, records, fun p => Table.get_fill p _, rfl, rfl, holdReset_alertAsserted .powerOn s,
    rfl, rfl, fun x => Table.get_fill x _, rfl, rfl, rfl, rfl, rfl, rfl, rfl, rfl, rfl⟩
  · rw [exec_pinReset, pinReset_of_not_powerOn held]
  · rw [exec_pinReset, pinReset_of_powerOn held]
  · rw [credits x]
    exact ⟨rfl, rfl, rfl, rfl⟩

end
end

