-- ==== Sys2Proof/Proofs/RegisterWrites.lean ====
section
/-! PROOFS. Writes to the port's own registers, to the alerts and to the counts, and the clearing read of a maximum head age (R155, R158, R159, R164, R171, R172). -/

namespace Sys2Proof.Machine

/-! ### PAGE and INDEX -/

/-- A code of 5 or more names no page (R171). -/
theorem pageOf_of_ge {v : Byte} (big : 5 ≤ v.toNat) : pageOf v = none := by
  rw [pageOf]
  split
  case h_6 => rfl
  all_goals omega

theorem writePage_of_page {v : Byte} {page : Page} (code : pageOf v = some page) (s : State) :
    writePage v s = { s with
      port.page := page, port.index := if s.port.index.val < pageRange page then s.port.index else 0 } := by
  rw [writePage, code]

theorem writePage_of_none {v : Byte} (code : pageOf v = none) (s : State) : writePage v s = refuseWrite .range s := by
  rw [writePage, code]

/-- An INDEX within the page's range is stored (R171). -/
theorem writeIndex_of_lt {v : Byte} {i : EntryId} {s : State} (value : v.toNat = i.val)
    (inside : i.val < pageRange s.port.page) : writeIndex v s = { s with port.index := i } := by
  rw [writeIndex, dif_pos (value ▸ i.isLt), if_pos (value ▸ inside)]
  simp only [value]

/-- An INDEX beyond the page's range is refused (R171). -/
theorem writeIndex_of_ge {v : Byte} {s : State} (outside : pageRange s.port.page ≤ v.toNat) :
    writeIndex v s = refuseWrite .range s := by
  rw [writeIndex]
  split
  · exact if_neg (Nat.not_lt.mpr outside)
  · rfl

end Sys2Proof.Machine

section
open Sys2Proof Sys2Proof.Machine

/-- Settles O54: PAGE and INDEX by whether the value is in range, STATUS by bit 7, every other row by its one effect. -/
theorem registerAndCounterWrites : Obligations.RegisterAndCounterWrites := by
  unfold Obligations.RegisterAndCounterWrites
  refine ⟨?_, fun s v w c x running => ?_⟩
  · intro s v running paged records
    have range : pageRange s.port.page = records := rfl
    simp only [exec_pageWrite, exec_indexWrite, exec_statusClear, whileRunning_of_running running, dataByteTaken_eq]
    refine ⟨congrArg _ (writePage_of_page rfl _), congrArg _ (writePage_of_page rfl _),
      congrArg _ (writePage_of_page rfl _), congrArg _ (writePage_of_page rfl _), congrArg _ (writePage_of_page rfl _),
      fun big => ?_, fun i value inside => ?_, fun outside => ?_, fun set => ?_, fun clear => ?_⟩
    · exact congrArg _ (writePage_of_none (pageOf_of_ge big) _)
    · exact congrArg _ (writeIndex_of_lt (s := written 0x0B s) value (range ▸ inside))
    · exact congrArg _ (writeIndex_of_ge (s := written 0x0B s) (range ▸ outside))
    · exact congrArg _ (if_pos set)
    · exact congrArg _ (if_neg (Bool.eq_false_iff.mp clear))
  · simp only [exec_alertFlagClear, exec_alertEnablesWrite, exec_linkResetCountClear, exec_globalCounterClear,
      exec_maximumHeadAgeRead, whileRunning_of_running running, dataByteTaken_eq]
    refine ⟨rfl, rfl, rfl, rfl, rfl, rfl, ?_⟩
    have lowest : byteOf (s.observe.counters.get x).maxHeadAge 0 =
        BitVec.ofNat 8 (s.observe.counters.get x).maxHeadAge := by rw [byteOf, Nat.pow_zero, Nat.div_one]
    rw [lowest]
    rfl

end
end

