-- ==== Sys2Proof/Proofs/PortApart.lean ====
section
/-! PROOFS. A field's write stands apart from the pointer and the bus: it neither reads nor changes them. -/

namespace Sys2Proof.Machine

/-! ### Operations that stand apart -/

/-- The state with its pointer and its record of the bus changed. -/
def portMapped (g : BitVec 7 → BitVec 7) (h : List BusOutput → List BusOutput) (s : State) : State :=
  { s with port.pointer := g s.port.pointer, wires.bus := h s.wires.bus }

/-- A choice between changed things is the change of a choice. -/
theorem ite_eq_apply_ite {α β : Type} (f : α → β) {c : Prop} [Decidable c] {a b : β} {x y : α}
    (pos : a = f x) (neg : b = f y) : (if c then a else b) = f (if c then x else y) := by
  rw [apply_ite f, pos, neg]

section
variable (g : BitVec 7 → BitVec 7) (h : List BusOutput → List BusOutput)

theorem sendUp_portMapped (r : Response) (s : State) : sendUp r (portMapped g h s) = portMapped g h (sendUp r s) :=
  ite_eq_apply_ite (portMapped g h) rfl rfl

theorem endWrite_portMapped (kind : Kind) (q : RequesterId) (x : Stamp) (s : State) :
    endWrite kind q x (portMapped g h s) = portMapped g h (endWrite kind q x s) :=
  ite_eq_apply_ite (portMapped g h) rfl rfl

theorem refuseDescriptor_portMapped (t : TenantId) (s : State) (d : Descriptor) :
    refuseDescriptor t (portMapped g h s) d = portMapped g h (refuseDescriptor t s d) := by
  have freed : freeBlocks d.blocks (portMapped g h s) = portMapped g h (freeBlocks d.blocks s) := rfl
  rw [refuseDescriptor, freed, endWrite_portMapped, sendUp_portMapped]
  rfl

theorem discardAll_portMapped (t : TenantId) (s : State) :
    discardAll t (portMapped g h s) = portMapped g h (discardAll t s) := by
  rw [discardAll, discardAll, ← List.foldl_hom (portMapped g h) (refuseDescriptor_portMapped g h t)]
  rfl

theorem discardWrites_portMapped (t : TenantId) (s : State) :
    discardWrites t (portMapped g h s) = portMapped g h (discardWrites t s) := by
  rw [discardWrites, discardWrites, ← List.foldl_hom (portMapped g h) (refuseDescriptor_portMapped g h t)]
  rfl

theorem completeDrain_portMapped (t : TenantId) (s : State) :
    completeDrain t (portMapped g h s) = portMapped g h (completeDrain t s) := by
  have record : recordAt (portMapped g h s) t = recordAt s t := rfl
  rw [completeDrain, completeDrain, record]
  cases (recordAt s t).target with
  | off => exact congrArg (changeRecord t _) (discardAll_portMapped g h t s)
  | quiesced => rfl
  | none => rfl

theorem testDrain_portMapped (t : TenantId) (s : State) :
    testDrain t (portMapped g h s) = portMapped g h (testDrain t s) :=
  ite_eq_apply_ite (portMapped g h) (completeDrain_portMapped g h t s) rfl

theorem beginDrain_portMapped (t : TenantId) (target : DrainTarget) (s : State) :
    beginDrain t target (portMapped g h s) = portMapped g h (beginDrain t target s) := by
  rw [beginDrain, beginDrain, ← testDrain_portMapped]
  rfl

theorem sweepWrites_portMapped (t : TenantId) (s : State) :
    sweepWrites t (portMapped g h s) = portMapped g h (sweepWrites t s) := by
  rw [sweepWrites, discardWrites_portMapped]
  exact ite_eq_apply_ite (portMapped g h) (completeDrain_portMapped g h t s)
    (testDrain_portMapped g h t (discardWrites t s))

theorem testSettle_portMapped (p : PairId) (s : State) :
    testSettle p (portMapped g h s) = portMapped g h (testSettle p s) :=
  ite_eq_apply_ite (portMapped g h) rfl rfl

theorem swapPair_portMapped (p : PairId) (s : State) :
    swapPair p (portMapped g h s) = portMapped g h (swapPair p s) := by
  unfold swapPair
  dsimp only
  rw [← testSettle_portMapped, ← sweepWrites_portMapped]
  rfl

/-! #### The commands given through CMD -/

/-- A tenant command, with its result. -/
theorem onTenant_portMapped {f : TenantId → State → State × CmdResult}
    (apart : ∀ t s, f t (portMapped g h s) = Prod.map (portMapped g h) id (f t s)) (arg : Byte) (s : State) :
    onTenant arg f (portMapped g h s) = Prod.map (portMapped g h) id (onTenant arg f s) := by
  rw [onTenant, onTenant]
  cases tenantOf arg with
  | none => rfl
  | some t => exact apart t s

theorem startTenant_portMapped (t : TenantId) (s : State) :
    startTenant t (portMapped g h s) = Prod.map (portMapped g h) id (startTenant t s) :=
  ite_eq_apply_ite (Prod.map (portMapped g h) id) (ite_eq_apply_ite _ rfl rfl) rfl

theorem quiesceTenant_portMapped (t : TenantId) (s : State) :
    quiesceTenant t (portMapped g h s) = Prod.map (portMapped g h) id (quiesceTenant t s) :=
  ite_eq_apply_ite (Prod.map (portMapped g h) id)
    (congrArg (·, CmdResult.ok) (beginDrain_portMapped g h t .quiesced s)) rfl

theorem stopTenant_portMapped (t : TenantId) (s : State) :
    stopTenant t (portMapped g h s) = Prod.map (portMapped g h) id (stopTenant t s) := by
  have record : recordAt (portMapped g h s) t = recordAt s t := rfl
  rw [stopTenant, stopTenant, record]
  cases (recordAt s t).state with
  | active => exact congrArg (·, CmdResult.ok) (beginDrain_portMapped g h t .off s)
  | quiesced => exact congrArg (fun u => (changeRecord t _ u, CmdResult.ok)) (discardAll_portMapped g h t s)
  | off => rfl
  | draining => rfl
  | fenced => rfl

theorem resumeTenant_portMapped (t : TenantId) (s : State) :
    resumeTenant t (portMapped g h s) = Prod.map (portMapped g h) id (resumeTenant t s) :=
  ite_eq_apply_ite (Prod.map (portMapped g h) id) rfl rfl

theorem clearTenant_portMapped (t : TenantId) (s : State) :
    clearTenant t (portMapped g h s) = Prod.map (portMapped g h) id (clearTenant t s) :=
  ite_eq_apply_ite (Prod.map (portMapped g h) id) rfl rfl

theorem resetTenant_portMapped (t : TenantId) (s : State) :
    resetTenant t (portMapped g h s) = Prod.map (portMapped g h) id (resetTenant t s) := by
  simp only [resetTenant, Prod.map, id]
  rw [discardAll_portMapped, ← testDrain_portMapped]
  rfl

theorem pairSwap_portMapped (arg : Byte) (s : State) :
    pairSwap arg (portMapped g h s) = Prod.map (portMapped g h) id (pairSwap arg s) := by
  rw [pairSwap, pairSwap]
  cases pairOf arg with
  | none => rfl
  | some p =>
    have swapped := congrArg (·, CmdResult.ok) (swapPair_portMapped g h p s)
    exact ite_eq_apply_ite (Prod.map (portMapped g h) id) rfl (ite_eq_apply_ite _ rfl swapped)

theorem enterHold_portMapped (s : State) : enterHold (portMapped g h s) = portMapped g h (enterHold s) := by
  have paused : (if s.control.mode = .hold then portMapped g h s else pauseForHold (portMapped g h s)) =
      portMapped g h (if s.control.mode = .hold then s else pauseForHold s) :=
    ite_eq_apply_ite (portMapped g h) rfl rfl
  exact congrArg (fun u : State => { u with control.mode := .hold, control.pendingMode := .none }) paused

theorem modeSet_portMapped (arg : Byte) (s : State) :
    modeSet arg (portMapped g h s) = Prod.map (portMapped g h) id (modeSet arg s) := by
  rw [modeSet, modeSet]
  generalize arg.toNat = code
  match code with
  | 1 => rfl
  | 2 => rfl
  | 3 => exact congrArg (·, CmdResult.ok) (enterHold_portMapped g h s)
  | 0 => rfl
  | _ + 4 => rfl

theorem runCommand_portMapped (code arg : Byte) (s : State) :
    runCommand code arg (portMapped g h s) = Prod.map (portMapped g h) id (runCommand code arg s) := by
  rw [runCommand, runCommand]
  generalize code.toNat = number
  match number with
  | 1 => exact onTenant_portMapped g h (startTenant_portMapped g h) arg s
  | 2 => exact onTenant_portMapped g h (quiesceTenant_portMapped g h) arg s
  | 3 => exact onTenant_portMapped g h (stopTenant_portMapped g h) arg s
  | 4 => exact onTenant_portMapped g h (resumeTenant_portMapped g h) arg s
  | 5 => exact onTenant_portMapped g h (clearTenant_portMapped g h) arg s
  | 6 => exact onTenant_portMapped g h (resetTenant_portMapped g h) arg s
  | 7 => exact pairSwap_portMapped g h arg s
  | 8 => exact modeSet_portMapped g h arg s
  | 9 => rfl
  | 0 => rfl
  | _ + 10 => rfl

theorem commandEvent_portMapped (code : Byte) (s : State) :
    commandEvent code (portMapped g h s) = portMapped g h (commandEvent code s) :=
  congrArg (fun done : State × CmdResult => { done.1 with port.cmd := code, port.cmdResult := done.2 })
    (runCommand_portMapped g h code s.port.cmdArg s)

/-! #### Every field -/

theorem writeDefaultTenant_portMapped (v : Byte) (s : State) :
    writeDefaultTenant v (portMapped g h s) = portMapped g h (writeDefaultTenant v s) := by
  rw [writeDefaultTenant, writeDefaultTenant]
  cases tenantOf v <;> rfl

theorem writePage_portMapped (v : Byte) (s : State) :
    writePage v (portMapped g h s) = portMapped g h (writePage v s) := by
  rw [writePage, writePage]
  cases pageOf v <;> rfl

theorem writeIndex_portMapped (v : Byte) (s : State) :
    writeIndex v (portMapped g h s) = portMapped g h (writeIndex v s) := by
  rw [writeIndex, writeIndex]
  split
  · exact ite_eq_apply_ite (portMapped g h) rfl rfl
  · rfl

theorem writeDirect_portMapped (f : DirectField) (v : Nat) (s : State) :
    writeDirect f v (portMapped g h s) = portMapped g h (writeDirect f v s) := by
  cases f with
  | status => exact ite_eq_apply_ite (portMapped g h) rfl rfl
  | cmd => exact commandEvent_portMapped g h _ s
  | page => exact writePage_portMapped g h _ s
  | index => exact writeIndex_portMapped g h _ s
  | fp => exact ite_eq_apply_ite (portMapped g h) rfl rfl
  | cap => exact ite_eq_apply_ite (portMapped g h) rfl rfl
  | defaultTenant => exact writeDefaultTenant_portMapped g h _ s
  | _ => rfl

theorem writeTenantField_portMapped (x : TenantId) (f : TenantField) (v : Nat) (s : State) :
    writeTenantField x f v (portMapped g h s) = portMapped g h (writeTenantField x f v s) := by
  cases f with
  | floor => exact ite_eq_apply_ite (portMapped g h) rfl rfl
  | qlim => exact ite_eq_apply_ite (portMapped g h) rfl rfl
  | qres => exact ite_eq_apply_ite (portMapped g h) rfl (ite_eq_apply_ite _ rfl rfl)
  | _ => rfl

theorem writeClassifier_portMapped (i : EntryId) (w : ClassifierWrite) (s : State) :
    writeClassifier i w (portMapped g h s) = portMapped g h (writeClassifier i w s) := by
  have entries : (portMapped g h s).classifier = s.classifier := rfl
  rw [writeClassifier, writeClassifier, entries]
  cases entryAfter w (s.classifier.entries.get i) with
  | none => rfl
  | some e => exact ite_eq_apply_ite (portMapped g h) rfl rfl

theorem writePair_portMapped (p : PairId) (w : PairWrite) (s : State) :
    writePair p w (portMapped g h s) = portMapped g h (writePair p w s) := by
  have entries : (portMapped g h s).pairHalt = s.pairHalt := rfl
  rw [writePair, writePair, entries]
  cases pairAfter w (s.pairHalt.pairs.get p) with
  | none => rfl
  | some e =>
    exact ite_eq_apply_ite (portMapped g h) rfl (ite_eq_apply_ite _ rfl (ite_eq_apply_ite _ rfl rfl))

/-- A field's write neither reads nor changes the pointer and the bus. -/
theorem writeField_portMapped (f : Field) (v : Nat) (s : State) :
    writeField f v (portMapped g h s) = portMapped g h (writeField f v s) := by
  cases f with
  | direct f => exact writeDirect_portMapped g h f v s
  | tenant x f => exact writeTenantField_portMapped g h x f v s
  | classifier i f => exact writeClassifier_portMapped g h i _ s
  | pair p f =>
    cases f with
    | state => rfl
    | counter => rfl
    | flags => exact writePair_portMapped g h p (.flags _) s
    | primary => exact writePair_portMapped g h p (.primary _) s
    | secondary => exact writePair_portMapped g h p (.secondary _) s
    | guard => exact writePair_portMapped g h p (.guard _) s
  | counters => rfl
  | frames => rfl

end

end Sys2Proof.Machine
end

