-- ==== Sys2Proof/Proofs/TransferBytes.lean ====
section
/-! PROOFS. The bytes of a transfer make the whole-write rows (R169): the latch holds the bytes before the last, and the last one assembles the value. -/

namespace Sys2Proof.Machine

/-! ### The field a transfer writes -/

/-- PAGE and INDEX select the record that a field belongs to; a direct register is always there (R171). -/
def Selected (s : State) : Field → Prop
  | .direct _ => True
  | .tenant x _ => s.port.page = .tenant ∧ s.port.index.val = x.val
  | .classifier i _ => s.port.page = .classifier ∧ s.port.index.val = i.val
  | .pair p _ => s.port.page = .pair ∧ s.port.index.val = p.val
  | .counters x _ => s.port.page = .counters ∧ s.port.index.val = x.val
  | .frames n _ => s.port.page = .frames ∧ s.port.index.val = n.val

theorem Selected.congr {s t : State} (page : t.port.page = s.port.page) (index : t.port.index = s.port.index)
    {f : Field} (selected : Selected s f) : Selected t f := by
  cases f with
  | direct => exact trivial
  | _ => exact ⟨page.trans selected.1, (congrArg Fin.val index).trans selected.2⟩

/-- A pointer inside a selected field's place finds the field (R168). -/
theorem fieldAt_of_selected {s : State} {f : Field} {k : Nat} (selected : Selected s f) (inside : k < (fieldPlace f).2)
    (pointer : s.port.pointer.toNat = (fieldPlace f).1 + k) : fieldAt s = some f := by
  cases f with
  | direct f => exact fieldAt_direct inside pointer
  | tenant x f =>
    rw [fieldAt_window (pointer.trans (Nat.add_assoc ..)), selected.1, selected.2, windowFieldAt_tenant x inside]
  | classifier i f =>
    rw [fieldAt_window (pointer.trans (Nat.add_assoc ..)), selected.1, selected.2, windowFieldAt_classifier i inside]
  | pair p f =>
    rw [fieldAt_window (pointer.trans (Nat.add_assoc ..)), selected.1, selected.2, windowFieldAt_pair p inside]
  | counters x f =>
    rw [fieldAt_window (pointer.trans (Nat.add_assoc ..)), selected.1, selected.2, windowFieldAt_counters x inside]
  | frames n f =>
    rw [fieldAt_window (pointer.trans (Nat.add_assoc ..)), selected.1, selected.2, windowFieldAt_frames n inside]

theorem fieldPlace_end_lt (f : Field) : (fieldPlace f).1 + (fieldPlace f).2 < 128 := by
  rcases f with f | ⟨_, f⟩ | ⟨_, f⟩ | ⟨_, f⟩ | ⟨_, f⟩ | ⟨_, f⟩ <;> cases f <;>
    simp [fieldPlace, directPlace, tenantPlace, classifierPlace, pairPlace, counterPlace, framePlace, windowBase]

/-- No field of the COUNTERS and FRAMES pages can be written (R171). -/
theorem readOnly_of_page {s : State} {f : Field} (window : windowBase ≤ s.port.pointer.toNat)
    (page : s.port.page = .counters ∨ s.port.page = .frames) (found : fieldAt s = some f) : readOnly f = true := by
  rw [fieldAt, if_neg (Nat.not_lt.mpr window)] at found
  rcases page with page | page
  all_goals
    rw [page, windowFieldAt] at found
    split at found
    · obtain ⟨_, -, rfl⟩ := Option.map_eq_some_iff.mp found
      rfl
    · cases found

/-! ### One byte -/

/-- A byte below a field's highest is latched and acknowledged, and the pointer advances (R169). -/
def byteLatched (f : Field) (k : Nat) (b : Byte) (s : State) : State :=
  { s with
    port.writeLatch := some ⟨f, (k, b) :: (latchedBytes s.port.writeLatch f).filter (·.1 != k)⟩
    port.readLatch := none
    port.pointer := s.port.pointer + 1
    wires.bus := s.wires.bus ++ [.ack] }

theorem managementWrite_lowerByte {s : State} {f : Field} {b : Byte} (running : Running s)
    (writing : s.port.transfer = .writing) (found : fieldAt s = some f)
    (lower : s.port.pointer.toNat - (fieldPlace f).1 + 1 < (fieldPlace f).2) :
    exec (.managementWrite b) s = .next (byteLatched f (s.port.pointer.toNat - (fieldPlace f).1) b s) := by
  have found' : fieldAt (driveBus .ack { s with port.readLatch := none }) = some f := found
  rw [exec_managementWrite, whileRunning_of_running running, if_pos writing, dataByteWritten, writeByteAt, found']
  exact congrArg (fun t => Host.Outcome.next (advancePointer t)) (if_pos lower)

/-- The byte at a field's highest address writes the field as the whole-write row does. -/
theorem managementWrite_lastByte {s : State} {f : Field} {b : Byte} (running : Running s)
    (writing : s.port.transfer = .writing) (selected : Selected s f)
    (last : s.port.pointer.toNat + 1 = (fieldPlace f).1 + (fieldPlace f).2) :
    ∃ stored, exec (.managementWrite b) s = .next (writeField f
      (assemble (latchedBytes s.port.writeLatch f) stored (fieldPlace f).2 b) (dataByteTaken f s)) := by
  have width := fieldPlace_width_pos f
  have found : fieldAt s = some f := fieldAt_of_selected (k := (fieldPlace f).2 - 1) selected (by omega) (by omega)
  obtain ⟨stored, wrote⟩ := managementWrite_topByte (b := b) running writing found (by omega)
  have advanced : advancePointer (topByteTaken s) = dataByteTaken f s := by
    have next : s.port.pointer + 1 = BitVec.ofNat 7 ((fieldPlace f).1 + (fieldPlace f).2) := by
      rw [← last, BitVec.ofNat_add, BitVec.ofNat_toNat, BitVec.setWidth_eq]
      rfl
    rw [dataByteTaken, ← next]
    rfl
  refine ⟨stored, wrote.trans ?_⟩
  rw [← advanced]
  exact congrArg Host.Outcome.next (writeField_portMapped (· + 1) id f _ (topByteTaken s)).symm

/-- A byte written to a one-byte field of the selected record. -/
theorem managementWrite_oneByte {s : State} {f : Field} (b : Byte) (running : Running s)
    (writing : s.port.transfer = .writing) (selected : Selected s f) (one : (fieldPlace f).2 = 1)
    (pointer : s.port.pointer.toNat = (fieldPlace f).1) :
    exec (.managementWrite b) s = .next (writeField f b.toNat (dataByteTaken f s)) := by
  obtain ⟨stored, wrote⟩ := managementWrite_lastByte (b := b) running writing selected (by omega)
  rw [wrote, one, assemble_one]

theorem byte_ofNat_toNat (b : Byte) : BitVec.ofNat 8 b.toNat = b := by rw [BitVec.ofNat_toNat, BitVec.setWidth_eq]

/-! ### The bytes of a field -/

/-- The write holding latch holds the lowest bytes of a field (R169). -/
def Holds (s : State) (f : Field) (bytes : List Byte) : Prop :=
  ∀ k b, bytes[k]? = some b → (latchedBytes s.port.writeLatch f).lookup k = some b

theorem lookup_filter_ne {k j : Nat} (other : j ≠ k) (bytes : List (Nat × Byte)) :
    (bytes.filter (·.1 != k)).lookup j = bytes.lookup j := by
  induction bytes with
  | nil => rfl
  | cons c bytes ih =>
    by_cases same : c.1 = k
    · have passed : (j == c.1) = false := by simp [same, other]
      rw [List.filter_cons_of_neg (by simp [same]), ih, List.lookup_cons, passed]
    · rw [List.filter_cons_of_pos (by simp [same]), List.lookup_cons, List.lookup_cons, ih]

/-- The byte after those held is latched above them. -/
theorem Holds.byteLatched {s : State} {f : Field} {bytes : List Byte} (holds : Holds s f bytes) (b : Byte) :
    Holds (byteLatched f bytes.length b s) f (bytes ++ [b]) := by
  intro k c at_
  have latch : latchedBytes (Machine.byteLatched f bytes.length b s).port.writeLatch f =
      (bytes.length, b) :: (latchedBytes s.port.writeLatch f).filter (·.1 != bytes.length) := if_pos rfl
  rw [latch, List.lookup_cons]
  by_cases top : k = bytes.length
  · subst top
    rw [List.getElem?_concat_length] at at_
    rw [beq_self_eq_true, at_]
  · rw [beq_eq_false_iff_ne.mpr top]
    refine (lookup_filter_ne top _).trans (holds k c ?_)
    have within : k < (bytes ++ [b]).length := (List.getElem?_eq_some_iff.mp at_).1
    rw [List.length_append, List.length_singleton] at within
    rwa [List.getElem?_append_left (by omega)] at at_

/-- The last byte of a field makes the value of all its bytes. -/
theorem Holds.assemble {s : State} {f : Field} {bytes : List Byte} (holds : Holds s f bytes) (stored : Nat) (b : Byte) :
    assemble (latchedBytes s.port.writeLatch f) stored (bytes.length + 1) b = ofBytes (bytes ++ [b]) := by
  have held : (List.range bytes.length).map (heldByte (latchedBytes s.port.writeLatch f) stored) = bytes := by
    refine List.ext_getElem (by simp) fun k _ inside => ?_
    rw [List.getElem_map, List.getElem_range, heldByte, holds k bytes[k] (List.getElem?_eq_getElem inside)]
  rw [Machine.assemble, Nat.add_sub_cancel, held]

/-- The bytes still missing of a field complete its write, with one acknowledgement for each. -/
theorem bytesWritten_of_holds {f : Field} (rest : List Byte) : ∀ {s : State} {bytes : List Byte} (b : Byte),
    Running s → s.port.transfer = .writing → Selected s f → Holds s f bytes →
    s.port.pointer.toNat = (fieldPlace f).1 + bytes.length →
    bytes.length + (b :: rest).length = (fieldPlace f).2 →
    bytesWritten (b :: rest) s = some (portMapped id (· ++ List.replicate rest.length .ack)
      (writeField f (ofBytes (bytes ++ b :: rest)) (dataByteTaken f s))) := by
  have below := fieldPlace_end_lt f
  induction rest with
  | nil =>
    intro s bytes b running writing selected holds pointer width
    have width : bytes.length + 1 = (fieldPlace f).2 := width
    obtain ⟨stored, wrote⟩ := managementWrite_lastByte (b := b) running writing selected (by omega)
    rw [bytesWritten, wrote, ← width, holds.assemble]
    simp only [List.length_nil, List.replicate_zero, List.append_nil]
    rfl
  | cons c rest ih =>
    intro s bytes b running writing selected holds pointer width
    rw [List.length_cons, List.length_cons] at width
    have found : fieldAt s = some f := fieldAt_of_selected selected (by omega) pointer
    have place : s.port.pointer.toNat - (fieldPlace f).1 = bytes.length := by omega
    have latched := managementWrite_lowerByte (b := b) running writing found (by omega)
    have next : (s.port.pointer + 1).toNat = (fieldPlace f).1 + (bytes ++ [b]).length := by
      have one : (1 : BitVec 7).toNat = 1 := rfl
      rw [BitVec.toNat_add, pointer, one, List.length_append, List.length_singleton]
      exact Nat.mod_eq_of_lt (by omega)
    have written := ih (s := byteLatched f bytes.length b s) c running writing (selected.congr rfl rfl)
      (holds.byteLatched b) next (by rw [List.length_append, List.length_singleton, List.length_cons]; omega)
    have taken : dataByteTaken f (byteLatched f bytes.length b s) =
        portMapped id (· ++ [.ack]) (dataByteTaken f s) := rfl
    rw [bytesWritten, latched, place]
    refine written.trans ?_
    rw [taken, writeField_portMapped, List.append_assoc, List.singleton_append, List.length_cons, List.replicate_succ]
    exact congrArg (fun bus => some { writeField f (ofBytes (bytes ++ b :: c :: rest)) (dataByteTaken f s) with
      wires.bus := bus }) (List.append_assoc ..)

/-! ### The value of a word's bytes -/

theorem ofBytes_concat (l : List Byte) (b : Byte) : ofBytes (l ++ [b]) = ofBytes l + 256 ^ l.length * b.toNat := by
  induction l with
  | nil => simp [ofBytes]
  | cons c l ih =>
    rw [List.cons_append, ofBytes, ih, ofBytes, List.length_cons, Nat.pow_succ']
    ring

theorem bytesOf_length {w : Nat} (count : Nat) (v : BitVec w) : (bytesOf count v).length = count := by simp [bytesOf]

theorem bytesOf_succ {w : Nat} (count : Nat) (v : BitVec w) :
    bytesOf (count + 1) v = bytesOf count v ++ [(v >>> (8 * count)).setWidth 8] := by
  simp only [bytesOf, List.range_succ, List.map_append, List.map_cons, List.map_nil]

theorem ofBytes_bytesOf {w : Nat} (v : BitVec w) (count : Nat) :
    ofBytes (bytesOf count v) = v.toNat % 256 ^ count := by
  induction count with
  | zero => rw [Nat.pow_zero, Nat.mod_one]; rfl
  | succ count ih =>
    have byte : ((v >>> (8 * count)).setWidth 8).toNat = v.toNat / 256 ^ count % 256 := by
      rw [BitVec.toNat_setWidth, BitVec.toNat_ushiftRight, Nat.shiftRight_eq_div_pow, Nat.pow_mul]
    rw [bytesOf_succ, ofBytes_concat, ih, bytesOf_length, byte, Nat.mod_pow_succ]

/-- A word has exactly the bytes that make it. -/
theorem ofBytes_bytesOf_width {count : Nat} (v : BitVec (8 * count)) : ofBytes (bytesOf count v) = v.toNat := by
  have bound : v.toNat < 256 ^ count := by
    have := v.isLt
    rwa [Nat.pow_mul] at this
  rw [ofBytes_bytesOf, Nat.mod_eq_of_lt bound]

/-- The bytes of a word, written from a field's lowest address on, write the word to the field. -/
theorem bytesWritten_word {s : State} {f : Field} (v : BitVec (8 * (fieldPlace f).2)) (running : Running s)
    (writing : s.port.transfer = .writing) (selected : Selected s f)
    (pointer : s.port.pointer.toNat = (fieldPlace f).1) :
    bytesWritten (bytesOf (fieldPlace f).2 v) s = some (portMapped id
      (· ++ List.replicate ((bytesOf (fieldPlace f).2 v).length - 1) .ack)
      (writeField f v.toNat (dataByteTaken f s))) := by
  have count := bytesOf_length (fieldPlace f).2 v
  have value := ofBytes_bytesOf_width v
  have wide := fieldPlace_width_pos f
  cases bytes : bytesOf (fieldPlace f).2 v with
  | nil => rw [bytes, List.length_nil] at count; omega
  | cons b rest =>
    rw [bytes] at count value
    have holds : Holds s f [] := nofun
    have written := bytesWritten_of_holds rest b running writing selected holds pointer (by rw [count]; simp)
    rwa [List.nil_append, value] at written

/-! ### The whole-write rows -/

section
variable {s : State} {f : Field} {c : State → State} (running : Running s) (writing : s.port.transfer = .writing)
  (selected : Selected s f) (pointer : s.port.pointer.toNat = (fieldPlace f).1)
include running writing selected pointer

/-- A byte written to a one-byte field does what the row does that writes the byte's value to the field. -/
theorem managementWrite_eq_row {row : Instr} {b : Byte} (one : (fieldPlace f).2 = 1)
    (runs : exec row s = whileRunning c s) (writes : c s = writeField f b.toNat (dataByteTaken f s)) :
    exec (.managementWrite b) s = exec row s := by
  rw [managementWrite_oneByte b running writing selected one pointer, runs, whileRunning_of_running running, writes]

/-- The same for a row that carries the byte which the value spells. -/
theorem managementWrite_eq_byteRow {row : Byte → Instr} {b : Byte} (one : (fieldPlace f).2 = 1)
    (runs : exec (row (BitVec.ofNat 8 b.toNat)) s = whileRunning c s)
    (writes : c s = writeField f b.toNat (dataByteTaken f s)) : exec (.managementWrite b) s = exec (row b) s := by
  rw [byte_ofNat_toNat] at runs
  exact managementWrite_eq_row running writing selected pointer one runs writes

/-- The bytes of a word make the row that writes the word's value to the field. -/
theorem bytesMake_of_row {row : Instr} {w : Nat} {v : BitVec w} (width : w = 8 * (fieldPlace f).2)
    (runs : exec row s = whileRunning c s) (writes : c s = writeField f v.toNat (dataByteTaken f s)) :
    BytesMake (bytesOf (fieldPlace f).2 v) row s := by
  subst width
  refine ⟨writeField f v.toNat (dataByteTaken f s), ?_, bytesWritten_word v running writing selected pointer⟩
  rw [runs, whileRunning_of_running running, writes]

/-- The same for a row that carries the word which the value spells. -/
theorem bytesMake_of_wordRow {w : Nat} {row : BitVec w → Instr} {v : BitVec w} (width : w = 8 * (fieldPlace f).2)
    (runs : exec (row (BitVec.ofNat w v.toNat)) s = whileRunning c s)
    (writes : c s = writeField f v.toNat (dataByteTaken f s)) :
    BytesMake (bytesOf (fieldPlace f).2 v) (row v) s := by
  rw [BitVec.ofNat_toNat, BitVec.setWidth_eq] at runs
  exact bytesMake_of_row running writing selected pointer width runs writes

end

/-! ### Bytes without effect, and the clearing read -/

/-- The port has taken a byte that changes nothing else. -/
def byteIgnored (latch : Option WriteLatch) (s : State) : State :=
  { s with
    port.writeLatch := latch
    port.readLatch := none
    port.pointer := s.port.pointer + 1
    wires.bus := s.wires.bus ++ [.ack] }

theorem managementWrite_readOnly {s : State} {f : Field} (b : Byte) (running : Running s)
    (writing : s.port.transfer = .writing) (found : fieldAt s = some f) (fixed : readOnly f = true) :
    ∃ latch, exec (.managementWrite b) s = .next (byteIgnored latch s) ∧
      (s.port.pointer.toNat + 1 = (fieldPlace f).1 + (fieldPlace f).2 → latch = none) := by
  by_cases lower : s.port.pointer.toNat - (fieldPlace f).1 + 1 < (fieldPlace f).2
  · exact ⟨_, managementWrite_lowerByte running writing found lower, fun last => by omega⟩
  · obtain ⟨stored, wrote⟩ := managementWrite_topByte (b := b) running writing found (Nat.not_lt.mp lower)
    rw [writeField_readOnly fixed] at wrote
    exact ⟨none, wrote, fun _ => rfl⟩

theorem managementWrite_noField {s : State} (b : Byte) (running : Running s) (writing : s.port.transfer = .writing)
    (found : fieldAt s = none) : exec (.managementWrite b) s = .next (byteIgnored none s) := by
  have found' : fieldAt (driveBus .ack { s with port.readLatch := none }) = none := found
  rw [exec_managementWrite, whileRunning_of_running running, if_pos writing, dataByteWritten, writeByteAt, found']
  rfl

/-- The byte read at a tenant's maximum head age is the row (R158). -/
theorem dataByteSent_maxHeadAge {s : State} {x : TenantId} (reading : s.port.transfer = .reading)
    (noWrite : s.port.writeLatch = none) (noRead : s.port.readLatch = none)
    (pointer : s.port.pointer = 0x60) (found : fieldAt s = some (.counters x .maxHeadAge)) :
    dataByteSent true s = clearOnRead (some (.counters x .maxHeadAge))
      { driveBus (.byte (byteOf (s.observe.counters.get x).maxHeadAge 0)) s with
        port.pointer := BitVec.ofNat 7 ((fieldPlace (.counters x .maxHeadAge)).1 + 1)
        port.writeLatch := none
        port.readLatch := none } := by
  have byte : byteAtPointer s = byteOf (s.observe.counters.get x).maxHeadAge 0 := by
    rw [byteAtPointer, found]
    dsimp only
    rw [valueForRead, noRead, pointer]
    rfl
  have latch : latchAfterRead s = none := by
    rw [latchAfterRead, found]
    dsimp only
    rw [if_neg fun multi => absurd multi.2 (Nat.lt_irrefl 1), noRead]
  have next : s.port.pointer + 1 = 0x61 := by rw [pointer]; rfl
  rw [dataByteSent, found, byte, latch, ← noWrite]
  simp only [clearOnRead, countTenant, driveBus, advancePointer, afterAck, next]
  rw [← reading]
  rfl

end Sys2Proof.Machine

section
open Sys2Proof Sys2Proof.Machine

/-- Settles O60: each row is the write of its field's value, which the field's bytes assemble; read-only fields keep what they hold. -/
theorem bytesOfATransferMakeTheWholeWrites : Obligations.BytesOfATransferMakeTheWholeWrites := by
  unfold Obligations.BytesOfATransferMakeTheWholeWrites
  refine ⟨fun s running writing _ => ?_, fun s b running writing => ⟨fun f found fixed => ?_, fun window page => ?_⟩,
    fun s x running reading noWrite noRead page index pointer => ?_⟩
  case refine_1 =>
    intro a i
    have place {n : BitVec 7} (at_ : a = n) : s.port.pointer.toNat = n.toNat := congrArg BitVec.toNat at_
    have oneByte {f c row b} := managementWrite_eq_row (f := f) (c := c) (row := row) (b := b) running writing
    have coded {f c row b} := managementWrite_eq_byteRow (f := f) (c := c) (row := row) (b := b) running writing
    have bytes {f c row w v} := bytesMake_of_row (f := f) (c := c) (row := row) (w := w) (v := v) running writing
    have word {f c w row v} := bytesMake_of_wordRow (f := f) (c := c) (w := w) (row := row) (v := v) running writing
    refine ⟨fun b => ⟨?_, ?_, ?_, ?_, ?_, ?_, ?_, ?_, fun at_ => ?_⟩, fun v => ⟨?_, ?_, ?_, ?_, ?_⟩,
      fun v => ⟨?_, ?_⟩, fun x v b h page index => ⟨?_, ?_, ?_, fun at_ attrs => ?_⟩,
      fun e b v page index => ⟨?_, ?_, ?_, ?_, ?_, ?_, ?_⟩, fun p b page index => ⟨?_, ?_, ?_, ?_⟩⟩
    · exact fun at_ => coded (f := .direct .status) (row := .statusClear) trivial (place at_) rfl
        (exec_statusClear _ s) rfl
    · exact fun at_ => coded (f := .direct .page) (row := .pageWrite) trivial (place at_) rfl
        (exec_pageWrite _ s) rfl
    · exact fun at_ => coded (f := .direct .index) (row := .indexWrite) trivial (place at_) rfl
        (exec_indexWrite _ s) rfl
    · exact fun at_ => oneByte (f := .direct .lp) (row := .lpWrite b) trivial (place at_) rfl
        (exec_lpWrite b s) rfl
    · exact fun at_ => oneByte (f := .direct .wf) (row := .wfWrite b) trivial (place at_) rfl
        (exec_wfWrite b s) rfl
    · exact fun at_ => coded (f := .direct .defaultTenant) (row := .defaultTenantWrite) trivial (place at_) rfl
        (exec_defaultTenantWrite _ s) rfl
    · exact fun at_ => coded (f := .direct .alertFlags) (row := .alertFlagClear) trivial (place at_) rfl
        (exec_alertFlagClear _ s) rfl
    · exact fun at_ => coded (f := .direct .alertEnables) (row := .alertEnablesWrite) trivial (place at_) rfl
        (exec_alertEnablesWrite _ s) rfl
    · have command {c row b} := oneByte (f := .direct .cmd) (c := c) (row := row) (b := b) trivial (place at_) rfl
      refine ⟨command (exec_start _ s) rfl, command (exec_quiesce _ s) rfl, command (exec_stop _ s) rfl,
        command (exec_resume _ s) rfl, command (exec_clear _ s) rfl, command (exec_tenantReset _ s) rfl,
        command (exec_pairSwap _ s) rfl, command (exec_modeSet _ s) rfl, command (exec_runtimeReset s) rfl, fun _ => ?_⟩
      exact coded (f := .direct .cmd) (row := .unknownCommand) trivial (place at_) rfl (exec_unknownCommand _ s) rfl
    · exact fun at_ => bytes (f := .direct .fp) trivial (place at_) rfl (exec_fpWrite v s) rfl
    · exact fun at_ => bytes (f := .direct .cap) trivial (place at_) rfl (exec_capWrite v s) rfl
    · exact fun at_ => bytes (f := .direct .cto) trivial (place at_) rfl (exec_ctoWrite v s) rfl
    · exact fun at_ => bytes (f := .direct .switchResets) trivial (place at_) rfl
        (exec_linkResetCountClear .switch v s) rfl
    · exact fun at_ => bytes (f := .direct .poolLosses) trivial (place at_) rfl (exec_linkResetCountClear .pool v s) rfl
    · exact fun at_ => bytes (f := .direct .strays) trivial (place at_) rfl (exec_globalCounterClear .stray v s) rfl
    · exact fun at_ => bytes (f := .direct .staleFrames) trivial (place at_) rfl
        (exec_globalCounterClear .staleFrames v s) rfl
    · exact fun at_ => bytes (f := .tenant x .floor) ⟨page, index⟩ (place at_) rfl (exec_floorWrite x v s) rfl
    · exact fun at_ => bytes (f := .tenant x .qlim) ⟨page, index⟩ (place at_) rfl (exec_qlimWrite x v s) rfl
    · exact fun at_ => bytes (f := .tenant x .qres) ⟨page, index⟩ (place at_) rfl (exec_qresWrite x v s) rfl
    · have bits : attrsOf (BitVec.ofNat 8 b.toNat) = { (recordAt s x).attrs with haltable := h } := by
        rw [byte_ofNat_toNat, attrs, attrsOf]
      refine oneByte (f := .tenant x .attrs) ⟨page, index⟩ (place at_) rfl (exec_haltableWrite x h s) ?_
      rw [writeField, writeTenantField, bits]
    · exact fun at_ => coded (f := .classifier e .flags) (row := fun b => .classifierEntryWrite e (.flags b))
        ⟨page, index⟩ (place at_) rfl (exec_classifierEntryWrite e _ s) rfl
    · exact fun at_ => coded (f := .classifier e .value) (row := fun b => .classifierEntryWrite e (.requesterValue b))
        ⟨page, index⟩ (place at_) rfl (exec_classifierEntryWrite e _ s) rfl
    · exact fun at_ => coded (f := .classifier e .mask) (row := fun b => .classifierEntryWrite e (.requesterMask b))
        ⟨page, index⟩ (place at_) rfl (exec_classifierEntryWrite e _ s) rfl
    · exact fun at_ => coded (f := .classifier e .priority) (row := fun b => .classifierEntryWrite e (.priority b))
        ⟨page, index⟩ (place at_) rfl (exec_classifierEntryWrite e _ s) rfl
    · exact fun at_ => coded (f := .classifier e .tenant) (row := fun b => .classifierEntryWrite e (.tenant b))
        ⟨page, index⟩ (place at_) rfl (exec_classifierEntryWrite e _ s) rfl
    · exact fun at_ => word (f := .classifier e .base) (row := fun v => .classifierEntryWrite e (.windowBase v))
        ⟨page, index⟩ (place at_) rfl (exec_classifierEntryWrite e _ s) rfl
    · exact fun at_ => word (f := .classifier e .limit) (row := fun v => .classifierEntryWrite e (.windowLimit v))
        ⟨page, index⟩ (place at_) rfl (exec_classifierEntryWrite e _ s) rfl
    · exact fun at_ => coded (f := .pair p .flags) (row := fun b => .pairEntryWrite p (.flags b))
        ⟨page, index⟩ (place at_) rfl (exec_pairEntryWrite p _ s) rfl
    · exact fun at_ => coded (f := .pair p .primary) (row := fun b => .pairEntryWrite p (.primary b))
        ⟨page, index⟩ (place at_) rfl (exec_pairEntryWrite p _ s) rfl
    · exact fun at_ => coded (f := .pair p .secondary) (row := fun b => .pairEntryWrite p (.secondary b))
        ⟨page, index⟩ (place at_) rfl (exec_pairEntryWrite p _ s) rfl
    · exact fun at_ => coded (f := .pair p .guard) (row := fun b => .pairEntryWrite p (.guard b))
        ⟨page, index⟩ (place at_) rfl (exec_pairEntryWrite p _ s) rfl
  case refine_2 => exact managementWrite_readOnly b running writing found fixed
  case refine_3 =>
    cases found : fieldAt s with
    | none => exact ⟨none, managementWrite_noField b running writing found⟩
    | some f =>
      have fixed := readOnly_of_page window page found
      obtain ⟨latch, taken, -⟩ := managementWrite_readOnly b running writing found fixed
      exact ⟨latch, taken⟩
  case refine_4 =>
    have found : fieldAt s = some (.counters x .maxHeadAge) :=
      fieldAt_of_selected (k := 0) ⟨page, index⟩ Nat.zero_lt_one (by rw [pointer]; rfl)
    rw [exec_dataByteRead, exec_maximumHeadAgeRead, whileRunning_of_running running, whileRunning_of_running running,
      if_pos reading, dataByteSent_maxHeadAge reading noWrite noRead pointer found]

end
end

