-- ==== Sys2Proof/Proofs/AlertCode.lean ====
section
/-! PROOFS. ALERT_CODE as the lowest bit of the flags set and enabled (R163, R164). -/

namespace Sys2Proof.Machine

/-! ### The lowest flag of a word -/

theorem and_twoPow_ne_zero {w i : Nat} (inside : i < w) (flags : BitVec w) :
    (flags &&& BitVec.twoPow w i != 0) = flags.getLsbD i := by
  rw [BitVec.and_twoPow]
  have bit : BitVec.twoPow w i ≠ 0 := fun zero => by
    have := congrArg (fun b => b.getLsbD i) zero
    simp [inside] at this
  cases flags.getLsbD i
  · rfl
  · simpa using bit

theorem codeOf_eq_of_bits (flags : BitVec 7) : codeOf flags =
    if flags.getLsbD 0 then 1 else if flags.getLsbD 1 then 2 else if flags.getLsbD 2 then 3
    else if flags.getLsbD 3 then 4 else if flags.getLsbD 4 then 5 else if flags.getLsbD 5 then 6
    else if flags.getLsbD 6 then 7 else 0 := by
  have bit {i : Nat} (inside : i < 7) := and_twoPow_ne_zero inside flags
  rw [← bit (i := 0) (by decide), ← bit (i := 1) (by decide), ← bit (i := 2) (by decide),
    ← bit (i := 3) (by decide), ← bit (i := 4) (by decide), ← bit (i := 5) (by decide),
    ← bit (i := 6) (by decide)]
  rfl

/-- The codes are numbered from 1 in the order of the flags' bits (R163, R164). -/
theorem codeOf_of_lowest {flags : BitVec 7} {n : Nat} (inside : n < 7) (here : flags.getLsbD n = true)
    (below : ∀ m < n, flags.getLsbD m = false) : codeOf flags = n + 1 := by
  rw [codeOf_eq_of_bits]
  interval_cases n <;> simp [-BitVec.getLsbD_eq_getElem, here, below]

/-- A word other than 0 has a bit that is 1. -/
theorem ne_zero_iff_bit {w : Nat} (flags : BitVec w) : flags ≠ 0 ↔ ∃ n < w, flags.getLsbD n = true := by
  constructor
  · contrapose!
    exact fun clear => BitVec.eq_of_getLsbD_eq fun n inside => by
      rw [BitVec.ofNat_eq_ofNat, BitVec.getLsbD_zero, Bool.eq_false_iff]
      exact clear n inside
  · rintro ⟨n, -, here⟩ rfl
    rw [BitVec.ofNat_eq_ofNat, BitVec.getLsbD_zero] at here
    cases here

theorem codeOf_eq_zero_iff (flags : BitVec 7) : codeOf flags = 0 ↔ flags = 0 := by
  constructor
  · intro zeroCode
    by_contra nonempty
    have bit := (ne_zero_iff_bit flags).mp nonempty
    obtain ⟨inside, here⟩ := Nat.find_spec bit
    have below : ∀ m < Nat.find bit, flags.getLsbD m = false := fun m lower =>
      Bool.eq_false_iff.mpr fun there => Nat.find_min bit lower ⟨lower.trans inside, there⟩
    exact Nat.succ_ne_zero _ ((codeOf_of_lowest inside here below).symm.trans zeroCode)
  · rintro rfl
    rfl

end Sys2Proof.Machine

section
open Sys2Proof Sys2Proof.Machine

/-- Settles O55: the flags that are set and enabled make one word, and its lowest bit gives the code. -/
theorem alertCodeNamesTheFirstEnabledFlag : Obligations.AlertCodeNamesTheFirstEnabledFlag := by
  unfold Obligations.AlertCodeNamesTheFirstEnabledFlag
  intro s
  refine ⟨?_, ?_, fun n inside raised enabled before => ?_⟩
  · rw [alertCode, codeOf_eq_zero_iff, alertAsserted, bne_eq_false_iff_eq]
  · simp only [alertAsserted, bne_iff_ne, ne_zero_iff_bit, BitVec.getLsbD_and, Bool.and_eq_true]
  · refine codeOf_of_lowest inside ?_ fun m lower => ?_
    · rw [BitVec.getLsbD_and, raised, enabled, Bool.and_self]
    · rw [BitVec.getLsbD_and, Bool.and_eq_false_iff]
      exact before m lower

end
end

