-- ==== Sys2Proof/Proofs/SnapshotReads.lean ====
section
/-! PROOFS. The bytes of a read transfer and the snapshot latch: what is driven and what is latched, by where the pointer stands in its field (R168, R170). -/

namespace Sys2Proof.Machine

/-! ### The field at the pointer -/

theorem selected_and_covers_of_windowFieldAt {s : State} {offset : Nat} {f : Field}
    (found : windowFieldAt s.port.page s.port.index.val offset = some f) :
    Selected s f ∧ covers (fieldPlace f) (windowBase + offset) = true := by
  have shifted {place : Nat × Nat} (covered : covers place offset = true) :
      covers (windowBase + place.1, place.2) (windowBase + offset) = true := by
    rw [covers_iff] at covered ⊢
    omega
  cases page : s.port.page
  all_goals
    rw [page, windowFieldAt] at found
    split at found
    · obtain ⟨g, first, rfl⟩ := Option.map_eq_some_iff.mp found
      exact ⟨⟨page, rfl⟩, shifted (List.find?_some (p := fun g => covers _ offset) first)⟩
    · cases found

/-- A field found at the pointer is selected, and its place covers the pointer (R168, R171). -/
theorem selected_and_covers_of_fieldAt {s : State} {f : Field} (found : fieldAt s = some f) :
    Selected s f ∧ covers (fieldPlace f) s.port.pointer.toNat = true := by
  rw [fieldAt] at found
  split at found
  case isTrue direct =>
    obtain ⟨g, first, rfl⟩ := Option.map_eq_some_iff.mp found
    exact ⟨trivial, List.find?_some (p := fun g => covers (directPlace g) s.port.pointer.toNat) first⟩
  case isFalse window =>
    have := selected_and_covers_of_windowFieldAt found
    rwa [Nat.add_sub_cancel' (Nat.not_lt.mp window)] at this

/-! ### The byte driven -/

theorem byteAtPointer_of_field {s : State} {f : Field} (found : fieldAt s = some f) :
    byteAtPointer s = byteOf (valueForRead s f (s.port.pointer.toNat - (fieldPlace f).1))
      (s.port.pointer.toNat - (fieldPlace f).1) := by
  rw [byteAtPointer, found]

theorem byteOf_zero (value : Nat) : byteOf value 0 = BitVec.ofNat 8 value := by
  rw [byteOf, Nat.pow_zero, Nat.div_one]

/-- The latch holds no value of the field. -/
def NotLatched (s : State) (f : Field) : Prop := ∀ l, s.port.readLatch = some l → l.field ≠ f

theorem valueForRead_lowest (s : State) (f : Field) : valueForRead s f 0 = fieldValue s f := by
  rw [valueForRead]
  split
  · exact if_neg fun above => above.2 rfl
  · rfl

theorem valueForRead_latched {s : State} {l : ReadLatch} {k : Nat} (latched : s.port.readLatch = some l)
    (above : 0 < k) : valueForRead s l.field k = l.value := by
  rw [valueForRead, latched]
  exact if_pos ⟨rfl, above.ne'⟩

theorem valueForRead_notLatched {s : State} {f : Field} (absent : NotLatched s f) (k : Nat) :
    valueForRead s f k = fieldValue s f := by
  rw [valueForRead]
  split
  next l latched => exact if_neg fun holds => absent l latched holds.1
  · rfl

/-! ### The latch after the byte -/

theorem latchAfterRead_lowest {s : State} {f : Field} (found : fieldAt s = some f)
    (lowest : s.port.pointer.toNat = (fieldPlace f).1) (multi : 1 < (fieldPlace f).2) :
    latchAfterRead s = some ⟨f, fieldValue s f⟩ := by
  rw [latchAfterRead, found]
  exact if_pos ⟨lowest, multi⟩

theorem latchAfterRead_latched {s : State} {l : ReadLatch} (found : fieldAt s = some l.field)
    (latched : s.port.readLatch = some l) (above : s.port.pointer.toNat ≠ (fieldPlace l.field).1) :
    latchAfterRead s = some l := by
  rw [latchAfterRead, found, latched]
  dsimp only
  rw [if_neg fun lowest => above lowest.1, if_pos rfl]

theorem latchAfterRead_notLatched {s : State} {f : Field} (found : fieldAt s = some f) (absent : NotLatched s f)
    (other : ¬ (s.port.pointer.toNat = (fieldPlace f).1 ∧ 1 < (fieldPlace f).2)) : latchAfterRead s = none := by
  rw [latchAfterRead, found]
  dsimp only
  rw [if_neg other]
  split
  next l latched => exact if_neg (absent l latched)
  · rfl

/-! ### The state after the byte -/

/-- A byte has been driven in a read transfer, with what the latch then holds (R167, R168, R170). -/
def byteSent (acknowledged : Bool) (b : Byte) (latch : Option ReadLatch) (s : State) : State :=
  { s with
    port.readLatch := latch
    port.pointer := s.port.pointer + 1
    port.transfer := if acknowledged then .reading else .ignored
    wires.bus := s.wires.bus ++ [.byte b] }

/-- The clearing of a maximum head age stands apart from the port and the bus. -/
theorem dataByteSent_eq (acknowledged : Bool) (s : State) : dataByteSent acknowledged s =
    clearOnRead (fieldAt s) (byteSent acknowledged (byteAtPointer s) (latchAfterRead s) s) := by
  rw [dataByteSent]
  unfold clearOnRead
  split <;> rfl

/-- Only a maximum head age is cleared by its read (R158). -/
theorem clearOnRead_of_ne {f : Field} (other : ∀ x, f ≠ .counters x .maxHeadAge) (s : State) :
    clearOnRead (some f) s = s := by
  unfold clearOnRead
  split
  next x same => exact absurd (Option.some.inj same) (other x)
  · rfl

/-- A maximum head age is one byte wide. -/
theorem ne_maxHeadAge_of_wide {f : Field} (wide : 1 < (fieldPlace f).2) (x : TenantId) :
    f ≠ .counters x .maxHeadAge := by
  rintro rfl
  exact absurd wide (Nat.lt_irrefl 1)

theorem dataByteRead_reading {s : State} (acknowledged : Bool) (running : Running s)
    (reading : s.port.transfer = .reading) :
    exec (.dataByteRead acknowledged) s = .next (dataByteSent acknowledged s) := by
  rw [exec_dataByteRead, whileRunning_of_running running, if_pos reading]

theorem dataByteRead_notReading {s : State} (acknowledged : Bool) (running : Running s)
    (other : s.port.transfer ≠ .reading) : exec (.dataByteRead acknowledged) s = .next s := by
  rw [exec_dataByteRead, whileRunning_of_running running, if_neg other]

/-- READ_SNAPSHOT is the read of a multi-byte field's lowest byte (R170). -/
theorem readSnapshot_lowest {s : State} (acknowledged : Bool) (running : Running s)
    (reading : s.port.transfer = .reading) (lowest : atLowestByte s = true) :
    exec (.readSnapshot acknowledged) s = exec (.dataByteRead acknowledged) s := by
  rw [dataByteRead_reading acknowledged running reading, exec_readSnapshot, whileRunning_of_running running,
    if_pos ⟨reading, lowest⟩]

theorem readSnapshot_elsewhere {s : State} (acknowledged : Bool) (running : Running s)
    (elsewhere : ¬ (s.port.transfer = .reading ∧ atLowestByte s = true)) :
    exec (.readSnapshot acknowledged) s = .next s := by
  rw [exec_readSnapshot, whileRunning_of_running running, if_neg elsewhere]

theorem atLowestByte_of_none {s : State} (found : fieldAt s = none) : atLowestByte s = false := by
  rw [atLowestByte, found]

theorem atLowestByte_iff {s : State} {f : Field} (found : fieldAt s = some f) :
    atLowestByte s = true ↔ s.port.pointer.toNat = (fieldPlace f).1 ∧ 1 < (fieldPlace f).2 := by
  rw [atLowestByte, found]
  simp

/-- The byte read at an unassigned address is 0 and empties the latch (R168, R170). -/
theorem dataByteRead_noField {s : State} (acknowledged : Bool) (running : Running s)
    (reading : s.port.transfer = .reading) (found : fieldAt s = none) :
    exec (.dataByteRead acknowledged) s = .next (byteSent acknowledged 0 none s) := by
  rw [dataByteRead_reading acknowledged running reading, dataByteSent_eq, byteAtPointer, latchAfterRead, found]
  rfl

section
variable {s : State} {f : Field} (acknowledged : Bool) (running : Running s) (reading : s.port.transfer = .reading)
  (found : fieldAt s = some f)
include running reading found

/-- The lowest byte of a multi-byte field latches the field's value (R170). -/
theorem dataByteRead_lowest (lowest : s.port.pointer.toNat = (fieldPlace f).1) (multi : 1 < (fieldPlace f).2) :
    exec (.dataByteRead acknowledged) s = .next
      (byteSent acknowledged (BitVec.ofNat 8 (fieldValue s f)) (some ⟨f, fieldValue s f⟩) s) := by
  rw [dataByteRead_reading acknowledged running reading, dataByteSent_eq, byteAtPointer_of_field found,
    latchAfterRead_lowest found lowest multi, found, clearOnRead_of_ne (ne_maxHeadAge_of_wide multi), lowest,
    Nat.sub_self, valueForRead_lowest, byteOf_zero]

/-- A byte above the lowest is the latched value's while the latch holds the field (R170). -/
theorem dataByteRead_latched {l : ReadLatch} (above : 0 < s.port.pointer.toNat - (fieldPlace f).1)
    (latched : s.port.readLatch = some l) (same : l.field = f) :
    exec (.dataByteRead acknowledged) s = .next (byteSent acknowledged
      (BitVec.ofNat 8 (l.value / 256 ^ (s.port.pointer.toNat - (fieldPlace f).1))) (some l) s) := by
  subst same
  have inside := (covers_iff _ _).mp (selected_and_covers_of_fieldAt found).2
  have multi : 1 < (fieldPlace l.field).2 := by omega
  rw [dataByteRead_reading acknowledged running reading, dataByteSent_eq, byteAtPointer_of_field found,
    latchAfterRead_latched found latched (by omega), found, clearOnRead_of_ne (ne_maxHeadAge_of_wide multi),
    valueForRead_latched latched above, byteOf]

/-- Any other byte is the present value's and leaves the latch empty (R170). -/
theorem dataByteRead_notLatched (absent : NotLatched s f)
    (other : ¬ (s.port.pointer.toNat = (fieldPlace f).1 ∧ 1 < (fieldPlace f).2)) :
    exec (.dataByteRead acknowledged) s = .next (clearOnRead (some f) (byteSent acknowledged
      (byteOf (fieldValue s f) (s.port.pointer.toNat - (fieldPlace f).1)) none s)) := by
  rw [dataByteRead_reading acknowledged running reading, dataByteSent_eq, byteAtPointer_of_field found,
    latchAfterRead_notLatched found absent other, found, valueForRead_notLatched absent]

/-- The only byte of a one-byte field. -/
theorem dataByteRead_oneByte (one : (fieldPlace f).2 = 1) (absent : NotLatched s f) :
    exec (.dataByteRead acknowledged) s = .next (clearOnRead (some f) (byteSent acknowledged
      (BitVec.ofNat 8 (fieldValue s f)) none s)) := by
  have inside := (covers_iff _ _).mp (selected_and_covers_of_fieldAt found).2
  have lowest : s.port.pointer.toNat - (fieldPlace f).1 = 0 := by omega
  rw [dataByteRead_notLatched acknowledged running reading found absent (by omega), lowest, byteOf_zero]

end

/-! ### A field read as it stood -/

/-- A pointer moved within a field's place still finds the field, whatever has changed outside the port (R168). -/
theorem fieldAt_of_port {s u : State} {f : Field} {k : Nat} (found : fieldAt s = some f) (inside : k < (fieldPlace f).2)
    (page : u.port.page = s.port.page) (index : u.port.index = s.port.index)
    (pointer : u.port.pointer = BitVec.ofNat 7 ((fieldPlace f).1 + k)) :
    fieldAt u = some f ∧ u.port.pointer.toNat = (fieldPlace f).1 + k := by
  have small := fieldPlace_end_lt f
  have moved : u.port.pointer.toNat = (fieldPlace f).1 + k := by
    rw [pointer, BitVec.toNat_ofNat]
    exact Nat.mod_eq_of_lt (by omega)
  have selected := (selected_and_covers_of_fieldAt found).1.congr page index
  exact ⟨fieldAt_of_selected selected inside moved, moved⟩

end Sys2Proof.Machine

section
open Sys2Proof Sys2Proof.Machine

/-- Settles O59: each byte by its place in the field and what the latch holds; a later byte of a latched field comes from the latch, which only the port's own commands change. -/
theorem dataBytesAreReadThroughTheSnapshotLatch : Obligations.DataBytesAreReadThroughTheSnapshotLatch := by
  unfold Obligations.DataBytesAreReadThroughTheSnapshotLatch
  refine ⟨fun s ack running => ?_, ?_⟩
  · intro sent
    refine ⟨fun other => ⟨?_, ?_⟩, fun reading found => ⟨?_, ?_⟩, fun f reading found => ?_⟩
    · exact dataByteRead_notReading ack running other
    · exact readSnapshot_elsewhere ack running fun lowest => other lowest.1
    · exact dataByteRead_noField ack running reading found
    · exact readSnapshot_elsewhere ack running fun lowest =>
        Bool.false_ne_true ((atLowestByte_of_none found).symm.trans lowest.2)
    intro k
    have inside := (covers_iff _ _).mp (selected_and_covers_of_fieldAt found).2
    have place : k = s.port.pointer.toNat - (fieldPlace f).1 := rfl
    have elsewhere (h : ¬ (s.port.pointer.toNat = (fieldPlace f).1 ∧ 1 < (fieldPlace f).2)) :
        exec (.readSnapshot ack) s = .next s :=
      readSnapshot_elsewhere ack running fun lowest => h ((atLowestByte_iff found).mp lowest.2)
    refine ⟨fun zero multi => ⟨?_, ?_⟩, fun above => ?_, fun l above latched same => ?_, fun above absent => ?_,
      fun one => ?_, fun one other absent => ?_, fun x age absent => ?_⟩
    · exact dataByteRead_lowest ack running reading found (by omega) multi
    · exact readSnapshot_lowest ack running reading ((atLowestByte_iff found).mpr ⟨by omega, multi⟩)
    · exact elsewhere (by omega)
    · exact dataByteRead_latched ack running reading found above latched same
    · rw [dataByteRead_notLatched ack running reading found absent (by omega),
        clearOnRead_of_ne (ne_maxHeadAge_of_wide (by omega))]
      rfl
    · exact elsewhere (by omega)
    · rw [dataByteRead_oneByte ack running reading found one absent, clearOnRead_of_ne other]
      rfl
    · subst age
      exact dataByteRead_oneByte ack running reading found rfl absent
  · intro s t u v f k ack running reading found lowest above inside first runningU portU later
    rw [dataByteRead_lowest true running reading found lowest (by omega)] at first
    obtain rfl := Host.Outcome.next.inj first
    obtain ⟨foundU, pointerU⟩ := fieldAt_of_port (u := u) found inside (by rw [portU]; rfl) (by rw [portU]; rfl)
      (by rw [portU])
    have offset : u.port.pointer.toNat - (fieldPlace f).1 = k := by omega
    rw [dataByteRead_latched ack runningU (by rw [portU]; rfl) foundU (by omega) (by rw [portU]; rfl) rfl,
      offset] at later
    obtain rfl := Host.Outcome.next.inj later
    rfl

end
end

