-- ==== Sys2Proof/Proofs/WriteTransfers.lean ====
section
/-! PROOFS. The commands of a transfer to the part: START, STOP, the pointer byte, and the data bytes that are latched below a field's highest byte and written at it (R167 to R170). -/

namespace Sys2Proof.Machine

/-! ### START, STOP and the pointer byte -/

/-- The direction after the part's own address chooses the transfer (R167). -/
theorem transferFor_own {s : State} {target : BitVec 7} (own : target.toNat = ownAddress s) (d : Direction) :
    transferFor s target d = if d = .write then .awaitPointer else .reading := by
  cases d <;> exact if_pos own

theorem transferFor_other {s : State} {target : BitVec 7} (other : target.toNat ≠ ownAddress s) (d : Direction) :
    transferFor s target d = .ignored :=
  if_neg other

/-- The part's own address is acknowledged and begins a transfer in the direction that follows it (R167). -/
theorem startTransfer_own {s : State} {target : BitVec 7} (own : target.toNat = ownAddress s) (d : Direction) :
    startTransfer target d s = driveBus .ack { s with
      port.writeLatch := none
      port.readLatch := none
      port.transfer := if d = .write then .awaitPointer else .reading } := by
  rw [startTransfer, if_pos own, transferFor_own own]

/-- Another part's address is not acknowledged, and its transfer is ignored (R167). -/
theorem startTransfer_other {s : State} {target : BitVec 7} (other : target.toNat ≠ ownAddress s) (d : Direction) :
    startTransfer target d s = { s with
      port.writeLatch := none, port.readLatch := none, port.transfer := .ignored } := by
  rw [startTransfer, if_neg other, transferFor_other other]

theorem takePointer_awaited {s : State} (awaited : s.port.transfer = .awaitPointer) (b : Byte) :
    takePointer b s = driveBus .ack { s with port.pointer := b.setWidth 7, port.transfer := .writing } := by
  rw [takePointer, if_pos awaited]

theorem takePointer_notAwaited {s : State} (other : s.port.transfer ≠ .awaitPointer) (b : Byte) :
    takePointer b s = s := by
  rw [takePointer, if_neg other]

/-! ### The value that a field's highest byte writes -/

/-- What a field shows depends on neither the bus nor the read snapshot latch. -/
theorem fieldValue_of_taken (s : State) (f : Field) (o : BusOutput) :
    fieldValue (driveBus o { s with port.readLatch := none }) f = fieldValue s f := by
  cases f <;> rfl

/-- A byte that is not latched is the stored value's (R169). -/
theorem heldByte_eq_getD (bytes : List (Nat × Byte)) (stored k : Nat) :
    heldByte bytes stored k = (bytes.lookup k).getD (byteOf stored k) := by
  rw [heldByte]
  cases bytes.lookup k <;> rfl

/-- The byte at offset `k`, the highest, stands above `k` bytes latched or stored (R169). -/
theorem assemble_succ (bytes : List (Nat × Byte)) (stored k : Nat) (b : Byte) : assemble bytes stored (k + 1) b =
    ofBytes ((List.range k).map (fun j => (bytes.lookup j).getD (byteOf stored j)) ++ [b]) := by
  rw [assemble, Nat.add_sub_cancel, funext (heldByte_eq_getD bytes stored)]

/-- A field's write leaves the pointer where it was. -/
theorem writeField_pointer (f : Field) (v : Nat) (s : State) :
    (writeField f v s).port.pointer = s.port.pointer :=
  congrArg (fun t => t.port.pointer) (writeField_portMapped (fun _ => s.port.pointer) id f v s)

/-! ### The data byte -/

theorem managementWrite_notWriting {s : State} (b : Byte) (running : Running s) (other : s.port.transfer ≠ .writing) :
    exec (.managementWrite b) s = .next s := by
  rw [exec_managementWrite, whileRunning_of_running running, if_neg other]

/-- The byte at a field's highest address writes the field and lets the pointer advance; `managementWrite_topByte` with the stored value named (R169). -/
theorem managementWrite_highestByte {s : State} {f : Field} {k : Nat} {b : Byte} (running : Running s)
    (writing : s.port.transfer = .writing) (found : fieldAt s = some f)
    (place : k = s.port.pointer.toNat - (fieldPlace f).1) (highest : k + 1 = (fieldPlace f).2) :
    exec (.managementWrite b) s = .next { writeField f
      (assemble (latchedBytes s.port.writeLatch f) (fieldValue s f) (k + 1) b) (topByteTaken s) with
      port.pointer := s.port.pointer + 1 } := by
  have found' : fieldAt (driveBus .ack { s with port.readLatch := none }) = some f := found
  have top : ¬ s.port.pointer.toNat - (fieldPlace f).1 + 1 < (fieldPlace f).2 := by omega
  have wrote : writeByteAt b (driveBus .ack { s with port.readLatch := none }) = writeField f
      (assemble (latchedBytes s.port.writeLatch f) (fieldValue s f) (k + 1) b) (topByteTaken s) := by
    rw [writeByteAt, found', highest, ← fieldValue_of_taken s f .ack]
    exact if_neg top
  have kept (v : Nat) : (writeField f v (topByteTaken s)).port.pointer = s.port.pointer := writeField_pointer f v _
  rw [exec_managementWrite, whileRunning_of_running running, if_pos writing, dataByteWritten, wrote, advancePointer, kept]

end Sys2Proof.Machine

section
open Sys2Proof Sys2Proof.Machine

/-- Settles O58: the byte by where the pointer stands, at no field, below a field's highest byte or at it. -/
theorem dataBytesAreLatchedAndWritten : Obligations.DataBytesAreLatchedAndWritten := by
  unfold Obligations.DataBytesAreLatchedAndWritten
  intro s b running taken
  refine ⟨managementWrite_notWriting b running, managementWrite_noField b running, fun f writing found => ?_⟩
  intro k old value
  have assembled : value = assemble (latchedBytes s.port.writeLatch f) (fieldValue s f) (k + 1) b :=
    (assemble_succ _ _ k b).symm
  refine ⟨fun lower => managementWrite_lowerByte running writing found lower, fun highest => ⟨_, rfl, ?_⟩⟩
  rw [assembled]
  exact managementWrite_highestByte running writing found rfl highest

/-- Settles O56: a START by whose address it carries, a pointer byte by whether the transfer awaits one. -/
theorem transfersBeginAndEnd : Obligations.TransfersBeginAndEnd := by
  unfold Obligations.TransfersBeginAndEnd
  intro s target d b running
  rw [exec_i2cStartCondition, exec_i2cStopCondition, exec_pointerByte]
  simp only [whileRunning_of_running running]
  refine ⟨fun own => ?_, fun other => ?_, ?_, fun awaited => ?_, fun other => ?_⟩
  · exact congrArg _ (startTransfer_own own d)
  · exact congrArg _ (startTransfer_other other d)
  · rfl
  · exact congrArg _ (takePointer_awaited awaited b)
  · exact congrArg _ (takePointer_notAwaited other b)

end
end

section
/-! PROOFS. The step on a queue that is not empty, beside `step_of_empty` (the order of events, 00_scope.md). -/

namespace Sys2Proof.Machine

theorem step_of_front {s : State} {c : Instr} {rest : List Instr} (front : s.pending = c :: rest) :
    step s = exec c { s with pending := rest } := by rw [step, front]

end Sys2Proof.Machine

section
open Sys2Proof Sys2Proof.Machine

/-- Settles O1: the step's own equation at a queue with a front. -/
theorem stepTakesFrontCommand : Obligations.StepTakesFrontCommand := by
  unfold Obligations.StepTakesFrontCommand
  intro c rest s front
  exact step_of_front front

end
end
